-- ==== Sys2Proof/Word.lean ====
section
/-! DEFINITION. The words of the part: the byte of a link frame, the four-bit halves of a handle byte, the 32-bit
memory address (spec 00 section 6, 10.1, 10.8). -/

namespace Sys2Proof

/-- A byte of a frame, a payload or a pixel. -/
abbrev Byte := BitVec 8

/-- Half of a handle byte: a generation or a slot number (R9). -/
abbrev Nibble := BitVec 4

/-- A memory address, taken modulo 2^32 (R113). -/
abbrev Addr := BitVec 32

end Sys2Proof
end

