-- ==== Sys2Proof/Syntax.lean ====
section
/-! DEFINITION. The steps of the part: one constructor for each row of spec/opcode_table.json. The rows that take a
command name the port whose head command is taken: the command's own parameters are bytes of the payload that a
COMMAND_FRAME put into that port's command queue (R145, R146). -/

namespace Sys2Proof

/-- The two host ports (spec 00 section 1). -/
inductive Port where
  | a
  | b
  deriving DecidableEq, Repr

/-- A moment of a link frame at which the port does something (R141, R142, R149, R151; log 4). -/
inductive Moment where
  /-- chip select falls: the frame begins and the status byte is captured -/
  | fall
  /-- byte 0 is complete: the frame kind is known, a READ captures the head response, a STATUS its block -/
  | byte0
  /-- chip select rises: the port acts on the frame; `bits` are the bits clocked after the last moment, in order -/
  | rise (bits : List Bool)
  deriving DecidableEq, Repr

/-- One beat of the completion channel (spec 10.8, R169). -/
structure Beat where
  tag : BitVec 3
  epoch : Byte
  /-- the status bit: false is OK, true is ERROR -/
  error : Bool
  data : BitVec 128
  last : Bool
  deriving DecidableEq, Repr

/-- The steps, in the order of spec/opcode_table.json. -/
inductive Instr where
  | deviceReset
  | emptyFrame (p : Port) (m : Moment)
  | commandFrame (p : Port) (m : Moment)
  | read (p : Port) (m : Moment)
  | status (p : Port) (m : Moment)
  | linkReset (p : Port) (m : Moment)
  | idleFrame (p : Port) (kind : Byte) (m : Moment)
  | unknownFrameKind (p : Port) (kind : Byte) (m : Moment)
  | unknownCommandCode (p : Port)
  | openWindow (p : Port)
  | place (p : Port)
  | source (p : Port)
  | look (p : Port)
  | showWindow (p : Port)
  | hide (p : Port)
  | resume (p : Port)
  | restack (p : Port)
  | pin (p : Port)
  | retire (p : Port)
  | reclaim (p : Port)
  | backdrop (p : Port)
  | commit (p : Port)
  | abandon (p : Port)
  | queryWindow (p : Port)
  | queryState (p : Port)
  | takeNotices (p : Port)
  | queryTiming (p : Port)
  | outputStart (p : Port)
  | outputLive (p : Port)
  | outputQuiet (p : Port)
  | outputStop (p : Port)
  | setTiming (p : Port)
  | setFetchTimeout (p : Port)
  | resetFetch (p : Port)
  | frameTurn
  | frameTurnTaken
  | suspensionRequestTaken
  | linkResetAbandon (p : Port)
  | lineStart
  | tagTimeout (t : Fin 8)
  | activeLineStart
  | activeLineEnd
  | activeEnd
  | fetchPick
  | requestAccept
  | completion (beats : List Beat)
  | pclkRisingEdge
  deriving DecidableEq, Repr

end Sys2Proof
end

