-- ==== Sys2Proof/Decode.lean ====
section
/-! DEFINITION. The command a table word spells. spec/opcode_table.json gives no row any bits (every "fields" is empty,
98_reader.md: no row with fixed bits), so no word spells a command (log 24). The bytes of the part's commands are
decoded where a command is taken: Machine/Operands.lean. -/

namespace Sys2Proof

/-- A row of the table with bits: their number, a mask, a pattern, and the command. -/
structure TableRow where
  nbits : Nat
  mask : Nat
  pattern : Nat
  command : Instr

/-- The rows of spec/opcode_table.json that give bits: none. -/
def tableRows : List TableRow := []

/-- The command that a word of `nbits` bits spells by the table. -/
def decodeTableWord (nbits w : Nat) : Option Instr :=
  (tableRows.find? fun r => r.nbits == nbits && w &&& r.mask == r.pattern).map TableRow.command

end Sys2Proof
end

