-- ==== Sys2Proof/Machine/Crc.lean ====
section
/-! DEFINITION. The bytes of the link: assembling them from bits (R141), and CRC-8 (R144). -/

namespace Sys2Proof.Machine

/-- One shift of the CRC register by the polynomial x^8 + x^2 + x + 1 (R144). -/
def crcShift (c : Byte) : Byte := if c.msb then (c <<< 1) ^^^ 0x07 else c <<< 1

/-- One byte fed to the CRC, most significant bit first (R144). -/
def crcByte (c b : Byte) : Byte :=
  crcShift (crcShift (crcShift (crcShift (crcShift (crcShift (crcShift (crcShift (c ^^^ b))))))))

/-- CRC-8 over bytes in the order they are sent, from the initial value 0 (R144). -/
def crc8 (bytes : List Byte) : Byte := bytes.foldl crcByte 0

/-- A byte of eight bits, the first the most significant (R141). -/
def byteOfBits (b7 b6 b5 b4 b3 b2 b1 b0 : Bool) : Byte :=
  BitVec.ofNat 8 (b7.toNat * 128 + b6.toNat * 64 + b5.toNat * 32 + b4.toNat * 16 + b3.toNat * 8 + b2.toNat * 4 +
    b1.toNat * 2 + b0.toNat)

/-- The complete bytes of a run of bits; fewer than eight bits left over are discarded (R141). -/
def bytesOfBits : List Bool → List Byte
  | b7 :: b6 :: b5 :: b4 :: b3 :: b2 :: b1 :: b0 :: rest => byteOfBits b7 b6 b5 b4 b3 b2 b1 b0 :: bytesOfBits rest
  | _ => []

/-- The bits of a byte in the order they are clocked, most significant first (R141). -/
def bitsOfByte (b : Byte) : List Bool :=
  [b.getLsbD 7, b.getLsbD 6, b.getLsbD 5, b.getLsbD 4, b.getLsbD 3, b.getLsbD 2, b.getLsbD 1, b.getLsbD 0]

/-- The bits of bytes in the order they are clocked (R141). -/
def bitsOfBytes (bytes : List Byte) : List Bool := bytes.flatMap bitsOfByte

end Sys2Proof.Machine
end

