-- ==== Sys2Proof/Config.lean ====
section
/-! DEFINITION. The numbers of the part (spec 00 section 8), the one value the spec leaves open for storage (what a byte
of the line store reads as before it is written), and the free values: a result code that R41 and R162 leave open
between them (log 34), and whether the arbiter has taken a command yet (log 31). -/

namespace Sys2Proof.Config

/-- Blend lanes per line (R55, R89). -/
abbrev lanes : Nat := 6

/-- Segments of the line store (R56). -/
abbrev storeSegments : Nat := 384

/-- Bytes of one segment (R106, R113). -/
abbrev segmentBytes : Nat := 256

/-- Entries of an open batch (R23). -/
abbrev batchEntries : Nat := 16

/-- Batches of the commit queue (R45). -/
abbrev queueBatches : Nat := 4

/-- Batches of one port in the commit queue (R45). -/
abbrev portBatches : Nat := 2

/-- Commands of a port's command queue (R146). -/
abbrev queueCommands : Nat := 4

/-- Responses of a port's response queue (R148). -/
abbrev queueResponses : Nat := 4

/-- The fetch timeout after device reset (R132). -/
abbrev resetTimeout : Nat := 8

/-- DESIGN CHOICE (log 13, unsafe): what a line-store byte that nothing has written reads as. No rule gives it. -/
abbrev storeByte : Byte := 0

/-- FREE VALUE (DESIGN CHOICE, log 34): which of the four codes that R162 lets a revalidation answer a COMMIT answers,
where the check of R41 that fails is one whose code R162 says COMMIT does not return; by the handle byte and the index
of the entry. -/
opaque recheckCode (handle : Byte) (index : Nat) : Fin 4

/-- FREE VALUE (DESIGN CHOICE, log 31): whether the arbiter has taken the command that rule 4 of R20 chooses by the moment
a request that stands above commands becomes pending; by the number of such moments before this one. -/
opaque taken (n : Nat) : Bool

end Sys2Proof.Config
end

