-- ==== Sys2Proof/Machine/Types.lean ====
section
/-! DEFINITION. The data the blocks of the part exchange: handles, window fields, placements, batch entries, batches,
the timing profile, result codes and notices. Structures and enumerations only; what is computed from them stands in
the files beside this one. -/

namespace Sys2Proof.Machine

/-- A slot of the table: element `i` is slot number `i + 1` (R1: fifteen slots, numbered 1 to 15). -/
abbrev SlotIx := Fin 15

/-- A memory read tag, 0 to 7 (R125). -/
abbrev TagIx := Fin 8

/-- A handle as its byte carries it: generation in the upper four bits, slot number in the lower four (R9). The slot
number 0 can be written and names no slot. -/
structure Handle where
  gen : Nibble
  slot : Nibble
  deriving DecidableEq, Repr

/-- A colour (red, green, blue), each channel 0..255 (spec 00 section 6). -/
structure Colour where
  red : Byte
  green : Byte
  blue : Byte
  deriving DecidableEq, Repr

/-- Source pixel formats (R11). -/
inductive Format where
  | c32
  | c16
  | a8
  deriving DecidableEq, Repr

/-- The geometry fields of a window record (R11). -/
structure Geometry where
  x : Int
  y : Int
  width : Nat
  height : Nat
  deriving DecidableEq, Repr

/-- The source fields of a window record (R11). -/
structure Source where
  format : Format
  base : Addr
  pitch : Nat
  deriving DecidableEq, Repr

/-- The look fields of a window record (R11). -/
structure Look where
  alpha : Byte
  fill : Colour
  key : Option Colour
  deriving DecidableEq, Repr

/-- A window record (R11). -/
structure Window where
  geometry : Geometry
  source : Source
  look : Look
  threshold : Nat
  pinned : Bool
  deriving DecidableEq, Repr

/-- A placement (R16). The reference stays a handle until it is resolved (R10). -/
inductive Placement where
  | top
  | bottom
  | above (h : Handle)
  | below (h : Handle)
  deriving DecidableEq, Repr

/-- The initial visibility of an OPEN entry (R25). -/
inductive Visibility where
  | hidden
  | shown
  deriving DecidableEq, Repr

/-- What an entry does to the window it names (R25 to R36). -/
inductive Change where
  | create (w : Window) (vis : Visibility) (pl : Placement)
  | place (g : Geometry)
  | source (src : Source)
  | look (l : Look)
  | unhide
  | hide
  | resume
  | restack (pl : Placement)
  | pin (on : Bool)
  | retire
  | reclaim
  deriving DecidableEq, Repr

/-- A change entry of a batch: the staging command with its parameters and the handle of the window it names; for
OPEN the handle of the reserved slot; BACKDROP names no window (R23). -/
inductive Entry where
  | window (h : Handle) (c : Change)
  | backdrop (colour : Colour)
  deriving DecidableEq, Repr

/-- A committed batch (R45). -/
structure Batch where
  port : Port
  ticket : Byte
  entries : List Entry
  deriving DecidableEq, Repr

/-- Active level of a sync signal; code 0 is high (R67). -/
inductive Polarity where
  | high
  | low
  deriving DecidableEq, Repr

/-- The timing profile (R67). -/
structure Profile where
  hTotal : Nat
  hActiveStart : Nat
  hActiveWidth : Nat
  hSyncStart : Nat
  hSyncWidth : Nat
  hSyncPolarity : Polarity
  vTotal : Nat
  vActiveStart : Nat
  vActiveHeight : Nat
  vSyncStart : Nat
  vSyncWidth : Nat
  vSyncPolarity : Polarity
  deriving DecidableEq, Repr

/-- Output states (R76). -/
inductive OutputState where
  | off
  | syncOnly
  | live
  deriving DecidableEq, Repr

/-- The pending target of the raster generator (R78). -/
inductive PendingTarget where
  | none
  | syncOnly
  | live
  deriving DecidableEq, Repr

/-- Fetch states (R135). -/
inductive FetchState where
  | running
  | stuck
  deriving DecidableEq, Repr

/-- The cause a FETCH_FAULT carries (R118, R133). -/
inductive FaultCause where
  | error
  | timeout
  deriving DecidableEq, Repr

/-- The two line halves of a stream (R104). -/
inductive HalfId where
  | a
  | b
  deriving DecidableEq, Repr

/-- Result codes, in the order of their values (R162). -/
inductive ResultCode where
  | ok
  | badCommand
  | badLength
  | badParam
  | badHandle
  | stale
  | notOwner
  | notPermitted
  | retired
  | noSlot
  | batchFull
  | queueFull
  | overLanes
  | overStore
  | wrongState
  | badTiming
  | badReference
  deriving DecidableEq, Repr

/-- A command in a command queue: the payload's first two bytes and the parameter bytes after them (R145, R147). -/
structure QueuedCommand where
  seq : Byte
  code : Byte
  params : List Byte
  deriving DecidableEq, Repr

/-- What a served command answers: its result code and the result data (R147, R162). -/
structure Reply where
  code : ResultCode
  data : List Byte
  deriving DecidableEq, Repr

/-- The raster events, with what each carries (R72, R73). -/
inductive RasterEvent where
  | lineStart (line : Nat)
  | frameTurn
  | activeLineStart (line : Nat)
  | activeLineEnd (line : Nat)
  | activeEnd
  deriving DecidableEq, Repr

/-- The requesters of the table controller's arbiter (R20). -/
inductive Requester where
  | frameTurn
  | suspension
  | abandon (p : Port)
  | command (p : Port)
  deriving DecidableEq, Repr

end Sys2Proof.Machine
end

