-- ==== Sys2Proof/Machine/State.lean ====
section
/-! DEFINITION. The state of the part, block by block, as plain data, and its value after device reset. -/

namespace Sys2Proof.Machine

/-- Why a step stops the model. The spec gives the part no trap: the one fault is about the model's own addressing of
the line store. -/
inductive Fault where
  /-- Raised by COMPLETION when a delivered segment, and by PCLK_RISING_EDGE and ACTIVE_LINE_START when a pixel, would
  touch a byte outside the 384 segments of the line store (R106: every loaded half is placed inside it). Safe: the
  model stops where the part has no such address; no run from reset gets there (log 14). -/
  | lineStoreAddress
  deriving DecidableEq, Repr

/-- Why a step has no meaning. -/
inductive Refusal where
  /-- Raised by `exec` alone, for a row that has no meaning yet. Safe. -/
  | notModelled (mnemonic : String)
  /-- Raised for a step that is ill-formed as a term (`Instr.wf`), such as a frame of unknown kind whose kind byte is
  C1h. Safe: the part has no such step (log 25). -/
  | illFormed
  deriving DecidableEq, Repr

/-! ### Table controller -/

/-- The open slot states (R2). -/
inductive OpenState where
  | shown
  | hidden
  | suspended
  deriving DecidableEq, Repr

/-- What a slot record holds besides its generation: exactly what section 1.2's table gives each state. -/
inductive SlotBody where
  | free
  | reserved (owner : Port)
  | queued (owner : Port)
  | opened (owner : Port) (st : OpenState) (w : Window)
  deriving DecidableEq, Repr

/-- A slot record (R1). -/
structure Slot where
  gen : Nibble
  body : SlotBody
  deriving DecidableEq, Repr

/-- The window table: the slot records, the z-order list from bottom to top, the background colour and the free
segment count (R1, R14, R18). The count is an integer because it may pass below 0 within an apply (R58). -/
structure Table where
  slots : Vector Slot 15
  zorder : List SlotIx
  background : Colour
  free : Int
  deriving DecidableEq, Repr

/-- What the table controller holds for one port: its open batch (R23) and its ticket counters (R43). -/
structure Staging where
  openBatch : List Entry
  nextTicket : Byte
  appliedTicket : Byte
  deriving DecidableEq, Repr

/-- A frame turn pending at the table controller (R73): the output state of the coming frame, the change flag, how many
requests at the head of the suspension list became pending before it (R20; log 11). -/
structure PendingTurn where
  coming : OutputState
  changed : Bool
  ahead : Nat
  deriving DecidableEq, Repr

/-! ### Host ports -/

/-- A port's notice set: one place for each kind, and for each kind and slot (R157). A per-slot place holds the
generation of the handle it carries; its slot is the place. -/
structure Notices where
  applied : Option Byte
  output : Option OutputState
  fetchStuck : Bool
  spurious : Bool
  suspended : Vector (Option Nibble) 15
  reclaimed : Vector (Option Nibble) 15
  fetchFault : Vector (Option (Nibble × FaultCause)) 15
  deriving DecidableEq, Repr

/-- What a frame captured when its byte 0 completed (R149, R151). -/
inductive Capture where
  | nothing
  | response (head : Option (List Byte))
  | extendedStatus (block : List Byte)
  deriving DecidableEq, Repr

/-- A frame in progress: the status byte captured at the falling edge (R142), and, once byte 0 is complete, the kind
and what it captured. -/
structure Frame where
  status : Byte
  kind : Option Byte
  capture : Capture
  deriving DecidableEq, Repr

/-- What one host port holds (R141 to R157): the frame in progress, the command queue, the response queue, the sticky
flags, the notice set and the abandon-pending indication; and `sdo`, the model's record of the bytes driven in the frame
that ended last (log 5). The level of the data line itself is computed from the frame in progress. The
indication stands for the pending link-reset abandon request too: they are set and cleared in the same acts (R154). -/
structure LinkPort where
  frame : Option Frame
  sdo : List Byte
  commands : List QueuedCommand
  responses : List (List Byte)
  dropped : Bool
  frameError : Bool
  notices : Notices
  abandonPending : Bool
  deriving DecidableEq, Repr

/-! ### Raster generator and compositor -/

/-- The raster generator (R67, R71, R76 to R78). `due` holds the events emitted at the position reached and not yet
taken (log 6); `linesBegun` counts the active-line starts since the last frame turn (R106, log 16). -/
structure Raster where
  profile : Profile
  pixel : Nat
  line : Nat
  output : OutputState
  target : PendingTarget
  settle : Nat
  due : List RasterEvent
  linesBegun : Nat
  deriving DecidableEq, Repr

/-- The levels of HS, VS, DE (true is high) and PD[23:0] (R74, R75). -/
structure Pins where
  hs : Bool
  vs : Bool
  de : Bool
  pd : BitVec 24
  deriving DecidableEq, Repr

/-- The row source of a held lane (R89, R92). -/
inductive RowSource where
  | half (h : HalfId)
  | fill
  deriving DecidableEq, Repr

/-- A held lane (R89). `x` is the window's column, from which R94 counts source pixels (log 20). -/
structure Lane where
  handle : Handle
  row : Nat
  x : Int
  span : Option (Nat × Nat)
  format : Format
  alpha : Byte
  fill : Colour
  key : Option Colour
  source : RowSource
  deriving DecidableEq, Repr

/-! ### Fetch engine -/

/-- The condition of a stream (R104). -/
inductive StreamCond where
  | stopped
  | running
  | idle
  deriving DecidableEq, Repr

/-- The condition of a line half (R110). -/
inductive HalfCond where
  | empty
  | filling
  | ready
  | failed
  deriving DecidableEq, Repr

/-- A line half (R104): its row, its condition, how many segments are filled, which are requested, and the first of
the line-store segments placed for it (R106 step 3). -/
structure Half where
  row : Option Nat
  cond : HalfCond
  filled : Nat
  requested : List Nat
  place : Option Nat
  deriving DecidableEq, Repr

/-- What a stream load carries (R47). The resume flag acts on the count only (R107) and is not kept. -/
structure StreamLoad where
  handle : Handle
  owner : Port
  base : Addr
  pitch : Nat
  format : Format
  width : Nat
  y : Int
  height : Nat
  threshold : Nat
  deriving DecidableEq, Repr

/-- A stream record (R104). `load` holds the copied fields, none before the first load; `visible` the first and last
visible row (R105). -/
structure Stream where
  cond : StreamCond
  load : Option StreamLoad
  visible : Option (Nat × Nat)
  halfA : Half
  halfB : Half
  starved : Bool
  count : Nat
  excused : Bool
  deriving DecidableEq, Repr

/-! ### Memory read port -/

/-- The entry of a WAITING or QUARANTINED tag (R125). -/
structure TagEntry where
  handle : Handle
  half : HalfId
  row : Nat
  segment : Nat
  beats : Nat
  discard : Bool
  age : Nat
  accepted : Bool
  deriving DecidableEq, Repr

/-- A tag (R125). -/
inductive Tag where
  | free
  | waiting (e : TagEntry)
  | quarantined (e : TagEntry)
  deriving DecidableEq, Repr

/-- The request an OFFERED channel holds (R126). -/
structure Offer where
  tag : TagIx
  epoch : Byte
  address : Addr
  beats : Nat
  deriving DecidableEq, Repr

/-- The memory read port (R125, R126, R128, R132, R135) and the beats of a completion whose last beat has not come
(R169). -/
structure MemPort where
  tags : Vector Tag 8
  channel : Option Offer
  epoch : Byte
  timeout : Nat
  fetchState : FetchState
  beats : List Beat
  deriving DecidableEq, Repr

/-! ### The part -/

/-- The service of a command at the table controller: its port, the command, and, where it is an output command that
reached the raster generator when it was taken (R84), the reply it found there. -/
structure Service where
  port : Port
  command : QueuedCommand
  reply : Option Reply
  deriving DecidableEq, Repr

/-- The whole state of the part, and `pending`, the steps that are waiting, first in first out. `rstAsserted` is the
level of RST_N (log 17). `serving` is the command in service at the table controller while a request that became pending
in its service waits for the end of it (R20, R48, R121, R154; log 31): it has left its queue (R146). `choices` is the
model's own: how often `Config.taken` has been drawn from (log 31). -/
@[ext]
structure State where
  pending : List Instr
  rstAsserted : Bool
  table : Table
  stagingA : Staging
  stagingB : Staging
  commitQueue : List Batch
  turn : Option PendingTurn
  serving : Option Service
  choices : Nat
  nextPort : Port
  linkA : LinkPort
  linkB : LinkPort
  raster : Raster
  pins : Pins
  lanes : Vector (Option Lane) 6
  lineBackground : Colour
  streams : Vector Stream 15
  suspensions : List Handle
  store : List Host.Cell
  mem : MemPort
  deriving DecidableEq, Repr

/-! ### Device reset -/

/-- Black (spec 00 section 6). -/
def Colour.black : Colour := ⟨0, 0, 0⟩

/-- A slot after device reset: FREE, generation 0 (R1). -/
def Slot.reset : Slot := ⟨0, .free⟩

/-- The window table after device reset (R1, R14, R18, R57). -/
def Table.reset : Table := ⟨Vector.replicate 15 Slot.reset, [], Colour.black, 384⟩

/-- Open batch and tickets of a port after device reset (R23, R43). -/
def Staging.reset : Staging := ⟨[], 1, 0⟩

/-- The empty notice set (R157). -/
def Notices.empty : Notices :=
  ⟨none, none, false, false, Vector.replicate 15 none, Vector.replicate 15 none, Vector.replicate 15 none⟩

/-- A port after device reset (R156). -/
def LinkPort.reset : LinkPort := ⟨none, [], [], [], false, false, Notices.empty, false⟩

/-- The timing profile after device reset: every field 0 (R67). -/
def Profile.reset : Profile := ⟨0, 0, 0, 0, 0, .high, 0, 0, 0, 0, 0, .high⟩

/-- The raster generator after device reset (R88). -/
def Raster.reset : Raster := ⟨Profile.reset, 0, 0, .off, .none, 0, [], 0⟩

/-- The pins after device reset (R88). -/
def Pins.reset : Pins := ⟨false, false, false, 0⟩

/-- A half that holds no row, no segment and no place (R104, R108). -/
def Half.released : Half := ⟨none, .empty, 0, [], none⟩

/-- A stream record after device reset (R104). -/
def Stream.reset : Stream := ⟨.stopped, none, none, Half.released, Half.released, false, 0, false⟩

/-- The memory read port after device reset (R125, R126, R128, R132, R135, R169). -/
def MemPort.reset : MemPort := ⟨Vector.replicate 8 .free, none, 0, Config.resetTimeout, .running, []⟩

/-- The part right after device reset. The latched line background (black), the record of driven bytes (none) and the line
store (nothing listed) are DESIGN CHOICES of logs 15, 5 and 13; `due`, `linesBegun`, `serving` and `choices` are the
model's own (logs 6, 16, 31). RST_N is released (log 17). -/
def State.reset : State where
  pending := []
  rstAsserted := false
  table := Table.reset
  stagingA := Staging.reset
  stagingB := Staging.reset
  commitQueue := []
  turn := none
  serving := none
  choices := 0
  nextPort := .a
  linkA := LinkPort.reset
  linkB := LinkPort.reset
  raster := Raster.reset
  pins := Pins.reset
  lanes := Vector.replicate 6 none
  lineBackground := Colour.black
  streams := Vector.replicate 15 Stream.reset
  suspensions := []
  store := []
  mem := MemPort.reset

end Sys2Proof.Machine
end

