-- ==== Sys2Proof/Machine/Window.lean ====
section
/-! DEFINITION. What is computed from the data of the table: handles and slot numbers, the derived quantities of a
window record, its domains, and the validity and intervals of the timing profile. -/

namespace Sys2Proof.Machine

/-- The fifteen slots in ascending number (R1). -/
def allSlots : List SlotIx := [0, 1, 2, 3, 4, 5, 6, 7, 8, 9, 10, 11, 12, 13, 14]

/-- The eight tags in ascending number (R125). -/
def allTags : List TagIx := [0, 1, 2, 3, 4, 5, 6, 7]

/-- A record for every slot, given slot by slot. -/
def tabSlots {α : Type} (f : SlotIx → α) : Vector α 15 :=
  #v[f 0, f 1, f 2, f 3, f 4, f 5, f 6, f 7, f 8, f 9, f 10, f 11, f 12, f 13, f 14]

/-- An entry for every tag, given tag by tag. -/
def tabTags {α : Type} (f : TagIx → α) : Vector α 8 := #v[f 0, f 1, f 2, f 3, f 4, f 5, f 6, f 7]

/-- An entry for every lane, given lane by lane; lane number `i + 1` is element `i` (R89). -/
def tabLanes {α : Type} (f : Fin 6 → α) : Vector α 6 := #v[f 0, f 1, f 2, f 3, f 4, f 5]

/-! ### Handles (R9) -/

/-- The slot a handle names; none for slot number 0. -/
def Handle.ix? (h : Handle) : Option SlotIx :=
  if hz : h.slot.toNat = 0 then none else some ⟨h.slot.toNat - 1, by have := h.slot.isLt; omega⟩

/-- The handle of a slot with a generation. -/
def handleOf (ix : SlotIx) (gen : Nibble) : Handle := ⟨gen, BitVec.ofNat 4 (ix.val + 1)⟩

/-- The handle byte (10.1). -/
def Handle.byte (h : Handle) : Byte := h.gen ++ h.slot

/-- The other port. -/
def otherPort : Port → Port
  | .a => .b
  | .b => .a

/-! ### Derived quantities of a record (R13) -/

/-- Bytes per pixel (R11). -/
def Format.bytesPerPixel : Format → Nat
  | .c32 => 4
  | .c16 => 2
  | .a8 => 1

/-- Line bytes: width times bytes per pixel (R13). -/
def lineBytes (f : Format) (width : Nat) : Nat := width * f.bytesPerPixel

/-- Line bytes rounded up to the next multiple of 16 (R13). -/
def lineBytesRounded (f : Format) (width : Nat) : Nat := (lineBytes f width + 15) / 16 * 16

/-- Segments per half: line bytes divided by 256, rounded up (R13). -/
def segmentsPerHalf (f : Format) (width : Nat) : Nat := (lineBytes f width + 255) / 256

/-- Segment need of a window: twice the segments per half (R13). -/
def Window.need (w : Window) : Nat := 2 * segmentsPerHalf w.source.format w.geometry.width

/-- Segments a window holds in an open state: its need while SHOWN or SUSPENDED, none while HIDDEN (R13, R57). -/
def Window.held (w : Window) : OpenState → Nat
  | .hidden => 0
  | .shown | .suspended => w.need

/-! ### Domains (R11, R24 step 2, R25) -/

/-- Geometry inside its domain: x and y in -2048..2047, width and height in 1..2048. -/
def Geometry.inDomain (g : Geometry) : Bool :=
  decide (-2048 ≤ g.x ∧ g.x ≤ 2047 ∧ -2048 ≤ g.y ∧ g.y ≤ 2047 ∧ 1 ≤ g.width ∧ g.width ≤ 2048 ∧ 1 ≤ g.height ∧
    g.height ≤ 2048)

/-- Source inside its domain: base a multiple of 16, pitch a multiple of 16 in 16..65520. -/
def Source.inDomain (src : Source) : Bool :=
  decide (src.base.toNat % 16 = 0 ∧ 16 ≤ src.pitch ∧ src.pitch ≤ 65520 ∧ src.pitch % 16 = 0)

/-- The relation of R11: the pitch is at least the line bytes rounded. -/
def pitchFits (f : Format) (width pitch : Nat) : Bool := decide (lineBytesRounded f width ≤ pitch)

/-- The relation of R11: a key colour is absent for A8. -/
def keyFits (f : Format) (key : Option Colour) : Bool := f != .a8 || key.isNone

/-- An OPEN's own fields: their domains and the relations among them (R24 step 2, R25). -/
def Window.inDomain (w : Window) : Bool :=
  w.geometry.inDomain && w.source.inDomain && decide (w.threshold ≤ 15) &&
    pitchFits w.source.format w.geometry.width w.source.pitch && keyFits w.source.format w.look.key

/-- Step 2 of R24 for an entry: every parameter inside its domain. -/
def Entry.inDomain : Entry → Bool
  | .window _ (.create w _ _) => w.inDomain
  | .window _ (.place g) => g.inDomain
  | .window _ (.source src) => src.inDomain
  | _ => true

/-- Step 1 of R24 for an entry: Port B may not issue PIN, RECLAIM, BACKDROP or an OPEN with pinned set. -/
def Entry.permitted (p : Port) : Entry → Bool
  | .window _ (.create w _ _) => p == .a || !w.pinned
  | .window _ (.pin _) | .window _ .reclaim | .backdrop _ => p == .a
  | _ => true

/-! ### The timing profile (R67, R68) -/

/-- Every field lies in its range (R67). -/
def Profile.inRange (t : Profile) : Bool :=
  decide (128 ≤ t.hTotal ∧ t.hTotal ≤ 4096 ∧ t.hActiveStart ≤ 4095 ∧ 64 ≤ t.hActiveWidth ∧ t.hActiveWidth ≤ 2048 ∧
    t.hSyncStart ≤ 4095 ∧ 1 ≤ t.hSyncWidth ∧ t.hSyncWidth ≤ 1023) &&
  decide (16 ≤ t.vTotal ∧ t.vTotal ≤ 4096 ∧ t.vActiveStart ≤ 4095 ∧ 64 ≤ t.vActiveHeight ∧ t.vActiveHeight ≤ 2048 ∧
    t.vSyncStart ≤ 4095 ∧ 1 ≤ t.vSyncWidth ∧ t.vSyncWidth ≤ 63)

/-- Two intervals, each given by its start and its positive length, share no position (R68). -/
def disjointIntervals (a la b lb : Nat) : Bool := decide (a + la ≤ b ∨ b + lb ≤ a)

/-- The four relations of R68. -/
def Profile.relations (t : Profile) : Bool :=
  decide (t.hActiveStart + t.hActiveWidth + 16 ≤ t.hTotal) &&
  (decide (t.hSyncStart + t.hSyncWidth ≤ t.hTotal) &&
    disjointIntervals t.hSyncStart t.hSyncWidth t.hActiveStart t.hActiveWidth) &&
  decide (t.vActiveStart + t.vActiveHeight + 2 ≤ t.vTotal) &&
  (decide (t.vSyncStart + t.vSyncWidth ≤ t.vTotal) &&
    disjointIntervals t.vSyncStart t.vSyncWidth t.vActiveStart t.vActiveHeight)

/-- A timing profile is valid (R68). -/
def Profile.valid (t : Profile) : Bool := t.inRange && t.relations

/-- The active height: the lines of the active area, none while the profile is invalid (R68). -/
def Profile.activeHeight (t : Profile) : Nat := if t.valid then t.vActiveHeight else 0

/-- A counter stands in the interval of `len` positions from `start` (R68). -/
def inInterval (start len at' : Nat) : Bool := decide (start ≤ at' ∧ at' < start + len)

/-- The raster position line `l`, pixel `q` is in the active area (R75). -/
def Profile.activeAt (t : Profile) (l q : Nat) : Bool :=
  inInterval t.vActiveStart t.vActiveHeight l && inInterval t.hActiveStart t.hActiveWidth q

end Sys2Proof.Machine
end

