-- ==== Sys2Proof/Machine/Operands.lean ====
section
/-! DEFINITION. The byte layouts of the Formats chapter: coded values (10.2, R166), the parameters of every command
(10.3), the timing profile (10.5), and the same layouts written, for responses (10.4) and for a host's commands. A
decoder answers none where a coded byte holds no listed value (R166) or where bytes are missing; the numeric domains
are checked by `Entry.inDomain` and `Profile.inRange`. -/

namespace Sys2Proof.Machine

/-! ### Numbers (00 section 6: least significant byte first) -/

/-- The unsigned 16-bit number of two bytes. -/
def nat16 (lo hi : Byte) : Nat := hi.toNat * 256 + lo.toNat

/-- The two's-complement 16-bit number of two bytes (R166). -/
def int16 (lo hi : Byte) : Int := (hi ++ lo : BitVec 16).toInt

/-- The address of four bytes. -/
def addr32 (b0 b1 b2 b3 : Byte) : Addr := b3 ++ b2 ++ b1 ++ b0

/-- Byte `k` of a number. -/
def byteOfNat (n k : Nat) : Byte := BitVec.ofNat 8 (n / 256 ^ k)

/-- A number as two bytes. -/
def bytes16 (n : Nat) : List Byte := [byteOfNat n 0, byteOfNat n 1]

/-- A two's-complement number as two bytes (R166). -/
def bytesInt16 (i : Int) : List Byte := bytes16 (BitVec.ofInt 16 i).toNat

/-- An address as four bytes. -/
def bytes32 (a : Addr) : List Byte :=
  [byteOfNat a.toNat 0, byteOfNat a.toNat 1, byteOfNat a.toNat 2, byteOfNat a.toNat 3]

/-! ### Handles and coded values (10.1, 10.2) -/

/-- The handle of a handle byte (10.1). -/
def Handle.ofByte (b : Byte) : Handle := ⟨b.extractLsb' 4 4, b.extractLsb' 0 4⟩

def Format.ofByte (b : Byte) : Option Format :=
  if b = 0x00 then some .c32 else if b = 0x01 then some .c16 else if b = 0x02 then some .a8 else none

def Format.byte : Format → Byte
  | .c32 => 0x00
  | .c16 => 0x01
  | .a8 => 0x02

/-- A byte that codes no as 00h and yes as 01h: pinned, key presence, PIN setting (10.2). -/
def flagOfByte (b : Byte) : Option Bool := if b = 0x00 then some false else if b = 0x01 then some true else none

/-- yes/no, 01h or 00h (10.2). -/
def flagByte (b : Bool) : Byte := if b then 0x01 else 0x00

def Visibility.ofByte (b : Byte) : Option Visibility :=
  if b = 0x00 then some .hidden else if b = 0x01 then some .shown else none

def Visibility.byte : Visibility → Byte
  | .hidden => 0x00
  | .shown => 0x01

/-- A placement from its form byte and its reference byte, which TOP and BOTTOM do not look at (10.2, R166). -/
def Placement.ofBytes (form ref : Byte) : Option Placement :=
  if form = 0x00 then some .top
  else if form = 0x01 then some .bottom
  else if form = 0x02 then some (.above (Handle.ofByte ref))
  else if form = 0x03 then some (.below (Handle.ofByte ref))
  else none

def Placement.bytes : Placement → List Byte
  | .top => [0x00, 0x00]
  | .bottom => [0x01, 0x00]
  | .above h => [0x02, h.byte]
  | .below h => [0x03, h.byte]

def Polarity.ofByte (b : Byte) : Option Polarity :=
  if b = 0x00 then some .high else if b = 0x01 then some .low else none

def Polarity.byte : Polarity → Byte
  | .high => 0x00
  | .low => 0x01

def OutputState.byte : OutputState → Byte
  | .off => 0x00
  | .syncOnly => 0x01
  | .live => 0x02

def PendingTarget.byte : PendingTarget → Byte
  | .none => 0x00
  | .syncOnly => 0x01
  | .live => 0x02

def FetchState.byte : FetchState → Byte
  | .running => 0x00
  | .stuck => 0x01

def portByte : Port → Byte
  | .a => 0x00
  | .b => 0x01

/-- The slot state code of a slot record (10.2). -/
def SlotBody.byte : SlotBody → Byte
  | .free => 0x00
  | .reserved _ => 0x01
  | .queued _ => 0x02
  | .opened _ .shown _ => 0x03
  | .opened _ .hidden _ => 0x04
  | .opened _ .suspended _ => 0x05

/-- The result codes' values (R162). -/
def ResultCode.byte : ResultCode → Byte
  | .ok => 0x00
  | .badCommand => 0x01
  | .badLength => 0x02
  | .badParam => 0x03
  | .badHandle => 0x04
  | .stale => 0x05
  | .notOwner => 0x06
  | .notPermitted => 0x07
  | .retired => 0x08
  | .noSlot => 0x09
  | .batchFull => 0x0A
  | .queueFull => 0x0B
  | .overLanes => 0x0C
  | .overStore => 0x0D
  | .wrongState => 0x0E
  | .badTiming => 0x0F
  | .badReference => 0x10

/-! ### Parameter groups (10.3) -/

/-- A colour: red, green, blue. -/
def Colour.bytes (c : Colour) : List Byte := [c.red, c.green, c.blue]

/-- The geometry group. -/
def decodeGeometry : List Byte → Option Geometry
  | [x0, x1, y0, y1, w0, w1, h0, h1] => some ⟨int16 x0 x1, int16 y0 y1, nat16 w0 w1, nat16 h0 h1⟩
  | _ => none

def Geometry.bytes (g : Geometry) : List Byte :=
  bytesInt16 g.x ++ bytesInt16 g.y ++ bytes16 g.width ++ bytes16 g.height

/-- The source group. -/
def decodeSource : List Byte → Option Source
  | [f, b0, b1, b2, b3, p0, p1] => (Format.ofByte f).map fun fmt => ⟨fmt, addr32 b0 b1 b2 b3, nat16 p0 p1⟩
  | _ => none

def Source.bytes (src : Source) : List Byte := src.format.byte :: bytes32 src.base ++ bytes16 src.pitch

/-- The look group. The key colour bytes are not looked at when the key presence byte is 00h (R166). -/
def decodeLook : List Byte → Option Look
  | [al, r, g, b, k, kr, kg, kb] =>
    (flagOfByte k).map fun present => ⟨al, ⟨r, g, b⟩, if present then some ⟨kr, kg, kb⟩ else none⟩
  | _ => none

/-- The look group written; the key bytes are 00h when the key is absent (R166). -/
def Look.bytes (l : Look) : List Byte :=
  l.alpha :: l.fill.bytes ++
    (match l.key with
     | none => [0x00, 0x00, 0x00, 0x00]
     | some c => 0x01 :: c.bytes)

/-! ### Command parameters, from payload offset 2 (10.3) -/

/-- OPEN: geometry, source, look, suspend threshold, pinned, initial visibility, placement form, reference. -/
def decodeOpen (ps : List Byte) : Option (Window × Visibility × Placement) :=
  match ps.drop 23 with
  | [th, pin, vis, form, ref] => do
    let g ← decodeGeometry (ps.take 8)
    let src ← decodeSource ((ps.drop 8).take 7)
    let l ← decodeLook ((ps.drop 15).take 8)
    let pinned ← flagOfByte pin
    let v ← Visibility.ofByte vis
    let pl ← Placement.ofBytes form ref
    some (⟨g, src, l, th.toNat, pinned⟩, v, pl)
  | _ => none

def encodeOpen (w : Window) (vis : Visibility) (pl : Placement) : List Byte :=
  w.geometry.bytes ++ w.source.bytes ++ w.look.bytes ++
    [byteOfNat w.threshold 0, flagByte w.pinned, vis.byte] ++ pl.bytes

/-- The pinned byte of an OPEN holds 01h, so that R24's permission check sees "pinned set to yes". -/
def openAsksPinned (ps : List Byte) : Bool := ps[24]? == some 0x01

/-- The parameters of the commands that name a window, after the handle byte, each from its command code. -/
def decodeChange (code : Byte) (rest : List Byte) : Option Change :=
  if code = 0x11 then (decodeGeometry rest).map .place
  else if code = 0x12 then (decodeSource rest).map .source
  else if code = 0x13 then (decodeLook rest).map .look
  else if code = 0x14 then some .unhide
  else if code = 0x15 then some .hide
  else if code = 0x16 then
    match rest with
    | [form, ref] => (Placement.ofBytes form ref).map .restack
    | _ => none
  else if code = 0x17 then
    match rest with
    | [on] => (flagOfByte on).map .pin
    | _ => none
  else if code = 0x18 then some .resume
  else if code = 0x19 then some .retire
  else if code = 0x1A then some .reclaim
  else none

/-- A staging command that names a window: handle byte, then its parameters. -/
def decodeNamed (code : Byte) : List Byte → Option Entry
  | h :: rest => (decodeChange code rest).map (.window (Handle.ofByte h))
  | [] => none

/-- The code of the staging command of a change (10.3). -/
def Change.code : Change → Byte
  | .create .. => 0x10
  | .place _ => 0x11
  | .source _ => 0x12
  | .look _ => 0x13
  | .unhide => 0x14
  | .hide => 0x15
  | .restack _ => 0x16
  | .pin _ => 0x17
  | .resume => 0x18
  | .retire => 0x19
  | .reclaim => 0x1A

/-- The parameters of a staging command, from payload offset 2 (10.3). For OPEN the handle is not sent. -/
def Entry.params : Entry → List Byte
  | .window _ (.create w vis pl) => encodeOpen w vis pl
  | .window h (.place g) => h.byte :: g.bytes
  | .window h (.source src) => h.byte :: src.bytes
  | .window h (.look l) => h.byte :: l.bytes
  | .window h (.restack pl) => h.byte :: pl.bytes
  | .window h (.pin on) => [h.byte, flagByte on]
  | .window h _ => [h.byte]
  | .backdrop c => c.bytes

/-- BACKDROP: one colour. -/
def decodeBackdrop : List Byte → Option Entry
  | [r, g, b] => some (.backdrop ⟨r, g, b⟩)
  | _ => none

/-- QUERY_WINDOW: handle and view selector; none where the selector is neither LIVE nor PROJECTED (R22). The flag says
PROJECTED. -/
def decodeQueryWindow : List Byte → Option (Handle × Bool)
  | [h, v] => (flagOfByte v).map fun projected => (Handle.ofByte h, projected)
  | _ => none

/-- SET_FETCH_TIMEOUT: a value in 1..63 (R132). -/
def decodeTimeout : List Byte → Option Nat
  | [v] => if 1 ≤ v.toNat ∧ v.toNat ≤ 63 then some v.toNat else none
  | _ => none

/-! ### The timing profile (10.5) -/

/-- SET_TIMING: the 22 bytes of a timing profile; none where a polarity byte is neither 00h nor 01h (R69, R166). -/
def decodeProfile : List Byte → Option Profile
  | [a0, a1, b0, b1, c0, c1, d0, d1, e0, e1, hp, f0, f1, g0, g1, i0, i1, j0, j1, k0, k1, vp] => do
    let hpol ← Polarity.ofByte hp
    let vpol ← Polarity.ofByte vp
    some ⟨nat16 a0 a1, nat16 b0 b1, nat16 c0 c1, nat16 d0 d1, nat16 e0 e1, hpol,
      nat16 f0 f1, nat16 g0 g1, nat16 i0 i1, nat16 j0 j1, nat16 k0 k1, vpol⟩
  | _ => none

def Profile.bytes (t : Profile) : List Byte :=
  bytes16 t.hTotal ++ bytes16 t.hActiveStart ++ bytes16 t.hActiveWidth ++ bytes16 t.hSyncStart ++
    bytes16 t.hSyncWidth ++ [t.hSyncPolarity.byte] ++
    bytes16 t.vTotal ++ bytes16 t.vActiveStart ++ bytes16 t.vActiveHeight ++ bytes16 t.vSyncStart ++
    bytes16 t.vSyncWidth ++ [t.vSyncPolarity.byte]

/-! ### Command codes and lengths (10.3) -/

/-- The number of parameter bytes of each command code: the payload length of section 10.3 less 2. None for a code
that names no command (R147). -/
def paramLength (code : Byte) : Option Nat :=
  match code.toNat with
  | 0x10 => some 28
  | 0x11 => some 9
  | 0x12 => some 8
  | 0x13 => some 9
  | 0x14 => some 1
  | 0x15 => some 1
  | 0x16 => some 3
  | 0x17 => some 2
  | 0x18 => some 1
  | 0x19 => some 1
  | 0x1A => some 1
  | 0x1B => some 3
  | 0x20 => some 0
  | 0x21 => some 0
  | 0x30 => some 2
  | 0x31 => some 0
  | 0x32 => some 0
  | 0x33 => some 0
  | 0x40 => some 0
  | 0x41 => some 0
  | 0x42 => some 0
  | 0x43 => some 0
  | 0x44 => some 22
  | 0x45 => some 1
  | 0x46 => some 0
  | _ => none

end Sys2Proof.Machine
end

