-- ==== Sys2Proof/Machine/Flags.lean ====
section
/-! DEFINITION. The flags and levels that are computed: a notice set is empty, the notice line, the link flag, the
status byte, the extended status block (R142, R150, R151, R155), and the levels of HS, VS and DE (R74, R75). -/

namespace Sys2Proof.Machine

/-- The notice set holds no entry (R155). -/
def Notices.isEmpty (n : Notices) : Bool :=
  n.applied.isNone && n.output.isNone && !n.fetchStuck && !n.spurious &&
    allSlots.all (fun ix => n.suspended[ix].isNone && n.reclaimed[ix].isNone && n.fetchFault[ix].isNone)

/-- The level of NOTE_A or NOTE_B: low (false) while the notice set holds an entry (R155). -/
def LinkPort.noteLine (l : LinkPort) : Bool := l.notices.isEmpty

/-- The link flag: DROPPED or FRAME_ERROR, or both (R142). -/
def LinkPort.linkFlag (l : LinkPort) : Bool := l.dropped || l.frameError

/-- The status byte (R142, 10.1): marker 10b, free entries of the command queue, response available, notices pending,
link flag. -/
def LinkPort.statusByte (l : LinkPort) : Byte :=
  BitVec.ofNat 8 (0x80 + (Config.queueCommands - l.commands.length) * 8 + (!l.responses.isEmpty).toNat * 4 +
    (!l.notices.isEmpty).toNat * 2 + l.linkFlag.toNat)

/-- The extended status block (R151, 10.1). -/
def LinkPort.extendedStatus (l : LinkPort) : List Byte :=
  [BitVec.ofNat 8 (l.commands.length + l.responses.length * 16),
   BitVec.ofNat 8 (l.dropped.toNat + l.frameError.toNat * 2 + (!l.notices.isEmpty).toNat * 4 +
     l.abandonPending.toNat * 8)]

/-- The level of a sync signal of a polarity: its active level inside its interval, the other one outside (R74). -/
def Polarity.level (pol : Polarity) (active : Bool) : Bool :=
  match pol with
  | .high => active
  | .low => !active

/-- HS at a pixel position of a line (R74). -/
def Profile.hsAt (t : Profile) (q : Nat) : Bool := t.hSyncPolarity.level (inInterval t.hSyncStart t.hSyncWidth q)

/-- VS at a line position of a frame (R74). -/
def Profile.vsAt (t : Profile) (l : Nat) : Bool := t.vSyncPolarity.level (inInterval t.vSyncStart t.vSyncWidth l)

/-- The pins in OFF: both syncs inactive under the profile in force, DE low, PD 0 (R74, R75, R83). -/
def Profile.offPins (t : Profile) : Pins := ⟨t.hSyncPolarity.level false, t.vSyncPolarity.level false, false, 0⟩

end Sys2Proof.Machine
end

