-- ==== Sys2Proof/Machine/Store.lean ====
section
/-! DEFINITION. The line store: 384 segments of 256 bytes (R106, R113), as a list of (address, byte) in one canonical
form: addresses strictly rising, and no entry equal to what an unlisted address reads as. -/

namespace Sys2Proof.Machine

/-- The canonical form, from a lower bound on the addresses. -/
def Memory.wfFrom : Nat → List Host.Cell → Bool
  | _, [] => true
  | lo, (a, v) :: rest => decide (lo ≤ a) && v != Config.storeByte && Memory.wfFrom (a + 1) rest

/-- The canonical form of the line store. -/
def Memory.wf (m : List Host.Cell) : Bool := Memory.wfFrom 0 m

/-- The byte at an address. -/
def Memory.read : List Host.Cell → Nat → Byte
  | [], _ => Config.storeByte
  | (b, w) :: rest, a => if a = b then w else Memory.read rest a

/-- An address listed with a byte, unless it is what an unlisted address reads as. -/
def Memory.cons (a : Nat) (v : Byte) (m : List Host.Cell) : List Host.Cell :=
  if v = Config.storeByte then m else (a, v) :: m

/-- A byte written, keeping the canonical form. -/
def Memory.write : List Host.Cell → Nat → Byte → List Host.Cell
  | [], a, v => Memory.cons a v []
  | (b, w) :: rest, a, v =>
    if a < b then Memory.cons a v ((b, w) :: rest)
    else if a = b then Memory.cons a v rest
    else (b, w) :: Memory.write rest a v

/-- Bytes written at rising addresses. -/
def Memory.writeBytes (m : List Host.Cell) (a : Nat) : List Byte → List Host.Cell
  | [] => m
  | v :: vs => Memory.writeBytes (Memory.write m a v) (a + 1) vs

/-- The address of byte `k` of segment `seg` of the store. -/
def storeAddress (seg k : Nat) : Nat := seg * Config.segmentBytes + k

/-- The bytes of the store. -/
def storeBytes : Nat := Config.storeSegments * Config.segmentBytes

/-- Byte `k` of a beat: its bits 8k+7..8k (R169). -/
def beatByte (d : BitVec 128) (k : Nat) : Byte := d.extractLsb' (8 * k) 8

/-- The sixteen bytes of a beat, byte 0 first (R169). -/
def beatBytes (d : BitVec 128) : List Byte := (List.range 16).map (beatByte d)

/-- The bytes of the beats of a completion: byte `16 j + k` is byte `k` of beat `j` (R169). -/
def dataBytes (beats : List Beat) : List Byte := beats.flatMap fun b => beatBytes b.data

end Sys2Proof.Machine
end

