-- ==== Sys2Proof/Machine/Table.lean ====
section
/-! DEFINITION. The window table: its z-order list and placements, what applying an entry does to it (one function for
the live table and for the views), the three views, handle resolution, and the admission limits. -/

namespace Sys2Proof.Machine

/-! ### Slot records -/

def SlotBody.isFree : SlotBody → Bool
  | .free => true
  | _ => false

/-- SHOWN, HIDDEN or SUSPENDED (R2). -/
def SlotBody.isOpen : SlotBody → Bool
  | .opened .. => true
  | _ => false

/-- SHOWN or SUSPENDED: counted for lanes and for segments (R54). -/
def SlotBody.counted : SlotBody → Option Window
  | .opened _ .shown w => some w
  | .opened _ .suspended w => some w
  | _ => none

/-- The window of an open slot. -/
def SlotBody.window? : SlotBody → Option Window
  | .opened _ _ w => some w
  | _ => none

/-- The segments a slot holds (section 1.2, R13). -/
def SlotBody.held : SlotBody → Nat
  | .opened _ st w => w.held st
  | _ => 0

def Visibility.openState : Visibility → OpenState
  | .hidden => .hidden
  | .shown => .shown

def Table.body (t : Table) (ix : SlotIx) : SlotBody := t.slots[ix].body

def Table.gen (t : Table) (ix : SlotIx) : Nibble := t.slots[ix].gen

/-- Replace what a slot holds and keep its generation. -/
def Table.setBody (t : Table) (ix : SlotIx) (b : SlotBody) : Table :=
  { t with slots := t.slots.set ix ⟨t.gen ix, b⟩ }

/-- A slot returns to FREE: the owner is cleared and the generation incremented modulo 16 (R4, R6, R9). -/
def Table.release (t : Table) (ix : SlotIx) : Table :=
  { t with slots := t.slots.set ix ⟨t.gen ix + 1, .free⟩ }

/-- A slot's window stands in the pinned section (R14). -/
def Table.pinned (t : Table) (ix : SlotIx) : Bool :=
  match t.body ix with
  | .opened _ _ w => w.pinned
  | _ => false

/-- The lowest-numbered slot whose state in the slot table is FREE (R3). -/
def Table.lowestFree (t : Table) : Option SlotIx := allSlots.find? fun ix => (t.body ix).isFree

/-- The slots whose state in the slot table is FREE (R160). -/
def Table.freeSlots (t : Table) : Nat := (allSlots.filter fun ix => (t.body ix).isFree).length

/-! ### The z-order list (R14 to R17) -/

/-- Insert `ix` directly above `r` in a section, or at its top where `r` does not stand in it (the checks of R16 rule
that out; log 23). -/
def insertAbove (r ix : SlotIx) : List SlotIx → List SlotIx
  | [] => [ix]
  | y :: ys => if y = r then y :: ix :: ys else y :: insertAbove r ix ys

/-- Insert `ix` directly below `r` in a section, or at its top where `r` does not stand in it (log 23). -/
def insertBelow (r ix : SlotIx) : List SlotIx → List SlotIx
  | [] => [ix]
  | y :: ys => if y = r then ix :: y :: ys else y :: insertBelow r ix ys

/-- Insert a window in its section at a placement (R16). -/
def insertAt (ix : SlotIx) (sec : List SlotIx) : Placement → List SlotIx
  | .top => sec ++ [ix]
  | .bottom => ix :: sec
  | .above h => match h.ix? with
    | some r => insertAbove r ix sec
    | none => sec ++ [ix]
  | .below h => match h.ix? with
    | some r => insertBelow r ix sec
    | none => sec ++ [ix]

/-- The unpinned section of a list, bottom to top. -/
def Table.lowerSection (t : Table) (z : List SlotIx) : List SlotIx := z.filter fun i => !t.pinned i

/-- The pinned section of a list, bottom to top. -/
def Table.upperSection (t : Table) (z : List SlotIx) : List SlotIx := z.filter fun i => t.pinned i

/-- Insert a window that stands nowhere in `z` in the section `pinned` names, at a placement; the pinned section
stays above the unpinned one (R14, R16). -/
def Table.inserted (t : Table) (z : List SlotIx) (ix : SlotIx) (pinned : Bool) (pl : Placement) : List SlotIx :=
  if pinned then t.lowerSection z ++ insertAt ix (t.upperSection z) pl
  else insertAt ix (t.lowerSection z) pl ++ t.upperSection z

/-- A window taken out of the list, the others keeping their order (R15). -/
def without (z : List SlotIx) (ix : SlotIx) : List SlotIx := z.filter (· ≠ ix)

/-! ### Applying an entry to the table (R6, R15, R26 to R37, R57) -/

/-- An open slot goes from one state and record to another, and the free segment count moves by the difference of
what it holds (R57). -/
def Table.rewrite (t : Table) (ix : SlotIx) (o : Port) (st : OpenState) (w : Window) (st' : OpenState) (w' : Window) :
    Table :=
  { t.setBody ix (.opened o st' w') with free := t.free + (w.held st : Int) - (w'.held st' : Int) }

/-- OPEN applied to a QUEUED slot (R26): record, z-order, segments. -/
def Table.create (t : Table) (ix : SlotIx) (o : Port) (w : Window) (vis : Visibility) (pl : Placement) : Table :=
  { t.setBody ix (.opened o vis.openState w) with
    zorder := t.inserted (without t.zorder ix) ix w.pinned pl
    free := t.free - (w.held vis.openState : Int) }

/-- RESTACK: the window is removed and inserted in its own section (R15, R33). -/
def Table.restack (t : Table) (ix : SlotIx) (w : Window) (pl : Placement) : Table :=
  { t with zorder := t.inserted (without t.zorder ix) ix w.pinned pl }

/-- PIN (R17): into the bottom of the pinned section, or to the top of the unpinned one; nothing on a window already
in the requested section. -/
def Table.pin (t : Table) (ix : SlotIx) (o : Port) (st : OpenState) (w : Window) (on : Bool) : Table :=
  if w.pinned = on then t
  else { t.setBody ix (.opened o st { w with pinned := on }) with
         zorder := t.inserted (without t.zorder ix) ix on (if on then .bottom else .top) }

/-- RETIRE and RECLAIM: FREE, generation advanced, out of the list, segments returned (R6, R35, R36). -/
def Table.retire (t : Table) (ix : SlotIx) (st : OpenState) (w : Window) : Table :=
  { t.release ix with zorder := without t.zorder ix, free := t.free + (w.held st : Int) }

/-- What a change does to the slot it names, by the slot's state at apply: section 1.2's table R6 with R26 to R36. A
change that names a state not in its row leaves the table as it is. -/
def Table.applyChange (t : Table) (ix : SlotIx) (c : Change) : Table :=
  match t.body ix, c with
  | .queued o, .create w vis pl => t.create ix o w vis pl
  | .opened o st w, .place g => t.rewrite ix o st w st { w with geometry := g }
  | .opened o st w, .source src => t.rewrite ix o st w st { w with source := src }
  | .opened o st w, .look l => t.rewrite ix o st w st { w with look := l }
  | .opened o .hidden w, .unhide => t.rewrite ix o .hidden w .shown w
  | .opened o .shown w, .hide => t.rewrite ix o .shown w .hidden w
  | .opened o .suspended w, .hide => t.rewrite ix o .suspended w .hidden w
  | .opened o .suspended w, .resume => t.rewrite ix o .suspended w .shown w
  | .opened _ _ w, .restack pl => t.restack ix w pl
  | .opened o st w, .pin on => t.pin ix o st w on
  | .opened _ st w, .retire => t.retire ix st w
  | .opened _ st w, .reclaim => t.retire ix st w
  | _, _ => t

/-- An entry applied to the table (R6, R37). -/
def Table.applyEntry (t : Table) : Entry → Table
  | .window h c => match h.ix? with
    | some ix => t.applyChange ix c
    | none => t
  | .backdrop colour => { t with background := colour }

/-! ### Views (R19) -/

/-- A view: the table as the view holds it, and the slots pending retirement in it. -/
structure View where
  table : Table
  retiring : List SlotIx
  deriving DecidableEq, Repr

/-- A window is pending retirement in a view (R19). -/
def View.isRetiring (v : View) (ix : SlotIx) : Bool := v.retiring.contains ix

/-- The slot whose window a handle names in a view, for an entry to act on: the handle's generation is the slot's, and
the window is not pending retirement. An own entry staged before the other port retired the window, or before the slot
took a new generation, names no window any more (R10, R19). -/
def View.acted (v : View) (h : Handle) : Option SlotIx :=
  match h.ix? with
  | some ix => if v.table.gen ix = h.gen ∧ v.isRetiring ix = false then some ix else none
  | none => none

/-- The window of an open slot becomes pending retirement in a view: its record, owner, generation and state are kept,
and it leaves the list (R19). -/
def View.retire (v : View) (ix : SlotIx) : View :=
  if (v.table.body ix).isOpen then ⟨{ v.table with zorder := without v.table.zorder ix }, ix :: v.retiring⟩ else v

/-- An entry applied in a view: as applied to the table, except that RETIRE and RECLAIM make the window pending
retirement, and that an entry whose handle names no window of the view changes nothing (R19). -/
def View.apply (v : View) (e : Entry) : View :=
  match e with
  | .backdrop _ => { v with table := v.table.applyEntry e }
  | .window h c => match v.acted h, c with
    | none, _ => v
    | some ix, .retire | some ix, .reclaim => v.retire ix
    | some _, _ => { v with table := v.table.applyEntry e }

def View.applyAll (v : View) (es : List Entry) : View := es.foldl View.apply v

/-- The live table with the RESERVED slots of a port standing as the QUEUED slots its OPEN entries will open. -/
def Table.reservedQueued (t : Table) (p : Port) : Table :=
  { t with slots := tabSlots fun ix =>
      match t.body ix with
      | .reserved o => ⟨t.gen ix, if o = p then .queued o else .reserved o⟩
      | b => ⟨t.gen ix, b⟩ }

/-- Every batch of a commit queue applied in queue order (R19). -/
def View.applyBatches (v : View) (q : List Batch) : View := q.foldl (fun u b => u.applyAll b.entries) v

/-- The projection, as a port's open batch is then applied to it (R19). -/
def projection (t : Table) (q : List Batch) (p : Port) : View := View.applyBatches ⟨t.reservedQueued p, []⟩ q

/-! ### Handle resolution (R10) -/

/-- R10 in the projection or a port view, where a slot that is not open stands FREE. -/
def View.resolve (v : View) (h : Handle) : Except ResultCode SlotIx :=
  match h.ix? with
  | none => .error .badHandle
  | some ix => match v.table.body ix with
    | .opened .. => if v.table.gen ix = h.gen then .ok ix else .error .stale
    | _ => .error .badHandle

/-- R10 in the live view, where a RESERVED or QUEUED slot resolves too (R22). -/
def Table.resolveLive (t : Table) (h : Handle) : Except ResultCode SlotIx :=
  match h.ix? with
  | none => .error .badHandle
  | some ix => match t.body ix with
    | .free => .error .badHandle
    | _ => if t.gen ix = h.gen then .ok ix else .error .stale

/-! ### Checks of an entry against a view (R24 steps 4 to 8, R41) -/

/-- The placement reference of OPEN and RESTACK (R16): it resolves, and it is not pending retirement, not the window
itself, and in the same section. -/
def View.refusesReference (v : View) (self : Option SlotIx) (pinned : Bool) : Placement → Option ResultCode
  | .top | .bottom => none
  | .above h | .below h => match v.resolve h with
    | .error c => some c
    | .ok r =>
      if v.isRetiring r || self == some r || v.table.pinned r != pinned then some .badReference else none

/-- Step 7 of R24: the parameters against the named window's record in the view (R27, R28, R29). -/
def Change.fitsRecord (c : Change) (w : Window) : Bool :=
  match c with
  | .place g => pitchFits w.source.format g.width w.source.pitch
  | .source src => pitchFits src.format w.geometry.width src.pitch && keyFits src.format w.look.key
  | .look l => keyFits w.source.format l.key
  | _ => true

/-- RECLAIM is exempt from the ownership check (R24 step 6, R36). -/
def Change.ownerExempt : Change → Bool
  | .reclaim => true
  | _ => false

/-- Step 8 of R24: RESTACK is checked in its own section; the other changes of a named window have no reference. -/
def View.refusesPlacement (v : View) (ix : SlotIx) (w : Window) : Change → Option ResultCode
  | .restack pl => v.refusesReference (some ix) w.pinned pl
  | _ => none

/-- Steps 5 to 8 of R24 for a window the handle resolved to. -/
def View.refusesWindow (v : View) (p : Port) (ix : SlotIx) (c : Change) : Option ResultCode :=
  match v.table.body ix with
  | .opened o _ w =>
    if v.isRetiring ix then some .retired
    else if o ≠ p ∧ c.ownerExempt = false then some .notOwner
    else if c.fitsRecord w = false then some .badParam
    else v.refusesPlacement ix w c
  | _ => some .badHandle

/-- Steps 4 to 8 of R24 for an entry, NO_SLOT apart: none where every check passes. -/
def View.refuses (v : View) (p : Port) : Entry → Option ResultCode
  | .backdrop _ => none
  | .window _ (.create w _ pl) => v.refusesReference none w.pinned pl
  | .window h c => match v.resolve h with
    | .error code => some code
    | .ok ix => v.refusesWindow p ix c

/-- The checks of R24 that COMMIT makes again (R41): all but BATCH_FULL and NO_SLOT. -/
def View.refusesAgain (v : View) (p : Port) (e : Entry) : Option ResultCode :=
  if e.permitted p = false then some .notPermitted
  else if e.inDomain = false then some .badParam
  else v.refuses p e

/-- The codes that R162 lets a revalidation answer (R41, "What can fail"). -/
def recheckCodes : Vector ResultCode 4 := #v[.badHandle, .stale, .retired, .badReference]

/-- The handle byte of an entry; 0 for a backdrop entry, which names no window. -/
def Entry.handleByte : Entry → Byte
  | .window h _ => h.byte
  | .backdrop _ => 0

/-- The code COMMIT answers where a check that R24 gives code `c` fails again for entry `k`: that code (R41), but for the
three R162 says COMMIT does not return. Those checks pass as long as the handle names the window it was staged for; after
sixteen frees of its slot it names another one (R9). No rule gives the code then: it is a free value among those R162
allows (DESIGN CHOICE, log 34). -/
def ResultCode.atCommit (c : ResultCode) (k : Nat) (e : Entry) : ResultCode :=
  match c with
  | .notOwner | .notPermitted | .badParam => recheckCodes[Config.recheckCode e.handleByte k]
  | _ => c

/-- Revalidation of an open batch (R41): the index and the code of the first entry that fails against the projection
with the entries before it applied. -/
def View.revalidate (p : Port) : View → Nat → List Entry → Option (Nat × ResultCode)
  | _, _, [] => none
  | v, k, e :: es => match v.refusesAgain p e with
    | some c => some (k, c.atCommit k e)
    | none => View.revalidate p (v.apply e) (k + 1) es

/-! ### Admission (R54 to R56, R60) -/

/-- A window covers active line `l`, one of the `height` active lines (R54). -/
def Window.covers (w : Window) (height l : Nat) : Bool :=
  decide (w.geometry.y ≤ (l : Int) ∧ (l : Int) < w.geometry.y + w.geometry.height ∧ l < height)

/-- The window of a slot that the admission checks count: SHOWN or SUSPENDED, and not pending retirement (R54). -/
def View.countedAt (v : View) (ix : SlotIx) : Option Window :=
  if v.isRetiring ix then none else (v.table.body ix).counted

/-- The windows the admission checks count (R54). -/
def View.countedWindows (v : View) : List Window := allSlots.filterMap v.countedAt

/-- The lane count of a line (R54). -/
def laneCount (ws : List Window) (height l : Nat) : Nat := (ws.filter fun w => w.covers height l).length

/-- The peak lane count: the largest lane count of any active line, 0 when there is none (R54). -/
def peakLanes (ws : List Window) (height : Nat) : Nat :=
  (List.range height).foldl (fun m l => max m (laneCount ws height l)) 0

/-- The sum of the segment needs (R56). -/
def segmentSum (ws : List Window) : Nat := (ws.map Window.need).sum

/-- The admission check on a view under a profile (R60): lanes first, then the line store. -/
def View.overLimits (v : View) (prof : Profile) : Option ResultCode :=
  if Config.lanes < peakLanes v.countedWindows prof.activeHeight then some .overLanes
  else if Config.storeSegments < segmentSum v.countedWindows then some .overStore
  else none

end Sys2Proof.Machine
end

