-- ==== Sys2Proof/Machine/Ops.lean ====
section
/-! DEFINITION. The shared operations over the state: the parts of one port, notices, the table controller's arbiter
and the taking of a command. -/

namespace Sys2Proof.Machine

/-! ### One port's parts -/

def State.link (s : State) : Port → LinkPort
  | .a => s.linkA
  | .b => s.linkB

def State.setLink (s : State) (p : Port) (l : LinkPort) : State :=
  match p with
  | .a => { s with linkA := l }
  | .b => { s with linkB := l }

def State.staging (s : State) : Port → Staging
  | .a => s.stagingA
  | .b => s.stagingB

def State.setStaging (s : State) (p : Port) (g : Staging) : State :=
  match p with
  | .a => { s with stagingA := g }
  | .b => { s with stagingB := g }

/-! ### Notices (R157, R158): a posting takes its place, replacing the entry there -/

def State.post (s : State) (p : Port) (f : Notices → Notices) : State :=
  s.setLink p { s.link p with notices := f (s.link p).notices }

/-- APPLIED with a ticket, to the batch's port (R46). -/
def State.postApplied (s : State) (p : Port) (ticket : Byte) : State :=
  s.post p fun n => { n with applied := some ticket }

/-- OUTPUT with the new state, to both ports (R85). -/
def State.postOutput (s : State) (o : OutputState) : State :=
  (s.post .a fun n => { n with output := some o }).post .b fun n => { n with output := some o }

/-- FETCH_STUCK, to both ports (R135). -/
def State.postFetchStuck (s : State) : State :=
  (s.post .a fun n => { n with fetchStuck := true }).post .b fun n => { n with fetchStuck := true }

/-- SPURIOUS, to Port A (R136). -/
def State.postSpurious (s : State) : State := s.post .a fun n => { n with spurious := true }

/-- SUSPENDED with a handle, to the owner port (R7). -/
def State.postSuspended (s : State) (p : Port) (ix : SlotIx) (gen : Nibble) : State :=
  s.post p fun n => { n with suspended := n.suspended.set ix (some gen) }

/-- RECLAIMED with a handle, to Port B (R36). -/
def State.postReclaimed (s : State) (ix : SlotIx) (gen : Nibble) : State :=
  s.post .b fun n => { n with reclaimed := n.reclaimed.set ix (some gen) }

/-- FETCH_FAULT with a handle and a cause, to the owner port of a stream (R118, R133). -/
def State.postFetchFault (s : State) (p : Port) (h : Handle) (cause : FaultCause) : State :=
  match h.ix? with
  | some ix => s.post p fun n => { n with fetchFault := n.fetchFault.set ix (some (h.gen, cause)) }
  | none => s

/-! ### The table controller's arbiter (R20) -/

/-- A port is eligible: its command queue holds a command and its response queue holds fewer than four responses. -/
def State.eligible (s : State) (p : Port) : Bool :=
  !(s.link p).commands.isEmpty && decide ((s.link p).responses.length < Config.queueResponses)

/-- The pending suspension requests stand before the pending frame turn: there is one, and no frame turn is pending
or one at the head became pending before it (R20 rules 1 and 2). -/
def State.suspensionFirst (s : State) : Bool :=
  !s.suspensions.isEmpty &&
    (match s.turn with
     | none => true
     | some t => decide (0 < t.ahead))

/-- No frame turn and no suspension request is pending. -/
def State.noUrgent (s : State) : Bool := s.turn.isNone && s.suspensions.isEmpty

/-- The frame-turn line is reached and its FRAME_TURN has not come yet. The frame turn arrives at that moment (R84), so
every requester waits for the row (DESIGN CHOICE, log 32). -/
def State.turnReached (s : State) : Bool := s.raster.due.contains .frameTurn

/-- The arbiter chooses a requester: no command is in service, every other requester being served in its own step, and no
frame turn reached waits for its row. -/
def State.idle (s : State) : Bool := s.serving.isNone && !s.turnReached

/-- Rule 4 of R20 chooses the head command of this port. -/
def State.chooses (s : State) (p : Port) : Bool :=
  s.idle && s.noUrgent && !s.linkA.abandonPending && !s.linkB.abandonPending && s.eligible p &&
    (s.nextPort == p || !s.eligible (otherPort p))

/-- The port whose head command rule 4 of R20 chooses, if any. -/
def State.chosenPort (s : State) : Option Port :=
  if s.chooses .a then some .a else if s.chooses .b then some .b else none

/-- The command rule 4 of R20 chooses, with its port. -/
def State.chosenHead (s : State) : Option (Port × QueuedCommand) :=
  s.chosenPort.bind fun p => (s.link p).commands.head?.map fun c => (p, c)

/-- The command of this port whose service may be completed now: it is in service, and no frame turn reached waits for
its row. -/
def State.inService (s : State) (p : Port) : Option QueuedCommand :=
  if s.turnReached then none else s.serving.bind fun x => if x.port = p then some x.command else none

/-- The arbiter may serve this requester now (R20); every other one waits for the end of the service of a command. When
both ports have an abandon request pending, either may be taken first. -/
def State.grants (s : State) : Requester → Bool
  | .frameTurn => s.idle && s.turn.isSome && !s.suspensionFirst
  | .suspension => s.idle && s.suspensionFirst
  | .abandon p => s.idle && s.noUrgent && (s.link p).abandonPending
  | .command p => s.chooses p || (s.inService p).isSome

/-! ### Taking a command (R20, R21, R146 to R148) -/

/-- The head command leaves its port's queue, and the next-port pointer names the other port (R20, R146). -/
def State.dequeue (s : State) (p : Port) : State :=
  { s.setLink p { s.link p with commands := (s.link p).commands.tail } with nextPort := otherPort p }

/-- The state in which a command of the port that may be served now has its effect: it has left its queue, now or at the
moment its service began (R146), and no command is left in service. -/
def State.takeHead (s : State) (p : Port) : State :=
  match s.serving with
  | some _ => { s with serving := none }
  | none => s.dequeue p

/-! ### Output commands at the raster generator (R79, R81, R82, R84) -/

/-- The response of an output command: its code, and the output state and pending target as they stand (R79). -/
def State.outputReply (s : State) (code : ResultCode) : Reply := ⟨code, [s.raster.output.byte, s.raster.target.byte]⟩

/-- An output command: refused from Port B (R79); from Port A it answers a code and leaves a state. -/
def outputCommand (p : Port) (act : State → ResultCode × State) (_ : List Byte) (s : State) : Reply × State :=
  match p with
  | .b => (s.outputReply .notPermitted, s)
  | .a => ((act s).2.outputReply (act s).1, (act s).2)

def State.setTarget (s : State) (t : PendingTarget) : State := { s with raster := { s.raster with target := t } }

/-- R81's table. -/
def liveAct (s : State) : ResultCode × State :=
  match s.raster.output with
  | .off => (.wrongState, s)
  | .syncOnly => (.ok, s.setTarget .live)
  | .live => (.ok, s.setTarget .none)

/-- R82's table. -/
def quietAct (s : State) : ResultCode × State :=
  match s.raster.output with
  | .off => (.wrongState, s)
  | .live => (.ok, s.setTarget .syncOnly)
  | .syncOnly => (.ok, s.setTarget .none)

/-- What a command does at the raster generator at the moment the table controller takes it (R84): an output command finds
its reply there and leaves its change. Every other command does nothing there, nor does OUTPUT_START in OFF, which meets no
frame turn (R84), or OUTPUT_STOP of Port A, which a frame turn signalled in its service comes before (R48, R83). -/
def State.meetRaster (s : State) (p : Port) (c : QueuedCommand) : Option Reply × State :=
  let arrives := fun act => let r := outputCommand p act [] s; (some r.1, r.2)
  if c.params ≠ [] then (none, s)
  else if c.code = 0x41 then arrives liveAct
  else if c.code = 0x42 then arrives quietAct
  else if (c.code = 0x40 ∧ s.raster.output ≠ .off) ∨ (c.code = 0x43 ∧ p = .b) then arrives fun s => (.wrongState, s)
  else (none, s)

/-! ### Requests that stand above commands -/

/-- The head command of a port is taken and in service: it has left its queue (R146) and, where it is an output command,
reached the raster generator (R84). -/
def State.beginService (s : State) (p : Port) (c : QueuedCommand) : State :=
  let r := s.meetRaster p c
  { r.2.dequeue p with serving := some ⟨p, c, r.1⟩ }

/-- A request that stands above commands becomes pending (R20). The command that rule 4 chooses may have been taken by
then: it is in service, and the request waits for the end of that (R20, R48, R84, R121, R146, R154). Or it is still in its
queue, and the request comes first. No rule gives the time between a command's arrival and its taking: which of the two
holds is a free value (DESIGN CHOICE, log 31). -/
def State.requested (s : State) : State :=
  match s.chosenHead with
  | none => s
  | some (p, c) =>
    if Config.taken s.choices then { s.beginService p c with choices := s.choices + 1 }
    else { s with choices := s.choices + 1 }

/-- A response payload: sequence number, command code, result code, result data (R147, R167). -/
def responseBytes (c : QueuedCommand) (r : Reply) : List Byte := c.seq :: c.code :: r.code.byte :: r.data

/-- A response is placed at the tail of the asking port's response queue; while a link reset of the port awaits its
abandon it is discarded (R148, R154). -/
def State.respond (s : State) (p : Port) (c : QueuedCommand) (r : Reply) : State :=
  if (s.link p).abandonPending then s
  else s.setLink p { s.link p with responses := (s.link p).responses ++ [responseBytes c r] }

/-- A refusal, or an acceptance, that carries no result data (R162). -/
def Reply.bare (code : ResultCode) : Reply := ⟨code, []⟩

/-- The command of a port that may be served now: its head command, where the arbiter chooses it, or the one in
service. -/
def State.servable (s : State) (p : Port) : Option QueuedCommand :=
  if s.chooses p then (s.link p).commands.head? else s.inService p

/-- What serving a command does: the checks and changes of its own rule, on the parameter bytes, answering the reply
and the state (R21). -/
abbrev CommandBody := List Byte → State → Reply × State

/-- The reply that the command in service found at the raster generator when it was taken, if it did (R84). -/
def State.foundReply (s : State) : Option Reply := s.serving.bind Service.reply

/-- A command of known length is served: one that reached the raster generator when it was taken has had its effect, and
its reply is placed (R84); else BAD_LENGTH where the parameter bytes are of any other number (R147), else its own rule; the
response is placed at the end of the act (R21). -/
def serveHead (p : Port) (c : QueuedCommand) (len : Nat) (body : CommandBody) (s : State) : State :=
  match s.foundReply with
  | some r => (s.takeHead p).respond p c r
  | none =>
    if c.params.length ≠ len then (s.takeHead p).respond p c (.bare .badLength)
    else
      let r := body c.params (s.takeHead p)
      r.2.respond p c r.1

/-- The step that takes the command with this code from a port: it happens where a command of the port may
be served now and that is a command with the code; otherwise the command waits and nothing changes (R20, log 3). -/
def serve (p : Port) (code : Byte) (len : Nat) (body : CommandBody) (s : State) :
    Host.Outcome State Fault Refusal :=
  match s.servable p with
  | some c => if c.code = code then .next (serveHead p c len body s) else .next s
  | none => .next s

end Sys2Proof.Machine
end

