-- ==== Sys2Proof/Machine/Fetch.lean ====
section
/-! DEFINITION. The fetch engine and the memory read port: streams and line halves, stops and loads, discard marks,
failed halves, ageing and quarantine, the fetch arbiter. -/

namespace Sys2Proof.Machine

/-! ### Streams and halves (R104, R105, R110) -/

/-- A stream is loaded while its condition is RUNNING or IDLE (R104). -/
def Stream.loaded (st : Stream) : Bool := st.cond != .stopped

def Stream.half (st : Stream) : HalfId → Half
  | .a => st.halfA
  | .b => st.halfB

def Stream.setHalf (st : Stream) (i : HalfId) (h : Half) : Stream :=
  match i with
  | .a => { st with halfA := h }
  | .b => { st with halfB := h }

/-- The first and last visible row of a window under an active height, none where the first exceeds the last (R105). -/
def visibleRows (y : Int) (height active : Nat) : Option (Nat × Nat) :=
  let first := (-y).toNat
  let stop := min (height : Int) ((active : Int) - y)
  if (first : Int) < stop then some (first, stop.toNat - 1) else none

/-- A row is among the visible rows. -/
def rowVisible (v : Option (Nat × Nat)) (r : Nat) : Bool :=
  match v with
  | some (f, l) => decide (f ≤ r ∧ r ≤ l)
  | none => false

/-- The visible row of a loaded stream that falls on active line `l`: row l - y (R111, R112). -/
def Stream.rowOn (st : Stream) (l : Nat) : Option Nat :=
  match st.load with
  | some ld =>
    let r := (l : Int) - ld.y
    if st.loaded && decide (0 ≤ r) && rowVisible st.visible r.toNat then some r.toNat else none
  | none => none

/-- The half that holds a row (R111, R112). -/
def Stream.holding (st : Stream) (r : Nat) : Option HalfId :=
  if st.halfA.row = some r then some .a else if st.halfB.row = some r then some .b else none

/-- A half that holds a row is READY for it: the row is drawn from the half (R111). -/
def Stream.readyHalf (st : Stream) (r : Nat) : Option HalfId :=
  match st.holding r with
  | some i => if (st.half i).cond = .ready then some i else none
  | none => none

/-- A half takes a row: FILLING with no segment filled or requested, in the segments placed for it (R106, R112). -/
def Half.take (h : Half) (r : Nat) : Half := ⟨some r, .filling, 0, [], h.place⟩

/-- A half made EMPTY with no row; its segments stay placed (R112, R123). -/
def Half.emptied (h : Half) : Half := ⟨none, .empty, 0, [], h.place⟩

/-- A half takes a row if there is one, else it becomes EMPTY. -/
def Half.assign (h : Half) : Option Nat → Half
  | some r => h.take r
  | none => h.emptied

/-- A stream stopped (R108): no row, segments released, starved-this-frame flag clear; the count is kept. -/
def Stream.stopped (st : Stream) : Stream :=
  { st with cond := .stopped, halfA := Half.released, halfB := Half.released, starved := false }

/-- A count clear (R109). -/
def Stream.countCleared (st : Stream) : Stream := { st with count := 0, starved := false }

def State.setStream (s : State) (ix : SlotIx) (st : Stream) : State := { s with streams := s.streams.set ix st }

/-! ### Tags (R125, R131) -/

/-- The tag's entry belongs to a stream's slot. -/
def TagEntry.ofSlot (e : TagEntry) (ix : SlotIx) : Bool := e.handle.ix? == some ix

/-- A WAITING tag's discard mark set where `which` says so; QUARANTINED and FREE tags are left (R131, R134). -/
def Tag.mark (which : TagEntry → Bool) : Tag → Tag
  | .waiting e => if which e then .waiting { e with discard := true } else .waiting e
  | .quarantined e => .quarantined e
  | .free => .free

/-- Discard marks set on the WAITING tags `which` picks (R131). -/
def State.markTags (s : State) (which : TagEntry → Bool) : State :=
  { s with mem := { s.mem with tags := tabTags fun t => s.mem.tags[t].mark which } }

def Tag.isFree : Tag → Bool
  | .free => true
  | _ => false

def Tag.isQuarantined : Tag → Bool
  | .quarantined _ => true
  | _ => false

def State.setTag (s : State) (t : TagIx) (x : Tag) : State :=
  { s with mem := { s.mem with tags := s.mem.tags.set t x } }

/-! ### Lanes of the line in progress (R93) -/

/-- The lane holds a slot's window. -/
def Lane.ofSlot (l : Lane) (ix : SlotIx) : Bool := l.handle.ix? == some ix

/-- The lanes whose slot `which` picks are vacant for the rest of the line (R93). R93 speaks of the line in progress; the
model does this between two lines too, while the lanes of the last one still stand (R89; DESIGN CHOICE, log 35). -/
def State.vacateLanes (s : State) (which : SlotIx → Bool) : State :=
  { s with lanes := tabLanes fun i =>
      match s.lanes[i] with
      | some l => if allSlots.any (fun ix => l.ofSlot ix && which ix) then none else some l
      | none => none }

/-- The HALF lanes whose slot `which` picks become FILL lanes for the rest of the line (R93). R93 speaks of the line in
progress; the model does this between two lines too, while the lanes of the last one still stand (R89; DESIGN CHOICE,
log 35). -/
def State.fillLanes (s : State) (which : SlotIx → Bool) : State :=
  { s with lanes := tabLanes fun i =>
      (s.lanes[i]).map fun l =>
        if allSlots.any (fun ix => l.ofSlot ix && which ix) then { l with source := .fill } else l }

/-! ### Stops (R108) -/

/-- The streams `which` picks are stopped: a stream already STOPPED is unchanged, and of a loaded one the WAITING tags
are marked discard (R108, R131). A stop is sent for a slot that is no longer SHOWN, or as the line ends with the output:
the slot's lane of the line in progress is vacant, whether or not the stream was loaded (R2, R93; log 21). -/
def State.stopStreams (s : State) (which : SlotIx → Bool) : State :=
  let hit := fun ix : SlotIx => which ix && s.streams[ix].loaded
  let s1 := { s with streams := tabSlots fun ix => if hit ix then s.streams[ix].stopped else s.streams[ix] }
  (s1.markTags fun e => allSlots.any fun ix => e.ofSlot ix && hit ix).vacateLanes which

/-- A stream stop for one slot. -/
def State.stopStream (s : State) (ix : SlotIx) : State := s.stopStreams fun i => i == ix

/-- "Streams off": every stream is stopped (R47, R108). -/
def State.streamsOff (s : State) : State := s.stopStreams fun _ => true

/-- A count clear for one slot (R109). -/
def State.clearCount (s : State) (ix : SlotIx) : State := s.setStream ix s.streams[ix].countCleared

/-! ### Loads (R47, R106, R107) -/

/-- The stream load the table controller sends for a slot: one for every slot that is SHOWN (R47). -/
def Table.loadFor (t : Table) (ix : SlotIx) : Option StreamLoad :=
  match t.body ix with
  | .opened o .shown w => some ⟨handleOf ix (t.gen ix), o, w.source.base, w.source.pitch, w.source.format,
      w.geometry.width, w.geometry.y, w.geometry.height, w.threshold⟩
  | _ => none

/-- Segments per half of a load (R13, R104). -/
def StreamLoad.segments (ld : StreamLoad) : Nat := segmentsPerHalf ld.format ld.width

/-- The first store segment of a slot's half A, with half B directly after it: the loaded streams are placed one after
the other in slot order (R106 step 3 leaves the place open; log 12). -/
def Table.placeOf (t : Table) (ix : SlotIx) : Nat :=
  ((allSlots.filter fun j => j < ix).map fun j =>
    match t.loadFor j with
    | some ld => 2 * ld.segments
    | none => 0).sum

/-- The rows a load assigns: the first two visible rows not yet begun, where the active-line starts of `begun` lines
have been reached since the frame turn (R106 step 4). -/
def firstRows (v : Option (Nat × Nat)) (y : Int) (begun : Nat) : Option Nat × Option Nat :=
  match v with
  | none => (none, none)
  | some (f, l) =>
    let r := max f ((begun : Int) - y).toNat
    (if r ≤ l then some r else none, if r + 1 ≤ l then some (r + 1) else none)

/-- R107: the count and the starved-this-frame flag are kept when the stream was loaded with the same handle and the
load carries no resume flag. -/
def Stream.keepsCount (st : Stream) (ld : StreamLoad) (resumed : Bool) : Bool :=
  st.loaded && (st.load.map StreamLoad.handle == some ld.handle) && !resumed

/-- A stream restarted by a load (R106 steps 1, 3 and 4, R107). -/
def Stream.restarted (st : Stream) (ld : StreamLoad) (resumed : Bool) (place active begun : Nat) : Stream :=
  let v := visibleRows ld.y ld.height active
  let rows := firstRows v ld.y begun
  let keep := st.keepsCount ld resumed
  { cond := .running
    load := some ld
    visible := v
    halfA := (Half.mk none .empty 0 [] (some place)).assign rows.1
    halfB := (Half.mk none .empty 0 [] (some (place + ld.segments))).assign rows.2
    starved := if keep then st.starved else false
    count := if keep then st.count else 0
    excused := false }

/-- The whole set of stream loads of a frame-turn act (R47, R106): every stream named is restarted, its WAITING tags
marked discard and its HALF lane made FILL (R93); every stream not named is stopped. `resumed` are the slots the act
moved from SUSPENDED to SHOWN by RESUME. -/
def State.loadStreams (s : State) (resumed : List SlotIx) : State :=
  let named := fun ix : SlotIx => (s.table.loadFor ix).isSome
  let s1 := s.stopStreams fun ix => !named ix
  let s2 := { s1 with streams := tabSlots fun ix =>
      match s.table.loadFor ix with
      | some ld => s1.streams[ix].restarted ld (resumed.contains ix) (s.table.placeOf ix)
          s.raster.profile.activeHeight s.raster.linesBegun
      | none => s1.streams[ix] }
  (s2.markTags fun e => allSlots.any fun ix => e.ofSlot ix && named ix).fillLanes named

/-! ### Failed halves (R118, R119) -/

/-- The entry was requested for this half and row of a slot's stream (R112, R131). -/
def TagEntry.sameRow (e e' : TagEntry) : Bool :=
  e.handle.ix? == e'.handle.ix? && e.half == e'.half && e.row == e'.row

/-- A half FILLING the row becomes FAILED; in any other condition it is unchanged (R110). -/
def Half.fail (h : Half) (r : Nat) : Half :=
  if h.row = some r ∧ h.cond = .filling then { h with cond := .failed } else h

/-- The half an entry names fails: FAILED, and its other WAITING tags are marked discard (R118, R119). -/
def State.failHalf (s : State) (e : TagEntry) : State :=
  let s1 := match e.handle.ix? with
    | some ix => s.setStream ix (s.streams[ix].setHalf e.half ((s.streams[ix].half e.half).fail e.row))
    | none => s
  s1.markTags fun e' => e'.sameRow e

/-- The load of the stream an entry names. -/
def State.loadOf (s : State) (e : TagEntry) : Option StreamLoad :=
  match e.handle.ix? with
  | some ix => s.streams[ix].load
  | none => none

/-! ### Ageing and timeout (R133, R135) -/

/-- One line start on an age: one more, 63 at most (R133). -/
def agedBy (age : Nat) : Nat := min (age + 1) 63

/-- A WAITING tag aged by one line start (R133). -/
def Tag.aged : Tag → Tag
  | .waiting e => .waiting { e with age := agedBy e.age }
  | x => x

/-- The fetch state becomes STUCK, and FETCH_STUCK is posted, when all eight tags are QUARANTINED (R135). -/
def State.checkStuck (s : State) : State :=
  if allTags.all fun t => s.mem.tags[t].isQuarantined then
    ({ s with mem := { s.mem with fetchState := .stuck } }).postFetchStuck
  else s

/-- The half of an unmarked tag that timed out fails, and FETCH_FAULT with the tag's handle and the cause TIMEOUT goes
to the owner port of the tag's stream (R119, R133). -/
def State.failTimedOut (s : State) (e : TagEntry) : State :=
  match s.loadOf e with
  | some ld => (s.failHalf e).postFetchFault ld.owner e.handle .timeout
  | none => s.failHalf e

/-- A WAITING tag with this entry times out (R133, R135): QUARANTINED; where its mark is clear its half fails. -/
def State.quarantine (s : State) (t : TagIx) (e : TagEntry) : State :=
  let s1 := s.setTag t (.quarantined e)
  (if e.discard then s1 else s1.failTimedOut e).checkStuck

/-- A WAITING tag whose age has reached the fetch timeout is quarantined (R133). -/
def State.timeoutTag (s : State) (t : TagIx) : State :=
  match s.mem.tags[t] with
  | .waiting e => if s.mem.timeout ≤ e.age then s.quarantine t e else s
  | _ => s

/-- Every WAITING tag aged (R133). -/
def State.ageTags (s : State) : State :=
  { s with mem := { s.mem with tags := tabTags fun t => s.mem.tags[t].aged } }

/-! ### The fetch arbiter (R113 to R116) -/

/-- A pick: the slot, half, row and segment chosen, with the address and beats of its request (R113, R114). -/
structure Pick where
  ix : SlotIx
  half : HalfId
  row : Nat
  segment : Nat
  handle : Handle
  address : Addr
  beats : Nat
  deriving DecidableEq, Repr

/-- The address of segment `seg` of row `r` (R113). -/
def segmentAddress (ld : StreamLoad) (r seg : Nat) : Addr :=
  BitVec.ofNat 32 (ld.base.toNat + r * ld.pitch + seg * Config.segmentBytes)

/-- The beats of segment `seg` of a row: its length in bytes divided by 16 (R113). -/
def segmentBeats (ld : StreamLoad) (seg : Nat) : Nat :=
  min Config.segmentBytes (lineBytesRounded ld.format ld.width - seg * Config.segmentBytes) / 16

/-- The lowest unrequested segment of a half (R116 rule 3). -/
def Half.nextSegment (h : Half) (segments : Nat) : Option Nat :=
  (List.range segments).find? fun seg => !h.requested.contains seg

/-- The best candidate of one half: its lowest unrequested segment, where the stream is RUNNING, the half FILLING and
the row not yet begun (R116); with it the active line of the row. -/
def State.candidate (s : State) (ix : SlotIx) (i : HalfId) : Option (Int × Pick) :=
  let st := s.streams[ix]
  let h := st.half i
  match st.load, h.row with
  | some ld, some r =>
    let due : Int := ld.y + (r : Int)
    if st.cond = .running ∧ h.cond = .filling ∧ (s.raster.linesBegun : Int) ≤ due then
      (h.nextSegment ld.segments).map fun seg =>
        (due, ⟨ix, i, r, seg, ld.handle, segmentAddress ld r seg, segmentBeats ld seg⟩)
    else none
  | _, _ => none

/-- The earlier active line wins; on the same line the one met first, which is the lower slot (R116 rules 1 and 2). -/
def earlier (best new : Option (Int × Pick)) : Option (Int × Pick) :=
  match best, new with
  | some b, some n => if n.1 < b.1 then some n else some b
  | none, n => n
  | b, none => b

/-- The candidate the fetch arbiter picks (R116). -/
def State.bestCandidate (s : State) : Option (Int × Pick) :=
  allSlots.foldl (fun best ix => earlier (earlier best (s.candidate ix .a)) (s.candidate ix .b)) none

/-- The lowest-numbered FREE tag (R114). -/
def State.lowestFreeTag (s : State) : Option TagIx := allTags.find? fun t => s.mem.tags[t].isFree

/-- A pick carried out (R114, R126): the tag becomes WAITING with a new entry, the channel OFFERED with the request,
and the segment is recorded as requested. -/
def State.offer (s : State) (t : TagIx) (k : Pick) : State :=
  let s1 := s.setTag t (.waiting ⟨k.handle, k.half, k.row, k.segment, k.beats, false, 0, false⟩)
  let s2 := { s1 with mem := { s1.mem with channel := some ⟨t, s.mem.epoch, k.address, k.beats⟩ } }
  let st := s.streams[k.ix]
  let h := st.half k.half
  s2.setStream k.ix (st.setHalf k.half { h with requested := k.segment :: h.requested })

/-! ### The request channel's pins (10.8, R169) -/

/-- The valid signal of the MRQ group (R126). -/
def State.mrqValid (s : State) : Bool := s.mem.channel.isSome

/-- The beat count field of a request: beats - 1 (10.8, R169). -/
def Offer.beatField (o : Offer) : BitVec 4 := BitVec.ofNat 4 (o.beats - 1)

end Sys2Proof.Machine
end

