-- ==== Sys2Proof/Machine/Apply.lean ====
section
/-! DEFINITION. Applying committed batches to the live table, with the signals and notices their entries send
(R26 to R37, R46, R49, R50), and discarding an open batch (R38, R39). -/

namespace Sys2Proof.Machine

/-! ### One entry -/

/-- What a change sends to the fetch engine and the ports, by the state the slot had before it: the stream stop and
count clear of HIDE, RETIRE and RECLAIM, the count clear of RESUME (R31, R32, R35, R36, R109), and RECLAIMED to Port B
for a window it owned, with the generation before the apply (R36). -/
def State.signal (s : State) (ix : SlotIx) (before : Slot) (c : Change) : State :=
  match before.body, c with
  | .opened _ .shown _, .hide => (s.stopStream ix).clearCount ix
  | .opened _ .suspended _, .hide => s.clearCount ix
  | .opened _ .suspended _, .resume => s.clearCount ix
  | .opened _ _ _, .retire => (s.stopStream ix).clearCount ix
  | .opened o _ _, .reclaim =>
    let s1 := (s.stopStream ix).clearCount ix
    if o = .b then s1.postReclaimed ix before.gen else s1
  | _, _ => s

/-- An entry applied to the live table (R6, R46). -/
def State.applyEntry (s : State) (e : Entry) : State :=
  let s1 := { s with table := s.table.applyEntry e }
  match e with
  | .window h c => match h.ix? with
    | some ix => s1.signal ix s.table.slots[ix] c
    | none => s1
  | .backdrop _ => s1

/-- The slot an entry moves from SUSPENDED to SHOWN by RESUME: its load carries the resume flag (R32, R47). -/
def Table.resumedBy (t : Table) : Entry → List SlotIx
  | .window h .resume => match h.ix? with
    | some ix => match t.body ix with
      | .opened _ .suspended _ => [ix]
      | _ => []
    | none => []
  | _ => []

/-- Entries applied in their order, collecting the slots resumed. -/
def State.applyEntries : State → List SlotIx → List Entry → State × List SlotIx
  | s, resumed, [] => (s, resumed)
  | s, resumed, e :: es => State.applyEntries (s.applyEntry e) (resumed ++ s.table.resumedBy e) es

/-! ### Batches -/

/-- A batch applied (R46): its entries in order, its port's applied ticket set, APPLIED posted to its port. -/
def State.applyBatch (s : State) (resumed : List SlotIx) (b : Batch) : State × List SlotIx :=
  let r := s.applyEntries resumed b.entries
  let s1 := r.1.setStaging b.port { r.1.staging b.port with appliedTicket := b.ticket }
  (s1.postApplied b.port b.ticket, r.2)

def State.applyBatches : State → List SlotIx → List Batch → State × List SlotIx
  | s, resumed, [] => (s, resumed)
  | s, resumed, b :: bs =>
    let r := s.applyBatch resumed b
    State.applyBatches r.1 r.2 bs

/-- The whole commit queue applied, head first, and emptied (R45, R46); with the slots resumed. -/
def State.applyQueue (s : State) : State × List SlotIx :=
  let r := s.applyBatches [] s.commitQueue
  ({ r.1 with commitQueue := [] }, r.2)

/-! ### Reserved slots and open batches -/

/-- Every slot RESERVED to a port becomes QUEUED (R5). -/
def Table.queueReserved (t : Table) (p : Port) : Table := t.reservedQueued p

/-- Every slot RESERVED to a port returns to FREE, generation advanced, owner cleared (R4). -/
def Table.releaseReserved (t : Table) (p : Port) : Table :=
  { t with slots := tabSlots fun ix =>
      match t.body ix with
      | .reserved o => if o = p then ⟨t.gen ix + 1, .free⟩ else ⟨t.gen ix, .reserved o⟩
      | b => ⟨t.gen ix, b⟩ }

/-- A port's open batch discarded and its RESERVED slots released (R4, R38, R39). -/
def State.discardOpen (s : State) (p : Port) : State :=
  let s1 := { s with table := s.table.releaseReserved p }
  s1.setStaging p { s1.staging p with openBatch := [] }

/-! ### Views of the state (R19) -/

/-- The projection: the live view with every queued batch applied. -/
def State.projection (s : State) (p : Port) : View := Machine.projection s.table s.commitQueue p

/-- The port view: the projection with the port's open batch applied. -/
def State.portView (s : State) (p : Port) : View := (s.projection p).applyAll (s.staging p).openBatch

end Sys2Proof.Machine
end

