-- ==== Sys2Proof/Machine/StagingCommands.lean ====
section
/-! DEFINITION. The staging commands (R24 to R37): each checks its parameters against the asking port's view and adds
an entry to the port's open batch. -/

namespace Sys2Proof.Machine

/-- An entry appended to the tail of a port's open batch (R24). -/
def State.appendEntry (s : State) (p : Port) (e : Entry) : State :=
  s.setStaging p { s.staging p with openBatch := (s.staging p).openBatch ++ [e] }

/-- The open batch already holds sixteen entries (R24 step 3). -/
def State.batchFull (s : State) (p : Port) : Bool := decide (Config.batchEntries ≤ (s.staging p).openBatch.length)

/-- The checks of R24 in their order, then acceptance, for a command other than OPEN. `allowed` is the permission
check, `e` the decoded entry, none where a coded value is not listed (R166). -/
def stage (p : Port) (allowed : Bool) (e : Option Entry) (s : State) : Reply × State :=
  if allowed = false then (.bare .notPermitted, s)
  else match e with
    | none => (.bare .badParam, s)
    | some e =>
      if e.inDomain = false then (.bare .badParam, s)
      else if s.batchFull p then (.bare .batchFull, s)
      else match (s.portView p).refuses p e with
        | some c => (.bare c, s)
        | none => (.bare .ok, s.appendEntry p e)

/-- A slot reserved to a port, its generation kept (R3). -/
def State.reserve (s : State) (p : Port) (ix : SlotIx) : State :=
  { s with table := s.table.setBody ix (.reserved p) }

/-- OPEN on the slot found FREE (R24 step 8, R25): the placement reference, then the reservation and the entry; the
response carries the handle. -/
def stageOpenAt (p : Port) (ix : SlotIx) (w : Window) (vis : Visibility) (pl : Placement) (s : State) :
    Reply × State :=
  let h := handleOf ix (s.table.gen ix)
  let e := Entry.window h (.create w vis pl)
  match (s.portView p).refuses p e with
  | some c => (.bare c, s)
  | none => (⟨.ok, [h.byte]⟩, (s.reserve p ix).appendEntry p e)

/-- OPEN (R3, R24, R25). -/
def stageOpen (p : Port) (params : List Byte) (s : State) : Reply × State :=
  if p = .b ∧ openAsksPinned params then (.bare .notPermitted, s)
  else match decodeOpen params with
    | none => (.bare .badParam, s)
    | some (w, vis, pl) =>
      if w.inDomain = false then (.bare .badParam, s)
      else if s.batchFull p then (.bare .batchFull, s)
      else match s.table.lowestFree with
        | none => (.bare .noSlot, s)
        | some ix => stageOpenAt p ix w vis pl s

/-- A staging command open to both ports that names a window. -/
def stageNamed (p : Port) (code : Byte) (params : List Byte) (s : State) : Reply × State :=
  stage p true (decodeNamed code params) s

/-- A staging command open to Port A that names a window. -/
def stagePrimary (p : Port) (code : Byte) (params : List Byte) (s : State) : Reply × State :=
  stage p (p == .a) (decodeNamed code params) s

/-! ### The rows -/

/-- OPEN (R25). -/
def execOpenWindow (p : Port) (s : State) : Host.Outcome State Fault Refusal := serve p 0x10 28 (stageOpen p) s

/-- PLACE (R27). -/
def execPlace (p : Port) (s : State) : Host.Outcome State Fault Refusal := serve p 0x11 9 (stageNamed p 0x11) s

/-- SOURCE (R28). -/
def execSource (p : Port) (s : State) : Host.Outcome State Fault Refusal := serve p 0x12 8 (stageNamed p 0x12) s

/-- LOOK (R29). -/
def execLook (p : Port) (s : State) : Host.Outcome State Fault Refusal := serve p 0x13 9 (stageNamed p 0x13) s

/-- SHOW (R30). -/
def execShowWindow (p : Port) (s : State) : Host.Outcome State Fault Refusal := serve p 0x14 1 (stageNamed p 0x14) s

/-- HIDE (R31). -/
def execHide (p : Port) (s : State) : Host.Outcome State Fault Refusal := serve p 0x15 1 (stageNamed p 0x15) s

/-- RESUME (R32). -/
def execResume (p : Port) (s : State) : Host.Outcome State Fault Refusal := serve p 0x18 1 (stageNamed p 0x18) s

/-- RESTACK (R33). -/
def execRestack (p : Port) (s : State) : Host.Outcome State Fault Refusal := serve p 0x16 3 (stageNamed p 0x16) s

/-- PIN (R34): Port A only. -/
def execPin (p : Port) (s : State) : Host.Outcome State Fault Refusal := serve p 0x17 2 (stagePrimary p 0x17) s

/-- RETIRE (R35). -/
def execRetire (p : Port) (s : State) : Host.Outcome State Fault Refusal := serve p 0x19 1 (stageNamed p 0x19) s

/-- RECLAIM (R36): Port A only. -/
def execReclaim (p : Port) (s : State) : Host.Outcome State Fault Refusal := serve p 0x1A 1 (stagePrimary p 0x1A) s

/-- BACKDROP (R37): Port A only; names no window. -/
def execBackdrop (p : Port) (s : State) : Host.Outcome State Fault Refusal :=
  serve p 0x1B 3 (fun params => stage p (p == .a) (decodeBackdrop params)) s

/-- A command whose code names no command is taken and refused with BAD_COMMAND (R147). -/
def execUnknownCommandCode (p : Port) (s : State) : Host.Outcome State Fault Refusal :=
  match s.servable p with
  | some c =>
    if paramLength c.code = none then .next (serveHead p c c.params.length (fun _ s => (.bare .badCommand, s)) s)
    else .next s
  | none => .next s

end Sys2Proof.Machine
end

