-- ==== Sys2Proof/Machine/BatchCommands.lean ====
section
/-! DEFINITION. COMMIT and ABANDON, and the link-reset abandon (R38 to R44, R49). -/

namespace Sys2Proof.Machine

/-- The batches of a port in the commit queue (R45, R160). -/
def State.queuedBatches (s : State) (p : Port) : Nat := (s.commitQueue.filter fun b => b.port == p).length

/-- The commit queue has no room for a batch of this port: it holds four, or two of the port (R40). -/
def State.queueFull (s : State) (p : Port) : Bool :=
  decide (Config.queueBatches ≤ s.commitQueue.length) || decide (Config.portBatches ≤ s.queuedBatches p)

/-- The ticket after a ticket: 255 wraps to 1, so 0 is never a ticket (R43). -/
def nextTicketOf (t : Byte) : Byte := if t = 255 then 1 else t + 1

/-- Steps 1 to 3 of R42's acceptance: the batch joins the queue with its port and ticket, the port's RESERVED slots
become QUEUED, the open batch becomes empty; and the next ticket moves on (R43). -/
def State.enqueue (s : State) (p : Port) : State :=
  let g := s.staging p
  let s1 := { s with
    table := s.table.queueReserved p
    commitQueue := s.commitQueue ++ [Batch.mk p g.nextTicket g.openBatch] }
  s1.setStaging p { g with openBatch := [], nextTicket := nextTicketOf g.nextTicket }

/-- An accepted COMMIT (R42): queued, and in output state OFF applied within the same act (R49). -/
def State.acceptCommit (s : State) (p : Port) : State :=
  let s1 := s.enqueue p
  if s1.raster.output = .off then s1.applyQueue.1 else s1

/-- The refusal of a COMMIT, with its failing-entry index: QUEUE_FULL (R40), the first entry that fails revalidation
(R41, with a code R162 lets COMMIT return; log 34), or an admission limit on the final projection (R42, R60). -/
def State.refusesCommit (s : State) (p : Port) : Option Reply :=
  if s.queueFull p then some ⟨.queueFull, [0xFF]⟩
  else match View.revalidate p (s.projection p) 0 (s.staging p).openBatch with
    | some (k, c) => some ⟨c, [BitVec.ofNat 8 k]⟩
    | none => match (s.portView p).overLimits s.raster.profile with
      | some c => some ⟨c, [0xFF]⟩
      | none => none

def commitBody (p : Port) (_ : List Byte) (s : State) : Reply × State :=
  match s.refusesCommit p with
  | some r => (r, s)
  | none => (⟨.ok, [(s.staging p).nextTicket]⟩, s.acceptCommit p)

/-- ABANDON's act: the number of entries discarded, and the open batch discarded (R38). -/
def abandonBody (p : Port) (_ : List Byte) (s : State) : Reply × State :=
  (⟨.ok, [BitVec.ofNat 8 (s.staging p).openBatch.length]⟩, s.discardOpen p)

/-! ### The rows -/

/-- COMMIT (R40 to R44, R49). -/
def execCommit (p : Port) (s : State) : Host.Outcome State Fault Refusal := serve p 0x20 0 (commitBody p) s

/-- ABANDON (R38). -/
def execAbandon (p : Port) (s : State) : Host.Outcome State Fault Refusal := serve p 0x21 0 (abandonBody p) s

/-- LINK_RESET_ABANDON (R39, R154): the open batch discarded as ABANDON does, the indication cleared, no response. -/
def execLinkResetAbandon (p : Port) (s : State) : Host.Outcome State Fault Refusal :=
  if s.grants (.abandon p) then
    let s1 := s.discardOpen p
    .next (s1.setLink p { s1.link p with abandonPending := false })
  else .next s

end Sys2Proof.Machine
end

