-- ==== Sys2Proof/WellFormed.lean ====
section
/-! DEFINITION. Which steps are well-formed as terms. A step that is not is refused by name (`illFormed`): it is no
step of the part, whatever its state (log 25). -/

namespace Sys2Proof

/-- The frame kinds that R143's table lists by code. -/
def Instr.knownKinds : List Byte := [0xC1, 0xD2, 0xE3, 0xF0, 0x00, 0xFF]

/-- Every beat of a completion but its final one has `last` clear (R169). -/
def Instr.oneCompletion : List Beat → Bool
  | [] => false
  | [_] => true
  | b :: rest => !b.last && Instr.oneCompletion rest

/-- The form of a step. A frame of no complete byte has no byte 0 and fewer than eight bits (R141). An idle kind is
00h or FFh and an unknown kind is none of the listed ones (R143). A completion arrives in at least one beat, and at
most its final beat has `last` set (R169). -/
def Instr.wf : Instr → Bool
  | .emptyFrame _ .fall => true
  | .emptyFrame _ .byte0 => false
  | .emptyFrame _ (.rise bits) => decide (bits.length < 8)
  | .idleFrame _ kind _ => kind == 0x00 || kind == 0xFF
  | .unknownFrameKind _ kind _ => !Instr.knownKinds.contains kind
  | .completion beats => Instr.oneCompletion beats
  | .deviceReset | .commandFrame .. | .read .. | .status .. | .linkReset .. => true
  | .unknownCommandCode _ | .openWindow _ | .place _ | .source _ | .look _ | .showWindow _ | .hide _ => true
  | .resume _ | .restack _ | .pin _ | .retire _ | .reclaim _ | .backdrop _ | .commit _ | .abandon _ => true
  | .queryWindow _ | .queryState _ | .takeNotices _ | .queryTiming _ | .outputStart _ | .outputLive _ => true
  | .outputQuiet _ | .outputStop _ | .setTiming _ | .setFetchTimeout _ | .resetFetch _ => true
  | .frameTurn | .frameTurnTaken | .suspensionRequestTaken | .linkResetAbandon _ | .lineStart => true
  | .tagTimeout _ | .activeLineStart | .activeLineEnd | .activeEnd | .fetchPick | .requestAccept => true
  | .pclkRisingEdge => true

end Sys2Proof
end

