-- ==== Sys2Proof/Machine/LinkFrames.lean ====
section
/-! DEFINITION. The link frames of a host port: EMPTY_FRAME, COMMAND_FRAME, READ, STATUS, LINK_RESET, IDLE_FRAME and
UNKNOWN_FRAME_KIND (R141 to R154). A frame is followed through three moments: chip select falls, byte 0 is complete,
chip select rises (log 4). -/

namespace Sys2Proof.Machine

/-! ### The moments of a frame -/

/-- Chip select falls: a frame begins and captures the status byte (R141, R142). While a frame is in progress chip
select is low and cannot fall. -/
def LinkPort.fall (l : LinkPort) : LinkPort :=
  match l.frame with
  | none => { l with frame := some ⟨l.statusByte, none, .nothing⟩ }
  | some _ => l

/-- Byte 0 is complete: the frame has its kind and what that kind captures (R143, R149, R151). -/
def LinkPort.kindRead (l : LinkPort) (kind : Byte) (capture : Capture) : LinkPort :=
  match l.frame with
  | some ⟨st, none, _⟩ => { l with frame := some ⟨st, some kind, capture⟩ }
  | _ => l

/-- The bytes of the part after the status byte: the kind's content (R143, R149, R151, 10.1). -/
def Capture.content : Capture → List Byte
  | .nothing => []
  | .response none => [0x00, 0x00]
  | .response (some r) =>
    let n : Byte := BitVec.ofNat 8 r.length
    (n :: r) ++ [crc8 (n :: r)]
  | .extendedStatus block => block ++ [crc8 block]

/-- Byte `k` of the part in a frame (R141, R142): byte 0 is the status byte, the bytes after it are the kind's content,
then 00h. The kind is known when byte 0 is complete, before byte 1 begins. -/
def Frame.drivenByte (f : Frame) : Nat → Byte
  | 0 => f.status
  | k + 1 => (f.capture.content[k]?).getD 0x00

/-- The data line, PA_SDO or PB_SDO, while bit `n` of a frame is clocked, most significant bit of a byte first: driven
while chip select is asserted, that is while a frame is in progress, and undriven (none) otherwise, so after device
reset until the next frame begins (R141, R156). -/
def LinkPort.sdoLevel (l : LinkPort) (n : Nat) : Option Bool :=
  l.frame.map fun f => (f.drivenByte (n / 8)).getMsbD (n % 8)

/-- The `n` bytes shifted out after the status byte: the content, then 00h (R141). -/
def Capture.shifted (c : Capture) (n : Nat) : List Byte := (c.content ++ List.replicate n 0x00).take n

/-- The content, its CRC byte included, was shifted out whole in `n` bytes (R149, R151). -/
def Capture.whole (c : Capture) (n : Nat) : Bool := decide (c.content.length ≤ n)

/-- Chip select rises on a frame of a kind: the bytes after byte 0 are assembled, the port acts on the frame, and the
frame is over (R141). A rise that finds no frame of that kind in progress ends none. -/
def LinkPort.rise (l : LinkPort) (kind : Byte) (bits : List Bool) (act : Capture → List Byte → LinkPort → LinkPort) :
    LinkPort :=
  match l.frame with
  | some ⟨st, some k, c⟩ =>
    if k = kind then
      let bytes := bytesOfBits bits
      { act c bytes l with frame := none, sdo := st :: c.shifted bytes.length }
    else l
  | _ => l

/-- Chip select of a port falls. While RST_N is asserted no frame begins (R141): one begins at the first fall after it is
released. -/
def State.csFall (s : State) (p : Port) : State := if s.rstAsserted then s else s.setLink p (s.link p).fall

/-- A moment of a frame on a port of the part. -/
def frameStep (p : Port) (kind : Byte) (capture : LinkPort → Capture)
    (act : Capture → List Byte → LinkPort → LinkPort) (m : Moment) (s : State) : State :=
  match m with
  | .fall => s.csFall p
  | .byte0 => s.setLink p ((s.link p).kindRead kind (capture (s.link p)))
  | .rise bits => s.setLink p ((s.link p).rise kind bits act)

/-! ### What the port does at the end of each kind -/

def LinkPort.setFrameError (l : LinkPort) : LinkPort := { l with frameError := true }

/-- The command a COMMAND frame carries, none where the frame is bad (R145): length byte in 2..40, the frame complete
up to its CRC byte, and the CRC over length and payload. -/
def commandOfBytes : List Byte → Option QueuedCommand
  | [] => none
  | n :: rest =>
    if n.toNat < 2 ∨ 40 < n.toNat then none
    else if rest.length < n.toNat + 1 then none
    else if rest[n.toNat]? ≠ some (crc8 (n :: rest.take n.toNat)) then none
    else match rest.take n.toNat with
      | seq :: code :: params => some ⟨seq, code, params⟩
      | _ => none

/-- A command admitted: it joins the tail of the command queue, or finds it full and sets DROPPED (R145). -/
def LinkPort.queued (l : LinkPort) (c : QueuedCommand) : LinkPort :=
  if Config.queueCommands ≤ l.commands.length then { l with dropped := true }
  else { l with commands := l.commands ++ [c] }

/-- The end of a COMMAND frame (R145). -/
def LinkPort.endCommand (l : LinkPort) (bytes : List Byte) : LinkPort :=
  match commandOfBytes bytes with
  | some c => l.queued c
  | none => l.setFrameError

/-- The end of a READ frame (R149): the head response leaves if its CRC byte was shifted out completely. -/
def LinkPort.endRead (c : Capture) (bytes : List Byte) (l : LinkPort) : LinkPort :=
  match c with
  | .response (some _) => if c.whole bytes.length then { l with responses := l.responses.tail } else l
  | _ => l

/-- The end of a STATUS frame (R151): the flags are cleared if the CRC byte was shifted out completely. -/
def LinkPort.endStatus (c : Capture) (bytes : List Byte) (l : LinkPort) : LinkPort :=
  if c.whole bytes.length then { l with dropped := false, frameError := false } else l

/-- A good link reset (R153 steps 1 to 5): queues, flags and notice set emptied, abandon pending, which stands for the
request at the table controller too (R154). -/
def LinkPort.resetLink (l : LinkPort) : LinkPort :=
  { l with commands := [], responses := [], dropped := false, frameError := false, notices := Notices.empty,
           abandonPending := true }

/-- The end of a LINK_RESET frame (R153): good when byte 1 is complete and DEh. -/
def LinkPort.endLinkReset (l : LinkPort) (bytes : List Byte) : LinkPort :=
  if bytes.head? = some 0xDE then l.resetLink else l.setFrameError

/-! ### The rows -/

/-- EMPTY_FRAME (R141): a frame that ends before byte 0 is complete is ignored. -/
def execEmptyFrame (p : Port) (m : Moment) (s : State) : Host.Outcome State Fault Refusal :=
  match m with
  | .fall => .next (s.csFall p)
  | .byte0 => .refused .illFormed
  | .rise bits =>
    if 8 ≤ bits.length then .refused .illFormed
    else match (s.link p).frame with
      | some ⟨_, none, _⟩ => .next (s.setLink p { s.link p with frame := none, sdo := [] })
      | _ => .next s

/-- COMMAND_FRAME (R143, R145): kind C1h. -/
def execCommandFrame (p : Port) (m : Moment) (s : State) : Host.Outcome State Fault Refusal :=
  .next (frameStep p 0xC1 (fun _ => .nothing) (fun _ bytes l => l.endCommand bytes) m s)

/-- READ (R143, R149): kind D2h; the head response is captured when byte 0 is complete. -/
def execRead (p : Port) (m : Moment) (s : State) : Host.Outcome State Fault Refusal :=
  .next (frameStep p 0xD2 (fun l => .response l.responses.head?) LinkPort.endRead m s)

/-- STATUS (R143, R151): kind E3h; the block is captured when byte 0 is complete. -/
def execStatus (p : Port) (m : Moment) (s : State) : Host.Outcome State Fault Refusal :=
  .next (frameStep p 0xE3 (fun l => .extendedStatus l.extendedStatus) LinkPort.endStatus m s)

/-- A moment of a LINK_RESET frame at its port (R143, R153): kind F0h. -/
def State.linkResetStep (s : State) (p : Port) (m : Moment) : State :=
  frameStep p 0xF0 (fun _ => .nothing) (fun _ bytes l => l.endLinkReset bytes) m s

/-- LINK_RESET (R143, R153). Where it makes an abandon request pending (R154), a command taken before it has left its queue
and is in service, and the request waits for the end of that (R20; log 31). -/
def execLinkReset (p : Port) (m : Moment) (s : State) : Host.Outcome State Fault Refusal :=
  match m with
  | .fall | .byte0 => .next (s.linkResetStep p m)
  | .rise _ =>
    if (s.link p).abandonPending = false ∧ ((s.linkResetStep p m).link p).abandonPending = true then
      .next (s.requested.linkResetStep p m)
    else .next (s.linkResetStep p m)

/-- IDLE_FRAME (R143): kind 00h or FFh, which only clocks the status byte. -/
def execIdleFrame (p : Port) (kind : Byte) (m : Moment) (s : State) : Host.Outcome State Fault Refusal :=
  if Instr.wf (.idleFrame p kind m) then .next (frameStep p kind (fun _ => .nothing) (fun _ _ l => l) m s)
  else .refused .illFormed

/-- UNKNOWN_FRAME_KIND (R143): FRAME_ERROR at the frame's end. -/
def execUnknownFrameKind (p : Port) (kind : Byte) (m : Moment) (s : State) : Host.Outcome State Fault Refusal :=
  if Instr.wf (.unknownFrameKind p kind m) then
    .next (frameStep p kind (fun _ => .nothing) (fun _ _ l => l.setFrameError) m s)
  else .refused .illFormed

end Sys2Proof.Machine
end

