-- ==== Sys2Proof/Machine/MemoryEvents.lean ====
section
/-! DEFINITION. The fetch arbiter's pick and the memory side: FETCH_PICK, REQUEST_ACCEPT and COMPLETION (R114 to R118,
R127, R129, R130, R169). -/

namespace Sys2Proof.Machine

/-- FETCH_PICK (R113 to R116, R126): where the output is LIVE, a tag is FREE, the channel is EMPTY and a candidate
exists, the fetch arbiter's candidate takes the lowest-numbered FREE tag and is offered. A frame turn reached, which may
change the output, comes first (R84, log 32). -/
def execFetchPick (s : State) : Host.Outcome State Fault Refusal :=
  if s.raster.output = .live ∧ s.mem.channel = none ∧ s.turnReached = false then
    match s.lowestFreeTag, s.bestCandidate with
    | some t, some (_, k) => .next (s.offer t k)
    | _, _ => .next s
  else .next s

/-- The tag an accepted offer named, its accepted field set where its entry still belongs to the offer (R127). -/
def Tag.acceptedNow : Tag → Tag
  | .waiting e => .waiting { e with accepted := true }
  | .quarantined e => .quarantined { e with accepted := true }
  | .free => .free

/-- REQUEST_ACCEPT (R127): the channel becomes EMPTY, and the tag's entry is marked accepted if the offer's epoch is
the current one. An acceptance while the channel is EMPTY changes nothing. -/
def execRequestAccept (s : State) : Host.Outcome State Fault Refusal :=
  match s.mem.channel with
  | none => .next s
  | some o =>
    let s1 := { s with mem := { s.mem with channel := none } }
    if o.epoch = s.mem.epoch then .next (s1.setTag o.tag (s.mem.tags[o.tag]).acceptedNow) else .next s1

/-- A tag becomes FREE, losing its entry; a STUCK fetch state becomes RUNNING (R130, R135). -/
def State.freeTag (s : State) (t : TagIx) : State :=
  let s1 := s.setTag t .free
  { s1 with mem := { s1.mem with fetchState := .running } }

/-- The status a completion is taken with for a WAITING tag (R129): OK only where it arrived as OK, its beats are as
many as the request's, and the request was accepted. -/
def TagEntry.takesOk (e : TagEntry) (error : Bool) (beats : Nat) : Bool := !error && beats == e.beats && e.accepted

/-- One more segment filled: READY when the count reaches segments per half (R117). -/
def Half.filledOne (h : Half) (segments : Nat) : Half :=
  { h with filled := h.filled + 1, cond := if h.filled + 1 = segments then .ready else .filling }

/-- The half an entry names is FILLING its row (R117). -/
def Half.fills (h : Half) (r : Nat) : Bool := h.row == some r && h.cond == .filling

/-- An OK completion delivered to the half (R117, R169): the data written at the segment, one more segment filled. The
half always holds the row (R117); a half that did not would be unchanged (R110). A segment outside the line store
faults (log 14). -/
def State.deliver (s : State) (e : TagEntry) (beats : List Beat) : Host.Outcome State Fault Refusal :=
  match e.handle.ix? with
  | none => .next s
  | some ix =>
    let st := s.streams[ix]
    let h := st.half e.half
    if h.fills e.row then
      match h.place, st.load with
      | some seg, some ld =>
        let bytes := dataBytes beats
        let at' := storeAddress (seg + e.segment) 0
        if at' + bytes.length ≤ storeBytes then
          .next (({ s with store := Memory.writeBytes s.store at' bytes }).setStream ix
            (st.setHalf e.half (h.filledOne ld.segments)))
        else .fault .lineStoreAddress
      | _, _ => .fault .lineStoreAddress
    else .next s

/-- An ERROR completion for an unmarked tag (R118): the half fails, and FETCH_FAULT with the stream's handle and the
cause ERROR goes to the stream's owner port. -/
def State.deliverError (s : State) (e : TagEntry) : State :=
  match s.loadOf e with
  | some ld => (s.failHalf e).postFetchFault ld.owner ld.handle .error
  | none => s.failHalf e

/-- A completion of the current epoch for a tag (R130, rows 2 to 6; R136). -/
def State.matchTag (s : State) (t : TagIx) (error : Bool) (beats : List Beat) :
    Host.Outcome State Fault Refusal :=
  match s.mem.tags[t] with
  | .free => .next s.postSpurious
  | .quarantined _ => .next (s.freeTag t)
  | .waiting e =>
    if e.discard then .next (s.freeTag t)
    else if e.takesOk error beats.length then (s.freeTag t).deliver e beats
    else .next ((s.freeTag t).deliverError e)

/-- The completion the beats make up, taken when its last beat arrives: tag, epoch and status of its first beat
(R169), matched against the epoch (R130 row 1). -/
def State.complete (s : State) (beats : List Beat) : Host.Outcome State Fault Refusal :=
  match beats with
  | [] => .next s
  | b :: _ => if b.epoch = s.mem.epoch then s.matchTag b.tag.toFin b.error beats else .next s

/-- Beats arrive (R169): until one has `last` set they only join those that have arrived; then the completion is
taken. A well-formed step carries `last` on its final beat at most, so the beats are held or taken whole. -/
def State.arrive (s : State) (beats : List Beat) : Host.Outcome State Fault Refusal :=
  let all := s.mem.beats ++ beats
  if beats.any (·.last) then ({ s with mem := { s.mem with beats := [] } }).complete all
  else .next { s with mem := { s.mem with beats := all } }

/-- COMPLETION (R129, R130, R169): ignored while RST_N is asserted. -/
def execCompletion (beats : List Beat) (s : State) : Host.Outcome State Fault Refusal :=
  if Instr.wf (.completion beats) then (if s.rstAsserted then .next s else s.arrive beats) else .refused .illFormed

end Sys2Proof.Machine
end

