-- ==== Sys2Proof/Machine/Raster.lean ====
section
/-! DEFINITION. The raster generator: the events of a raster position, the counters, the frame turn, and entering
and leaving OFF (R71 to R83). -/

namespace Sys2Proof.Machine

/-- The raster events of line `l`, pixel `q`, in the order they are emitted (R72, R73). -/
def Profile.eventsAt (t : Profile) (l q : Nat) : List RasterEvent :=
  (if q = 0 then
    RasterEvent.lineStart l :: (if l = t.vActiveStart + t.vActiveHeight then [RasterEvent.frameTurn] else []) else []) ++
  (if inInterval t.vActiveStart t.vActiveHeight l then
    (if q = t.hActiveStart then [RasterEvent.activeLineStart (l - t.vActiveStart)] else []) ++
    (if q = t.hActiveStart + t.hActiveWidth then
      RasterEvent.activeLineEnd (l - t.vActiveStart) ::
        (if l - t.vActiveStart + 1 = t.vActiveHeight then [RasterEvent.activeEnd] else []) else []) else [])

/-- An event may be taken: it is the first of those emitted and not yet taken, or it is the frame turn, which its
line's line start does not order (R72, R73, log 8). -/
def Raster.takeable (r : Raster) (e : RasterEvent) : Bool :=
  r.due.head? == some e || (e == .frameTurn && r.due.contains .frameTurn)

/-- An event taken. -/
def Raster.took (r : Raster) (e : RasterEvent) : Raster := { r with due := r.due.erase e }

/-- The counters advanced by one rising edge of PCLK, and the events of the position reached emitted (R71, R72). -/
def Raster.advanced (r : Raster) : Raster :=
  let wrap := decide (r.profile.hTotal ≤ r.pixel + 1)
  let q := if wrap then 0 else r.pixel + 1
  let l := if wrap then (if r.profile.vTotal ≤ r.line + 1 then 0 else r.line + 1) else r.line
  { r with pixel := q, line := l, due := r.profile.eventsAt l q }

/-- Steps 1 and 2 of R73: the settle count, and the pending target resolved (R77, R78). -/
def Raster.turned (r : Raster) : Raster :=
  let n := min (r.settle + 1) 2
  match r.target with
  | .syncOnly => { r with settle := n, target := .none, output := .syncOnly, linesBegun := 0 }
  | .live =>
    if n = 2 then { r with settle := n, target := .none, output := .live, linesBegun := 0 }
    else { r with settle := n, linesBegun := 0 }
  | .none => { r with settle := n, linesBegun := 0 }

/-- The frame turn's act in the raster generator and its signal to the table controller (R73 steps 1 to 3): the coming
output state, and a change flag, set if the state changed or a frame turn still pending, which this one replaces, carried
one. Every suspension request now on the list became pending before it (R20, log 11). -/
def State.signalTurn (s : State) : State :=
  let r := s.raster.turned
  let carried := match s.turn with
    | some t => t.changed
    | none => false
  { s with
    raster := r
    turn := some ⟨r.output, r.output != s.raster.output || carried, s.suspensions.length⟩ }

/-- The next raster position is reached (R71, R72). Where it is that of the frame turn, the turn arrives, and becomes
pending, at that moment: an output command taken before it has come first, and one still in its queue comes after it (R20,
R73, R84; log 31). -/
def State.reached (s : State) : State :=
  let s1 := if s.raster.advanced.due.contains .frameTurn then s.requested else s
  { s1 with raster := s1.raster.advanced }

/-- OUTPUT_START's change in the raster generator (R80 steps 1 to 3): SYNC_ONLY, counters released from line 0, pixel
0, the events of that position emitted, settle count 0, no pending target. -/
def Raster.started (r : Raster) : Raster :=
  { r with output := .syncOnly, pixel := 0, line := 0, settle := 0, target := .none,
           due := r.profile.eventsAt 0 0, linesBegun := 0 }

/-- OUTPUT_STOP's change in the raster generator (R83 steps 1, 2 and 4); events not yet taken are not emitted. -/
def Raster.stopped (r : Raster) : Raster :=
  { r with output := .off, pixel := 0, line := 0, settle := 0, target := .none, due := [], linesBegun := 0 }

end Sys2Proof.Machine
end

