-- ==== Sys2Proof/Machine/Compose.lean ====
section
/-! DEFINITION. The compositor: lane assignment at an active-line start, source formats, key colour, alpha and
blending, and the pins of a raster position (R75, R89 to R102). -/

namespace Sys2Proof.Machine

/-! ### Source formats (R95 to R97) -/

/-- A 5-bit field widened to 0..255: v × 8 + floor(v / 4) (R96). -/
def widen5 (v : Nat) : Byte := BitVec.ofNat 8 (v * 8 + v / 4)

/-- A 6-bit field widened to 0..255: v × 4 + floor(v / 16) (R96). -/
def widen6 (v : Nat) : Byte := BitVec.ofNat 8 (v * 4 + v / 16)

/-- The source colour of a C16 value: red in bits 15..11, green in 10..5, blue in 4..0 (R96). -/
def c16Colour (v : Nat) : Colour := ⟨widen5 (v / 2048 % 32), widen6 (v / 32 % 64), widen5 (v % 32)⟩

/-- Source colour and pixel alpha of a pixel whose first byte stands at an address of the store (R95, R96, R97). -/
def decodePixel (store : List Host.Cell) (a : Nat) (f : Format) (fill : Colour) : Colour × Byte :=
  match f with
  | .c32 => (⟨Memory.read store (a + 2), Memory.read store (a + 1), Memory.read store a⟩, Memory.read store (a + 3))
  | .c16 => (c16Colour ((Memory.read store (a + 1)).toNat * 256 + (Memory.read store a).toNat), 255)
  | .a8 => (fill, Memory.read store a)

/-! ### Alpha and blending (R99, R100) -/

/-- Effective alpha: floor((p × g + 127) / 255) (R99). -/
def effectiveAlpha (p g : Byte) : Nat := (p.toNat * g.toNat + 127) / 255

/-- One channel blended: floor((s × a + d × (255 - a) + 127) / 255) (R100). -/
def blendChannel (s d : Byte) (a : Nat) : Byte :=
  BitVec.ofNat 8 ((s.toNat * a + d.toNat * (255 - a) + 127) / 255)

/-- The three channels blended alike (R100). -/
def blend (s d : Colour) (a : Nat) : Colour :=
  ⟨blendChannel s.red d.red a, blendChannel s.green d.green a, blendChannel s.blue d.blue a⟩

/-! ### The lane table (R89, R91, R92) -/

/-- The covered span of a window on a line of `width` active pixels (R91). -/
def coveredSpan (x : Int) (w width : Nat) : Option (Nat × Nat) :=
  let first := max x 0
  let stop := min (x + (w : Int)) (width : Int)
  if first < stop then some (first.toNat, (stop - 1).toNat) else none

/-- The row source of a window's row (R92): HALF where the stream loaded for the window has the half holding the row
READY, else FILL. -/
def State.rowSource (s : State) (ix : SlotIx) (h : Handle) (r : Nat) : RowSource :=
  let st := s.streams[ix]
  if st.loaded && (st.load.map StreamLoad.handle == some h) then
    match st.readyHalf r with
    | some i => .half i
    | none => .fill
  else .fill

/-- The lane a slot takes on active line `l`: one where the slot is SHOWN and its rows cover the line (R91). -/
def State.laneFor (s : State) (l : Nat) (ix : SlotIx) : Option Lane :=
  match s.table.body ix with
  | .opened _ .shown w =>
    let g := w.geometry
    if g.y ≤ (l : Int) ∧ (l : Int) < g.y + (g.height : Int) then
      let h := handleOf ix (s.table.gen ix)
      let r := ((l : Int) - g.y).toNat
      some ⟨h, r, g.x, coveredSpan g.x g.width s.raster.profile.hActiveWidth, w.source.format, w.look.alpha,
        w.look.fill, w.look.key, s.rowSource ix h r⟩
    else none
  | _ => none

/-- The lane table filled for active line `l` (R91): the windows taken, bottom to top, in lanes 1 upward. The lane law (R55)
bounds them at six; a seventh would find no lane (log 22). -/
def State.filledLanes (s : State) (l : Nat) : Vector (Option Lane) 6 :=
  let taken := s.table.zorder.filterMap (s.laneFor l)
  tabLanes fun i => taken[i.val]?

/-- Every lane vacant (R89). -/
def vacantLanes : Vector (Option Lane) 6 := tabLanes fun _ => none

/-- What an active line is composed from, as its active-line start leaves it (R75, R90, R91): the background latched, and
the lanes filled in LIVE, vacant in SYNC_ONLY. -/
def State.withLine (s : State) (l : Nat) : State :=
  { s with
    lanes := if s.raster.output = .live then s.filledLanes l else vacantLanes
    lineBackground := s.table.background }

/-! ### The pixel (R94, R98, R101) -/

/-- The store address of the first byte of source pixel `i` of a half; none where the half has no place. -/
def Half.pixelAddress (h : Half) (f : Format) (i : Nat) : Option Nat :=
  h.place.map fun seg => storeAddress seg (i * f.bytesPerPixel)

/-- The half a HALF lane reads. -/
def State.laneHalf (s : State) (l : Lane) (i : HalfId) : Option Half :=
  l.handle.ix?.map fun ix => s.streams[ix].half i

/-- The store address a lane reads for active pixel `x`: source pixel x - (window x) of the half (R94). None for a
FILL lane and for a pixel outside the covered span. -/
def State.laneAddress (s : State) (l : Lane) (x : Nat) : Option (Option Nat) :=
  match l.span, l.source with
  | some (f, e), .half i =>
    if f ≤ x ∧ x ≤ e then
      some ((s.laneHalf l i).bind fun h => h.pixelAddress l.format ((x : Int) - l.x).toNat)
    else none
  | _, _ => none

/-- Every pixel a HALF lane reads at active pixel `x` lies in the line store. -/
def State.lanesInStore (s : State) (x : Nat) : Bool :=
  s.lanes.toList.all fun lane =>
    match lane with
    | none => true
    | some l => match s.laneAddress l x with
      | none => true
      | some none => false
      | some (some a) => decide (a + l.format.bytesPerPixel ≤ storeBytes)

/-- The key colour makes a HALF lane's pixel transparent (R98); an A8 lane is never compared. -/
def Lane.keyed (l : Lane) (c : Colour) : Bool := l.format != .a8 && l.key == some c

/-- A lane's contribution at active pixel `x` laid over the working colour (R94 steps 2 to 4). -/
def State.layLane (s : State) (x : Nat) (d : Colour) (l : Lane) : Colour :=
  match l.span with
  | none => d
  | some (f, e) =>
    if f ≤ x ∧ x ≤ e then
      match l.source with
      | .fill => blend l.fill d (effectiveAlpha 255 l.alpha)
      | .half _ =>
        let a := ((s.laneAddress l x).bind id).getD 0
        let px := decodePixel s.store a l.format l.fill
        if l.keyed px.1 then d else blend px.1 d (effectiveAlpha px.2 l.alpha)
    else d

/-- The composed colour of active pixel `x`: the background read at the active-line start, then lanes 1 to 6 (R94). -/
def State.composed (s : State) (x : Nat) : Colour :=
  s.lanes.toList.foldl (fun d lane => match lane with | some l => s.layLane x d l | none => d) s.lineBackground

/-- A colour on PD: red on bits 23..16, green on 15..8, blue on 7..0 (R94). -/
def Colour.pd (c : Colour) : BitVec 24 := c.red ++ c.green ++ c.blue

/-- The pins of the raster position reached, in SYNC_ONLY and LIVE (R74, R75, R102). In SYNC_ONLY the lane table is
vacant, and the composed colour is the background. -/
def State.positionPins (s : State) : Pins :=
  let r := s.raster
  let t := r.profile
  let active := t.activeAt r.line r.pixel
  ⟨t.hsAt r.pixel, t.vsAt r.line, active,
    if active then
      (match r.output with
       | .live => (s.composed (r.pixel - t.hActiveStart)).pd
       | _ => s.lineBackground.pd)
    else 0⟩

/-- The active line whose start stands emitted and not yet taken at the position reached. -/
def Raster.lineStartDue (r : Raster) : Option Nat :=
  r.due.findSome? fun e =>
    match e with
    | .activeLineStart l => some l
    | _ => none

/-- The part as the position's pixel sees it: at the first active pixel of a line, whose active-line start comes at the
same position, with what that start leaves (R72, R75, R90, R91; log 7). -/
def State.atLineStart (s : State) : State :=
  match s.raster.lineStartDue with
  | some l => s.withLine l
  | none => s

/-- The pins driven for the position reached (R74, R75). -/
def State.pinsDriven (s : State) : State := { s with pins := s.atLineStart.positionPins }

/-- The pixel of the position reached would be read outside the line store (log 14). -/
def State.pixelFault (s : State) : Bool :=
  let r := s.raster
  r.output == .live && r.profile.activeAt r.line r.pixel &&
    !s.atLineStart.lanesInStore (r.pixel - r.profile.hActiveStart)

/-- The pins driven, or the fault of a pixel outside the line store. -/
def State.drive (s : State) : Host.Outcome State Fault Refusal :=
  if s.pixelFault then .fault .lineStoreAddress else .next s.pinsDriven

end Sys2Proof.Machine
end

