-- ==== Sys2Proof/Machine/OutputCommands.lean ====
section
/-! DEFINITION. The output, timing and fetch commands of Port A: OUTPUT_START, OUTPUT_LIVE, OUTPUT_QUIET, OUTPUT_STOP,
SET_TIMING, SET_FETCH_TIMEOUT and RESET_FETCH (R69, R79 to R83, R132, R137). -/

namespace Sys2Proof.Machine

/-- The output brought from OFF into SYNC_ONLY (R80 steps 1 to 4). -/
def State.startOutput (s : State) : State := ({ s with raster := s.raster.started }).pinsDriven.postOutput .syncOnly

def startAct (s : State) : ResultCode × State :=
  match s.raster.output with
  | .off => if s.raster.profile.valid then (.ok, s.startOutput) else (.badTiming, s)
  | _ => (.wrongState, s)

/-- The raster generator, the pins and the lane table enter OFF (R83, R89, R93). An event whose row has not come is
dropped (log 10); a frame turn reached while this command was in service stays pending, and is found in OFF (R48, R83;
log 31). -/
def State.enterOff (s : State) : State :=
  { s with raster := s.raster.stopped, pins := s.raster.profile.offPins, lanes := vacantLanes }

/-- OUTPUT_STOP in SYNC_ONLY or LIVE (R50, R83): OFF, the commit queue applied, streams off, OUTPUT posted. -/
def State.stopOutput (s : State) : State := s.enterOff.applyQueue.1.streamsOff.postOutput .off

def stopAct (s : State) : ResultCode × State :=
  match s.raster.output with
  | .off => (.ok, s)
  | _ => (.ok, s.stopOutput)

/-- The live view, as the admission checks of SET_TIMING see it (R63). -/
def State.liveView (s : State) : View := ⟨s.table, []⟩

/-- The checks of SET_TIMING after its permission check (R69 steps 2 to 5, R63): the refusal, or the new profile. -/
def State.checkTiming (s : State) (params : List Byte) : Except ResultCode Profile :=
  if s.raster.output ≠ .off then .error .wrongState
  else match decodeProfile params with
    | none => .error .badTiming
    | some t =>
      if t.inRange = false then .error .badTiming
      else if t.relations = false then .error .badTiming
      else if Config.lanes < peakLanes s.liveView.countedWindows t.activeHeight then .error .overLanes
      else .ok t

/-- SET_TIMING (R69): the whole profile replaced; HS and VS go at once to the new inactive levels (R74). -/
def setTimingBody (p : Port) (params : List Byte) (s : State) : Reply × State :=
  match p with
  | .b => (.bare .notPermitted, s)
  | .a => match s.checkTiming params with
    | .error c => (.bare c, s)
    | .ok t => (.bare .ok, { s with raster := { s.raster with profile := t }, pins := t.offPins })

/-- SET_FETCH_TIMEOUT (R132). -/
def setFetchTimeoutBody (p : Port) (params : List Byte) (s : State) : Reply × State :=
  match p with
  | .b => (.bare .notPermitted, s)
  | .a => match decodeTimeout params with
    | none => (.bare .badParam, s)
    | some n => (.bare .ok, { s with mem := { s.mem with timeout := n } })

/-- RESET_FETCH on a stream (R123): halves EMPTY, excused, RUNNING becomes IDLE; the rest is kept. -/
def Stream.fetchReset (st : Stream) : Stream :=
  { st with
    cond := if st.cond = .running then .idle else st.cond
    halfA := st.halfA.emptied
    halfB := st.halfB.emptied
    excused := true }

/-- RESET_FETCH's act (R93, R123, R137). -/
def State.resetFetch (s : State) : State :=
  let s1 := { s with
    mem := { s.mem with epoch := s.mem.epoch + 1, tags := tabTags fun _ => .free, fetchState := .running }
    streams := tabSlots fun ix => s.streams[ix].fetchReset }
  s1.fillLanes fun _ => true

def resetFetchBody (p : Port) (_ : List Byte) (s : State) : Reply × State :=
  match p with
  | .b => (.bare .notPermitted, s)
  | .a => (⟨.ok, [s.resetFetch.mem.epoch]⟩, s.resetFetch)

/-! ### The rows -/

/-- OUTPUT_START (R80). -/
def execOutputStart (p : Port) (s : State) : Host.Outcome State Fault Refusal :=
  serve p 0x40 0 (outputCommand p startAct) s

/-- OUTPUT_LIVE (R81). -/
def execOutputLive (p : Port) (s : State) : Host.Outcome State Fault Refusal :=
  serve p 0x41 0 (outputCommand p liveAct) s

/-- OUTPUT_QUIET (R82). -/
def execOutputQuiet (p : Port) (s : State) : Host.Outcome State Fault Refusal :=
  serve p 0x42 0 (outputCommand p quietAct) s

/-- OUTPUT_STOP (R50, R83). -/
def execOutputStop (p : Port) (s : State) : Host.Outcome State Fault Refusal :=
  serve p 0x43 0 (outputCommand p stopAct) s

/-- SET_TIMING (R69). -/
def execSetTiming (p : Port) (s : State) : Host.Outcome State Fault Refusal := serve p 0x44 22 (setTimingBody p) s

/-- SET_FETCH_TIMEOUT (R132). -/
def execSetFetchTimeout (p : Port) (s : State) : Host.Outcome State Fault Refusal :=
  serve p 0x45 1 (setFetchTimeoutBody p) s

/-- RESET_FETCH (R137). -/
def execResetFetch (p : Port) (s : State) : Host.Outcome State Fault Refusal := serve p 0x46 0 (resetFetchBody p) s

end Sys2Proof.Machine
end

