-- ==== Sys2Proof/Machine/QueryCommands.lean ====
section
/-! DEFINITION. QUERY_WINDOW, QUERY_STATE, TAKE_NOTICES and QUERY_TIMING (R22, R159, R160, R70). -/

namespace Sys2Proof.Machine

/-! ### QUERY_WINDOW (R22, 10.4) -/

/-- Geometry, source, look, suspend threshold, pinned and segment need of a record: offsets 7 to 32 (10.4). -/
def Window.recordBytes (w : Window) : List Byte :=
  w.geometry.bytes ++ w.source.bytes ++ w.look.bytes ++
    [byteOfNat w.threshold 0, flagByte w.pinned, byteOfNat w.need 0]

/-- The record as a view holds it; 26 bytes of 00h where it is absent (10.4). -/
def SlotBody.recordBytes (b : SlotBody) : List Byte :=
  match b.window? with
  | some w => w.recordBytes
  | none => List.replicate 26 0x00

/-- The owner of a slot that is not FREE (R12). -/
def SlotBody.owner? : SlotBody → Option Port
  | .free => none
  | .reserved o | .queued o | .opened o _ _ => some o

def SlotBody.ownerByte (b : SlotBody) : Byte :=
  match b.owner? with
  | some o => portByte o
  | none => 0x00

/-- The starvation count QUERY_WINDOW reports: the fetch engine's while the live state is SHOWN or SUSPENDED, else 0
(R22). -/
def State.reportedCount (s : State) (ix : SlotIx) : Nat :=
  if (s.table.body ix).counted.isSome then s.streams[ix].count else 0

/-- The QUERY_WINDOW result data for a slot seen in a view (10.4). -/
def State.windowData (s : State) (seen : SlotBody) (gen : Nibble) (retiring : Bool) (ix : SlotIx) : List Byte :=
  [seen.byte, flagByte retiring, seen.ownerByte, (handleOf ix gen).byte] ++ seen.recordBytes ++
    [(s.table.body ix).byte, byteOfNat (s.reportedCount ix) 0]

/-- QUERY_WINDOW in the LIVE view. -/
def State.queryLive (s : State) (h : Handle) : Reply :=
  match s.table.resolveLive h with
  | .error c => .bare c
  | .ok ix => ⟨.ok, s.windowData (s.table.body ix) (s.table.gen ix) false ix⟩

/-- QUERY_WINDOW in the PROJECTED view: the asking port's view. -/
def State.queryProjected (s : State) (p : Port) (h : Handle) : Reply :=
  let v := s.portView p
  match v.resolve h with
  | .error c => .bare c
  | .ok ix => ⟨.ok, s.windowData (v.table.body ix) (v.table.gen ix) (v.isRetiring ix) ix⟩

def queryWindowBody (p : Port) (params : List Byte) (s : State) : Reply × State :=
  match decodeQueryWindow params with
  | none => (.bare .badParam, s)
  | some (h, projected) => (if projected then s.queryProjected p h else s.queryLive h, s)

/-! ### QUERY_STATE (R160, 10.4) -/

def State.stateBlock (s : State) (p : Port) : List Byte :=
  [s.raster.output.byte, s.raster.target.byte, byteOfNat s.raster.settle 0,
   byteOfNat (s.queuedBatches .a) 0, byteOfNat (s.queuedBatches .b) 0,
   s.stagingA.appliedTicket, s.stagingB.appliedTicket, (s.staging p).nextTicket,
   byteOfNat (s.staging p).openBatch.length 0] ++
  bytes16 s.table.free.toNat ++
  [byteOfNat s.table.freeSlots 0, s.mem.fetchState.byte, s.mem.epoch, byteOfNat s.mem.timeout 0]

def queryStateBody (p : Port) (_ : List Byte) (s : State) : Reply × State := (⟨.ok, s.stateBlock p⟩, s)

/-! ### TAKE_NOTICES (R159, R168) -/

/-- A per-slot kind's entries in ascending slot number: its kind code and the handle byte. -/
def slotNotices (code : Byte) (gens : Vector (Option Nibble) 15) : List (List Byte) :=
  allSlots.filterMap fun ix => (gens[ix]).map fun g => [code, (handleOf ix g).byte]

/-- The kind code of a FETCH_FAULT entry: its cause (R168). -/
def FaultCause.code : FaultCause → Byte
  | .error => 0x07
  | .timeout => 0x08

/-- The entries of a notice set in the order of R159, two bytes each (R168). -/
def Notices.entries (n : Notices) : List (List Byte) :=
  (match n.applied with
   | some t => [[0x01, t]]
   | none => []) ++
  (match n.output with
   | some o => [[0x02, o.byte]]
   | none => []) ++
  (if n.fetchStuck then [[0x03, 0x00]] else []) ++
  (if n.spurious then [[0x04, 0x00]] else []) ++
  slotNotices 0x05 n.suspended ++ slotNotices 0x06 n.reclaimed ++
  (allSlots.filterMap fun ix => (n.fetchFault[ix]).map fun f => [f.2.code, (handleOf ix f.1).byte])

/-- TAKE_NOTICES's act: the set answered and emptied (R159). Where a link reset of the port came after the take, it
emptied the set, and what was posted since is held (R153, R154). -/
def takeNoticesBody (p : Port) (_ : List Byte) (s : State) : Reply × State :=
  let es := (s.link p).notices.entries
  (⟨.ok, byteOfNat es.length 0 :: es.flatten⟩,
    if (s.link p).abandonPending then s else s.post p fun _ => Notices.empty)

/-! ### QUERY_TIMING (R70) -/

def queryTimingBody (_ : List Byte) (s : State) : Reply × State :=
  (⟨.ok, flagByte s.raster.profile.valid :: s.raster.profile.bytes⟩, s)

/-! ### The rows -/

/-- QUERY_WINDOW (R22). -/
def execQueryWindow (p : Port) (s : State) : Host.Outcome State Fault Refusal := serve p 0x30 2 (queryWindowBody p) s

/-- QUERY_STATE (R160). -/
def execQueryState (p : Port) (s : State) : Host.Outcome State Fault Refusal := serve p 0x31 0 (queryStateBody p) s

/-- TAKE_NOTICES (R159). -/
def execTakeNotices (p : Port) (s : State) : Host.Outcome State Fault Refusal := serve p 0x32 0 (takeNoticesBody p) s

/-- QUERY_TIMING (R70). -/
def execQueryTiming (p : Port) (s : State) : Host.Outcome State Fault Refusal := serve p 0x33 0 queryTimingBody s

end Sys2Proof.Machine
end

