-- ==== Sys2Proof/Machine/RasterEvents.lean ====
section
/-! DEFINITION. PCLK and the raster events: PCLK_RISING_EDGE, FRAME_TURN, LINE_START, TAG_TIMEOUT, ACTIVE_LINE_START,
ACTIVE_LINE_END and ACTIVE_END (R71 to R73, R91, R111, R112, R120, R133). A row takes its event where the raster
generator has emitted it; where it has not, nothing happens (log 3). -/

namespace Sys2Proof.Machine

def State.tookEvent (s : State) (e : RasterEvent) : State := { s with raster := s.raster.took e }

/-- The event that is first of those emitted and not yet taken. -/
def State.nextEvent (s : State) : Option RasterEvent := s.raster.due.head?

/-- The line start's act at the memory read port (R133): every WAITING tag ages, then those whose age has reached the
fetch timeout are quarantined. -/
def State.lineStartAct (s : State) : State := allTags.foldl State.timeoutTag s.ageTags

/-- A row examined at the active-line start of line `l` (R111): where no half READY for it exists the
starved-this-frame flag is set, unless the stream is excused. -/
def Stream.examined (st : Stream) (l : Nat) : Stream :=
  match st.rowOn l with
  | some r => if (st.readyHalf r).isSome || st.excused then st else { st with starved := true }
  | none => st

/-- The active-line start's act (R90, R91, R111): background latched, lanes filled in LIVE and vacant in SYNC_ONLY,
rows examined, and the row counted as begun (R106). -/
def State.activeLineStartAct (s : State) (l : Nat) : State :=
  { s.withLine l with
    streams := tabSlots fun ix => s.streams[ix].examined l
    raster := { s.raster with linesBegun := l + 1 } }

/-- The half of a loaded stream released at the active-line end of line `l`, with its row (R112). -/
def Stream.releasedHalf (st : Stream) (l : Nat) : Option (HalfId × Nat) :=
  match st.rowOn l with
  | some r => (st.holding r).map fun i => (i, r)
  | none => none

/-- A half released at the end of its row: the row two below where the stream is RUNNING and that row is visible, else
EMPTY (R112). -/
def Stream.lineEnded (st : Stream) (l : Nat) : Stream :=
  match st.releasedHalf l with
  | some (i, r) =>
    if st.cond = .running ∧ rowVisible st.visible (r + 2) then st.setHalf i ((st.half i).take (r + 2))
    else st.setHalf i (st.half i).emptied
  | none => st

/-- An entry was requested for the half and row a stream releases at the end of line `l` (R112). -/
def State.releasesTag (s : State) (l : Nat) (e : TagEntry) : Bool :=
  match e.handle.ix? with
  | some ix => s.streams[ix].releasedHalf l == some (e.half, e.row)
  | none => false

/-- The active-line end's act (R112). -/
def State.activeLineEndAct (s : State) (l : Nat) : State :=
  ({ s with streams := tabSlots fun ix => s.streams[ix].lineEnded l }).markTags (s.releasesTag l)

/-- The starvation accounting closes for a stream (R120): it is loaded and has visible rows. -/
def Stream.accounted (st : Stream) : Bool := st.loaded && st.visible.isSome

/-- Steps 1 to 4 of R120. -/
def Stream.frameEnded (st : Stream) : Stream :=
  if st.accounted then
    { st with
      excused := false
      starved := false
      count := if st.excused then st.count else if st.starved then min (st.count + 1) 15 else 0 }
  else st

/-- Step 5 of R120: the handle for which a suspension request is due, on the stream after steps 1 to 4. -/
def Stream.requestDue (st : Stream) : Option Handle :=
  match st.load with
  | some ld => if st.accounted ∧ ld.threshold ≠ 0 ∧ ld.threshold ≤ st.count then some ld.handle else none
  | none => none

/-- A request added to the list unless the list already holds one for that slot (R121). -/
def addRequest (list : List Handle) (h : Handle) : List Handle :=
  if list.any fun g => g.slot == h.slot then list else list ++ [h]

/-- The active end's act (R120, R121). No rule orders the requests of several streams due at one active end: they are
sent in ascending slot number (DESIGN CHOICE, log 33). Where one is sent, a command taken before it is in service, and
the request waits for the end of that (R20; log 31). -/
def State.activeEndAct (s : State) : State :=
  let streams := tabSlots fun ix => s.streams[ix].frameEnded
  let suspensions := (allSlots.filterMap fun ix => streams[ix].requestDue).foldl addRequest s.suspensions
  { (if suspensions = s.suspensions then s else s.requested) with streams := streams, suspensions := suspensions }

/-! ### Taking the events of a position -/

/-- An event of the position reached comes about: the act of its rule, in the blocks it is sent to. -/
def State.takeEvent (s : State) (e : RasterEvent) : Host.Outcome State Fault Refusal :=
  match e with
  | .lineStart _ => .next (s.tookEvent e).lineStartAct
  | .frameTurn => .next (s.tookEvent e).signalTurn
  | .activeLineStart l => ((s.tookEvent e).activeLineStartAct l).drive
  | .activeLineEnd l => .next ((s.tookEvent e).activeLineEndAct l)
  | .activeEnd => .next (s.tookEvent e).activeEndAct

/-- Events come about one after the other, up to the first that faults. -/
def State.takeEvents : List RasterEvent → State → Host.Outcome State Fault Refusal
  | [], s => .next s
  | e :: es, s => match s.takeEvent e with
    | .next t => State.takeEvents es t
    | .fault f => .fault f
    | .refused r => .refused r

/-- The counters advance by one position, the events of the position reached are emitted, and the pins take its levels
(R71, R72, R74, R75). -/
def State.advance (s : State) : Host.Outcome State Fault Refusal := s.reached.drive

/-! ### The rows -/

/-- PCLK_RISING_EDGE (R71, R72, R74, R75, R87): in SYNC_ONLY and LIVE the counters advance. In OFF they are held. An
event of the position held whose own row has not come comes about first, for it belongs to that position (log 6). -/
def execPclkRisingEdge (s : State) : Host.Outcome State Fault Refusal :=
  if s.raster.output = .off then .next s
  else match State.takeEvents s.raster.due s with
    | .next t => t.advance
    | .fault f => .fault f
    | .refused r => .refused r

/-- FRAME_TURN (R73): the three changes of a frame turn reached. It arrived with the edge that reached its line (R84), and
every requester waits for this row since (DESIGN CHOICE, log 32). -/
def execFrameTurn (s : State) : Host.Outcome State Fault Refusal :=
  if s.raster.takeable .frameTurn then s.takeEvent .frameTurn else .next s

/-- LINE_START (R133). -/
def execLineStart (s : State) : Host.Outcome State Fault Refusal :=
  match s.nextEvent with
  | some (.lineStart l) => s.takeEvent (.lineStart l)
  | _ => .next s

/-- TAG_TIMEOUT (R133): the part of a line start that ages one tag and quarantines it, taken ahead of the rest where
the line start is due and the tag's age reaches the fetch timeout by it (log 9). -/
def execTagTimeout (t : TagIx) (s : State) : Host.Outcome State Fault Refusal :=
  match s.nextEvent with
  | some (.lineStart _) => match s.mem.tags[t] with
    | .waiting e =>
      if s.mem.timeout ≤ agedBy e.age then .next (s.quarantine t { e with age := agedBy e.age }) else .next s
    | _ => .next s
  | _ => .next s

/-- ACTIVE_LINE_START (R75, R90, R91, R111). -/
def execActiveLineStart (s : State) : Host.Outcome State Fault Refusal :=
  match s.nextEvent with
  | some (.activeLineStart l) => s.takeEvent (.activeLineStart l)
  | _ => .next s

/-- ACTIVE_LINE_END (R112). -/
def execActiveLineEnd (s : State) : Host.Outcome State Fault Refusal :=
  match s.nextEvent with
  | some (.activeLineEnd l) => s.takeEvent (.activeLineEnd l)
  | _ => .next s

/-- ACTIVE_END (R120). -/
def execActiveEnd (s : State) : Host.Outcome State Fault Refusal :=
  match s.nextEvent with
  | some .activeEnd => s.takeEvent .activeEnd
  | _ => .next s

end Sys2Proof.Machine
end

