-- ==== Sys2Proof/Machine/TableEvents.lean ====
section
/-! DEFINITION. The table controller's requesters other than commands, and device reset: FRAME_TURN_TAKEN,
SUSPENSION_REQUEST_TAKEN and DEVICE_RESET (R1, R7, R46 to R48). -/

namespace Sys2Proof.Machine

/-- OUTPUT posted with the coming state when the frame turn carries the change flag (R85). -/
def State.postTurn (s : State) (t : PendingTurn) : State := if t.changed then s.postOutput t.coming else s

/-- The close of a frame-turn act (R47): stream loads for a coming LIVE frame, "streams off" for a SYNC_ONLY one. -/
def State.closeTurn (s : State) (t : PendingTurn) (resumed : List SlotIx) : State :=
  match t.coming with
  | .live => s.loadStreams resumed
  | _ => s.streamsOff

/-- The frame-turn act (R46, R47, R48, R85): discarded in OFF; else the commit queue applied, OUTPUT posted, loads or
"streams off" sent. -/
def State.takeTurn (s : State) (t : PendingTurn) : State :=
  let s1 := { s with turn := none }
  match s.raster.output with
  | .off => s1
  | _ =>
    let r := s1.applyQueue
    (r.1.postTurn t).closeTurn t r.2

/-- FRAME_TURN_TAKEN (R46 to R48), where the arbiter grants the frame turn (R20). -/
def execFrameTurnTaken (s : State) : Host.Outcome State Fault Refusal :=
  if s.grants .frameTurn then
    match s.turn with
    | some t => .next (s.takeTurn t)
    | none => .next s
  else .next s

/-- The head request leaves the list (R121); of the requests before a pending frame turn one fewer is left (R20). -/
def State.dropRequest (s : State) : State :=
  { s with
    suspensions := s.suspensions.tail
    turn := s.turn.map fun t => { t with ahead := t.ahead - 1 } }

/-- A suspension request (R7): a SHOWN slot of the request's generation becomes SUSPENDED, its stream is stopped, its
lane of the line in progress is vacant (R93), SUSPENDED is posted to the owner; in any other case it is ignored. -/
def State.suspend (s : State) (h : Handle) : State :=
  match h.ix? with
  | none => s
  | some ix => match s.table.body ix with
    | .opened o .shown w =>
      if s.table.gen ix = h.gen then
        let s1 := { s with table := s.table.setBody ix (.opened o .suspended w) }
        (s1.stopStream ix).postSuspended o ix h.gen
      else s
    | _ => s

/-- SUSPENSION_REQUEST_TAKEN (R7, R121), where the arbiter grants the head request (R20). -/
def execSuspensionRequestTaken (s : State) : Host.Outcome State Fault Refusal :=
  if s.grants .suspension then
    match s.suspensions with
    | h :: _ => .next (s.dropRequest.suspend h)
    | [] => .next s
  else .next s

/-- DEVICE_RESET (R1, R88, R104, R125, R126, R129, R141, R156), an edge of RST_N: where it is released it is asserted, and
every block takes its reset values; where it is asserted it is released, and they stand at those values still (log 17). The
free value of log 31 is drawn on from where it stood. -/
def execDeviceReset (s : State) : Host.Outcome State Fault Refusal :=
  .next { State.reset with pending := s.pending, rstAsserted := !s.rstAsserted, choices := s.choices }

end Sys2Proof.Machine
end

