-- ==== Sys2Proof/Machine/Dispatch.lean ====
section
/-! DEFINITION. The meaning of every step: one arm per constructor of Instr, in the order of spec/opcode_table.json. -/

namespace Sys2Proof.Machine

def exec (i : Instr) (s : State) : Host.Outcome State Fault Refusal :=
  match i with
  | .deviceReset => Sys2Proof.Machine.execDeviceReset s
  | .emptyFrame p m => Sys2Proof.Machine.execEmptyFrame p m s
  | .commandFrame p m => Sys2Proof.Machine.execCommandFrame p m s
  | .read p m => Sys2Proof.Machine.execRead p m s
  | .status p m => Sys2Proof.Machine.execStatus p m s
  | .linkReset p m => Sys2Proof.Machine.execLinkReset p m s
  | .idleFrame p kind m => Sys2Proof.Machine.execIdleFrame p kind m s
  | .unknownFrameKind p kind m => Sys2Proof.Machine.execUnknownFrameKind p kind m s
  | .unknownCommandCode p => Sys2Proof.Machine.execUnknownCommandCode p s
  | .openWindow p => Sys2Proof.Machine.execOpenWindow p s
  | .place p => Sys2Proof.Machine.execPlace p s
  | .source p => Sys2Proof.Machine.execSource p s
  | .look p => Sys2Proof.Machine.execLook p s
  | .showWindow p => Sys2Proof.Machine.execShowWindow p s
  | .hide p => Sys2Proof.Machine.execHide p s
  | .resume p => Sys2Proof.Machine.execResume p s
  | .restack p => Sys2Proof.Machine.execRestack p s
  | .pin p => Sys2Proof.Machine.execPin p s
  | .retire p => Sys2Proof.Machine.execRetire p s
  | .reclaim p => Sys2Proof.Machine.execReclaim p s
  | .backdrop p => Sys2Proof.Machine.execBackdrop p s
  | .commit p => Sys2Proof.Machine.execCommit p s
  | .abandon p => Sys2Proof.Machine.execAbandon p s
  | .queryWindow p => Sys2Proof.Machine.execQueryWindow p s
  | .queryState p => Sys2Proof.Machine.execQueryState p s
  | .takeNotices p => Sys2Proof.Machine.execTakeNotices p s
  | .queryTiming p => Sys2Proof.Machine.execQueryTiming p s
  | .outputStart p => Sys2Proof.Machine.execOutputStart p s
  | .outputLive p => Sys2Proof.Machine.execOutputLive p s
  | .outputQuiet p => Sys2Proof.Machine.execOutputQuiet p s
  | .outputStop p => Sys2Proof.Machine.execOutputStop p s
  | .setTiming p => Sys2Proof.Machine.execSetTiming p s
  | .setFetchTimeout p => Sys2Proof.Machine.execSetFetchTimeout p s
  | .resetFetch p => Sys2Proof.Machine.execResetFetch p s
  | .frameTurn => Sys2Proof.Machine.execFrameTurn s
  | .frameTurnTaken => Sys2Proof.Machine.execFrameTurnTaken s
  | .suspensionRequestTaken => Sys2Proof.Machine.execSuspensionRequestTaken s
  | .linkResetAbandon p => Sys2Proof.Machine.execLinkResetAbandon p s
  | .lineStart => Sys2Proof.Machine.execLineStart s
  | .tagTimeout t => Sys2Proof.Machine.execTagTimeout t s
  | .activeLineStart => Sys2Proof.Machine.execActiveLineStart s
  | .activeLineEnd => Sys2Proof.Machine.execActiveLineEnd s
  | .activeEnd => Sys2Proof.Machine.execActiveEnd s
  | .fetchPick => Sys2Proof.Machine.execFetchPick s
  | .requestAccept => Sys2Proof.Machine.execRequestAccept s
  | .completion beats => Sys2Proof.Machine.execCompletion beats s
  | .pclkRisingEdge => Sys2Proof.Machine.execPclkRisingEdge s

end Sys2Proof.Machine
end

