-- ==== Sys2Proof/Safety.lean ====
section
/-! DEFINITION. What claims about the part are stated in: which rows take a command, when the arbiter may take one, the
state after a command is answered, and the invariants of the part. -/

namespace Sys2Proof

/-- The port and the command code of a row that takes a command of a known code (10.3); none for every other row. -/
def Instr.command? : Instr → Option (Port × Byte)
  | .openWindow p => some (p, 0x10)
  | .place p => some (p, 0x11)
  | .source p => some (p, 0x12)
  | .look p => some (p, 0x13)
  | .showWindow p => some (p, 0x14)
  | .hide p => some (p, 0x15)
  | .restack p => some (p, 0x16)
  | .pin p => some (p, 0x17)
  | .resume p => some (p, 0x18)
  | .retire p => some (p, 0x19)
  | .reclaim p => some (p, 0x1A)
  | .backdrop p => some (p, 0x1B)
  | .commit p => some (p, 0x20)
  | .abandon p => some (p, 0x21)
  | .queryWindow p => some (p, 0x30)
  | .queryState p => some (p, 0x31)
  | .takeNotices p => some (p, 0x32)
  | .queryTiming p => some (p, 0x33)
  | .outputStart p => some (p, 0x40)
  | .outputLive p => some (p, 0x41)
  | .outputQuiet p => some (p, 0x42)
  | .outputStop p => some (p, 0x43)
  | .setTiming p => some (p, 0x44)
  | .setFetchTimeout p => some (p, 0x45)
  | .resetFetch p => some (p, 0x46)
  | .deviceReset | .emptyFrame .. | .commandFrame .. | .read .. | .status .. | .linkReset .. => none
  | .idleFrame .. | .unknownFrameKind .. | .unknownCommandCode _ => none
  | .frameTurn | .frameTurnTaken | .suspensionRequestTaken | .linkResetAbandon _ | .lineStart => none
  | .tagTimeout _ | .activeLineStart | .activeLineEnd | .activeEnd | .fetchPick | .requestAccept => none
  | .completion _ | .pclkRisingEdge => none

/-- The kind byte a frame row carries as byte 0 (R143), with its port; none for the frame of no complete byte and for
every row that is no frame. -/
def Instr.frameKind? : Instr → Option (Port × Byte)
  | .commandFrame p _ => some (p, 0xC1)
  | .read p _ => some (p, 0xD2)
  | .status p _ => some (p, 0xE3)
  | .linkReset p _ => some (p, 0xF0)
  | .idleFrame p kind _ => some (p, kind)
  | .unknownFrameKind p kind _ => some (p, kind)
  | .deviceReset | .emptyFrame .. | .unknownCommandCode _ => none
  | .openWindow _ | .place _ | .source _ | .look _ | .showWindow _ | .hide _ | .resume _ | .restack _ => none
  | .pin _ | .retire _ | .reclaim _ | .backdrop _ | .commit _ | .abandon _ | .queryWindow _ => none
  | .queryState _ | .takeNotices _ | .queryTiming _ | .outputStart _ | .outputLive _ | .outputQuiet _ => none
  | .outputStop _ | .setTiming _ | .setFetchTimeout _ | .resetFetch _ => none
  | .frameTurn | .frameTurnTaken | .suspensionRequestTaken | .linkResetAbandon _ | .lineStart => none
  | .tagTimeout _ | .activeLineStart | .activeLineEnd | .activeEnd | .fetchPick | .requestAccept => none
  | .completion _ | .pclkRisingEdge => none

/-- The moment of a frame row; none for every row that is no frame. -/
def Instr.moment? : Instr → Option Moment
  | .emptyFrame _ m | .commandFrame _ m | .read _ m | .status _ m | .linkReset _ m => some m
  | .idleFrame _ _ m | .unknownFrameKind _ _ m => some m
  | .deviceReset | .unknownCommandCode _ => none
  | .openWindow _ | .place _ | .source _ | .look _ | .showWindow _ | .hide _ | .resume _ | .restack _ => none
  | .pin _ | .retire _ | .reclaim _ | .backdrop _ | .commit _ | .abandon _ | .queryWindow _ => none
  | .queryState _ | .takeNotices _ | .queryTiming _ | .outputStart _ | .outputLive _ | .outputQuiet _ => none
  | .outputStop _ | .setTiming _ | .setFetchTimeout _ | .resetFetch _ => none
  | .frameTurn | .frameTurnTaken | .suspensionRequestTaken | .linkResetAbandon _ | .lineStart => none
  | .tagTimeout _ | .activeLineStart | .activeLineEnd | .activeEnd | .fetchPick | .requestAccept => none
  | .completion _ | .pclkRisingEdge => none

/-- The port of a frame row; none for every row that is no frame. -/
def Instr.framePort? : Instr → Option Port
  | .emptyFrame p _ | .commandFrame p _ | .read p _ | .status p _ | .linkReset p _ => some p
  | .idleFrame p _ _ | .unknownFrameKind p _ _ => some p
  | .deviceReset | .unknownCommandCode _ => none
  | .openWindow _ | .place _ | .source _ | .look _ | .showWindow _ | .hide _ | .resume _ | .restack _ => none
  | .pin _ | .retire _ | .reclaim _ | .backdrop _ | .commit _ | .abandon _ | .queryWindow _ => none
  | .queryState _ | .takeNotices _ | .queryTiming _ | .outputStart _ | .outputLive _ | .outputQuiet _ => none
  | .outputStop _ | .setTiming _ | .setFetchTimeout _ | .resetFetch _ => none
  | .frameTurn | .frameTurnTaken | .suspensionRequestTaken | .linkResetAbandon _ | .lineStart => none
  | .tagTimeout _ | .activeLineStart | .activeLineEnd | .activeEnd | .fetchPick | .requestAccept => none
  | .completion _ | .pclkRisingEdge => none

end Sys2Proof

namespace Sys2Proof.Machine

/-! ### The bytes of a port, field by field (10.1) -/

/-- The status byte, field by field (R142, 10.1): marker 10b in bits 7..6, four less the waiting commands in 5..3, a
response waits in 2, the notice set is not empty in 1, DROPPED or FRAME_ERROR in 0. -/
def LinkPort.statusFields (l : LinkPort) : Byte :=
  BitVec.ofNat 8 (2 * 64 + (4 - l.commands.length) * 8 + (if l.responses = [] then 0 else 4) +
    (if l.notices = Notices.empty then 0 else 2) + (if l.dropped = true ∨ l.frameError = true then 1 else 0))

/-- The two bytes of the extended status block, field by field (R151, 10.1). -/
def LinkPort.statusBlockFields (l : LinkPort) : List Byte :=
  [BitVec.ofNat 8 (l.commands.length + 16 * l.responses.length),
   BitVec.ofNat 8 ((if l.dropped then 1 else 0) + (if l.frameError then 2 else 0) +
     (if l.notices = Notices.empty then 0 else 4) + (if l.abandonPending then 8 else 0))]

/-- A staging command's code (10.3). -/
def Entry.code : Entry → Byte
  | .window _ c => c.code
  | .backdrop _ => 0x1B

/-- Parameter bytes are read as this entry's staging command; for OPEN, whose handle is not sent, as its window,
visibility and placement (10.3). -/
def Entry.readFrom (e : Entry) (params : List Byte) : Prop :=
  match e with
  | .window _ (.create w vis pl) => decodeOpen params = some (w, vis, pl)
  | .window h c => decodeNamed c.code params = some (.window h c)
  | .backdrop colour => decodeBackdrop params = some (.backdrop colour)

/-! ### Taking a command, in the words of R20 and R147 -/

/-- A port is eligible (R20 rule 4): a command waits in its queue and fewer than four responses stand in the other. -/
abbrev State.eligibleNow (s : State) (p : Port) : Prop :=
  (s.link p).commands ≠ [] ∧ (s.link p).responses.length < 4

/-- The arbiter is free to choose (R20): no command is in service, and no frame turn has been reached whose FRAME_TURN has
not come (R84; log 32). -/
abbrev State.free (s : State) : Prop := s.serving = none ∧ RasterEvent.frameTurn ∉ s.raster.due

/-- The arbiter chooses command `c` of port `p` now (R20 rule 4): it is free, no frame turn, no suspension request and no
abandon request is pending; it is the head of the port's queue and the port has room for its response; and
the pointer names the port or the other port is not eligible. -/
abbrev State.mayTake (s : State) (p : Port) (c : QueuedCommand) : Prop :=
  s.free ∧ s.turn = none ∧ s.suspensions = [] ∧ (s.link p).abandonPending = false ∧
    (s.link (otherPort p)).abandonPending = false ∧ (s.link p).commands.head? = some c ∧ (s.link p).responses.length < 4 ∧
    (s.nextPort = p ∨ ¬ s.eligibleNow (otherPort p))

/-- The service of command `c` of port `p` may be completed now: it is in service, and no frame turn reached waits for its
row. The reply is the one it found at the raster generator when it was taken, if it reached it then (R84). -/
abbrev State.completes (s : State) (p : Port) (c : QueuedCommand) (reply : Option Reply) : Prop :=
  s.serving = some ⟨p, c, reply⟩ ∧ RasterEvent.frameTurn ∉ s.raster.due

/-- Command `c` of port `p` may be carried out now (R20): the arbiter chooses it; or it was taken before a request that now
waits for the end of its service (log 31), its effect is still to come, and the port is in no abandon. -/
abbrev State.canTake (s : State) (p : Port) (c : QueuedCommand) : Prop :=
  s.mayTake p c ∨ (s.completes p c none ∧ (s.link p).abandonPending = false)

/-- Command `c` of port `p`, taken before a link reset of the port whose abandon is still pending, is in service and
completes, its effect still to come (R20, R153, R154; log 31). -/
abbrev State.cutOff (s : State) (p : Port) (c : QueuedCommand) : Prop :=
  s.completes p c none ∧ (s.link p).abandonPending = true

/-- A row may serve command `c` of port `p` now, whether its effect is still to come or came when it was taken. -/
abbrev State.mayServe (s : State) (p : Port) (c : QueuedCommand) : Prop :=
  s.canTake p c ∨ s.cutOff p c ∨ ∃ r, s.completes p c (some r)

/-- Port `p`'s head command taken: it has left its queue, and the pointer names the other port (R20, R146). -/
def State.headTaken (s : State) (p : Port) : State :=
  { s.setLink p { s.link p with commands := (s.link p).commands.tail } with nextPort := otherPort p }

/-- The service of a command of port `p` over, but for its effect and its response: one in service had left its queue
before (R146), any other leaves it now. -/
def State.served (s : State) (p : Port) : State :=
  if s.serving = none then s.headTaken p else { s with serving := none }

/-- A response placed at the tail of the port's response queue (R148): the command's sequence number and code, the result
code, the data (R147). -/
def State.placed (s : State) (p : Port) (c : QueuedCommand) (code : ResultCode) (data : List Byte) : State :=
  s.setLink p { s.link p with responses := (s.link p).responses ++ [c.seq :: c.code :: code.byte :: data] }

/-- Command `c` of port `p` taken and answered, and nothing else changed (R20, R146 to R148). -/
def State.answered (s : State) (p : Port) (c : QueuedCommand) (code : ResultCode) (data : List Byte) : State :=
  (s.served p).placed p c code data

/-- The pending target that command `c` of port `p` leaves when the table controller takes it (R81, R82, R84). -/
def State.targetAfter (s : State) (p : Port) (c : QueuedCommand) : PendingTarget :=
  if p = .a ∧ c.code = 0x41 ∧ c.params = [] then
    match s.raster.output with
    | .off => s.raster.target
    | .syncOnly => .live
    | .live => .none
  else if p = .a ∧ c.code = 0x42 ∧ c.params = [] then
    match s.raster.output with
    | .off => s.raster.target
    | .live => .syncOnly
    | .syncOnly => .none
  else s.raster.target

/-- The reply that command `c` of port `p` finds at the raster generator when the table controller takes it (R79, R84): of
an output command of its right length, but for OUTPUT_START in OFF and for OUTPUT_STOP of Port A, whose effect may come
after a frame turn reached in its service (R48, R83). -/
def State.replyWhenTaken (s : State) (p : Port) (c : QueuedCommand) : Option Reply :=
  if c.params = [] ∧ (c.code = 0x41 ∨ c.code = 0x42 ∨ (c.code = 0x40 ∧ s.raster.output ≠ .off) ∨ (c.code = 0x43 ∧ p = .b))
  then some ⟨if p = .b then .notPermitted else if c.code = 0x40 ∨ s.raster.output = .off then .wrongState else .ok,
    [s.raster.output.byte, (s.targetAfter p c).byte]⟩
  else none

/-- Command `c` of port `p` taken and in service: it has left its queue (R146), and an output command has reached the raster
generator's pending target (R84). -/
def State.begun (s : State) (p : Port) (c : QueuedCommand) : State :=
  { s.headTaken p with
    serving := some ⟨p, c, s.replyWhenTaken p c⟩, raster := { s.raster with target := s.targetAfter p c } }

/-- What becomes of the arbiter when a request that stands above commands becomes pending (R20, R48, R84, R121, R146, R154):
a command it chooses has been taken by then and is in service, or it is still in its queue. Which of the two is a free
value, and `choices` counts those drawn (log 31). Where no command is chosen nothing changes. -/
abbrev State.requestPends (s t : State) : Prop :=
  (∀ (p : Port) (c : QueuedCommand), s.mayTake p c →
    t = { s.begun p c with choices := s.choices + 1 } ∨ t = { s with choices := s.choices + 1 }) ∧
  ((∀ (p : Port) (c : QueuedCommand), ¬ s.mayTake p c) → t = s)

/-- Port `p` with other commands and responses in its queues, in an abandon or not. -/
def State.withQueues (s : State) (p : Port) (commands : List QueuedCommand) (responses : List (List Byte))
    (pending : Bool) : State :=
  s.setLink p { s.link p with commands := commands, responses := responses, abandonPending := pending }

/-! ### Checks of a staging command, in the order of R24 -/

/-- The first check that fails gives the code; OK where none does. -/
def firstFailing : List (Bool × ResultCode) → ResultCode
  | [] => .ok
  | (passes, code) :: rest => if passes then firstFailing rest else code

/-- What a view holds in the slot a handle names, where the slot is open: slot, owner and record. -/
def View.windowAt (v : View) (h : Handle) : Option (SlotIx × Port × Window) :=
  match h.ix? with
  | none => none
  | some ix => match v.table.body ix with
    | .opened o _ w => some (ix, o, w)
    | _ => none

/-- A check of the window a handle names in a view. -/
def View.holds (v : View) (h : Handle) (check : SlotIx → Port → Window → Bool) : Bool :=
  match v.windowAt h with
  | some (ix, o, w) => check ix o w
  | none => false

/-- R10, steps 1 to 3, in a view in which a slot that is not open stands FREE. -/
def View.resolutionChecks (v : View) (h : Handle) : List (Bool × ResultCode) :=
  [(v.holds h fun _ _ _ => true, .badHandle), (v.holds h fun ix _ _ => v.table.gen ix == h.gen, .stale)]

/-- Step 8: the reference of a placement resolves, and is not pending retirement, not the window itself, and in the
section the window stands in (R16). -/
def View.referenceChecks (v : View) (self : Option SlotIx) (pinned : Bool) : Placement → List (Bool × ResultCode)
  | .top | .bottom => []
  | .above r | .below r => v.resolutionChecks r ++
      [(v.holds r fun ix _ w => !v.retiring.contains ix && self != some ix && w.pinned == pinned, .badReference)]

/-- Step 7: the relations of PLACE, SOURCE and LOOK with the record (R11, R27 to R29), line bytes rounded spelled out. -/
def Change.relations (c : Change) (w : Window) : Bool :=
  match c with
  | .place g => decide ((g.width * w.source.format.bytesPerPixel + 15) / 16 * 16 ≤ w.source.pitch)
  | .source src => decide ((w.geometry.width * src.format.bytesPerPixel + 15) / 16 * 16 ≤ src.pitch) &&
      (src.format != .a8 || w.look.key == none)
  | .look l => w.source.format != .a8 || l.key == none
  | _ => true

/-- The changes of a named window that are open to Port A only (R24 step 1). -/
def Change.portAOnly : Change → Bool
  | .pin _ | .reclaim => true
  | _ => false

/-- The checks of R24 for a command that names a window, in its order, against the asking port's view. -/
def View.namedChecks (v : View) (p : Port) (entries : Nat) (h : Handle) (c : Change) : List (Bool × ResultCode) :=
  [(p == .a || !c.portAOnly, .notPermitted), ((Entry.window h c).inDomain, .badParam), (decide (entries < 16), .batchFull)] ++ v.resolutionChecks h ++
  [(v.holds h fun ix _ _ => !v.retiring.contains ix, .retired),
   (v.holds h fun _ o _ => o == p || c == .reclaim, .notOwner),
   (v.holds h fun _ _ w => c.relations w, .badParam)] ++
  match c, v.windowAt h with
  | .restack pl, some (ix, _, w) => v.referenceChecks (some ix) w.pinned pl
  | _, _ => []

/-- The checks of R24 for OPEN, in its order (R3, R16, R25). -/
def View.openChecks (v : View) (p : Port) (entries : Nat) (anyFree : Bool) (w : Window) (pl : Placement) :
    List (Bool × ResultCode) :=
  [(p == .a || !w.pinned, .notPermitted), (w.inDomain, .badParam), (decide (entries < 16), .batchFull),
   (anyFree, .noSlot)] ++ v.referenceChecks none w.pinned pl

/-! ### What a COMMIT must meet, in the words of R40 to R42 and R60 -/

/-- The commit queue has room for a batch of a port: it holds fewer than four, and fewer than two of the port (R40). -/
abbrev State.commitRoom (s : State) (p : Port) : Prop :=
  s.commitQueue.length < 4 ∧ (s.commitQueue.filter fun b => b.port == p).length < 2

/-- The checks of R24 for an entry of a batch, in its order, but for BATCH_FULL and NO_SLOT, which COMMIT does not make
again (R41). -/
def View.checksAgain (v : View) (p : Port) : Entry → List (Bool × ResultCode)
  | .window _ (.create w _ pl) => (v.openChecks p 0 true w pl).filter fun x => x.2 ≠ .batchFull ∧ x.2 ≠ .noSlot
  | .window h c => (v.namedChecks p 0 h c).filter fun x => x.2 ≠ .batchFull
  | .backdrop _ => [(p == .a, .notPermitted)]

/-- Entry `k` of a port's open batch, checked against the projection with the entries before it applied, is refused
with a code: that of the first check that fails (R41). -/
abbrev State.entryFails (s : State) (p : Port) (k : Nat) (code : ResultCode) : Prop :=
  ∃ e, (s.staging p).openBatch[k]? = some e ∧ code ≠ .ok ∧
    firstFailing (((s.projection p).applyAll ((s.staging p).openBatch.take k)).checksAgain p e) = code

/-- Some active line of a profile is covered by more than six counted windows of a view (R54, R55). -/
abbrev View.lanesOver (v : View) (prof : Profile) : Prop :=
  prof.valid = true ∧ ∃ l : Nat, l < prof.vActiveHeight ∧
    6 < (v.countedWindows.filter fun w =>
      decide (w.geometry.y ≤ (l : Int) ∧ (l : Int) < w.geometry.y + w.geometry.height)).length

/-- The segment needs of the counted windows of a view come to more than 384 (R56). -/
abbrev View.storeOver (v : View) : Prop := 384 < (v.countedWindows.map Window.need).sum

/-- Every entry of the port's open batch passes revalidation (R41). -/
abbrev State.batchValid (s : State) (p : Port) : Prop := ∀ k code, ¬ s.entryFails p k code

/-- A COMMIT of the port would be accepted (R42). -/
abbrev State.commitPasses (s : State) (p : Port) : Prop :=
  s.commitRoom p ∧ s.batchValid p ∧ ¬ (s.portView p).lanesOver s.raster.profile ∧ ¬ (s.portView p).storeOver

/-- The ticket after a ticket: 255 is followed by 1 (R43). -/
def ticketAfter (n : Byte) : Byte := if n = 255 then 1 else n + 1

/-! ### What the entries of an apply do beside the table, in the words of R31, R32, R35, R36 and R109 -/

/-- Among entries applied one after the other to a table, one finds the table so that `what` holds of it. -/
abbrev Table.happens (t : Table) (entries : List Entry) (what : Table → Entry → Prop) : Prop :=
  ∃ (before : List Entry) (e : Entry) (after : List Entry), entries = before ++ e :: after ∧
    what (before.foldl Table.applyEntry t) e

/-- An entry takes a slot's window out of what is fetched and composed: HIDE of a SHOWN window, RETIRE or RECLAIM of an
open one (R31, R35, R36). -/
abbrev Table.stops (t : Table) (e : Entry) (ix : SlotIx) : Prop :=
  ∃ (h : Handle) (c : Change) (o : Port) (st : OpenState) (w : Window), e = .window h c ∧ h.ix? = some ix ∧
    t.body ix = .opened o st w ∧ (c = .retire ∨ c = .reclaim ∨ (c = .hide ∧ st = .shown))

/-- An entry clears a slot's starvation count (R109): HIDE of a SHOWN or SUSPENDED window, RESUME of a SUSPENDED one,
RETIRE or RECLAIM of an open one. -/
abbrev Table.clears (t : Table) (e : Entry) (ix : SlotIx) : Prop :=
  ∃ (h : Handle) (c : Change) (o : Port) (st : OpenState) (w : Window), e = .window h c ∧ h.ix? = some ix ∧
    t.body ix = .opened o st w ∧
    (c = .retire ∨ c = .reclaim ∨ (c = .hide ∧ st ≠ .hidden) ∨ (c = .resume ∧ st = .suspended))

/-- Port B's RECLAIMED places before and after entries are applied to a table (R36): of each slot whose window, Port B's,
one of them reclaims, the generation before the apply; every other place is kept. -/
abbrev Table.reclaims (t : Table) (entries : List Entry) (old new : Vector (Option Nibble) 15) : Prop :=
  ∀ ix : SlotIx,
    let taken := t.happens entries fun u e => ∃ (h : Handle) (st : OpenState) (w : Window),
      e = .window h .reclaim ∧ h.ix? = some ix ∧ u.body ix = .opened .b st w
    (taken → new[ix] = some (t.gen ix)) ∧ (¬ taken → new[ix] = old[ix])

/-! ### The fetch engine, in the words of R108, R113, R116 and R131 -/

/-- From `s` to `t` the reads in flight for the slots that `which` names are marked discard; every other mark, every other
field of an entry, and every FREE and QUARANTINED tag is kept (R108, R125, R131, R134). -/
abbrev State.marks (s t : State) (which : SlotIx → Prop) : Prop :=
  ∀ k : TagIx, match s.mem.tags[k] with
    | .waiting e => ∃ d, t.mem.tags[k] = .waiting { e with discard := d } ∧
        (d = true ↔ e.discard = true ∨ ∃ ix, e.handle.ix? = some ix ∧ which ix)
    | x => t.mem.tags[k] = x

/-- What a slot's stream is once it is off (R108, R109): stopped, with no row and no place, where it was loaded; its count
kept, or cleared where an applied entry cleared it. -/
abbrev State.streamOff (s : State) (ix : SlotIx) (cleared : Prop) (left : Stream) : Prop :=
  let st := s.streams[ix]
  let none' : Half := ⟨none, .empty, 0, [], none⟩
  let off := if st.loaded = true then { st with cond := .stopped, halfA := none', halfB := none', starved := false } else st
  (cleared → left = { off with count := 0, starved := false }) ∧ (¬ cleared → left = off)

/-- The lanes of a line in progress with every stream off (R93): vacant, whatever slot they name. -/
abbrev State.lanesOff (s t : State) : Prop :=
  ∀ i : Fin 6, t.lanes[i] = match s.lanes[i] with
    | some l => if l.handle.ix? = none then some l else none
    | none => none

/-- Segment `seg` of the row half `i` of a slot's stream holds is a candidate (R116): the stream is RUNNING, the half
FILLING its row, the segment one of the row's and not requested, and the row not yet begun. -/
abbrev State.isCandidate (s : State) (ix : SlotIx) (i : HalfId) (ld : StreamLoad) (row seg : Nat) : Prop :=
  s.streams[ix].cond = .running ∧ (s.streams[ix].half i).cond = .filling ∧ s.streams[ix].load = some ld ∧
    (s.streams[ix].half i).row = some row ∧ seg < segmentsPerHalf ld.format ld.width ∧
    seg ∉ (s.streams[ix].half i).requested ∧ (s.raster.linesBegun : Int) ≤ ld.y + (row : Int)

/-- Two entries were requested for the same half and row of the same slot's stream. -/
abbrev TagEntry.sameHalf (e e' : TagEntry) : Prop :=
  e.handle.ix? = e'.handle.ix? ∧ e.half = e'.half ∧ e.row = e'.row

/-- At the coming line start a WAITING tag's entry times out (R133). -/
abbrev State.timesOut (s : State) (e : TagEntry) : Prop := s.mem.timeout ≤ min (e.age + 1) 63

/-- Every READY half is placed so that the row of its slot's window lies in the line store (R106). -/
abbrev RowsInStore (s : State) : Prop :=
  ∀ (ix : SlotIx) (i : HalfId), (s.streams[ix].half i).cond = .ready →
    ∃ place o st w, (s.streams[ix].half i).place = some place ∧ s.table.body ix = .opened o st w ∧
      place * 256 + w.geometry.width * w.source.format.bytesPerPixel ≤ 384 * 256

/-- The row that takes an event of a raster position. -/
def RasterEvent.row : RasterEvent → Instr
  | .lineStart _ => .lineStart
  | .frameTurn => .frameTurn
  | .activeLineStart _ => .activeLineStart
  | .activeLineEnd _ => .activeLineEnd
  | .activeEnd => .activeEnd

/-! ### Invariants -/

/-- The line store is in its canonical form. -/
abbrev StoreOk (s : State) : Prop := Memory.wf s.store = true

/-- The segments held by the open slots. -/
def Table.heldSum (t : Table) : Nat := (allSlots.map fun ix => (t.body ix).held).sum

/-- The segment balance (R57): the free count and the needs of the SHOWN and SUSPENDED windows make 384. -/
abbrev SegmentBalance (s : State) : Prop := s.table.free + (s.table.heldSum : Int) = 384

/-- The law of the z-order list (R14): every open slot once and no other, the pinned windows above the others. -/
abbrev ZOrderLaw (s : State) : Prop :=
  s.table.zorder.Nodup ∧
  (∀ ix : SlotIx, ix ∈ s.table.zorder ↔ (s.table.body ix).isOpen = true) ∧
  s.table.zorder.Pairwise fun below above => s.table.pinned below = true → s.table.pinned above = true

/-- What holds in OFF (R45, R71, R72, R77, R78, R83, R89): no batch waits, the counters are held at 0, no event stands
emitted, no target is pending, the settle count is 0, every lane is vacant, every stream is stopped and the pins are
at their OFF levels. That no event stands emitted is the model's choice: OUTPUT_STOP drops those whose row has not come
(log 10). -/
abbrev OffQuiet (s : State) : Prop :=
  s.raster.output = .off →
    s.commitQueue = [] ∧ s.raster.pixel = 0 ∧ s.raster.line = 0 ∧ s.raster.due = [] ∧ s.raster.target = .none ∧
    s.raster.settle = 0 ∧ (∀ i : Fin 6, s.lanes[i] = none) ∧ (∀ ix : SlotIx, s.streams[ix].loaded = false) ∧
    s.pins = s.raster.profile.offPins

/-- What holds of the raster (R68, R70, R71, R72, R74, R75, R77, R78): the profile is valid or the reset one; while the
output is not OFF it is valid, the counters lie inside it, the events not yet taken are of the position reached, HS,
VS and DE stand at the position's levels, and PD is 0 where DE is low; a pending target stands only where its rule
sets it; the settle count is at most 2. That the events not yet taken are of the position reached is the model's choice:
one whose row has not come is taken at the next edge (log 6). -/
abbrev RasterLaw (s : State) : Prop :=
  (s.raster.profile.valid = true ∨ s.raster.profile = Profile.reset) ∧
  (s.raster.output ≠ .off →
    s.raster.profile.valid = true ∧ s.raster.pixel < s.raster.profile.hTotal ∧
    s.raster.line < s.raster.profile.vTotal ∧
    (∀ e ∈ s.raster.due, e ∈ s.raster.profile.eventsAt s.raster.line s.raster.pixel) ∧
    s.pins.hs = s.raster.profile.hsAt s.raster.pixel ∧ s.pins.vs = s.raster.profile.vsAt s.raster.line ∧
    s.pins.de = s.raster.profile.activeAt s.raster.line s.raster.pixel ∧ (s.pins.de = false → s.pins.pd = 0)) ∧
  (s.raster.target = .live → s.raster.output = .syncOnly) ∧
  (s.raster.target = .syncOnly → s.raster.output = .live) ∧ s.raster.settle ≤ 2

/-- The capacities (R23, R45, R121, R146, R148). -/
abbrev Capacities (s : State) : Prop :=
  (∀ p : Port, (s.link p).commands.length ≤ 4 ∧ (s.link p).responses.length ≤ 4 ∧
    (s.staging p).openBatch.length ≤ 16 ∧ s.queuedBatches p ≤ 2) ∧
  (∀ x ∈ s.serving, (s.link x.port).responses.length < 4) ∧
  s.commitQueue.length ≤ 4 ∧
  (s.suspensions.map Handle.slot).Nodup

/-- The ranges of the counters and tickets (R43, R104, R125, R132), and the two notice kinds a port never holds
(R157). -/
abbrev Ranges (s : State) : Prop :=
  (∀ p : Port, (s.staging p).nextTicket ≠ 0) ∧ (∀ b ∈ s.commitQueue, b.ticket ≠ 0) ∧
  (∀ ix : SlotIx, s.streams[ix].count ≤ 15) ∧
  (∀ t : TagIx, match s.mem.tags[t] with
    | .free => True
    | .waiting e => e.age ≤ 63
    | .quarantined e => e.age ≤ 63) ∧
  1 ≤ s.mem.timeout ∧ s.mem.timeout ≤ 63 ∧
  (∀ ix : SlotIx, s.linkA.notices.reclaimed[ix] = none) ∧ s.linkB.notices.spurious = false

/-- The handles of the slots that the OPEN entries of a list name. -/
def openedBy (entries : List Entry) : List Handle :=
  entries.filterMap fun e =>
    match e with
    | .window h (.create ..) => some h
    | _ => none

/-- The law of reservations (R5, R12): an OPEN entry of a port's open batch names a slot RESERVED to the port, an OPEN
entry of a queued batch one QUEUED to its port, each by its current handle; every RESERVED slot is so named in its owner's
open batch and every QUEUED slot in a queued batch of its owner; and no slot is named twice. -/
abbrev ReservationLaw (s : State) : Prop :=
  (∀ p : Port, (openedBy (s.staging p).openBatch).Nodup ∧ ∀ h ∈ openedBy (s.staging p).openBatch,
    ∃ ix : SlotIx, h = handleOf ix (s.table.gen ix) ∧ s.table.body ix = .reserved p) ∧
  (openedBy (s.commitQueue.flatMap Batch.entries)).Nodup ∧
  (∀ b ∈ s.commitQueue, ∀ h ∈ openedBy b.entries,
    ∃ ix : SlotIx, h = handleOf ix (s.table.gen ix) ∧ s.table.body ix = .queued b.port) ∧
  ∀ (ix : SlotIx) (p : Port),
    (s.table.body ix = .reserved p → handleOf ix (s.table.gen ix) ∈ openedBy (s.staging p).openBatch) ∧
    (s.table.body ix = .queued p → ∃ b ∈ s.commitQueue, b.port = p ∧
      handleOf ix (s.table.gen ix) ∈ openedBy b.entries)

/-- The law of the queued entries (R24, R45: no entry of a queued batch can fail): each is permitted to its port, and one
that names a window names a QUEUED or open slot by its current handle, owned by the batch's port but for RECLAIM. -/
abbrev QueuedEntriesLaw (s : State) : Prop :=
  ∀ b ∈ s.commitQueue, ∀ e ∈ b.entries, e.permitted b.port = true ∧
    ∀ (h : Handle) (c : Change), e = .window h c → ∃ (ix : SlotIx) (o : Port), h = handleOf ix (s.table.gen ix) ∧
      (s.table.body ix = .queued o ∨ ∃ st w, s.table.body ix = .opened o st w) ∧ (o = b.port ∨ c = .reclaim)

/-- The projection up to and including the first `k` batches of the commit queue; for 0 the live view (R19, R45). -/
def State.queueView (s : State) (k : Nat) : View := View.applyBatches ⟨s.table, []⟩ (s.commitQueue.take k)

/-- The limits (R45, R55, R56): the live view and the projection up to each queued batch meet the lane limit under the
profile in force and the line-store limit. -/
abbrev LimitsLaw (s : State) : Prop :=
  ∀ k : Nat, k ≤ s.commitQueue.length →
    ¬ (s.queueView k).lanesOver s.raster.profile ∧ ¬ (s.queueView k).storeOver

/-- The laws that admission keeps (R12, R45, R55 to R58, R64). -/
abbrev AdmissionLaw (s : State) : Prop :=
  SegmentBalance s ∧ 0 ≤ s.table.free ∧ s.table.free ≤ 384 ∧ LimitsLaw s ∧ ReservationLaw s ∧ QueuedEntriesLaw s ∧
  ∀ (ix : SlotIx) (o : Port) (st : OpenState) (w : Window), s.table.body ix = .opened o st w → w.pinned = true → o = .a

/-- The law of placement (R47, R65, R91, R104, R106, R113): a loaded stream carries the load of its slot's SHOWN window
and has two places in the store, no segment of which is another half's; a half of a stream that is not loaded is EMPTY; a
HALF lane reads a placed half of its window's loaded stream, in columns of the window; and no read is of more than 16
beats. -/
abbrev PlacementLaw (s : State) : Prop :=
  (∀ ix : SlotIx, s.streams[ix].loaded = true → ∃ ld, s.streams[ix].load = some ld ∧ s.table.loadFor ix = some ld ∧
    ∀ i : HalfId, ∃ a, (s.streams[ix].half i).place = some a ∧ a + ld.segments ≤ 384) ∧
  (∀ (ix jx : SlotIx) (i j : HalfId) (ld ld' : StreamLoad) (a b : Nat), (ix, i) ≠ (jx, j) →
    s.streams[ix].loaded = true → s.streams[jx].loaded = true → s.streams[ix].load = some ld →
    s.streams[jx].load = some ld' → (s.streams[ix].half i).place = some a → (s.streams[jx].half j).place = some b →
    a + ld.segments ≤ b ∨ b + ld'.segments ≤ a) ∧
  (∀ (ix : SlotIx) (i : HalfId), s.streams[ix].loaded = false → (s.streams[ix].half i).cond = .empty) ∧
  (∀ (n : Fin 6) (l : Lane) (i : HalfId), s.lanes[n] = some l → l.source = .half i →
    ∃ (ix : SlotIx) (ld : StreamLoad), l.handle.ix? = some ix ∧ s.streams[ix].loaded = true ∧
      s.streams[ix].load = some ld ∧ l.format = ld.format ∧
      ∀ a b : Nat, l.span = some (a, b) → l.x ≤ (a : Int) ∧ (b : Int) < l.x + (ld.width : Int)) ∧
  ∀ (k : TagIx) (e : TagEntry), s.mem.tags[k] = .waiting e → e.beats ≤ 16

/-- The law of the fetch state (R135): STUCK exactly while all eight tags are QUARANTINED. -/
abbrev StuckLaw (s : State) : Prop :=
  s.mem.fetchState = .stuck ↔ ∀ t : TagIx, (s.mem.tags[t]).isQuarantined = true

/-- The entry of a WAITING tag whose discard mark is clear. -/
def Tag.live? : Tag → Option TagEntry
  | .waiting e => if e.discard then none else some e
  | .free => none
  | .quarantined _ => none

/-- The unmarked WAITING tags requested for a half of a slot's stream. -/
def State.liveTags (s : State) (ix : SlotIx) (i : HalfId) : List TagEntry :=
  (allTags.filterMap fun t => (s.mem.tags[t]).live?).filter fun e => e.ofSlot ix && e.half == i

/-- What holds of one half of a stream (R104, R114, R117, R118, R131): a load names the stream's own slot; every
unmarked WAITING tag requested for the half finds it FILLING the tag's row, in a stream loaded with the tag's handle,
for a segment it has requested; and while it is FILLING the requested segments are distinct, inside the half, and as
many as those filled and those still awaited. -/
abbrev State.halfLaw (s : State) (ix : SlotIx) (i : HalfId) : Prop :=
  let st := s.streams[ix]
  let h := st.half i
  (∀ ld, st.load = some ld → ld.handle.ix? = some ix) ∧
  (∀ e ∈ s.liveTags ix i, h.cond = .filling ∧ h.row = some e.row ∧ st.loaded = true ∧
    st.load.map StreamLoad.handle = some e.handle ∧ e.segment ∈ h.requested) ∧
  (h.cond = .filling → h.requested.Nodup ∧
    (∀ seg ∈ h.requested, ∃ ld, st.load = some ld ∧ seg < ld.segments) ∧
    h.requested.length = h.filled + (s.liveTags ix i).length)

/-- The law of the reads in flight: every half keeps its law. -/
abbrev FetchLaw (s : State) : Prop := ∀ (ix : SlotIx) (i : HalfId), s.halfLaw ix i

end Sys2Proof.Machine
end

