-- ==== Sys2Proof/Certificates/Slice0/Obligations.lean ====
section
/-! DEFINITION. The statements about the part, each from numbered rules of spec/. -/

section

open Sys2Proof Sys2Proof.Machine

/-! ### The queue of steps and the whole part -/

/-- O1. The step at the front of the queue is carried out on the rest of the queue; on an empty queue the part idles
(the model's choice, log 2). -/
def Obligations.StepRunsFront : Prop :=
  (∀ (c : Instr) (rest : List Instr) (s : State),
    step { s with pending := c :: rest } = exec c { s with pending := rest }) ∧
  ∀ s : State, s.pending = [] → step s = .next s

/-- O2. A step that is ill-formed as a term is refused under the one name for that, and no other step is refused
(log 25); only COMPLETION, ACTIVE_LINE_START and PCLK_RISING_EDGE, the rows that touch the line store, can fault
(log 14). -/
def Obligations.StopsAreNamed : Prop :=
  (∀ (i : Instr) (s : State) (r : Refusal), exec i s = .refused r ↔ i.wf = false ∧ r = .illFormed) ∧
  ∀ (i : Instr) (s : State) (f : Fault), exec i s = .fault f →
    (∃ beats, i = .completion beats) ∨ i = .activeLineStart ∨ i = .pclkRisingEdge

/-- O3. DEVICE_RESET gives every piece of state its reset value (R1, R14, R18, R20, R23, R43, R45, R57, R67, R76 to R78,
R88, R89, R104, R121, R125, R126, R128, R132, R135, R156, R169), and leaves the data lines undriven. The values the spec
does not give (the latched line background, the record of driven bytes, the line store, the count of begun lines, the
count of free values drawn: logs 15, 5, 13, 16, 31) are left out. That the queue of steps, which stands for the world outside, is kept, and that a
DEVICE_RESET is an edge of RST_N, asserting it where it is released and releasing it where it is asserted, are the
model's choices (log 17). While RST_N is asserted nothing but its release changes the part: a completion is ignored and
no frame begins (R129, R141). -/
def Obligations.DeviceResetValues : Prop :=
  (∀ (s held : State) (i : Instr), exec .deviceReset s = .next held → held.rstAsserted = true → i.wf = true →
    i ≠ .deviceReset → exec i held = .next held) ∧
  ∀ s : State, ∃ t, exec .deviceReset s = .next t ∧ t.pending = s.pending ∧ t.rstAsserted = !s.rstAsserted ∧
    (∀ ix : SlotIx, t.table.slots[ix] = ⟨0, .free⟩) ∧ t.table.zorder = [] ∧ t.table.background = ⟨0, 0, 0⟩ ∧
    t.table.free = 384 ∧ t.nextPort = .a ∧ t.turn = none ∧ t.serving = none ∧ t.commitQueue = [] ∧
    (∀ p : Port, t.staging p = ⟨[], 1, 0⟩ ∧ (t.link p).frame = none ∧ (t.link p).commands = [] ∧
      (t.link p).responses = [] ∧ (t.link p).dropped = false ∧ (t.link p).frameError = false ∧
      (t.link p).notices = Notices.empty ∧ (t.link p).noteLine = true ∧ (t.link p).abandonPending = false ∧
      (t.link p).statusByte = 0xA0 ∧ ∀ n : Nat, (t.link p).sdoLevel n = none) ∧
    t.raster.profile = ⟨0, 0, 0, 0, 0, .high, 0, 0, 0, 0, 0, .high⟩ ∧ t.raster.profile.valid = false ∧
    t.raster.pixel = 0 ∧ t.raster.line = 0 ∧ t.raster.output = .off ∧ t.raster.target = .none ∧
    t.raster.settle = 0 ∧ t.raster.due = [] ∧ t.pins = ⟨false, false, false, 0⟩ ∧ (∀ i : Fin 6, t.lanes[i] = none) ∧
    (∀ ix : SlotIx, t.streams[ix].cond = .stopped ∧ t.streams[ix].starved = false ∧ t.streams[ix].count = 0 ∧
      t.streams[ix].excused = false ∧ ∀ i : HalfId, (t.streams[ix].half i).cond = .empty ∧
        (t.streams[ix].half i).row = none ∧ (t.streams[ix].half i).filled = 0 ∧
        (t.streams[ix].half i).requested = []) ∧
    t.suspensions = [] ∧ (∀ k : TagIx, t.mem.tags[k] = .free) ∧ t.mem.channel = none ∧ t.mem.epoch = 0 ∧
    t.mem.timeout = 8 ∧ t.mem.fetchState = .running ∧ t.mem.beats = []

/-! ### Link frames -/

/-- O4. The falling edge of chip select begins a frame of any kind, and captures the status byte with the fields of
section 10.1; the data line, undriven before it, is driven with the bits of that byte. While RST_N is asserted no frame
begins (R141). A fall while a frame is in progress is no edge of the part and changes nothing (the model's reading,
log 3). -/
def Obligations.FrameBegins : Prop :=
  ∀ (i : Instr) (p : Port) (s : State), i.wf = true → i.framePort? = some p → i.moment? = some .fall →
    ∃ t, exec i s = .next t ∧
      (t = match (s.link p).frame with
        | none => if s.rstAsserted then s
            else s.setLink p { s.link p with frame := some ⟨(s.link p).statusFields, none, .nothing⟩ }
        | some _ => s) ∧
      ((s.link p).frame = none → s.rstAsserted = false → ∀ n : Nat, (s.link p).sdoLevel n = none ∧
        (n < 8 → (t.link p).sdoLevel n = some ((s.link p).statusFields.getMsbD n)))

/-- O5. When byte 0 is complete the frame has its kind; a READ captures the head response, a STATUS the extended status
block with the fields of section 10.1, and the other kinds nothing. Nothing else changes. After byte 0 the data line
carries what was captured, with its length and its CRC-8 as section 10.1 gives them, then 00h. -/
def Obligations.ByteZeroCaptures : Prop :=
  ∀ (i : Instr) (p : Port) (kind st : Byte) (cap : Capture) (s : State), i.wf = true →
    i.frameKind? = some (p, kind) → i.moment? = some .byte0 → (s.link p).frame = some ⟨st, none, cap⟩ →
    ∃ t, exec i s = .next t ∧
      t = s.setLink p { s.link p with frame := some ⟨st, some kind,
        if kind = 0xD2 then .response (s.link p).responses.head?
        else if kind = 0xE3 then .extendedStatus (s.link p).statusBlockFields
        else .nothing⟩ } ∧
      let checked := fun bytes : List Byte => bytes ++ [crc8 bytes]
      let sent : List Byte :=
        if kind = 0xD2 then (match (s.link p).responses.head? with
          | none => [0x00, 0x00]
          | some r => checked (BitVec.ofNat 8 r.length :: r))
        else if kind = 0xE3 then checked (s.link p).statusBlockFields
        else []
      ∀ n : Nat, (t.link p).sdoLevel (8 + n) = some (((sent[n / 8]?).getD 0x00).getMsbD (n % 8))

/-- O6. The end of a COMMAND frame: a good frame's command joins the tail of the command queue, or sets DROPPED where
the queue holds four; a frame cut before its CRC byte, with a length byte outside 2..40, or with another CRC sets
FRAME_ERROR and leaves the queue. What was driven after the status byte is 00h (its record is the model's, log 5). -/
def Obligations.CommandFrameEnd : Prop :=
  ∀ (p : Port) (s : State) (st : Byte) (bits : List Bool), (s.link p).frame = some ⟨st, some 0xC1, .nothing⟩ →
    let bytes := bytesOfBits bits
    let ended := { s.link p with frame := none, sdo := st :: List.replicate bytes.length 0x00 }
    (∀ (n seq code crc : Byte) (params extra : List Byte), bytes = n :: seq :: code :: (params ++ crc :: extra) →
      n.toNat = params.length + 2 → n.toNat ≤ 40 →
      exec (.commandFrame p (.rise bits)) s = .next (s.setLink p
        (if crc ≠ crc8 (n :: seq :: code :: params) then { ended with frameError := true }
         else if 4 ≤ (s.link p).commands.length then { ended with dropped := true }
         else { ended with commands := (s.link p).commands ++ [⟨seq, code, params⟩] }))) ∧
    ((bytes = [] ∨ ∃ n rest, bytes = n :: rest ∧ (n.toNat < 2 ∨ 40 < n.toNat ∨ rest.length < n.toNat + 1)) →
      exec (.commandFrame p (.rise bits)) s = .next (s.setLink p { ended with frameError := true }))

/-- O7. The end of a READ frame: the head response leaves exactly where its CRC byte was shifted out whole; the part
drove length, payload, CRC-8 and then 00h, or length 0 and CRC 00h where the queue was empty. The end of a STATUS frame:
DROPPED and FRAME_ERROR are cleared exactly where the block's CRC byte was shifted out whole. The record of driven bytes,
whole bytes kept at the rise, is the model's (log 5). -/
def Obligations.ReadAndStatusEnd : Prop :=
  (∀ (p : Port) (s : State) (st : Byte) (bits : List Bool) (head : Option (List Byte)),
    (s.link p).frame = some ⟨st, some 0xD2, .response head⟩ →
    let m := (bytesOfBits bits).length
    exec (.read p (.rise bits)) s = .next (s.setLink p (match head with
      | none => { s.link p with frame := none, sdo := st :: List.replicate m 0x00 }
      | some r =>
        let sent := (BitVec.ofNat 8 r.length :: r) ++ [crc8 (BitVec.ofNat 8 r.length :: r)]
        if r.length + 2 ≤ m then
          { s.link p with
            frame := none, sdo := st :: (sent ++ List.replicate (m - (r.length + 2)) 0x00),
            responses := (s.link p).responses.tail }
        else { s.link p with frame := none, sdo := st :: sent.take m }))) ∧
  ∀ (p : Port) (s : State) (st b0 b1 : Byte) (bits : List Bool),
    (s.link p).frame = some ⟨st, some 0xE3, .extendedStatus [b0, b1]⟩ →
    let m := (bytesOfBits bits).length
    let sent := [b0, b1, crc8 [b0, b1]]
    exec (.status p (.rise bits)) s = .next (s.setLink p
      (if 3 ≤ m then
        { s.link p with
          frame := none, sdo := st :: (sent ++ List.replicate (m - 3) 0x00), dropped := false, frameError := false }
       else { s.link p with frame := none, sdo := st :: sent.take m }))

/-- O8. The end of a LINK_RESET frame (R153). With byte 1 complete and DEh: the queues, the flags and the notice set
are emptied, the notice line is high, and the abandon indication, which stands for the request (log 27), is set; nothing
of the other port or of the rest of the part changes, but that a command the arbiter chooses as the request becomes
pending may have been taken before it: of either port, it has left its queue and is in service, an output command has met
the raster generator (R84), and the request waits for the end of that (R20, R146, R154; which of the two is a free value,
log 31). Otherwise FRAME_ERROR alone is set. The record of the 00h bytes
driven is the model's (log 5). -/
def Obligations.LinkResetEnd : Prop :=
  ∀ (p : Port) (s : State) (st : Byte) (bits : List Bool), (s.link p).frame = some ⟨st, some 0xF0, .nothing⟩ →
    let bytes := bytesOfBits bits
    let ended := { s.link p with frame := none, sdo := st :: List.replicate bytes.length 0x00 }
    ((∃ rest, bytes = 0xDE :: rest) →
      ∃ (u : State) (l : LinkPort), exec (.linkReset p (.rise bits)) s = .next (u.setLink p l) ∧ s.requestPends u ∧
        l = { ended with
              commands := [], responses := [], dropped := false, frameError := false, notices := Notices.empty
              abandonPending := true } ∧ l.noteLine = true) ∧
    ((∀ rest, bytes ≠ 0xDE :: rest) →
      exec (.linkReset p (.rise bits)) s = .next (s.setLink p { ended with frameError := true }))

/-- O9. The end of the other frames: one of an idle kind leaves every flag, queue and notice; one of an unknown kind
sets FRAME_ERROR; one of no complete byte is ignored. The record of driven bytes, empty after a frame of no complete
byte, is the model's (log 5). A rise that ends no frame of the row's kind changes nothing (the model's reading,
log 3). -/
def Obligations.OtherFrameEnds : Prop :=
  (∀ (p : Port) (s : State) (st kind : Byte) (bits : List Bool), (s.link p).frame = some ⟨st, some kind, .nothing⟩ →
    let ended := { s.link p with frame := none, sdo := st :: List.replicate (bytesOfBits bits).length 0x00 }
    (kind = 0x00 ∨ kind = 0xFF → exec (.idleFrame p kind (.rise bits)) s = .next (s.setLink p ended)) ∧
    (kind ∉ ([0xC1, 0xD2, 0xE3, 0xF0, 0x00, 0xFF] : List Byte) →
      exec (.unknownFrameKind p kind (.rise bits)) s = .next (s.setLink p { ended with frameError := true }))) ∧
  (∀ (p : Port) (s : State) (st : Byte) (cap : Capture) (bits : List Bool),
    (s.link p).frame = some ⟨st, none, cap⟩ → bits.length < 8 →
    exec (.emptyFrame p (.rise bits)) s = .next (s.setLink p { s.link p with frame := none, sdo := [] })) ∧
  ∀ (i : Instr) (p : Port) (kind : Byte) (bits : List Bool) (s : State), i.wf = true →
    i.frameKind? = some (p, kind) → i.moment? = some (.rise bits) →
    (∀ f, (s.link p).frame = some f → f.kind ≠ some kind) → exec i s = .next s

/-- O10. A staging command that a host frames is taken in whole: for every entry inside its domain, the bits of its
COMMAND frame put one command at the tail of the queue, of the length its code has, whose parameter bytes are read as
that entry; and a timing profile inside its ranges is read from its 22 bytes as itself. -/
def Obligations.CommandFrameRoundTrip : Prop :=
  (∀ (p : Port) (s : State) (st seq : Byte) (e : Entry), e.inDomain = true →
    (s.link p).frame = some ⟨st, some 0xC1, .nothing⟩ → (s.link p).commands.length < 4 →
    let body := BitVec.ofNat 8 (e.params.length + 2) :: seq :: e.code :: e.params
    ∃ t, exec (.commandFrame p (.rise (bitsOfBytes (body ++ [crc8 body])))) s = .next t ∧
      (t.link p).commands = (s.link p).commands ++ [⟨seq, e.code, e.params⟩] ∧
      paramLength e.code = some e.params.length ∧ e.readFrom e.params) ∧
  ∀ prof : Profile, prof.inRange = true → decodeProfile prof.bytes = some prof ∧ prof.bytes.length = 22

/-- O11. CRC-8 finds every frame in which one byte was changed, and leaves 0 ended bytes and their own check value; of
F0h it is DEh. -/
def Obligations.CrcCatchesOneByte : Prop :=
  (∀ (pre post : List Byte) (b b' : Byte), crc8 (pre ++ b :: post) = crc8 (pre ++ b' :: post) → b = b') ∧
  (∀ bytes : List Byte, crc8 (bytes ++ [crc8 bytes]) = 0) ∧ crc8 [0xF0] = 0xDE ∧ crc8 [0x00] = 0x00

/-! ### The arbiter and the taking of a command -/

/-- O12. The order of the table controller's arbiter (R20): the frame turn before every suspension request that became
pending after it, those that became pending before it before the turn, then abandon requests, then the head command the
pointer leads to. A command that was taken before a request became pending is in service, and every request waits for the
end of that (R20, R48, R121, R161; log 31), its port's queue emptied by a link reset since or not (R154). From the moment
the frame-turn line is reached to its FRAME_TURN every requester waits (R84; that the moment is spread over two rows is the
model's choice, log 32). But for that, whenever a command is in service, or a request or an eligible command is pending, one
of them is granted; the row of a request that waits changes nothing. -/
def Obligations.ArbiterOrder : Prop :=
  ∀ s : State,
    (s.grants .frameTurn = true ↔
      s.free ∧ ∃ turn, s.turn = some turn ∧ (s.suspensions = [] ∨ turn.ahead = 0)) ∧
    (s.grants .suspension = true ↔
      s.free ∧ s.suspensions ≠ [] ∧ ∀ turn, s.turn = some turn → 0 < turn.ahead) ∧
    (∀ p, s.grants (.abandon p) = true ↔
      s.free ∧ s.turn = none ∧ s.suspensions = [] ∧ (s.link p).abandonPending = true) ∧
    (∀ p c, s.servable p = some c ↔ s.mayServe p c) ∧
    (¬ s.free → exec .frameTurnTaken s = .next s ∧ exec .suspensionRequestTaken s = .next s ∧
      ∀ p, exec (.linkResetAbandon p) s = .next s) ∧
    (RasterEvent.frameTurn ∈ s.raster.due → ∀ r, s.grants r = false) ∧
    (RasterEvent.frameTurn ∉ s.raster.due →
      (s.serving ≠ none ∨ s.turn ≠ none ∨ s.suspensions ≠ [] ∨ (∃ p, (s.link p).abandonPending = true) ∨
        (∃ p, s.eligibleNow p) ↔ ∃ r, s.grants r = true))

/-- O13. The screens before every command: a row whose command the arbiter may not take from the port now changes
nothing, for the command waits (the model's reading of a step not enabled, log 3); a code that names no command is
answered BAD_COMMAND, a payload of another length than the code's BAD_LENGTH, both without data and with nothing else
changed (R147), and that answer discarded for a command cut off by its port's link reset (R154); and every code of
section 10.3 has its row. -/
def Obligations.CommandScreens : Prop :=
  (∀ (i : Instr) (p : Port) (s : State),
    (∀ code, i.command? = some (p, code) → (∀ c, s.mayServe p c → c.code ≠ code) → exec i s = .next s) ∧
    (i = .unknownCommandCode p → (∀ c, s.mayServe p c → paramLength c.code ≠ none) → exec i s = .next s)) ∧
  (∀ (p : Port) (c : QueuedCommand) (s : State), paramLength c.code = none →
    (s.canTake p c → exec (.unknownCommandCode p) s = .next (s.answered p c .badCommand [])) ∧
    (s.cutOff p c → exec (.unknownCommandCode p) s = .next { s with serving := none })) ∧
  (∀ (i : Instr) (p : Port) (c : QueuedCommand) (n : Nat) (s : State),
    i.command? = some (p, c.code) → paramLength c.code = some n → c.params.length ≠ n →
    (s.canTake p c → exec i s = .next (s.answered p c .badLength [])) ∧
    (s.cutOff p c → exec i s = .next { s with serving := none })) ∧
  ∀ (p : Port) (code : Byte), paramLength code ≠ none ↔ ∃ i : Instr, i.command? = some (p, code)

/-- O14. A command the arbiter may take is taken and answered by its row: the command leaves the head of its queue and the
pointer names the other port, or, where it was taken before a request that waits for it (log 31), both came about then
(R146); one response with the command's sequence number and code stands at the tail of the port's response queue, and a
refusal changes nothing else. A command cut off by a link reset of its port (R21, R153, R154; log 31) has the effect it has
on the same part with the port in no abandon and its queues empty, but that the port stays in its abandon and keeps the
commands and responses it holds: its response is discarded. Of TAKE_NOTICES, which emptied the set when it was taken, that
is no effect: the notices posted since are held. An output command that met the raster generator when it was taken has had
its effect then; its row places the reply it found there, unless the port is in its abandon, and changes nothing else
(R84, R154). -/
def Obligations.CommandAnswered : Prop :=
  (∀ (i : Instr) (p : Port) (c : QueuedCommand) (s : State), s.cutOff p c → i.command? = some (p, c.code) →
    if c.code = 0x32 then exec i s = .next { s with serving := none }
    else ∃ t, exec i (s.withQueues p [] [] false) = .next t ∧
      exec i s = .next (t.withQueues p (s.link p).commands (s.link p).responses true)) ∧
  (∀ (i : Instr) (p : Port) (c : QueuedCommand) (r : Reply) (s : State), s.completes p c (some r) →
    i.command? = some (p, c.code) → exec i s = .next (if (s.link p).abandonPending = true then { s with serving := none }
      else ({ s with serving := none } : State).placed p c r.code r.data)) ∧
  ∀ (i : Instr) (p : Port) (c : QueuedCommand) (s : State), s.canTake p c → i.command? = some (p, c.code) →
    ∃ (t : State) (code : ResultCode) (data : List Byte), exec i s = .next t ∧
      (s.serving = none → (t.link p).commands = (s.link p).commands.tail ∧ t.nextPort = otherPort p) ∧
      (s.serving ≠ none → (t.link p).commands = (s.link p).commands ∧ t.nextPort = s.nextPort) ∧ t.serving = none ∧
      (t.link p).responses = (s.link p).responses ++ [c.seq :: c.code :: code.byte :: data] ∧
      (t.link (otherPort p)).responses = (s.link (otherPort p)).responses ∧
      (t.link (otherPort p)).commands = (s.link (otherPort p)).commands ∧
      (code ≠ .ok → t = s.answered p c code data)

/-- O15. Port B is refused every command that is open to Port A only, with NOT_PERMITTED and nothing changed (R152);
the output commands still carry the output state and the pending target (R79). -/
def Obligations.PortAOnly : Prop :=
  ∀ (i : Instr) (c : QueuedCommand) (s : State), s.canTake .b c → i.command? = some (.b, c.code) →
    paramLength c.code = some c.params.length →
    (c.code ∈ ([0x17, 0x1A, 0x1B, 0x44, 0x45, 0x46] : List Byte) ∨ (c.code = 0x10 ∧ c.params[24]? = some 0x01) →
      exec i s = .next (s.answered .b c .notPermitted [])) ∧
    (c.code ∈ ([0x40, 0x41, 0x42, 0x43] : List Byte) →
      exec i s = .next (s.answered .b c .notPermitted [s.raster.output.byte, s.raster.target.byte]))

/-! ### Staging -/

/-- O16. A staging command that names a window (PLACE, SOURCE, LOOK, SHOW, HIDE, RESTACK, PIN, RESUME, RETIRE, RECLAIM)
is answered by the first check of R24 that fails against the port's view; where none fails its entry joins the tail of
the open batch, and nothing else changes. A coded byte of no listed value is refused with BAD_PARAM, after the
permission check (R166). BACKDROP from Port A, which names no window, stages its colour, or is refused with BATCH_FULL
where the open batch holds sixteen entries. -/
def Obligations.StagedInOrder : Prop :=
  (∀ (i : Instr) (p : Port) (c : QueuedCommand) (s : State), s.canTake p c → i.command? = some (p, c.code) →
    paramLength c.code = some c.params.length →
    c.code ∈ ([0x11, 0x12, 0x13, 0x14, 0x15, 0x16, 0x17, 0x18, 0x19, 0x1A] : List Byte) →
    (∀ (h : Handle) (ch : Change), decodeNamed c.code c.params = some (.window h ch) →
      let code := firstFailing ((s.portView p).namedChecks p (s.staging p).openBatch.length h ch)
      exec i s = .next (if code = .ok then
          (s.answered p c .ok []).setStaging p
            { s.staging p with openBatch := (s.staging p).openBatch ++ [.window h ch] }
        else s.answered p c code [])) ∧
    (decodeNamed c.code c.params = none → exec i s = .next (s.answered p c
      (if p = .b ∧ (c.code = 0x17 ∨ c.code = 0x1A) then .notPermitted else .badParam) []))) ∧
  ∀ (seq r g b : Byte) (s : State), s.canTake .a ⟨seq, 0x1B, [r, g, b]⟩ →
    exec (.backdrop .a) s = .next (if (s.staging .a).openBatch.length < 16 then
        (s.answered .a ⟨seq, 0x1B, [r, g, b]⟩ .ok []).setStaging .a
          { s.staging .a with openBatch := (s.staging .a).openBatch ++ [.backdrop ⟨r, g, b⟩] }
      else s.answered .a ⟨seq, 0x1B, [r, g, b]⟩ .batchFull [])

/-- O17. OPEN is answered by the first check of R24 that fails. Where none fails, the lowest-numbered FREE slot becomes
RESERVED to the port with its generation kept, the response carries its handle, the entry joins the open batch, and
nothing else changes. A coded byte of no listed value is refused with BAD_PARAM, after the permission check. -/
def Obligations.OpenReserves : Prop :=
  ∀ (p : Port) (c : QueuedCommand) (s : State), s.canTake p c → c.code = 0x10 → c.params.length = 28 →
    (∀ w vis pl, decodeOpen c.params = some (w, vis, pl) →
      (∀ ix : SlotIx, s.table.body ix = .free → (∀ j : SlotIx, j < ix → s.table.body j ≠ .free) →
        let code := firstFailing ((s.portView p).openChecks p (s.staging p).openBatch.length true w pl)
        let h := handleOf ix (s.table.gen ix)
        exec (.openWindow p) s = .next (if code = .ok then
            { (s.answered p c .ok [h.byte]).setStaging p
                { s.staging p with openBatch := (s.staging p).openBatch ++ [.window h (.create w vis pl)] } with
              table := { s.table with slots := s.table.slots.set ix ⟨s.table.gen ix, .reserved p⟩ } }
          else s.answered p c code [])) ∧
      ((∀ ix : SlotIx, s.table.body ix ≠ .free) →
        exec (.openWindow p) s = .next (s.answered p c
          (firstFailing ((s.portView p).openChecks p (s.staging p).openBatch.length false w pl)) []))) ∧
    (decodeOpen c.params = none → exec (.openWindow p) s = .next (s.answered p c
      (if p = .b ∧ c.params[24]? = some 0x01 then .notPermitted else .badParam) []))

/-! ### The views -/

/-- O18. The views (R19). An entry in a view acts as applied, but RETIRE and RECLAIM make an open window pending
retirement: its record, owner, generation and state stay, it leaves the list, and it counts for nothing. An entry whose
handle is of another generation than the view's slot, or names a window pending retirement, changes nothing. A port's view
is the projection with its own open batch applied, whatever the other port has staged; the projection is the live table
with the queued batches applied in their order, so that a slot not pending retirement in it stands as the queue's apply
will leave it, and one pending retirement as the apply will free it. In a view a slot keeps its generation, and one
RESERVED to the other port stands FREE. -/
def Obligations.PortViews : Prop :=
  (∀ (v : View) (h : Handle) (ix : SlotIx) (c : Change), h.ix? = some ix →
    (ix ∈ v.retiring ∨ v.table.gen ix ≠ h.gen → v.apply (.window h c) = v) ∧
    (ix ∉ v.retiring → v.table.gen ix = h.gen →
      (c ≠ .retire → c ≠ .reclaim →
        v.apply (.window h c) = { v with table := v.table.applyEntry (.window h c) }) ∧
      (c = .retire ∨ c = .reclaim →
        (v.table.body ix).isOpen = true →
          v.apply (.window h c) = ⟨{ v.table with zorder := v.table.zorder.filter fun j => decide (j ≠ ix) },
            ix :: v.retiring⟩))) ∧
  (∀ (s : State) (p : Port), s.portView p = (s.staging p).openBatch.foldl View.apply (s.projection p) ∧
    (∀ g : Staging, (s.setStaging (otherPort p) g).portView p = s.portView p) ∧
    ∀ ix : SlotIx, (s.portView p).table.gen ix = s.table.gen ix ∧
      (s.table.body ix = .reserved (otherPort p) → ∀ h : Handle, h.ix? = some ix →
        (s.portView p).resolve h = .error .badHandle) ∧
      (ix ∈ (s.portView p).retiring → ((s.portView p).table.body ix).isOpen = true ∧
        ix ∉ (s.portView p).table.zorder ∧ (s.portView p).countedAt ix = none)) ∧
  ∀ (s : State) (p : Port), ReservationLaw s → QueuedEntriesLaw s →
    let v := s.projection p
    let applied := (s.commitQueue.flatMap Batch.entries).foldl Table.applyEntry s.table
    ∀ ix : SlotIx, (ix ∈ v.retiring → applied.slots[ix] = ⟨s.table.gen ix + 1, .free⟩) ∧
      (ix ∉ v.retiring → s.table.body ix ≠ .reserved p → v.table.slots[ix] = applied.slots[ix]) ∧
      (∀ o, s.table.body ix = .reserved o → ∀ h : Handle, h.ix? = some ix → v.resolve h = .error .badHandle)

/-! ### Committing, abandoning, applying -/

/-- O19. A COMMIT is refused with QUEUE_FULL and index FFh where the queue has no room; else with the code and the
index of the first entry that fails the checks of R24, but for BATCH_FULL and NO_SLOT, against the projection with the
entries before it applied (R41); else with OVER_LANES, then OVER_STORE, and index FFh, on the final projection. The code
of a failing entry is one of the four that R162 lets a revalidation answer; where the check that fails is one whose code
R162 says COMMIT does not return, which of the four is a free value (log 34). A refusal changes nothing else. -/
def Obligations.CommitRefused : Prop :=
  ∀ (p : Port) (c : QueuedCommand) (s : State), s.canTake p c → c.code = 0x20 → c.params = [] →
    (¬ s.commitRoom p → exec (.commit p) s = .next (s.answered p c .queueFull [0xFF])) ∧
    (∀ k own, s.commitRoom p → s.entryFails p k own → (∀ j code', j < k → ¬ s.entryFails p j code') →
      ∃ code, exec (.commit p) s = .next (s.answered p c code [BitVec.ofNat 8 k]) ∧
        code ∈ [ResultCode.badHandle, .stale, .retired, .badReference] ∧
        (own ∉ [ResultCode.notOwner, .notPermitted, .badParam] → code = own)) ∧
    (s.commitRoom p → s.batchValid p → (s.portView p).lanesOver s.raster.profile →
      exec (.commit p) s = .next (s.answered p c .overLanes [0xFF])) ∧
    (s.commitRoom p → s.batchValid p → ¬ (s.portView p).lanesOver s.raster.profile → (s.portView p).storeOver →
      exec (.commit p) s = .next (s.answered p c .overStore [0xFF]))

/-- O20. A COMMIT that passes in SYNC_ONLY or LIVE joins the tail of the commit queue with its port and ticket; the
port's RESERVED slots become QUEUED, its open batch becomes empty, its next ticket moves on (255 to 1), the response
carries the ticket, and nothing else changes. -/
def Obligations.CommitQueued : Prop :=
  ∀ (p : Port) (c : QueuedCommand) (s : State), s.canTake p c → c.code = 0x20 → c.params = [] → s.commitPasses p →
    s.raster.output ≠ .off →
    let ticket := (s.staging p).nextTicket
    ∃ slots : Vector Slot 15,
      (∀ ix : SlotIx, slots[ix] =
        if s.table.body ix = .reserved p then ⟨s.table.gen ix, .queued p⟩ else s.table.slots[ix]) ∧
      exec (.commit p) s = .next
        { (s.answered p c .ok [ticket]).setStaging p ⟨[], ticketAfter ticket, (s.staging p).appliedTicket⟩ with
          table := { s.table with slots := slots }
          commitQueue := s.commitQueue ++ [⟨p, ticket, (s.staging p).openBatch⟩] }

/-- O21. A COMMIT that passes in OFF is applied in its own act: the entries in their order on the table with the
port's RESERVED slots QUEUED, the port's applied ticket set, APPLIED posted to the port, RECLAIMED posted to Port B for
each of its windows reclaimed, and the queue empty. The raster, the pins, the lanes, the memory port, every other notice
and the other port's batch and tickets are untouched, and of the streams only counts are cleared: those of the windows
hidden, resumed, retired or reclaimed. -/
def Obligations.CommitAppliedInOff : Prop :=
  ∀ (p : Port) (c : QueuedCommand) (s : State), s.canTake p c → c.code = 0x20 → c.params = [] → s.commitPasses p →
    s.raster.output = .off → OffQuiet s →
    let ticket := (s.staging p).nextTicket
    let before := s.table.reservedQueued p
    let entries := (s.staging p).openBatch
    ∃ (t : State) (reclaimed : Vector (Option Nibble) 15), exec (.commit p) s = .next t ∧
      before.reclaims entries s.linkB.notices.reclaimed reclaimed ∧
      t.table = entries.foldl Table.applyEntry before ∧ t.commitQueue = [] ∧
      t.staging p = ⟨[], ticketAfter ticket, ticket⟩ ∧ t.staging (otherPort p) = s.staging (otherPort p) ∧
      t.link p = { (s.served p).link p with
        responses := (s.link p).responses ++ [[c.seq, c.code, 0x00, ticket]]
        notices := { (s.link p).notices with
          applied := some ticket
          reclaimed := if p = .b then reclaimed else (s.link p).notices.reclaimed } } ∧
      t.link (otherPort p) = { s.link (otherPort p) with
        notices := { (s.link (otherPort p)).notices with
          reclaimed := if p = .a then reclaimed else (s.link (otherPort p)).notices.reclaimed } } ∧
      t.nextPort = (s.served p).nextPort ∧ t.raster = s.raster ∧ t.pins = s.pins ∧ t.lanes = s.lanes ∧
      t.lineBackground = s.lineBackground ∧ t.suspensions = s.suspensions ∧ t.store = s.store ∧ t.mem = s.mem ∧
      t.pending = s.pending ∧ t.rstAsserted = s.rstAsserted ∧ t.turn = s.turn ∧ t.serving = none ∧
      t.choices = s.choices ∧ ∀ ix : SlotIx,
        (before.happens entries (fun u e => u.clears e ix) →
          t.streams[ix] = { s.streams[ix] with count := 0, starved := false }) ∧
        (¬ before.happens entries (fun u e => u.clears e ix) → t.streams[ix] = s.streams[ix])

/-- O22. ABANDON discards the port's open batch and answers how many entries it held; every slot RESERVED to the port
returns to FREE with its generation advanced; nothing else changes. The link-reset abandon does the same without a
response and clears the indication; with none pending for the port its step changes nothing (log 3). -/
def Obligations.AbandonDiscards : Prop :=
  ∀ (p : Port) (s : State), ∃ slots : Vector Slot 15,
    (∀ ix : SlotIx, slots[ix] =
      if s.table.body ix = .reserved p then ⟨s.table.gen ix + 1, .free⟩ else s.table.slots[ix]) ∧
    (∀ c : QueuedCommand, s.canTake p c → c.code = 0x21 → c.params = [] →
      exec (.abandon p) s = .next
        { (s.answered p c .ok [BitVec.ofNat 8 (s.staging p).openBatch.length]).setStaging p
            { s.staging p with openBatch := [] } with
          table := { s.table with slots := slots } }) ∧
    (s.free → s.turn = none → s.suspensions = [] → (s.link p).abandonPending = true →
      exec (.linkResetAbandon p) s = .next
        { (s.setLink p { s.link p with abandonPending := false }).setStaging p
            { s.staging p with openBatch := [] } with
          table := { s.table with slots := slots } }) ∧
    ((s.link p).abandonPending = false → exec (.linkResetAbandon p) s = .next s)

/-- O23. What applying an entry does to the table: the slot states, generations and records of R6 and R26 to R36, and
the free segment count of R57. An entry that names a state not in its row leaves the table; no entry touches another
slot; BACKDROP changes the background colour alone. -/
def Obligations.EntryAppliedToTable : Prop :=
  (∀ (t : Table) (h : Handle) (ix : SlotIx) (ch : Change), h.ix? = some ix →
    let need := fun w : Window => 2 * ((w.geometry.width * w.source.format.bytesPerPixel + 255) / 256)
    let held := fun (st : OpenState) (w : Window) => if st = .hidden then 0 else need w
    let t' := t.applyEntry (.window h ch)
    let g := t.gen ix
    (∀ j : SlotIx, j ≠ ix → t'.slots[j] = t.slots[j]) ∧ t'.background = t.background ∧
    match t.body ix, ch with
    | .queued o, .create w .shown _ => t'.slots[ix] = ⟨g, .opened o .shown w⟩ ∧ t'.free = t.free - (need w : Int)
    | .queued o, .create w .hidden _ => t'.slots[ix] = ⟨g, .opened o .hidden w⟩ ∧ t'.free = t.free
    | .opened o st w, .place geo =>
      let w' := { w with geometry := geo }
      t' = { t with slots := t.slots.set ix ⟨g, .opened o st w'⟩
                    free := t.free + (held st w : Int) - (held st w' : Int) }
    | .opened o st w, .source src =>
      let w' := { w with source := src }
      t' = { t with slots := t.slots.set ix ⟨g, .opened o st w'⟩
                    free := t.free + (held st w : Int) - (held st w' : Int) }
    | .opened o st w, .look l => t' = { t with slots := t.slots.set ix ⟨g, .opened o st { w with look := l }⟩ }
    | .opened o .hidden w, .unhide =>
      t' = { t with slots := t.slots.set ix ⟨g, .opened o .shown w⟩, free := t.free - (need w : Int) }
    | .opened o .shown w, .hide | .opened o .suspended w, .hide =>
      t' = { t with slots := t.slots.set ix ⟨g, .opened o .hidden w⟩, free := t.free + (need w : Int) }
    | .opened o .suspended w, .resume => t' = { t with slots := t.slots.set ix ⟨g, .opened o .shown w⟩ }
    | .opened o st w, .restack _ => t'.slots[ix] = ⟨g, .opened o st w⟩ ∧ t'.free = t.free
    | .opened o st w, .pin on =>
      t'.slots[ix] = ⟨g, .opened o st { w with pinned := on }⟩ ∧ t'.free = t.free ∧ (w.pinned = on → t' = t)
    | .opened _ st w, .retire | .opened _ st w, .reclaim =>
      t' = { t with slots := t.slots.set ix ⟨g + 1, .free⟩, free := t.free + (held st w : Int)
                    zorder := t.zorder.filter fun j => decide (j ≠ ix) }
    | _, _ => t' = t) ∧
  ∀ (t : Table) (colour : Colour), t.applyEntry (.backdrop colour) = { t with background := colour }

/-- O24. Where OPEN, RESTACK and PIN put a window (R15 to R17): every other window keeps its order; the window stands
at the top or the bottom of its section, or directly above or below its reference, with no pinned window below an
unpinned one. PIN(on) goes to the bottom of the pinned section, PIN(off) to the top of the unpinned one. -/
def Obligations.PlacementForms : Prop :=
  ∀ (s : State) (h : Handle) (ix : SlotIx) (ch : Change) (up : Bool) (pl : Placement), ZOrderLaw s → h.ix? = some ix →
    ((∃ o st w, s.table.body ix = .opened o st w ∧ ch = .restack pl ∧ up = w.pinned) ∨
     (∃ o st w, s.table.body ix = .opened o st w ∧ ch = .pin up ∧ w.pinned ≠ up ∧
       pl = if up then .bottom else .top) ∨
     (∃ o w vis, s.table.body ix = .queued o ∧ ch = .create w vis pl ∧ up = w.pinned)) →
    let z := s.table.zorder
    let z' := (s.table.applyEntry (.window h ch)).zorder
    (z'.filter fun j => decide (j ≠ ix)) = (z.filter fun j => decide (j ≠ ix)) ∧
    ∃ lower upper : List SlotIx, z' = lower ++ ix :: upper ∧
      (∀ j ∈ lower, s.table.pinned j = true → up = true) ∧ (∀ j ∈ upper, up = true → s.table.pinned j = true) ∧
      match pl with
      | .top => ∀ j ∈ upper, s.table.pinned j ≠ up
      | .bottom => ∀ j ∈ lower, s.table.pinned j ≠ up
      | .above r => ∀ k : SlotIx, r.ix? = some k → k ≠ ix → (s.table.body k).isOpen = true →
          s.table.pinned k = up → ∃ rest, lower = rest ++ [k]
      | .below r => ∀ k : SlotIx, r.ix? = some k → k ≠ ix → (s.table.body k).isOpen = true →
          s.table.pinned k = up → ∃ rest, upper = k :: rest

/-- O25. A frame turn taken in SYNC_ONLY or LIVE applies the whole commit queue, head first, and empties it; for each
port the last batch's ticket becomes its applied ticket and its APPLIED notice; RECLAIMED with the generation before the
apply goes to Port B for each of its windows reclaimed; OUTPUT with the coming state is posted to both ports where the
change flag is set; and every other notice is kept. The streams loaded afterwards are those of the SHOWN slots where the
coming frame is LIVE, and none where it is not; every other stream is off, its count cleared where an entry hid, resumed,
retired or reclaimed its window, and else kept. Where the coming frame is not LIVE ("streams off") the reads in flight for
the streams that were loaded are marked discard, FREE and QUARANTINED tags are kept, and every lane of the line in progress
is vacant, which where its stream was STOPPED is log 21's reading, and between two lines is the model's choice (log 35).
In OFF the turn is discarded. It is taken when no command is in service and no later turn has been reached (logs 31, 32). -/
def Obligations.FrameTurnApplies : Prop :=
  ∀ (s : State) (turn : PendingTurn), s.free → s.turn = some turn → (s.suspensions = [] ∨ turn.ahead = 0) →
    (s.raster.output = .off → exec .frameTurnTaken s = .next { s with turn := none }) ∧
    (s.raster.output ≠ .off →
      let entries := s.commitQueue.flatMap Batch.entries
      ∃ (t : State) (reclaimed : Vector (Option Nibble) 15), exec .frameTurnTaken s = .next t ∧ t.turn = none ∧
      t.commitQueue = [] ∧ t.table = entries.foldl Table.applyEntry s.table ∧
      s.table.reclaims entries s.linkB.notices.reclaimed reclaimed ∧
      (∀ p : Port, ∃ applied : Option Byte,
        t.link p = { s.link p with notices := { (s.link p).notices with
          applied := applied
          output := if turn.changed then some turn.coming else (s.link p).notices.output
          reclaimed := if p = .b then reclaimed else (s.link p).notices.reclaimed } } ∧
        (match (s.commitQueue.filter fun b => b.port == p).getLast? with
          | some b => (t.staging p).appliedTicket = b.ticket ∧ applied = some b.ticket
          | none => (t.staging p).appliedTicket = (s.staging p).appliedTicket ∧
              applied = (s.link p).notices.applied) ∧
        (t.staging p).openBatch = (s.staging p).openBatch ∧ (t.staging p).nextTicket = (s.staging p).nextTicket) ∧
      (∀ ix : SlotIx,
        (t.streams[ix].loaded = true ↔ turn.coming = .live ∧ ∃ o w, t.table.body ix = .opened o .shown w) ∧
        (t.streams[ix].loaded = false →
          s.streamOff ix (s.table.happens entries fun u e => u.clears e ix) t.streams[ix])) ∧
      (turn.coming ≠ .live → (s.marks t fun ix => s.streams[ix].loaded = true) ∧ s.lanesOff t) ∧
      (∃ tags, t.mem = { s.mem with tags := tags }) ∧
      ∃ table stagingA stagingB linkA linkB lanes streams mem, t = { s with
        table := table, stagingA := stagingA, stagingB := stagingB, commitQueue := [], turn := none
        linkA := linkA, linkB := linkB, lanes := lanes, streams := streams, mem := mem })

/-- O26. The stream loads of a frame turn for a LIVE frame, after the batches queued are applied (R47, R105 to R107,
R93): each SHOWN window's stream is RUNNING with the window's fields, its visible rows are those that fall on active
lines, half A takes the first of them not yet begun and half B the next, in segments no other half has; the count and
the starved flag are kept exactly where the stream was loaded with the same handle and no entry cleared the count, as a
RESUME, whose load carries the resume flag, does; reads in flight for it, and for a stream that was loaded, are marked
discard and no other tag changes; its HALF lane becomes FILL. Where the segments lie is the model's choice (log 12). The
lane of a window that is not SHOWN any more, or that an entry hid, retired or reclaimed, is vacant; that this holds
where its stream was STOPPED too is log 21's reading. That the lanes change between two lines is log 35's choice. -/
def Obligations.FrameTurnLoads : Prop :=
  ∀ (s : State) (turn : PendingTurn), s.free → s.turn = some turn → (s.suspensions = [] ∨ turn.ahead = 0) →
    s.raster.output ≠ .off → turn.coming = .live →
    let entries := s.commitQueue.flatMap Batch.entries
    let table := entries.foldl Table.applyEntry s.table
    let shown := fun ix : SlotIx => ∃ o w, table.body ix = .opened o .shown w
    let stopped := fun ix : SlotIx => s.table.happens entries fun u e => u.stops e ix
    let cleared := fun ix : SlotIx => s.table.happens entries fun u e => u.clears e ix
    ∃ t, exec .frameTurnTaken s = .next t ∧
      (∀ (ix : SlotIx) (o : Port) (w : Window), table.body ix = .opened o .shown w →
        let hd := handleOf ix (table.gen ix)
        let st := t.streams[ix]
        let visible := fun r : Nat => 0 ≤ w.geometry.y + r ∧
          w.geometry.y + r < (s.raster.profile.activeHeight : Int) ∧ r < w.geometry.height
        let open' := fun r : Nat => visible r ∧ (s.raster.linesBegun : Int) ≤ w.geometry.y + r
        let kept := s.streams[ix].loaded = true ∧ (s.streams[ix].load.map StreamLoad.handle) = some hd ∧ ¬ cleared ix
        st.cond = .running ∧ st.excused = false ∧
        st.load = some ⟨hd, o, w.source.base, w.source.pitch, w.source.format, w.geometry.width, w.geometry.y,
          w.geometry.height, w.threshold⟩ ∧
        (∀ r, rowVisible st.visible r = true ↔ visible r) ∧
        (∀ r, st.halfA.row = some r ↔ open' r ∧ ∀ q, q < r → ¬ open' q) ∧
        (∀ r, st.halfB.row = some r ↔ open' r ∧ ∃ q, st.halfA.row = some q ∧ r = q + 1) ∧
        (∀ i : HalfId, (st.half i).filled = 0 ∧ (st.half i).requested = [] ∧
          (st.half i).cond = if (st.half i).row = none then .empty else .filling) ∧
        (kept → st.count = s.streams[ix].count ∧ st.starved = s.streams[ix].starved) ∧
        (¬ kept → st.count = 0 ∧ st.starved = false)) ∧
      (∀ (ix jx : SlotIx) (i j : HalfId) (ld ld' : StreamLoad) (a b : Nat), (ix, i) ≠ (jx, j) →
        t.streams[ix].loaded = true → t.streams[jx].loaded = true → t.streams[ix].load = some ld →
        t.streams[jx].load = some ld' → (t.streams[ix].half i).place = some a → (t.streams[jx].half j).place = some b →
        a + ld.segments ≤ b ∨ b + ld'.segments ≤ a) ∧
      (s.marks t fun ix => shown ix ∨ s.streams[ix].loaded = true) ∧
      ∀ (i : Fin 6) (l : Lane) (ix : SlotIx), s.lanes[i] = some l → l.handle.ix? = some ix →
        (shown ix ∧ ¬ stopped ix → t.lanes[i] = some { l with source := .fill }) ∧
        (¬ shown ix ∨ stopped ix → t.lanes[i] = none)

/-- O27. A suspension request taken: a SHOWN slot of the request's generation becomes SUSPENDED with its record, its
place, its segments and its count kept, its stream is stopped, reads in flight for it are marked discard, its lane of
the line in progress is vacant (where its stream was STOPPED too, which is log 21's reading, and between two lines, which
is log 35's choice), and SUSPENDED with the handle goes to its owner. Any other request only leaves the list. A request
may be taken in OFF; it is taken when no command is in service and no frame turn has just been reached (logs 31, 32). -/
def Obligations.SuspensionTaken : Prop :=
  ∀ (s : State) (h : Handle) (rest : List Handle), s.free → s.suspensions = h :: rest →
    (∀ turn, s.turn = some turn → 0 < turn.ahead) →
    let s' := { s with
      suspensions := rest, turn := s.turn.map fun x => { x with ahead := x.ahead - 1 } }
    (∀ (ix : SlotIx) (o : Port) (w : Window), h.ix? = some ix → s.table.body ix = .opened o .shown w →
      s.table.gen ix = h.gen →
      ∃ t, exec .suspensionRequestTaken s = .next t ∧
        t.table = { s.table with slots := s.table.slots.set ix ⟨h.gen, .opened o .suspended w⟩ } ∧
        t.streams[ix].loaded = false ∧ t.streams[ix].count = s.streams[ix].count ∧
        (∀ i : HalfId, s.streams[ix].loaded = true → (t.streams[ix].half i).cond = .empty) ∧
        (∀ j : SlotIx, j ≠ ix → t.streams[j] = s.streams[j]) ∧
        (∀ k : TagIx, t.mem.tags[k] = match s.mem.tags[k] with
          | .waiting e => .waiting (if e.handle.ix? = some ix ∧ s.streams[ix].loaded = true
              then { e with discard := true } else e)
          | x => x) ∧
        (∀ i : Fin 6, t.lanes[i] = match s.lanes[i] with
          | some l => if l.handle.ix? = some ix then none else some l
          | none => none) ∧
        t.link o = { s.link o with notices := { (s.link o).notices with
          suspended := (s.link o).notices.suspended.set ix (some h.gen) } } ∧
        t.link (otherPort o) = s.link (otherPort o) ∧ (∃ tags, t.mem = { s.mem with tags := tags }) ∧
        ∃ table linkA linkB lanes streams mem, t = { s' with
          table := table, linkA := linkA, linkB := linkB, lanes := lanes, streams := streams, mem := mem }) ∧
    ((∀ (ix : SlotIx) (o : Port) (w : Window), h.ix? = some ix → s.table.body ix = .opened o .shown w →
      s.table.gen ix ≠ h.gen) → exec .suspensionRequestTaken s = .next s')

/-! ### Queries and notices -/

/-- O28. QUERY_WINDOW (R22). LIVE: a slot that is not FREE, of the handle's generation, is answered with its state, "not
pending", its owner, its handle, its record (26 bytes of 00h while RESERVED or QUEUED), its live state and, while SHOWN
or SUSPENDED, its count. PROJECTED: a slot open in the asking port's view, with its state there, whether it is pending
retirement there, owner, handle, record, and the live state and count. Slot 0 and a slot FREE in the view are refused
with BAD_HANDLE, another generation with STALE, a selector of no listed value with BAD_PARAM. Nothing else changes. -/
def Obligations.QueryWindowAnswers : Prop :=
  ∀ (p : Port) (seq hb sel : Byte) (s : State), s.canTake p ⟨seq, 0x30, [hb, sel]⟩ →
    let h := Handle.ofByte hb
    let ans := fun code data => exec (.queryWindow p) s = .next (s.answered p ⟨seq, 0x30, [hb, sel]⟩ code data)
    let record := fun w : Window => w.geometry.bytes ++ w.source.bytes ++ w.look.bytes ++
      [BitVec.ofNat 8 w.threshold, if w.pinned then 0x01 else 0x00, BitVec.ofNat 8 w.need]
    (sel ≠ 0x00 → sel ≠ 0x01 → ans .badParam []) ∧
    (sel = 0x00 →
      ((h.ix? = none ∨ ∃ ix, h.ix? = some ix ∧ s.table.body ix = .free) → ans .badHandle []) ∧
      (∀ ix, h.ix? = some ix → s.table.body ix ≠ .free → s.table.gen ix ≠ h.gen → ans .stale []) ∧
      (∀ ix o, h.ix? = some ix → s.table.gen ix = h.gen → s.table.body ix = .reserved o →
        ans .ok ([0x01, 0x00, portByte o, hb] ++ List.replicate 26 0x00 ++ [0x01, 0x00])) ∧
      (∀ ix o, h.ix? = some ix → s.table.gen ix = h.gen → s.table.body ix = .queued o →
        ans .ok ([0x02, 0x00, portByte o, hb] ++ List.replicate 26 0x00 ++ [0x02, 0x00])) ∧
      ∀ ix o st w, h.ix? = some ix → s.table.gen ix = h.gen → s.table.body ix = .opened o st w →
        let sb : Byte := match st with
          | .shown => 0x03
          | .hidden => 0x04
          | .suspended => 0x05
        ans .ok ([sb, 0x00, portByte o, hb] ++ record w ++
          [sb, if st = .hidden then 0x00 else BitVec.ofNat 8 s.streams[ix].count])) ∧
    let v := s.portView p
    (sel = 0x01 →
      (v.windowAt h = none → ans .badHandle []) ∧
      (∀ ix o w, v.windowAt h = some (ix, o, w) → v.table.gen ix ≠ h.gen → ans .stale []) ∧
      ∀ ix o st w, h.ix? = some ix → v.table.body ix = .opened o st w → v.table.gen ix = h.gen →
        let sb : Byte := match st with
          | .shown => 0x03
          | .hidden => 0x04
          | .suspended => 0x05
        let count : Byte := match s.table.body ix with
          | .opened _ .shown _ | .opened _ .suspended _ => BitVec.ofNat 8 s.streams[ix].count
          | _ => 0x00
        ans .ok ([sb, if ix ∈ v.retiring then 0x01 else 0x00, portByte o, hb] ++ record w ++
          [(s.table.body ix).byte, count]))

/-- O29. QUERY_STATE answers the block of section 10.4 and changes nothing else: output state, pending target, settle
count, queued batches and applied tickets of both ports, the asking port's next ticket and open batch entries, free
segments, free slots, fetch state, epoch and fetch timeout. -/
def Obligations.QueryStateBlock : Prop :=
  ∀ (p : Port) (c : QueuedCommand) (s : State), s.canTake p c → c.code = 0x31 → c.params = [] →
    exec (.queryState p) s = .next (s.answered p c .ok [s.raster.output.byte, s.raster.target.byte,
      BitVec.ofNat 8 s.raster.settle, BitVec.ofNat 8 (s.commitQueue.filter fun b => b.port == .a).length,
      BitVec.ofNat 8 (s.commitQueue.filter fun b => b.port == .b).length, s.stagingA.appliedTicket,
      s.stagingB.appliedTicket, (s.staging p).nextTicket, BitVec.ofNat 8 (s.staging p).openBatch.length,
      BitVec.ofNat 8 s.table.free.toNat, BitVec.ofNat 8 (s.table.free.toNat / 256),
      BitVec.ofNat 8 (allSlots.filter fun ix => decide (s.table.body ix = .free)).length,
      if s.mem.fetchState = .stuck then 0x01 else 0x00, s.mem.epoch, BitVec.ofNat 8 s.mem.timeout])

/-- O30. TAKE_NOTICES answers the count and the entries of the port's notice set, two bytes each, in the order of R159
with the kind codes of R168, at most 48 of them, and leaves the set empty and the notice line high; nothing else
changes. -/
def Obligations.NoticesTaken : Prop :=
  ∀ (p : Port) (c : QueuedCommand) (s : State), s.canTake p c → c.code = 0x32 → c.params = [] →
    let n := (s.link p).notices
    let perSlot := fun f : SlotIx → Option (List Byte) => allSlots.filterMap f
    let entries : List (List Byte) :=
      n.applied.toList.map (fun ticket => [0x01, ticket]) ++ n.output.toList.map (fun o => [0x02, o.byte]) ++
      (if n.fetchStuck then [[0x03, 0x00]] else []) ++ (if n.spurious then [[0x04, 0x00]] else []) ++
      perSlot (fun ix => n.suspended[ix].map fun g => [0x05, (handleOf ix g).byte]) ++
      perSlot (fun ix => n.reclaimed[ix].map fun g => [0x06, (handleOf ix g).byte]) ++
      perSlot (fun ix => n.fetchFault[ix].map fun f => [if f.2 = .error then 0x07 else 0x08, (handleOf ix f.1).byte])
    let t := (s.answered p c .ok (BitVec.ofNat 8 entries.length :: entries.flatten)).post p fun _ => Notices.empty
    exec (.takeNotices p) s = .next t ∧ (t.link p).noteLine = true ∧
      (Ranges s → entries.length ≤ 48 ∧ (entries.flatten).length = 2 * entries.length)

/-- O31. QUERY_TIMING answers, from any port and in any output state, a validity byte and the twelve fields of the
profile in force in the order of section 10.5, and changes nothing else; the validity is "no" exactly while the reset
profile stands (R70). -/
def Obligations.QueryTimingAnswers : Prop :=
  ∀ (p : Port) (c : QueuedCommand) (s : State), s.canTake p c → c.code = 0x33 → c.params = [] →
    let t := s.raster.profile
    let word := fun n : Nat => ([BitVec.ofNat 8 n, BitVec.ofNat 8 (n / 256)] : List Byte)
    let pol := fun x : Polarity => if x = .high then (0x00 : Byte) else 0x01
    exec (.queryTiming p) s = .next (s.answered p c .ok ((if t.valid then 0x01 else 0x00) ::
      (word t.hTotal ++ word t.hActiveStart ++ word t.hActiveWidth ++ word t.hSyncStart ++ word t.hSyncWidth ++
        [pol t.hSyncPolarity] ++ word t.vTotal ++ word t.vActiveStart ++ word t.vActiveHeight ++ word t.vSyncStart ++
        word t.vSyncWidth ++ [pol t.vSyncPolarity]))) ∧
    (RasterLaw s → (t.valid = false ↔ t = Profile.reset))

/-! ### Output, timing and fetch commands -/

/-- O32. OUTPUT_START from Port A (R80): in OFF with a valid profile the output enters SYNC_ONLY at line 0, pixel 0, the
settle count 0 and no target, with HS, VS, DE and PD at that position's levels in the act itself (R80's words rather
than R86's, log 19; PD, where the active area begins there, the background that its active-line start latches, log 7),
its raster events emitted, and OUTPUT carrying SYNC_ONLY posted to both ports; with an invalid profile it is refused
with BAD_TIMING, out of OFF with WRONG_STATE. -/
def Obligations.OutputStarts : Prop :=
  ∀ (c : QueuedCommand) (s : State), s.canTake .a c → c.code = 0x40 → c.params = [] →
    let prof := s.raster.profile
    (s.raster.output = .off → prof.valid = false →
      exec (.outputStart .a) s = .next (s.answered .a c .badTiming [0x00, s.raster.target.byte])) ∧
    (s.raster.output ≠ .off → exec (.outputStart .a) s =
      .next (s.answered .a c .wrongState [s.raster.output.byte, s.raster.target.byte])) ∧
    (s.raster.output = .off → prof.valid = true → exec (.outputStart .a) s = .next
      { (s.answered .a c .ok [0x01, 0x00]).postOutput .syncOnly with
        raster := { s.raster with
          output := .syncOnly, pixel := 0, line := 0, settle := 0, target := .none, linesBegun := 0
          due := prof.eventsAt 0 0 }
        pins := ⟨if prof.hSyncStart = 0 then prof.hSyncPolarity == .high else prof.hSyncPolarity == .low,
          if prof.vSyncStart = 0 then prof.vSyncPolarity == .high else prof.vSyncPolarity == .low,
          prof.hActiveStart == 0 && prof.vActiveStart == 0,
          if prof.hActiveStart = 0 ∧ prof.vActiveStart = 0 then s.table.background.pd else 0⟩ })

/-- O33. OUTPUT_LIVE and OUTPUT_QUIET from Port A: the tables of R81 and R82. The response carries the output state and
the pending target left, and nothing but the pending target changes. (Where one is taken before its row, because a request
became pending then, it makes the same change at that moment: O8, O39, O45.) -/
def Obligations.OutputTargets : Prop :=
  ∀ (c : QueuedCommand) (s : State), s.canTake .a c → c.params = [] →
    let left := fun target : PendingTarget =>
      { s.answered .a c .ok [s.raster.output.byte, target.byte] with raster := { s.raster with target := target } }
    let wrong := s.answered .a c .wrongState [s.raster.output.byte, s.raster.target.byte]
    (c.code = 0x41 → exec (.outputLive .a) s = .next (match s.raster.output with
      | .off => wrong
      | .syncOnly => left .live
      | .live => left .none)) ∧
    (c.code = 0x42 → exec (.outputQuiet .a) s = .next (match s.raster.output with
      | .off => wrong
      | .live => left .syncOnly
      | .syncOnly => left .none))

/-- O34. OUTPUT_STOP from Port A (R50, R83): in OFF it answers OK and changes nothing. In SYNC_ONLY or LIVE the output
is OFF with the counters at 0, no target, settle count 0, HS and VS inactive, DE low, PD 0, no event standing (those
whose row has not come are dropped, the model's choice, log 10) and every lane vacant; the whole commit queue is applied,
with RECLAIMED for each window of Port B reclaimed; every stream is off, its count kept or, where an entry hid, resumed,
retired or reclaimed its window, cleared; reads in flight for the streams that were loaded are marked discard, FREE and
QUARANTINED tags are kept; OUTPUT carrying OFF is posted to both ports; every other notice is kept; and a request or frame
turn that became pending in the command's service stays pending (R48, R121; log 31). -/
def Obligations.OutputStops : Prop :=
  ∀ (c : QueuedCommand) (s : State), s.canTake .a c → c.code = 0x43 → c.params = [] →
    (s.raster.output = .off →
      exec (.outputStop .a) s = .next (s.answered .a c .ok [0x00, s.raster.target.byte])) ∧
    (s.raster.output ≠ .off →
      let entries := s.commitQueue.flatMap Batch.entries
      ∃ (t : State) (reclaimed : Vector (Option Nibble) 15), exec (.outputStop .a) s = .next t ∧
      t.raster.output = .off ∧ t.raster.pixel = 0 ∧ t.raster.line = 0 ∧ t.raster.target = .none ∧
      t.raster.settle = 0 ∧ t.raster.due = [] ∧ t.raster.profile = s.raster.profile ∧
      t.pins = ⟨s.raster.profile.hSyncPolarity == .low, s.raster.profile.vSyncPolarity == .low, false, 0⟩ ∧
      (∀ i : Fin 6, t.lanes[i] = none) ∧ t.commitQueue = [] ∧
      t.table = entries.foldl Table.applyEntry s.table ∧
      s.table.reclaims entries s.linkB.notices.reclaimed reclaimed ∧
      (∀ ix : SlotIx, t.streams[ix].loaded = false ∧
        s.streamOff ix (s.table.happens entries fun u e => u.clears e ix) t.streams[ix]) ∧
      (s.marks t fun ix => s.streams[ix].loaded = true) ∧
      (∀ p : Port, ∃ applied : Option Byte,
        (t.link p).notices = { (s.link p).notices with
          applied := applied
          output := some .off
          reclaimed := if p = .b then reclaimed else (s.link p).notices.reclaimed } ∧
        (t.staging p).openBatch = (s.staging p).openBatch ∧ (t.staging p).nextTicket = (s.staging p).nextTicket ∧
        match (s.commitQueue.filter fun b => b.port == p).getLast? with
        | some b => (t.staging p).appliedTicket = b.ticket ∧ applied = some b.ticket
        | none => (t.staging p).appliedTicket = (s.staging p).appliedTicket ∧
            applied = (s.link p).notices.applied) ∧
      (∃ n, t.link .a = { (s.served .a).link .a with
        responses := (s.link .a).responses ++ [[c.seq, 0x43, 0x00, 0x00, 0x00]], notices := n }) ∧
      (∃ n, t.link .b = { s.link .b with notices := n }) ∧ (∃ tags, t.mem = { s.mem with tags := tags }) ∧
      ∃ table stagingA stagingB linkA linkB raster pins lanes streams mem, t = { s.served .a with
        table := table, stagingA := stagingA, stagingB := stagingB, commitQueue := []
        linkA := linkA, linkB := linkB, raster := raster, pins := pins, lanes := lanes, streams := streams
        mem := mem })

/-- O35. SET_TIMING from Port A, in the order of R69: WRONG_STATE out of OFF; BAD_TIMING for bytes that are no profile
or an invalid one; OVER_LANES where more than six SHOWN or SUSPENDED windows of the live table would cover an active
line; else the whole profile is replaced, HS and VS take its inactive levels, DE low and PD 0, and nothing else
changes. A profile is valid (R68) with every field in its range, 16 pixel positions and two lines after the active
area, the sync intervals inside the line and the frame, and no position in both a sync and an active interval. -/
def Obligations.TimingSet : Prop :=
  (∀ (c : QueuedCommand) (s : State), s.canTake .a c → c.code = 0x44 → c.params.length = 22 →
    let live : View := ⟨s.table, []⟩
    (s.raster.output ≠ .off → exec (.setTiming .a) s = .next (s.answered .a c .wrongState [])) ∧
    (s.raster.output = .off →
      (decodeProfile c.params = none → exec (.setTiming .a) s = .next (s.answered .a c .badTiming [])) ∧
      ∀ prof, decodeProfile c.params = some prof → exec (.setTiming .a) s = .next (
        if prof.valid = false then s.answered .a c .badTiming []
        else if 6 < peakLanes live.countedWindows prof.vActiveHeight then s.answered .a c .overLanes []
        else { s.answered .a c .ok [] with
          raster := { s.raster with profile := prof }
          pins := ⟨prof.hSyncPolarity == .low, prof.vSyncPolarity == .low, false, 0⟩ }))) ∧
  ∀ t : Profile, t.valid = true ↔
    (128 ≤ t.hTotal ∧ t.hTotal ≤ 4096 ∧ t.hActiveStart ≤ 4095 ∧ 64 ≤ t.hActiveWidth ∧ t.hActiveWidth ≤ 2048 ∧
      t.hSyncStart ≤ 4095 ∧ 1 ≤ t.hSyncWidth ∧ t.hSyncWidth ≤ 1023 ∧ 16 ≤ t.vTotal ∧ t.vTotal ≤ 4096 ∧
      t.vActiveStart ≤ 4095 ∧ 64 ≤ t.vActiveHeight ∧ t.vActiveHeight ≤ 2048 ∧ t.vSyncStart ≤ 4095 ∧
      1 ≤ t.vSyncWidth ∧ t.vSyncWidth ≤ 63) ∧
    t.hActiveStart + t.hActiveWidth + 16 ≤ t.hTotal ∧ t.hSyncStart + t.hSyncWidth ≤ t.hTotal ∧
    t.vActiveStart + t.vActiveHeight + 2 ≤ t.vTotal ∧ t.vSyncStart + t.vSyncWidth ≤ t.vTotal ∧
    (∀ q : Nat, ¬ (t.hSyncStart ≤ q ∧ q < t.hSyncStart + t.hSyncWidth ∧ t.hActiveStart ≤ q ∧
      q < t.hActiveStart + t.hActiveWidth)) ∧
    ∀ l : Nat, ¬ (t.vSyncStart ≤ l ∧ l < t.vSyncStart + t.vSyncWidth ∧ t.vActiveStart ≤ l ∧
      l < t.vActiveStart + t.vActiveHeight)

/-- O36. SET_FETCH_TIMEOUT from Port A sets a timeout of 1 to 63 and changes nothing else, and is refused with BAD_PARAM
for any other value. RESET_FETCH from Port A (R93, R123, R137): the epoch moves on by one modulo 256 and is answered;
every tag is FREE and the fetch state RUNNING; every half is EMPTY in its place in the store, every excused flag set, a
RUNNING stream IDLE, with condition, fields, counts and starved flags otherwise kept; every HALF lane is FILL, between
two lines too (log 35). The standing offer, the suspension requests, the timeout, the notices and the table are kept. -/
def Obligations.FetchCommands : Prop :=
  (∀ (seq v : Byte) (s : State), s.canTake .a ⟨seq, 0x45, [v]⟩ →
    exec (.setFetchTimeout .a) s = .next (if v = 0 ∨ 63 < v.toNat then s.answered .a ⟨seq, 0x45, [v]⟩ .badParam []
      else { s.answered .a ⟨seq, 0x45, [v]⟩ .ok [] with mem := { s.mem with timeout := v.toNat } })) ∧
  ∀ (c : QueuedCommand) (s : State), s.canTake .a c → c.code = 0x46 → c.params = [] →
    ∃ t, exec (.resetFetch .a) s = .next t ∧ t.mem.epoch = s.mem.epoch + 1 ∧ (∀ k : TagIx, t.mem.tags[k] = .free) ∧
      t.mem.fetchState = .running ∧ t.mem.channel = s.mem.channel ∧ t.mem.timeout = s.mem.timeout ∧
      t.mem.beats = s.mem.beats ∧
      (∀ ix : SlotIx, ∃ a b : Half, t.streams[ix] = { s.streams[ix] with
          cond := (if s.streams[ix].cond = .running then .idle else s.streams[ix].cond)
          halfA := a, halfB := b, excused := true } ∧
        a.place = s.streams[ix].halfA.place ∧ b.place = s.streams[ix].halfB.place ∧
        ∀ h ∈ [a, b], h.row = none ∧ h.cond = .empty ∧ h.filled = 0 ∧ h.requested = []) ∧
      (∀ i : Fin 6, t.lanes[i] = (s.lanes[i]).map fun l =>
        if l.handle.ix? = none then l else { l with source := .fill }) ∧
      (∃ lanes streams mem, t = { s.answered .a c .ok [s.mem.epoch + 1] with
        lanes := lanes, streams := streams, mem := mem })

/-! ### Rules of the whole part -/

/-- O37. The output state changes only as R76's table says: OFF to SYNC_ONLY by OUTPUT_START, SYNC_ONLY to LIVE at a
frame turn with target LIVE that brings the settle count to 2, LIVE to SYNC_ONLY at a frame turn with target SYNC_ONLY,
and to OFF by OUTPUT_STOP and device reset. The frame turn is the row FRAME_TURN, or one due whose row has not come by the
next PCLK edge, which then makes it (log 6). -/
def Obligations.OutputStateChangesOnly : Prop :=
  ∀ (i : Instr) (s t : State), RasterLaw s → exec i s = .next t → t.raster.output ≠ s.raster.output →
    let frameTurn := RasterEvent.frameTurn ∈ s.raster.due ∧ (i = .frameTurn ∨ i = .pclkRisingEdge)
    (i = .outputStart .a ∧ s.raster.output = .off ∧ t.raster.output = .syncOnly) ∨
    (frameTurn ∧ s.raster.output = .syncOnly ∧ t.raster.output = .live ∧ s.raster.target = .live ∧
      t.raster.settle = 2) ∨
    (frameTurn ∧ s.raster.output = .live ∧ t.raster.output = .syncOnly ∧ s.raster.target = .syncOnly) ∨
    (i = .outputStop .a ∧ t.raster.output = .off) ∨ (i = .deviceReset ∧ t.raster.output = .off)

/-- O38. An open window's state and record, the z-order list, the background and the free segment count change only
where a batch is applied (FRAME_TURN_TAKEN, OUTPUT_STOP, a COMMIT in OFF), a suspension request is taken, or the device
is reset (R19); no frame, query, fetch or raster step reaches the table. -/
def Obligations.LiveTableChangesOnly : Prop :=
  ∀ (i : Instr) (s t : State), exec i s = .next t →
    i = .frameTurnTaken ∨ i = .outputStop .a ∨ (∃ p, i = .commit p ∧ s.raster.output = .off) ∨
    i = .suspensionRequestTaken ∨ i = .deviceReset ∨
    (t.table.zorder = s.table.zorder ∧ t.table.background = s.table.background ∧ t.table.free = s.table.free ∧
      ∀ ix : SlotIx, (s.table.body ix).isOpen = true ∨ (t.table.body ix).isOpen = true →
        t.table.slots[ix] = s.table.slots[ix])

/-! ### The raster -/

/-- O39. A rising edge of PCLK. In OFF nothing changes. In SYNC_ONLY and LIVE, with no event of the position held still to
be taken, it moves the counters on by one position (R71), emits exactly the events of R72 and R73 for the position reached
in their order (line start and frame turn, active-line start, active-line end and then active end), and drives HS, VS and
DE for it (R74, R75); PD is 0 outside the active area, the line's background in SYNC_ONLY and the composed pixel in LIVE.
At the first active pixel of a line, PD is that of the line whose active-line start comes at the same position: background
and lanes as that start leaves them (the order of the two is the model's, log 7), so the start, taken next, finds the pins
at its own levels. An event of the position
held whose row has not come comes about first, as its row would make it (log 6). Where the position reached is that of the
frame turn, the turn arrives (R84): a command the arbiter chooses at that moment may have been taken before it, has then
left its queue and is in service, and an output command has met the raster generator before the turn does (R20, R146; which
of the two is a free value, log 31). -/
def Obligations.PclkEdgeAdvances : Prop :=
  ∀ s : State,
    (s.raster.output = .off → exec .pclkRisingEdge s = .next s) ∧
    (∀ e rest, s.raster.output ≠ .off → s.raster.due = e :: rest →
      exec .pclkRisingEdge s = match exec e.row s with
        | .next t => exec .pclkRisingEdge t
        | .fault f => .fault f
        | .refused r => .refused r) ∧
    (s.raster.output ≠ .off → s.raster.due = [] → RasterLaw s →
      let p := s.raster.profile
      let q := if s.raster.pixel + 1 = p.hTotal then 0 else s.raster.pixel + 1
      let l := if s.raster.pixel + 1 = p.hTotal then (if s.raster.line + 1 = p.vTotal then 0 else s.raster.line + 1)
        else s.raster.line
      let lineActive := p.vActiveStart ≤ l ∧ l < p.vActiveStart + p.vActiveHeight
      let active := lineActive ∧ p.hActiveStart ≤ q ∧ q < p.hActiveStart + p.hActiveWidth
      let first := lineActive ∧ q = p.hActiveStart
      let seen := if first then s.withLine (l - p.vActiveStart) else s
      (s.raster.output = .live → active → seen.lanesInStore (q - p.hActiveStart) = true) →
      ∃ (due : List RasterEvent) (pins : Pins) (u : State), exec .pclkRisingEdge s = .next
          { u with raster := { u.raster with pixel := q, line := l, due := due }, pins := pins } ∧
        (if q = 0 ∧ l = p.vActiveStart + p.vActiveHeight then s.requestPends u else u = s) ∧
        pins.hs = (if p.hSyncStart ≤ q ∧ q < p.hSyncStart + p.hSyncWidth then p.hSyncPolarity == .high
          else p.hSyncPolarity == .low) ∧
        pins.vs = (if p.vSyncStart ≤ l ∧ l < p.vSyncStart + p.vSyncWidth then p.vSyncPolarity == .high
          else p.vSyncPolarity == .low) ∧
        (pins.de = true ↔ active) ∧ (¬ active → pins.pd = 0) ∧
        (active → s.raster.output = .syncOnly →
          pins.pd = if first then s.table.background.pd else s.lineBackground.pd) ∧
        (active → s.raster.output = .live → pins.pd = (seen.composed (q - p.hActiveStart)).pd) ∧
        (∀ t, first → exec .activeLineStart { s with
            raster := { s.raster with pixel := q, line := l, due := due }, pins := pins } = .next t → t.pins = pins) ∧
        due = (if q = 0 then [RasterEvent.lineStart l] else []) ++
          (if q = 0 ∧ l = p.vActiveStart + p.vActiveHeight then [.frameTurn] else []) ++
          (if first then [.activeLineStart (l - p.vActiveStart)] else []) ++
          (if lineActive ∧ q = p.hActiveStart + p.hActiveWidth then [.activeLineEnd (l - p.vActiveStart)] else []) ++
          (if lineActive ∧ q = p.hActiveStart + p.hActiveWidth ∧ l + 1 = p.vActiveStart + p.vActiveHeight
            then [.activeEnd] else []) ∧ due.Nodup)

/-- O40. The frame turn reached (R73): the settle count goes up by one, to 2 at most; a pending SYNC_ONLY is entered, a
pending LIVE is entered where the count is now 2 and otherwise stays; and the turn becomes pending at the table
controller with the coming state and the change flag, behind the suspension requests now on the list (R20; that a
replaced turn's requests count as before the new one, and that its change flag is kept, is log 11). Of the commands, those
taken before the edge that reached the line have met the target, and every other one waits (R84: O12, O39). Where no frame
turn stands emitted nothing changes (log 3); it may be taken before the line start of its position (log 8). -/
def Obligations.FrameTurnReached : Prop :=
  ∀ s : State,
    let n := min (s.raster.settle + 1) 2
    let output := if s.raster.target = .syncOnly then .syncOnly
      else if s.raster.target = .live ∧ n = 2 then .live else s.raster.output
    let target := if s.raster.target = .live ∧ n ≠ 2 then PendingTarget.live else .none
    (RasterEvent.frameTurn ∈ s.raster.due →
      exec .frameTurn s = .next { s with
        raster := { s.raster with
          settle := n, output := output, target := target, linesBegun := 0
          due := s.raster.due.erase .frameTurn }
        turn := some ⟨output, decide (output ≠ s.raster.output ∨ ∃ old, s.turn = some old ∧ old.changed = true),
          s.suspensions.length⟩ }) ∧
    (RasterEvent.frameTurn ∉ s.raster.due → exec .frameTurn s = .next s)

/-- O41. A line start (R133, R135): every WAITING tag ages by one, to 63 at most; those whose age reaches the fetch
timeout are QUARANTINED; an unmarked one fails the half it names and marks the half's other reads discard, and
FETCH_FAULT with its handle and the cause TIMEOUT goes to the owner of its stream; where all eight are then QUARANTINED
the fetch state is STUCK and FETCH_STUCK goes to both ports. FREE and QUARANTINED tags keep, and nothing else
changes. -/
def Obligations.LineStartAges : Prop :=
  ∀ (s : State) (l : Nat), s.raster.due.head? = some (.lineStart l) → FetchLaw s →
    let hit := fun (e : TagEntry) => s.timesOut e ∧ e.discard = false ∧ ∃ k : TagIx, s.mem.tags[k] = .waiting e
    ∃ (t : State) (stuck : Bool), exec .lineStart s = .next t ∧
      (∀ k : TagIx, match s.mem.tags[k] with
        | .waiting e => ∃ d, (e.discard = true → d = true) ∧
            if s.timesOut e then t.mem.tags[k] = .quarantined { e with age := min (e.age + 1) 63, discard := d }
            else t.mem.tags[k] = .waiting { e with age := min (e.age + 1) 63, discard := d } ∧
              (d = true ↔ e.discard = true ∨ ∃ e', hit e' ∧ e.sameHalf e')
        | x => t.mem.tags[k] = x) ∧
      (∀ (ix : SlotIx) (i : HalfId),
        ((∃ e, hit e ∧ e.handle.ix? = some ix ∧ e.half = i) →
          t.streams[ix].half i = { s.streams[ix].half i with cond := .failed }) ∧
        ((∀ e, hit e → e.handle.ix? = some ix → e.half ≠ i) → t.streams[ix].half i = s.streams[ix].half i)) ∧
      (∀ ix : SlotIx, ∃ a b : Half, t.streams[ix] = { s.streams[ix] with halfA := a, halfB := b }) ∧
      (stuck = true ↔ (∃ (k : TagIx) (e : TagEntry), s.mem.tags[k] = .waiting e) ∧
        ∀ k : TagIx, (t.mem.tags[k]).isQuarantined = true) ∧
      (∀ p : Port, ∃ faults : Vector (Option (Nibble × FaultCause)) 15,
        t.link p = { s.link p with notices := { (s.link p).notices with
          fetchFault := faults, fetchStuck := stuck || (s.link p).notices.fetchStuck } } ∧
        (∀ (e : TagEntry) (ix : SlotIx) (ld : StreamLoad), hit e → e.handle.ix? = some ix →
          s.streams[ix].load = some ld → ld.owner = p → faults[ix] = some (e.handle.gen, .timeout)) ∧
        ∀ ix : SlotIx, (∀ (e : TagEntry) (ld : StreamLoad), hit e → e.handle.ix? = some ix →
          s.streams[ix].load = some ld → ld.owner ≠ p) → faults[ix] = (s.link p).notices.fetchFault[ix]) ∧
      ∃ streams linkA linkB tags, t = { s with
        streams := streams, linkA := linkA, linkB := linkB
        mem := { s.mem with tags := tags, fetchState := if stuck then .stuck else s.mem.fetchState }
        raster := { s.raster with due := s.raster.due.tail } }

/-- O42. TAG_TIMEOUT of a tag that the line start due would time out does that tag's part of it first (the model's
split of the line start, log 9): QUARANTINED with its new age; unmarked, its half fails, the half's other reads are
marked discard and FETCH_FAULT with its handle and the cause TIMEOUT goes to the owner of its stream; marked, no half
and no notice but FETCH_STUCK is touched. Where all eight tags are then QUARANTINED the fetch state is STUCK and
FETCH_STUCK goes to both ports. The line start stays due, and nothing else changes. -/
def Obligations.TagTimesOut : Prop :=
  ∀ (s : State) (l : Nat) (k : TagIx) (e : TagEntry), s.raster.due.head? = some (.lineStart l) →
    s.mem.tags[k] = .waiting e → s.timesOut e →
    ∃ (t : State) (stuck : Bool), exec (.tagTimeout k) s = .next t ∧
      (stuck = true ↔ ∀ j : TagIx, j = k ∨ (s.mem.tags[j]).isQuarantined = true) ∧
      t.mem.tags[k] = .quarantined { e with age := min (e.age + 1) 63 } ∧
      (∀ j : TagIx, j ≠ k → t.mem.tags[j] = match s.mem.tags[j] with
        | .waiting e' => .waiting (if e.discard = false ∧ e'.sameHalf e then { e' with discard := true } else e')
        | x => x) ∧
      (e.discard = true → t.streams = s.streams) ∧
      (∀ (ix : SlotIx) (ld : StreamLoad), e.discard = false → e.handle.ix? = some ix → s.streams[ix].load = some ld →
        (s.streams[ix].half e.half).row = some e.row → (s.streams[ix].half e.half).cond = .filling →
        t.streams = s.streams.set ix
          (s.streams[ix].setHalf e.half { s.streams[ix].half e.half with cond := .failed })) ∧
      (∀ p : Port, ∃ faults : Vector (Option (Nibble × FaultCause)) 15,
        t.link p = { s.link p with notices := { (s.link p).notices with
          fetchFault := faults, fetchStuck := stuck || (s.link p).notices.fetchStuck } } ∧
        (e.discard = true → faults = (s.link p).notices.fetchFault) ∧
        ∀ (ix : SlotIx) (ld : StreamLoad), e.discard = false → e.handle.ix? = some ix →
          s.streams[ix].load = some ld → faults = if ld.owner = p
            then (s.link p).notices.fetchFault.set ix (some (e.handle.gen, .timeout))
            else (s.link p).notices.fetchFault) ∧
      ∃ streams linkA linkB tags, t = { s with
        streams := streams, linkA := linkA, linkB := linkB
        mem := { s.mem with tags := tags, fetchState := if stuck then .stuck else s.mem.fetchState } }

/-- O43. The active-line start of active line L (R90 to R92, R106, R111): the background is latched; in SYNC_ONLY every
lane is vacant; in LIVE the SHOWN windows that cover L take the lanes from lane 1 upward, bottom to top, each with its
row, covered span, fields and HALF exactly where the half of its stream holding the row is READY; a loaded stream whose
row is not READY is marked starved unless excused; the row counts as begun; and PD carries the line's first pixel
(log 7). -/
def Obligations.ActiveLineStartFills : Prop :=
  ∀ (s : State) (l : Nat), s.raster.due = [.activeLineStart l] → RasterLaw s → s.raster.output ≠ .off →
    RowsInStore s →
    let covers := fun ix : SlotIx => match s.table.body ix with
      | .opened _ .shown w => decide (w.geometry.y ≤ (l : Int) ∧ (l : Int) < w.geometry.y + w.geometry.height)
      | _ => false
    let readyRow := fun (ix : SlotIx) (i : HalfId) (r : Nat) =>
      (s.streams[ix].half i).row = some r ∧ (s.streams[ix].half i).cond = .ready ∧
        (i = .b → s.streams[ix].halfA.row ≠ some r)
    ∃ t, exec .activeLineStart s = .next t ∧ t.lineBackground = s.table.background ∧
      t.raster = { s.raster with due := [], linesBegun := l + 1 } ∧
      (s.raster.output = .syncOnly → ∀ i : Fin 6, t.lanes[i] = none) ∧
      (s.raster.output = .live → ∀ i : Fin 6, match (s.table.zorder.filter covers)[i.val]? with
        | none => t.lanes[i] = none
        | some ix => ∃ lane o w, t.lanes[i] = some lane ∧ s.table.body ix = .opened o .shown w ∧
            lane.handle = handleOf ix (s.table.gen ix) ∧ (l : Int) = w.geometry.y + lane.row ∧
            lane.x = w.geometry.x ∧ lane.format = w.source.format ∧ lane.alpha = w.look.alpha ∧
            lane.fill = w.look.fill ∧ lane.key = w.look.key ∧
            (∀ x : Nat, (∃ a b, lane.span = some (a, b) ∧ a ≤ x ∧ x ≤ b) ↔
              w.geometry.x ≤ (x : Int) ∧ (x : Int) < w.geometry.x + w.geometry.width ∧
                x < s.raster.profile.hActiveWidth) ∧
            ∀ j : HalfId, lane.source = .half j ↔ s.streams[ix].loaded = true ∧
              s.streams[ix].load.map StreamLoad.handle = some lane.handle ∧ readyRow ix j lane.row) ∧
      (∀ ix : SlotIx, ∃ b, t.streams[ix] = { s.streams[ix] with starved := b } ∧
        (b = true ↔ s.streams[ix].starved = true ∨ (s.streams[ix].loaded = true ∧ s.streams[ix].excused = false ∧
          ∃ ld r, s.streams[ix].load = some ld ∧ (l : Int) = ld.y + (r : Nat) ∧
            rowVisible s.streams[ix].visible r = true ∧ ∀ i, ¬ readyRow ix i r))) ∧
      t.pins = { s.pins with pd := if s.raster.output = .live then (t.composed 0).pd else s.table.background.pd } ∧
      ∃ lanes background streams raster pins, t = { s with
        lanes := lanes, lineBackground := background, streams := streams, raster := raster, pins := pins }

/-- O44. The active-line end of active line L (R112): of every loaded stream whose visible rows include row L - y, the
half holding it is released, to row L - y + 2 where the stream is RUNNING and that row is visible, else EMPTY, and the
reads for the released row are marked discard. Every other stream, half and tag is left as it is. -/
def Obligations.ActiveLineEndReleases : Prop :=
  ∀ (s : State) (l : Nat), s.raster.due.head? = some (.activeLineEnd l) →
    let releases := fun (ix : SlotIx) (i : HalfId) (r : Nat) => s.streams[ix].loaded = true ∧
      (∃ ld, s.streams[ix].load = some ld ∧ (l : Int) = ld.y + (r : Int)) ∧
      rowVisible s.streams[ix].visible r = true ∧ (s.streams[ix].half i).row = some r ∧
      (i = .b → s.streams[ix].halfA.row ≠ some r)
    ∃ t, exec .activeLineEnd s = .next t ∧
      (∀ ix i r, releases ix i r → t.streams[ix] = s.streams[ix].setHalf i
        (if s.streams[ix].cond = .running ∧ rowVisible s.streams[ix].visible (r + 2) = true
         then ⟨some (r + 2), .filling, 0, [], (s.streams[ix].half i).place⟩
         else ⟨none, .empty, 0, [], (s.streams[ix].half i).place⟩)) ∧
      (∀ ix, (∀ i r, ¬ releases ix i r) → t.streams[ix] = s.streams[ix]) ∧
      (∀ k : TagIx, match s.mem.tags[k] with
        | .waiting e => ∃ d, t.mem.tags[k] = .waiting { e with discard := d } ∧
            (d = true ↔ e.discard = true ∨ ∃ ix, e.handle.ix? = some ix ∧ releases ix e.half e.row)
        | x => t.mem.tags[k] = x) ∧
      ∃ streams tags, t = { s with
        streams := streams, mem := { s.mem with tags := tags }
        raster := { s.raster with due := s.raster.due.tail } }

/-- O45. Active end (R120, R121): of every loaded stream with visible rows the count is kept where excused, goes up by
one to 15 at most where starved, else becomes 0, and both flags are cleared; a stream whose threshold is not 0 and
reached by the new count sends one request for its handle, unless one for its slot is already on the list. The requests
of one active end are sent in slot order, which no rule gives: it is the model's choice (log 33). Where one is sent, a
command the arbiter chooses then may have been taken before it, has then left its queue and is in service, an output
command has met the raster generator, and the request waits for the end of that (R20, R84, R121, R146; a free value,
log 31). Every other stream is passed over. -/
def Obligations.ActiveEndAccounts : Prop :=
  ∀ s : State, s.raster.due.head? = some .activeEnd → FetchLaw s →
    let counted := fun ix : SlotIx => s.streams[ix].loaded = true ∧ s.streams[ix].visible ≠ none
    let count := fun ix : SlotIx => if s.streams[ix].excused then s.streams[ix].count
      else if s.streams[ix].starved then min (s.streams[ix].count + 1) 15 else 0
    ∃ (streams : Vector Stream 15) (sent : List Handle) (u : State),
      exec .activeEnd s = .next { u with
        streams := streams, suspensions := s.suspensions ++ sent
        raster := { u.raster with due := s.raster.due.tail } } ∧
      (∀ ix, streams[ix] = if counted ix then
          { s.streams[ix] with count := count ix, starved := false, excused := false }
        else s.streams[ix]) ∧
      (if sent = [] then u = s else s.requestPends u) ∧
      (sent.Pairwise fun g h => g.slot < h.slot) ∧
      ∀ h : Handle, h ∈ sent ↔ ∃ ix ld, counted ix ∧ s.streams[ix].load = some ld ∧ ld.handle = h ∧
        ld.threshold ≠ 0 ∧ ld.threshold ≤ count ix ∧ ∀ g ∈ s.suspensions, g.slot ≠ h.slot

/-! ### Fetch and memory -/

/-- O46. A pick (R113 to R116): in LIVE with a FREE tag, an EMPTY channel and a candidate, the candidate of the earliest
active line, then the lowest slot, then the lowest segment takes the lowest-numbered FREE tag; the offer carries the
tag, the epoch, the address and the beats of R113; and the segment is recorded as requested. The request's valid signal is
driven from then on, and its beat count field is one less than the beats, 15 for a whole segment (R126, section 10.8; the
pins are the channel's own state, log 30). Where any of these is missing, or a frame turn reached waits for its FRAME_TURN
(log 32), the step that names the pick changes nothing, for the part makes none (the model's reading, log 3). -/
def Obligations.FetchPicked : Prop :=
  ∀ s : State,
    (s.raster.output ≠ .live ∨ RasterEvent.frameTurn ∈ s.raster.due ∨ s.mem.channel ≠ none ∨
        (∀ k : TagIx, s.mem.tags[k] ≠ .free) ∨ (∀ ix i ld r seg, ¬ s.isCandidate ix i ld r seg) → exec .fetchPick s = .next s) ∧
    ∀ (k : TagIx), s.raster.output = .live → RasterEvent.frameTurn ∉ s.raster.due → s.mem.channel = none →
      s.mem.tags[k] = .free →
      (∀ j : TagIx, j < k → s.mem.tags[j] ≠ .free) → (∃ ix i ld r seg, s.isCandidate ix i ld r seg) →
      ∃ ix i ld r seg, s.isCandidate ix i ld r seg ∧
        (∀ ix' i' ld' r' seg', s.isCandidate ix' i' ld' r' seg' →
          ld.y + (r : Int) < ld'.y + (r' : Int) ∨ (ld.y + (r : Int) = ld'.y + (r' : Int) ∧
            (ix < ix' ∨ (ix = ix' ∧ (i ≠ i' ∨ seg ≤ seg'))))) ∧
        let length := min 256 ((ld.width * ld.format.bytesPerPixel + 15) / 16 * 16 - seg * 256)
        let offer : Offer := ⟨k, s.mem.epoch, BitVec.ofNat 32 (ld.base.toNat + r * ld.pitch + seg * 256), length / 16⟩
        ∃ t, exec .fetchPick s = .next t ∧ s.mrqValid = false ∧ t.mrqValid = true ∧
        offer.beatField.toNat + 1 = length / 16 ∧ t = { s with
          mem := { s.mem with
            tags := s.mem.tags.set k (.waiting ⟨ld.handle, i, r, seg, length / 16, false, 0, false⟩)
            channel := some offer }
          streams := s.streams.set ix (s.streams[ix].setHalf i
            { s.streams[ix].half i with requested := seg :: (s.streams[ix].half i).requested }) }

/-- O47. The request channel (R126, R127; section 10.8). The valid signal is driven exactly while an offer stands, and the
beat count field of an offer of 1 to 16 beats is one less than its beats (log 30). An acceptance: the channel becomes
EMPTY; the tag the offer named has its accepted field set where it is
WAITING or QUARANTINED and the offer's epoch is the current one, and no entry is touched otherwise. With the channel
EMPTY nothing changes. No other step but device reset withdraws or changes an offer that stands. -/
def Obligations.RequestAccepted : Prop :=
  (∀ (i : Instr) (s t : State) (o : Offer), s.mem.channel = some o → exec i s = .next t → i ≠ .requestAccept →
    i ≠ .deviceReset → t.mem.channel = some o) ∧
  (∀ o : Offer, 1 ≤ o.beats → o.beats ≤ 16 → o.beatField.toNat = o.beats - 1) ∧
  ∀ s : State, (s.mrqValid = true ↔ ∃ o, s.mem.channel = some o) ∧
    (s.mem.channel = none → exec .requestAccept s = .next s) ∧
    ∀ o : Offer, s.mem.channel = some o → ∃ t, exec .requestAccept s = .next t ∧ t.mem.channel = none ∧
      (∀ k : TagIx, t.mem.tags[k] =
        if k = o.tag ∧ o.epoch = s.mem.epoch then
          (match s.mem.tags[k] with
           | .free => .free
           | .waiting e => .waiting { e with accepted := true }
           | .quarantined e => .quarantined { e with accepted := true })
        else s.mem.tags[k]) ∧
      ∃ tags, t = { s with mem := { s.mem with channel := none, tags := tags } }

/-- O48. Completions that deliver nothing (R129, R130 rows 1 to 4, R135, R136, R169): one that arrives while RST_N is
asserted is ignored; else beats before the last only wait; an old epoch is dropped without trace, whatever the tag; the
current epoch for a FREE tag posts SPURIOUS to Port A and changes no tag; a QUARANTINED or marked tag becomes FREE, and a
STUCK fetch state RUNNING. -/
def Obligations.CompletionsDropped : Prop :=
  ∀ (s : State) (beats : List Beat), Instr.wf (.completion beats) = true →
    let s' := { s with mem := { s.mem with beats := [] } }
    (s.rstAsserted = true → exec (.completion beats) s = .next s) ∧ (s.rstAsserted = false →
    ((∀ b ∈ beats, b.last = false) →
      exec (.completion beats) s = .next { s with mem := { s.mem with beats := s.mem.beats ++ beats } }) ∧
    ∀ (b : Beat) (rest : List Beat), s.mem.beats ++ beats = b :: rest → (∃ x ∈ beats, x.last = true) →
      (b.epoch ≠ s.mem.epoch → exec (.completion beats) s = .next s') ∧
      (b.epoch = s.mem.epoch → s.mem.tags[b.tag.toFin] = .free → exec (.completion beats) s = .next
        { s' with linkA := { s.linkA with notices := { s.linkA.notices with spurious := true } } }) ∧
      (b.epoch = s.mem.epoch → ((s.mem.tags[b.tag.toFin]).isQuarantined = true ∨
          ∃ e, s.mem.tags[b.tag.toFin] = .waiting e ∧ e.discard = true) →
        exec (.completion beats) s = .next { s' with
          mem := { s'.mem with tags := s.mem.tags.set b.tag.toFin .free, fetchState := .running } }))

/-- O49. An ERROR completion for a WAITING unmarked tag (R118, R129, R130), also one that arrives as OK with another
number of beats or before its request was accepted: the tag is FREE, the half it names is FAILED, the half's other
reads are marked discard, FETCH_FAULT with the stream's handle and the cause ERROR goes to the stream's owner, and
nothing is written to the store. -/
def Obligations.CompletionFails : Prop :=
  ∀ (s : State) (beats : List Beat) (b : Beat) (rest : List Beat) (e : TagEntry) (ix : SlotIx) (ld : StreamLoad),
    s.rstAsserted = false → Instr.wf (.completion beats) = true → s.mem.beats ++ beats = b :: rest →
    (∃ x ∈ beats, x.last = true) → b.epoch = s.mem.epoch → s.mem.tags[b.tag.toFin] = .waiting e → e.discard = false →
    (b.error = true ∨ (b :: rest).length ≠ e.beats ∨ e.accepted = false) →
    e.handle.ix? = some ix → s.streams[ix].load = some ld → ld.handle.ix? = some ix →
    (s.streams[ix].half e.half).row = some e.row → (s.streams[ix].half e.half).cond = .filling →
    ∃ t, exec (.completion beats) s = .next t ∧ t.mem.tags[b.tag.toFin] = .free ∧ t.mem.fetchState = .running ∧
      t.mem.beats = [] ∧
      t.streams = s.streams.set ix (s.streams[ix].setHalf e.half { s.streams[ix].half e.half with cond := .failed }) ∧
      (∀ (j : TagIx) (e' : TagEntry), j ≠ b.tag.toFin → s.mem.tags[j] = .waiting e' →
        t.mem.tags[j] = .waiting (if e'.sameHalf e then { e' with discard := true } else e')) ∧
      (∀ j : TagIx, (s.mem.tags[j]).isFree = true ∨ (s.mem.tags[j]).isQuarantined = true →
        t.mem.tags[j] = s.mem.tags[j]) ∧
      t.link ld.owner = { s.link ld.owner with notices := { (s.link ld.owner).notices with
        fetchFault := (s.link ld.owner).notices.fetchFault.set ix (some (ld.handle.gen, .error)) } } ∧
      t.link (otherPort ld.owner) = s.link (otherPort ld.owner) ∧ t.mem.channel = s.mem.channel ∧
      t.mem.epoch = s.mem.epoch ∧ t.mem.timeout = s.mem.timeout ∧
      ∃ streams linkA linkB mem, t = { s with streams := streams, linkA := linkA, linkB := linkB, mem := mem }

/-- O50. An OK completion for a WAITING unmarked tag, its half placed inside the store (R117, R130, R169): the tag is
FREE, byte 16 j + k of the segment the tag names is byte k of beat j, every other byte of the store reads as before,
and the half has one more segment filled and is READY where that is all of them. -/
def Obligations.CompletionDelivers : Prop :=
  ∀ (s : State) (beats : List Beat) (b : Beat) (rest : List Beat) (e : TagEntry) (ix : SlotIx) (ld : StreamLoad)
    (place : Nat), s.rstAsserted = false → StoreOk s → Instr.wf (.completion beats) = true →
    s.mem.beats ++ beats = b :: rest → (∃ x ∈ beats, x.last = true) → b.epoch = s.mem.epoch → s.mem.tags[b.tag.toFin] = .waiting e →
    e.discard = false → b.error = false → (b :: rest).length = e.beats → e.accepted = true →
    e.handle.ix? = some ix → s.streams[ix].load = some ld →
    (s.streams[ix].half e.half).row = some e.row → (s.streams[ix].half e.half).cond = .filling →
    (s.streams[ix].half e.half).place = some place → (place + e.segment) * 256 + 16 * e.beats ≤ 384 * 256 →
    let h := s.streams[ix].half e.half
    let base := (place + e.segment) * 256
    ∃ store, exec (.completion beats) s = .next { s with
        store := store
        mem := { s.mem with tags := s.mem.tags.set b.tag.toFin .free, fetchState := .running, beats := [] }
        streams := s.streams.set ix (s.streams[ix].setHalf e.half { h with
          filled := h.filled + 1
          cond := if h.filled + 1 = segmentsPerHalf ld.format ld.width then .ready else .filling }) } ∧
      (∀ (j k : Nat) (beat : Beat), (b :: rest)[j]? = some beat → k < 16 →
        Memory.read store (base + (16 * j + k)) = beat.data.extractLsb' (8 * k) 8) ∧
      ∀ a : Nat, a < base ∨ base + 16 * e.beats ≤ a → Memory.read store a = Memory.read s.store a

/-! ### The pixel -/

/-- O51. The effective alpha and the blend (R99, R100): a = floor((p g + 127) / 255) and, on each channel,
floor((s a + d (255 - a) + 127) / 255), with no result outside 0..255: full alpha over full alpha gives 255 and the
source, alpha 0 on either side gives 0 and the colour below, a global alpha alone is its own effective alpha, and equal
colours blend to themselves. -/
def Obligations.AlphaAndBlend : Prop :=
  (∀ p g : Byte, effectiveAlpha p g = (p.toNat * g.toNat + 127) / 255 ∧ effectiveAlpha p g ≤ 255 ∧
    effectiveAlpha 255 g = g.toNat ∧ (p = 0 ∨ g = 0 → effectiveAlpha p g = 0) ∧
    (effectiveAlpha p g = 255 ↔ p = 255 ∧ g = 255)) ∧
  ∀ (s d : Colour) (a : Nat), a ≤ 255 →
    (blend s d a).red.toNat = (s.red.toNat * a + d.red.toNat * (255 - a) + 127) / 255 ∧
    (blend s d a).green.toNat = (s.green.toNat * a + d.green.toNat * (255 - a) + 127) / 255 ∧
    (blend s d a).blue.toNat = (s.blue.toNat * a + d.blue.toNat * (255 - a) + 127) / 255 ∧
    blend s d 255 = s ∧ blend s d 0 = d ∧ blend s s a = s

/-- O52. The composed pixel (R94 to R98, R101): the latched background with the six lanes laid over it from lane 1
upward; a vacant lane and one whose span does not hold the pixel add nothing; a FILL lane its fill colour at its
global alpha; a HALF lane the pixel of its half in its format, unless its key colour equals the pixel's colour. -/
def Obligations.PixelComposed : Prop :=
  (∀ (s : State) (x : Nat), s.composed x = s.lanes.toList.foldl
    (fun d lane => match lane with | none => d | some l => s.layLane x d l) s.lineBackground) ∧
  (∀ (s : State) (x : Nat) (d : Colour) (l : Lane), (∀ a b, l.span = some (a, b) → x < a ∨ b < x) →
    s.layLane x d l = d) ∧
  (∀ (s : State) (x a b : Nat) (d : Colour) (l : Lane), l.span = some (a, b) → a ≤ x → x ≤ b →
    (l.source = .fill → s.layLane x d l = blend l.fill d l.alpha.toNat) ∧
    ∀ (i : HalfId) (ix : SlotIx) (place : Nat), l.source = .half i → l.handle.ix? = some ix →
      (s.streams[ix].half i).place = some place →
      let byte := fun n : Nat => Memory.read s.store
        (place * 256 + ((x : Int) - l.x).toNat * l.format.bytesPerPixel + n)
      let pair := (byte 1).toNat * 256 + (byte 0).toNat
      let five := fun v : Nat => BitVec.ofNat 8 (v * 8 + v / 4)
      let lay := fun (c : Colour) (p : Byte) =>
        if l.key = some c then d else blend c d (effectiveAlpha p l.alpha)
      (l.format = .c32 → s.layLane x d l = lay ⟨byte 2, byte 1, byte 0⟩ (byte 3)) ∧
      (l.format = .c16 → s.layLane x d l = lay
        ⟨five (pair / 2048), BitVec.ofNat 8 (pair / 32 % 64 * 4 + pair / 32 % 64 / 16), five (pair % 32)⟩ 255) ∧
      (l.format = .a8 → s.layLane x d l = blend l.fill d (effectiveAlpha (byte 0) l.alpha)))

/-! ### Invariants of the part -/

/-- O53. Every step keeps the line store in its canonical form. -/
def Obligations.LineStoreFormKept : Prop :=
  ∀ s t : State, StoreOk s → step s = .next t → StoreOk t

/-- O54. Every step keeps the segment balance (R57) and the law of the z-order list (R14). -/
def Obligations.TableLawsKept : Prop :=
  ∀ s t : State, SegmentBalance s → ZOrderLaw s → step s = .next t → SegmentBalance t ∧ ZOrderLaw t

/-- O55. Every step keeps what holds of the raster (R68, R70 to R72, R74, R75, R77, R78) and what holds in OFF (R45,
R71, R72, R77, R78, R83, R89). Two clauses are the model's choices: that the events emitted and not yet taken are all of
the position reached, for one whose row has not come is taken at the next edge (log 6); and that none stands in OFF, for
OUTPUT_STOP drops those that stood (log 10). -/
def Obligations.RasterLawsKept : Prop :=
  ∀ s t : State, RasterLaw s → OffQuiet s → step s = .next t → RasterLaw t ∧ OffQuiet t

/-- O56. Every step keeps the capacities of the queues, batches and lists, with room for the response of a command in
service (R23, R45, R121, R146, R148), and the ranges of
the tickets, counts, ages and the timeout, and the notices each port never holds (R43, R104, R125, R132, R157). -/
def Obligations.CapacitiesAndRangesKept : Prop :=
  ∀ s t : State, Capacities s → Ranges s → step s = .next t → Capacities t ∧ Ranges t

/-- O57. Every step keeps the laws of the reads in flight (R117, R125, R131): an unmarked WAITING tag always finds its
half FILLING its row in a stream of its handle, and a FILLING half has as many segments requested as filled and
awaited; and the fetch state is STUCK exactly while all eight tags are QUARANTINED (R135). -/
def Obligations.FetchLawsKept : Prop :=
  ∀ s t : State, FetchLaw s → StuckLaw s → step s = .next t → FetchLaw t ∧ StuckLaw t

/-- O58. Every step keeps the laws of admission: the segment balance with a free count of 0 to 384 (R57, R58); the lane
and line-store limits of the live view and of the projection up to each queued batch, under the profile in force (R45, R55,
R56, R64); every RESERVED slot named by one OPEN entry of its owner's open batch, every QUEUED slot by one of exactly one
queued batch of its owner (R12); every queued entry names a window of its port, or RECLAIM's, by its current handle; and
only a window of Port A is pinned (R12). -/
def Obligations.AdmissionLawsKept : Prop :=
  ∀ s t : State, AdmissionLaw s → OffQuiet s → step s = .next t → AdmissionLaw t

/-- O59. The line store is never left. Every step keeps, with the laws of admission, the law of placement (R65, R106): a
loaded stream is that of a SHOWN window with its fields, the segments of its halves lie in the store and are no other
half's, only a loaded stream's half is not EMPTY, and a HALF lane reads its window's columns of a placed half. Under that
law every READY row and every pixel of a lane lies in the store, and, with the laws of the reads in flight, no step
faults (log 14). -/
def Obligations.LineStoreNeverLeft : Prop :=
  (∀ s t : State, AdmissionLaw s → OffQuiet s → PlacementLaw s → step s = .next t → PlacementLaw t) ∧
  (∀ s : State, PlacementLaw s → RowsInStore s ∧ ∀ x : Nat, s.lanesInStore x = true) ∧
  ∀ (s : State) (i : Instr) (f : Fault), PlacementLaw s → FetchLaw s → exec i s ≠ .fault f

/-- O60. The part right after device reset meets every invariant. -/
def Obligations.ResetMeetsTheLaws : Prop :=
  StoreOk State.reset ∧ SegmentBalance State.reset ∧ ZOrderLaw State.reset ∧ RasterLaw State.reset ∧
    OffQuiet State.reset ∧ Capacities State.reset ∧ Ranges State.reset ∧ FetchLaw State.reset ∧
    StuckLaw State.reset ∧ AdmissionLaw State.reset ∧ PlacementLaw State.reset

end
end

