-- ==== Sys2Proof/Laws/State.lean ====
section
/-! SUPPORT. One lemma for each field and each update of the shared operations of Machine/Ops.lean. -/

namespace Sys2Proof.Machine

/-! ### One port's parts -/

@[simp] theorem otherPort_ne (p : Port) : otherPort p ≠ p := by cases p <;> decide

@[simp] theorem State.link_setLink (s : State) (p : Port) (l : LinkPort) : (s.setLink p l).link p = l := by
  cases p <;> rfl

theorem State.link_setLink_ne (s : State) {p q : Port} (l : LinkPort) (h : q ≠ p) : (s.setLink p l).link q = s.link q := by
  cases p <;> cases q <;> first | rfl | exact absurd rfl h

@[simp] theorem State.setLink_link (s : State) (p : Port) : s.setLink p (s.link p) = s := by cases p <;> rfl

@[simp] theorem State.staging_setStaging (s : State) (p : Port) (g : Staging) : (s.setStaging p g).staging p = g := by
  cases p <;> rfl

theorem State.staging_setStaging_ne (s : State) {p q : Port} (g : Staging) (h : q ≠ p) :
    (s.setStaging p g).staging q = s.staging q := by
  cases p <;> cases q <;> first | rfl | exact absurd rfl h

variable (s : State) (p q : Port) (l : LinkPort) (g : Staging) (f : Notices → Notices) (tk : Byte) (o : OutputState)
variable (ix : SlotIx) (n : Nibble) (h : Handle) (fc : FaultCause) (qc : QueuedCommand) (r : Reply)
variable (tg : PendingTarget)

/-! Writing a port's part changes `linkA`, `linkB` only. -/

theorem State.setLink_frame : s.setLink p l =
    { s with linkA := (s.setLink p l).linkA, linkB := (s.setLink p l).linkB } := by cases p <;> rfl

@[simp] theorem State.setLink_pending : (s.setLink p l).pending = s.pending := by rw [State.setLink_frame]
@[simp] theorem State.setLink_rstAsserted : (s.setLink p l).rstAsserted = s.rstAsserted := by rw [State.setLink_frame]
@[simp] theorem State.setLink_table : (s.setLink p l).table = s.table := by rw [State.setLink_frame]
@[simp] theorem State.setLink_stagingA : (s.setLink p l).stagingA = s.stagingA := by rw [State.setLink_frame]
@[simp] theorem State.setLink_stagingB : (s.setLink p l).stagingB = s.stagingB := by rw [State.setLink_frame]
@[simp] theorem State.setLink_commitQueue : (s.setLink p l).commitQueue = s.commitQueue := by rw [State.setLink_frame]
@[simp] theorem State.setLink_turn : (s.setLink p l).turn = s.turn := by rw [State.setLink_frame]
@[simp] theorem State.setLink_serving : (s.setLink p l).serving = s.serving := by rw [State.setLink_frame]
@[simp] theorem State.setLink_choices : (s.setLink p l).choices = s.choices := by rw [State.setLink_frame]
@[simp] theorem State.setLink_nextPort : (s.setLink p l).nextPort = s.nextPort := by rw [State.setLink_frame]
@[simp] theorem State.setLink_raster : (s.setLink p l).raster = s.raster := by rw [State.setLink_frame]
@[simp] theorem State.setLink_pins : (s.setLink p l).pins = s.pins := by rw [State.setLink_frame]
@[simp] theorem State.setLink_lanes : (s.setLink p l).lanes = s.lanes := by rw [State.setLink_frame]
@[simp] theorem State.setLink_lineBackground : (s.setLink p l).lineBackground = s.lineBackground := by
  rw [State.setLink_frame]
@[simp] theorem State.setLink_streams : (s.setLink p l).streams = s.streams := by rw [State.setLink_frame]
@[simp] theorem State.setLink_suspensions : (s.setLink p l).suspensions = s.suspensions := by rw [State.setLink_frame]
@[simp] theorem State.setLink_store : (s.setLink p l).store = s.store := by rw [State.setLink_frame]
@[simp] theorem State.setLink_mem : (s.setLink p l).mem = s.mem := by rw [State.setLink_frame]
@[simp] theorem State.setLink_staging : (s.setLink p l).staging q = s.staging q := by cases q <;> simp [State.staging]

/-! Writing a port's staging changes `stagingA`, `stagingB` only. -/

theorem State.setStaging_frame : s.setStaging p g =
    { s with stagingA := (s.setStaging p g).stagingA, stagingB := (s.setStaging p g).stagingB } := by cases p <;> rfl

@[simp] theorem State.setStaging_pending : (s.setStaging p g).pending = s.pending := by rw [State.setStaging_frame]
@[simp] theorem State.setStaging_rstAsserted : (s.setStaging p g).rstAsserted = s.rstAsserted := by
  rw [State.setStaging_frame]
@[simp] theorem State.setStaging_table : (s.setStaging p g).table = s.table := by rw [State.setStaging_frame]
@[simp] theorem State.setStaging_commitQueue : (s.setStaging p g).commitQueue = s.commitQueue := by
  rw [State.setStaging_frame]
@[simp] theorem State.setStaging_turn : (s.setStaging p g).turn = s.turn := by rw [State.setStaging_frame]
@[simp] theorem State.setStaging_serving : (s.setStaging p g).serving = s.serving := by rw [State.setStaging_frame]
@[simp] theorem State.setStaging_choices : (s.setStaging p g).choices = s.choices := by rw [State.setStaging_frame]
@[simp] theorem State.setStaging_nextPort : (s.setStaging p g).nextPort = s.nextPort := by rw [State.setStaging_frame]
@[simp] theorem State.setStaging_linkA : (s.setStaging p g).linkA = s.linkA := by rw [State.setStaging_frame]
@[simp] theorem State.setStaging_linkB : (s.setStaging p g).linkB = s.linkB := by rw [State.setStaging_frame]
@[simp] theorem State.setStaging_raster : (s.setStaging p g).raster = s.raster := by rw [State.setStaging_frame]
@[simp] theorem State.setStaging_pins : (s.setStaging p g).pins = s.pins := by rw [State.setStaging_frame]
@[simp] theorem State.setStaging_lanes : (s.setStaging p g).lanes = s.lanes := by rw [State.setStaging_frame]
@[simp] theorem State.setStaging_lineBackground : (s.setStaging p g).lineBackground = s.lineBackground := by
  rw [State.setStaging_frame]
@[simp] theorem State.setStaging_streams : (s.setStaging p g).streams = s.streams := by rw [State.setStaging_frame]
@[simp] theorem State.setStaging_suspensions : (s.setStaging p g).suspensions = s.suspensions := by
  rw [State.setStaging_frame]
@[simp] theorem State.setStaging_store : (s.setStaging p g).store = s.store := by rw [State.setStaging_frame]
@[simp] theorem State.setStaging_mem : (s.setStaging p g).mem = s.mem := by rw [State.setStaging_frame]
@[simp] theorem State.setStaging_link : (s.setStaging p g).link q = s.link q := by cases q <;> simp [State.link]

/-! Posting a notice changes `linkA`, `linkB` only. -/

theorem State.post_frame : s.post p f =
    { s with linkA := (s.post p f).linkA, linkB := (s.post p f).linkB } := by cases p <;> rfl

@[simp] theorem State.post_pending : (s.post p f).pending = s.pending := by rw [State.post_frame]
@[simp] theorem State.post_rstAsserted : (s.post p f).rstAsserted = s.rstAsserted := by rw [State.post_frame]
@[simp] theorem State.post_table : (s.post p f).table = s.table := by rw [State.post_frame]
@[simp] theorem State.post_stagingA : (s.post p f).stagingA = s.stagingA := by rw [State.post_frame]
@[simp] theorem State.post_stagingB : (s.post p f).stagingB = s.stagingB := by rw [State.post_frame]
@[simp] theorem State.post_commitQueue : (s.post p f).commitQueue = s.commitQueue := by rw [State.post_frame]
@[simp] theorem State.post_turn : (s.post p f).turn = s.turn := by rw [State.post_frame]
@[simp] theorem State.post_serving : (s.post p f).serving = s.serving := by rw [State.post_frame]
@[simp] theorem State.post_choices : (s.post p f).choices = s.choices := by rw [State.post_frame]
@[simp] theorem State.post_nextPort : (s.post p f).nextPort = s.nextPort := by rw [State.post_frame]
@[simp] theorem State.post_raster : (s.post p f).raster = s.raster := by rw [State.post_frame]
@[simp] theorem State.post_pins : (s.post p f).pins = s.pins := by rw [State.post_frame]
@[simp] theorem State.post_lanes : (s.post p f).lanes = s.lanes := by rw [State.post_frame]
@[simp] theorem State.post_lineBackground : (s.post p f).lineBackground = s.lineBackground := by rw [State.post_frame]
@[simp] theorem State.post_streams : (s.post p f).streams = s.streams := by rw [State.post_frame]
@[simp] theorem State.post_suspensions : (s.post p f).suspensions = s.suspensions := by rw [State.post_frame]
@[simp] theorem State.post_store : (s.post p f).store = s.store := by rw [State.post_frame]
@[simp] theorem State.post_mem : (s.post p f).mem = s.mem := by rw [State.post_frame]
@[simp] theorem State.post_staging : (s.post p f).staging q = s.staging q := by cases q <;> simp [State.staging]

/-! Posting APPLIED changes `linkA`, `linkB` only. -/

theorem State.postApplied_frame : s.postApplied p tk =
    { s with linkA := (s.postApplied p tk).linkA, linkB := (s.postApplied p tk).linkB } := by cases p <;> rfl

@[simp] theorem State.postApplied_pending : (s.postApplied p tk).pending = s.pending := by
  rw [State.postApplied_frame]
@[simp] theorem State.postApplied_rstAsserted : (s.postApplied p tk).rstAsserted = s.rstAsserted := by
  rw [State.postApplied_frame]
@[simp] theorem State.postApplied_table : (s.postApplied p tk).table = s.table := by rw [State.postApplied_frame]
@[simp] theorem State.postApplied_stagingA : (s.postApplied p tk).stagingA = s.stagingA := by
  rw [State.postApplied_frame]
@[simp] theorem State.postApplied_stagingB : (s.postApplied p tk).stagingB = s.stagingB := by
  rw [State.postApplied_frame]
@[simp] theorem State.postApplied_commitQueue : (s.postApplied p tk).commitQueue = s.commitQueue := by
  rw [State.postApplied_frame]
@[simp] theorem State.postApplied_turn : (s.postApplied p tk).turn = s.turn := by rw [State.postApplied_frame]
@[simp] theorem State.postApplied_serving : (s.postApplied p tk).serving = s.serving := by
  rw [State.postApplied_frame]
@[simp] theorem State.postApplied_choices : (s.postApplied p tk).choices = s.choices := by
  rw [State.postApplied_frame]
@[simp] theorem State.postApplied_nextPort : (s.postApplied p tk).nextPort = s.nextPort := by
  rw [State.postApplied_frame]
@[simp] theorem State.postApplied_raster : (s.postApplied p tk).raster = s.raster := by rw [State.postApplied_frame]
@[simp] theorem State.postApplied_pins : (s.postApplied p tk).pins = s.pins := by rw [State.postApplied_frame]
@[simp] theorem State.postApplied_lanes : (s.postApplied p tk).lanes = s.lanes := by rw [State.postApplied_frame]
@[simp] theorem State.postApplied_lineBackground : (s.postApplied p tk).lineBackground = s.lineBackground := by
  rw [State.postApplied_frame]
@[simp] theorem State.postApplied_streams : (s.postApplied p tk).streams = s.streams := by
  rw [State.postApplied_frame]
@[simp] theorem State.postApplied_suspensions : (s.postApplied p tk).suspensions = s.suspensions := by
  rw [State.postApplied_frame]
@[simp] theorem State.postApplied_store : (s.postApplied p tk).store = s.store := by rw [State.postApplied_frame]
@[simp] theorem State.postApplied_mem : (s.postApplied p tk).mem = s.mem := by rw [State.postApplied_frame]
@[simp] theorem State.postApplied_staging : (s.postApplied p tk).staging q = s.staging q := by
  cases q <;> simp [State.staging]

/-! Posting OUTPUT changes `linkA`, `linkB` only. -/

@[simp] theorem State.postOutput_pending : (s.postOutput o).pending = s.pending := rfl
@[simp] theorem State.postOutput_rstAsserted : (s.postOutput o).rstAsserted = s.rstAsserted := rfl
@[simp] theorem State.postOutput_table : (s.postOutput o).table = s.table := rfl
@[simp] theorem State.postOutput_stagingA : (s.postOutput o).stagingA = s.stagingA := rfl
@[simp] theorem State.postOutput_stagingB : (s.postOutput o).stagingB = s.stagingB := rfl
@[simp] theorem State.postOutput_commitQueue : (s.postOutput o).commitQueue = s.commitQueue := rfl
@[simp] theorem State.postOutput_turn : (s.postOutput o).turn = s.turn := rfl
@[simp] theorem State.postOutput_serving : (s.postOutput o).serving = s.serving := rfl
@[simp] theorem State.postOutput_choices : (s.postOutput o).choices = s.choices := rfl
@[simp] theorem State.postOutput_nextPort : (s.postOutput o).nextPort = s.nextPort := rfl
@[simp] theorem State.postOutput_raster : (s.postOutput o).raster = s.raster := rfl
@[simp] theorem State.postOutput_pins : (s.postOutput o).pins = s.pins := rfl
@[simp] theorem State.postOutput_lanes : (s.postOutput o).lanes = s.lanes := rfl
@[simp] theorem State.postOutput_lineBackground : (s.postOutput o).lineBackground = s.lineBackground := rfl
@[simp] theorem State.postOutput_streams : (s.postOutput o).streams = s.streams := rfl
@[simp] theorem State.postOutput_suspensions : (s.postOutput o).suspensions = s.suspensions := rfl
@[simp] theorem State.postOutput_store : (s.postOutput o).store = s.store := rfl
@[simp] theorem State.postOutput_mem : (s.postOutput o).mem = s.mem := rfl
@[simp] theorem State.postOutput_staging : (s.postOutput o).staging q = s.staging q := by
  cases q <;> simp [State.staging]

/-! Posting FETCH_STUCK changes `linkA`, `linkB` only. -/

@[simp] theorem State.postFetchStuck_pending : (s.postFetchStuck).pending = s.pending := rfl
@[simp] theorem State.postFetchStuck_rstAsserted : (s.postFetchStuck).rstAsserted = s.rstAsserted := rfl
@[simp] theorem State.postFetchStuck_table : (s.postFetchStuck).table = s.table := rfl
@[simp] theorem State.postFetchStuck_stagingA : (s.postFetchStuck).stagingA = s.stagingA := rfl
@[simp] theorem State.postFetchStuck_stagingB : (s.postFetchStuck).stagingB = s.stagingB := rfl
@[simp] theorem State.postFetchStuck_commitQueue : (s.postFetchStuck).commitQueue = s.commitQueue := rfl
@[simp] theorem State.postFetchStuck_turn : (s.postFetchStuck).turn = s.turn := rfl
@[simp] theorem State.postFetchStuck_serving : (s.postFetchStuck).serving = s.serving := rfl
@[simp] theorem State.postFetchStuck_choices : (s.postFetchStuck).choices = s.choices := rfl
@[simp] theorem State.postFetchStuck_nextPort : (s.postFetchStuck).nextPort = s.nextPort := rfl
@[simp] theorem State.postFetchStuck_raster : (s.postFetchStuck).raster = s.raster := rfl
@[simp] theorem State.postFetchStuck_pins : (s.postFetchStuck).pins = s.pins := rfl
@[simp] theorem State.postFetchStuck_lanes : (s.postFetchStuck).lanes = s.lanes := rfl
@[simp] theorem State.postFetchStuck_lineBackground : (s.postFetchStuck).lineBackground = s.lineBackground := rfl
@[simp] theorem State.postFetchStuck_streams : (s.postFetchStuck).streams = s.streams := rfl
@[simp] theorem State.postFetchStuck_suspensions : (s.postFetchStuck).suspensions = s.suspensions := rfl
@[simp] theorem State.postFetchStuck_store : (s.postFetchStuck).store = s.store := rfl
@[simp] theorem State.postFetchStuck_mem : (s.postFetchStuck).mem = s.mem := rfl
@[simp] theorem State.postFetchStuck_staging : (s.postFetchStuck).staging q = s.staging q := by
  cases q <;> simp [State.staging]

/-! Posting SPURIOUS changes `linkA`, `linkB` only. -/

@[simp] theorem State.postSpurious_pending : (s.postSpurious).pending = s.pending := rfl
@[simp] theorem State.postSpurious_rstAsserted : (s.postSpurious).rstAsserted = s.rstAsserted := rfl
@[simp] theorem State.postSpurious_table : (s.postSpurious).table = s.table := rfl
@[simp] theorem State.postSpurious_stagingA : (s.postSpurious).stagingA = s.stagingA := rfl
@[simp] theorem State.postSpurious_stagingB : (s.postSpurious).stagingB = s.stagingB := rfl
@[simp] theorem State.postSpurious_commitQueue : (s.postSpurious).commitQueue = s.commitQueue := rfl
@[simp] theorem State.postSpurious_turn : (s.postSpurious).turn = s.turn := rfl
@[simp] theorem State.postSpurious_serving : (s.postSpurious).serving = s.serving := rfl
@[simp] theorem State.postSpurious_choices : (s.postSpurious).choices = s.choices := rfl
@[simp] theorem State.postSpurious_nextPort : (s.postSpurious).nextPort = s.nextPort := rfl
@[simp] theorem State.postSpurious_raster : (s.postSpurious).raster = s.raster := rfl
@[simp] theorem State.postSpurious_pins : (s.postSpurious).pins = s.pins := rfl
@[simp] theorem State.postSpurious_lanes : (s.postSpurious).lanes = s.lanes := rfl
@[simp] theorem State.postSpurious_lineBackground : (s.postSpurious).lineBackground = s.lineBackground := rfl
@[simp] theorem State.postSpurious_streams : (s.postSpurious).streams = s.streams := rfl
@[simp] theorem State.postSpurious_suspensions : (s.postSpurious).suspensions = s.suspensions := rfl
@[simp] theorem State.postSpurious_store : (s.postSpurious).store = s.store := rfl
@[simp] theorem State.postSpurious_mem : (s.postSpurious).mem = s.mem := rfl
@[simp] theorem State.postSpurious_staging : (s.postSpurious).staging q = s.staging q := by
  cases q <;> simp [State.staging]

/-! Posting SUSPENDED changes `linkA`, `linkB` only. -/

theorem State.postSuspended_frame : s.postSuspended p ix n =
    { s with linkA := (s.postSuspended p ix n).linkA, linkB := (s.postSuspended p ix n).linkB } := by cases p <;> rfl

@[simp] theorem State.postSuspended_pending : (s.postSuspended p ix n).pending = s.pending := by
  rw [State.postSuspended_frame]
@[simp] theorem State.postSuspended_rstAsserted : (s.postSuspended p ix n).rstAsserted = s.rstAsserted := by
  rw [State.postSuspended_frame]
@[simp] theorem State.postSuspended_table : (s.postSuspended p ix n).table = s.table := by
  rw [State.postSuspended_frame]
@[simp] theorem State.postSuspended_stagingA : (s.postSuspended p ix n).stagingA = s.stagingA := by
  rw [State.postSuspended_frame]
@[simp] theorem State.postSuspended_stagingB : (s.postSuspended p ix n).stagingB = s.stagingB := by
  rw [State.postSuspended_frame]
@[simp] theorem State.postSuspended_commitQueue : (s.postSuspended p ix n).commitQueue = s.commitQueue := by
  rw [State.postSuspended_frame]
@[simp] theorem State.postSuspended_turn : (s.postSuspended p ix n).turn = s.turn := by rw [State.postSuspended_frame]
@[simp] theorem State.postSuspended_serving : (s.postSuspended p ix n).serving = s.serving := by
  rw [State.postSuspended_frame]
@[simp] theorem State.postSuspended_choices : (s.postSuspended p ix n).choices = s.choices := by
  rw [State.postSuspended_frame]
@[simp] theorem State.postSuspended_nextPort : (s.postSuspended p ix n).nextPort = s.nextPort := by
  rw [State.postSuspended_frame]
@[simp] theorem State.postSuspended_raster : (s.postSuspended p ix n).raster = s.raster := by
  rw [State.postSuspended_frame]
@[simp] theorem State.postSuspended_pins : (s.postSuspended p ix n).pins = s.pins := by rw [State.postSuspended_frame]
@[simp] theorem State.postSuspended_lanes : (s.postSuspended p ix n).lanes = s.lanes := by
  rw [State.postSuspended_frame]
@[simp] theorem State.postSuspended_lineBackground : (s.postSuspended p ix n).lineBackground = s.lineBackground := by
  rw [State.postSuspended_frame]
@[simp] theorem State.postSuspended_streams : (s.postSuspended p ix n).streams = s.streams := by
  rw [State.postSuspended_frame]
@[simp] theorem State.postSuspended_suspensions : (s.postSuspended p ix n).suspensions = s.suspensions := by
  rw [State.postSuspended_frame]
@[simp] theorem State.postSuspended_store : (s.postSuspended p ix n).store = s.store := by
  rw [State.postSuspended_frame]
@[simp] theorem State.postSuspended_mem : (s.postSuspended p ix n).mem = s.mem := by rw [State.postSuspended_frame]
@[simp] theorem State.postSuspended_staging : (s.postSuspended p ix n).staging q = s.staging q := by
  cases q <;> simp [State.staging]

/-! Posting RECLAIMED changes `linkA`, `linkB` only. -/

@[simp] theorem State.postReclaimed_pending : (s.postReclaimed ix n).pending = s.pending := rfl
@[simp] theorem State.postReclaimed_rstAsserted : (s.postReclaimed ix n).rstAsserted = s.rstAsserted := rfl
@[simp] theorem State.postReclaimed_table : (s.postReclaimed ix n).table = s.table := rfl
@[simp] theorem State.postReclaimed_stagingA : (s.postReclaimed ix n).stagingA = s.stagingA := rfl
@[simp] theorem State.postReclaimed_stagingB : (s.postReclaimed ix n).stagingB = s.stagingB := rfl
@[simp] theorem State.postReclaimed_commitQueue : (s.postReclaimed ix n).commitQueue = s.commitQueue := rfl
@[simp] theorem State.postReclaimed_turn : (s.postReclaimed ix n).turn = s.turn := rfl
@[simp] theorem State.postReclaimed_serving : (s.postReclaimed ix n).serving = s.serving := rfl
@[simp] theorem State.postReclaimed_choices : (s.postReclaimed ix n).choices = s.choices := rfl
@[simp] theorem State.postReclaimed_nextPort : (s.postReclaimed ix n).nextPort = s.nextPort := rfl
@[simp] theorem State.postReclaimed_raster : (s.postReclaimed ix n).raster = s.raster := rfl
@[simp] theorem State.postReclaimed_pins : (s.postReclaimed ix n).pins = s.pins := rfl
@[simp] theorem State.postReclaimed_lanes : (s.postReclaimed ix n).lanes = s.lanes := rfl
@[simp] theorem State.postReclaimed_lineBackground : (s.postReclaimed ix n).lineBackground = s.lineBackground := rfl
@[simp] theorem State.postReclaimed_streams : (s.postReclaimed ix n).streams = s.streams := rfl
@[simp] theorem State.postReclaimed_suspensions : (s.postReclaimed ix n).suspensions = s.suspensions := rfl
@[simp] theorem State.postReclaimed_store : (s.postReclaimed ix n).store = s.store := rfl
@[simp] theorem State.postReclaimed_mem : (s.postReclaimed ix n).mem = s.mem := rfl
@[simp] theorem State.postReclaimed_staging : (s.postReclaimed ix n).staging q = s.staging q := by
  cases q <;> simp [State.staging]

/-! Posting FETCH_FAULT changes `linkA`, `linkB` only. -/

theorem State.postFetchFault_frame : s.postFetchFault p h fc =
    { s with linkA := (s.postFetchFault p h fc).linkA, linkB := (s.postFetchFault p h fc).linkB } := by unfold State.postFetchFault; cases h.ix? <;> cases p <;> rfl

@[simp] theorem State.postFetchFault_pending : (s.postFetchFault p h fc).pending = s.pending := by
  rw [State.postFetchFault_frame]
@[simp] theorem State.postFetchFault_rstAsserted : (s.postFetchFault p h fc).rstAsserted = s.rstAsserted := by
  rw [State.postFetchFault_frame]
@[simp] theorem State.postFetchFault_table : (s.postFetchFault p h fc).table = s.table := by
  rw [State.postFetchFault_frame]
@[simp] theorem State.postFetchFault_stagingA : (s.postFetchFault p h fc).stagingA = s.stagingA := by
  rw [State.postFetchFault_frame]
@[simp] theorem State.postFetchFault_stagingB : (s.postFetchFault p h fc).stagingB = s.stagingB := by
  rw [State.postFetchFault_frame]
@[simp] theorem State.postFetchFault_commitQueue : (s.postFetchFault p h fc).commitQueue = s.commitQueue := by
  rw [State.postFetchFault_frame]
@[simp] theorem State.postFetchFault_turn : (s.postFetchFault p h fc).turn = s.turn := by
  rw [State.postFetchFault_frame]
@[simp] theorem State.postFetchFault_serving : (s.postFetchFault p h fc).serving = s.serving := by
  rw [State.postFetchFault_frame]
@[simp] theorem State.postFetchFault_choices : (s.postFetchFault p h fc).choices = s.choices := by
  rw [State.postFetchFault_frame]
@[simp] theorem State.postFetchFault_nextPort : (s.postFetchFault p h fc).nextPort = s.nextPort := by
  rw [State.postFetchFault_frame]
@[simp] theorem State.postFetchFault_raster : (s.postFetchFault p h fc).raster = s.raster := by
  rw [State.postFetchFault_frame]
@[simp] theorem State.postFetchFault_pins : (s.postFetchFault p h fc).pins = s.pins := by
  rw [State.postFetchFault_frame]
@[simp] theorem State.postFetchFault_lanes : (s.postFetchFault p h fc).lanes = s.lanes := by
  rw [State.postFetchFault_frame]
@[simp] theorem State.postFetchFault_lineBackground : (s.postFetchFault p h fc).lineBackground = s.lineBackground := by
  rw [State.postFetchFault_frame]
@[simp] theorem State.postFetchFault_streams : (s.postFetchFault p h fc).streams = s.streams := by
  rw [State.postFetchFault_frame]
@[simp] theorem State.postFetchFault_suspensions : (s.postFetchFault p h fc).suspensions = s.suspensions := by
  rw [State.postFetchFault_frame]
@[simp] theorem State.postFetchFault_store : (s.postFetchFault p h fc).store = s.store := by
  rw [State.postFetchFault_frame]
@[simp] theorem State.postFetchFault_mem : (s.postFetchFault p h fc).mem = s.mem := by rw [State.postFetchFault_frame]
@[simp] theorem State.postFetchFault_staging : (s.postFetchFault p h fc).staging q = s.staging q := by
  cases q <;> simp [State.staging]

/-! A head command's leaving its queue changes `linkA`, `linkB`, `nextPort` only. -/

theorem State.dequeue_frame : s.dequeue p =
    { s with linkA := (s.dequeue p).linkA, linkB := (s.dequeue p).linkB, nextPort := (s.dequeue p).nextPort } := by cases p <;> rfl

@[simp] theorem State.dequeue_pending : (s.dequeue p).pending = s.pending := by rw [State.dequeue_frame]
@[simp] theorem State.dequeue_rstAsserted : (s.dequeue p).rstAsserted = s.rstAsserted := by rw [State.dequeue_frame]
@[simp] theorem State.dequeue_table : (s.dequeue p).table = s.table := by rw [State.dequeue_frame]
@[simp] theorem State.dequeue_stagingA : (s.dequeue p).stagingA = s.stagingA := by rw [State.dequeue_frame]
@[simp] theorem State.dequeue_stagingB : (s.dequeue p).stagingB = s.stagingB := by rw [State.dequeue_frame]
@[simp] theorem State.dequeue_commitQueue : (s.dequeue p).commitQueue = s.commitQueue := by rw [State.dequeue_frame]
@[simp] theorem State.dequeue_turn : (s.dequeue p).turn = s.turn := by rw [State.dequeue_frame]
@[simp] theorem State.dequeue_serving : (s.dequeue p).serving = s.serving := by rw [State.dequeue_frame]
@[simp] theorem State.dequeue_choices : (s.dequeue p).choices = s.choices := by rw [State.dequeue_frame]
@[simp] theorem State.dequeue_raster : (s.dequeue p).raster = s.raster := by rw [State.dequeue_frame]
@[simp] theorem State.dequeue_pins : (s.dequeue p).pins = s.pins := by rw [State.dequeue_frame]
@[simp] theorem State.dequeue_lanes : (s.dequeue p).lanes = s.lanes := by rw [State.dequeue_frame]
@[simp] theorem State.dequeue_lineBackground : (s.dequeue p).lineBackground = s.lineBackground := by
  rw [State.dequeue_frame]
@[simp] theorem State.dequeue_streams : (s.dequeue p).streams = s.streams := by rw [State.dequeue_frame]
@[simp] theorem State.dequeue_suspensions : (s.dequeue p).suspensions = s.suspensions := by rw [State.dequeue_frame]
@[simp] theorem State.dequeue_store : (s.dequeue p).store = s.store := by rw [State.dequeue_frame]
@[simp] theorem State.dequeue_mem : (s.dequeue p).mem = s.mem := by rw [State.dequeue_frame]
@[simp] theorem State.dequeue_staging : (s.dequeue p).staging q = s.staging q := by cases q <;> simp [State.staging]

/-! Setting the target changes `raster` only. -/

@[simp] theorem State.setTarget_pending : (s.setTarget tg).pending = s.pending := rfl
@[simp] theorem State.setTarget_rstAsserted : (s.setTarget tg).rstAsserted = s.rstAsserted := rfl
@[simp] theorem State.setTarget_table : (s.setTarget tg).table = s.table := rfl
@[simp] theorem State.setTarget_stagingA : (s.setTarget tg).stagingA = s.stagingA := rfl
@[simp] theorem State.setTarget_stagingB : (s.setTarget tg).stagingB = s.stagingB := rfl
@[simp] theorem State.setTarget_commitQueue : (s.setTarget tg).commitQueue = s.commitQueue := rfl
@[simp] theorem State.setTarget_turn : (s.setTarget tg).turn = s.turn := rfl
@[simp] theorem State.setTarget_serving : (s.setTarget tg).serving = s.serving := rfl
@[simp] theorem State.setTarget_choices : (s.setTarget tg).choices = s.choices := rfl
@[simp] theorem State.setTarget_nextPort : (s.setTarget tg).nextPort = s.nextPort := rfl
@[simp] theorem State.setTarget_linkA : (s.setTarget tg).linkA = s.linkA := rfl
@[simp] theorem State.setTarget_linkB : (s.setTarget tg).linkB = s.linkB := rfl
@[simp] theorem State.setTarget_pins : (s.setTarget tg).pins = s.pins := rfl
@[simp] theorem State.setTarget_lanes : (s.setTarget tg).lanes = s.lanes := rfl
@[simp] theorem State.setTarget_lineBackground : (s.setTarget tg).lineBackground = s.lineBackground := rfl
@[simp] theorem State.setTarget_streams : (s.setTarget tg).streams = s.streams := rfl
@[simp] theorem State.setTarget_suspensions : (s.setTarget tg).suspensions = s.suspensions := rfl
@[simp] theorem State.setTarget_store : (s.setTarget tg).store = s.store := rfl
@[simp] theorem State.setTarget_mem : (s.setTarget tg).mem = s.mem := rfl
@[simp] theorem State.setTarget_link : (s.setTarget tg).link q = s.link q := by cases q <;> simp [State.link]
@[simp] theorem State.setTarget_staging : (s.setTarget tg).staging q = s.staging q := by
  cases q <;> simp [State.staging]

/-! Taking a head command changes `linkA`, `linkB`, `nextPort`, `serving` only. -/

theorem State.takeHead_frame : s.takeHead p =
    { s with linkA := (s.takeHead p).linkA, linkB := (s.takeHead p).linkB, nextPort := (s.takeHead p).nextPort, serving := (s.takeHead p).serving } := by
  unfold State.takeHead; split <;> cases p <;> rfl

@[simp] theorem State.takeHead_pending : (s.takeHead p).pending = s.pending := by rw [State.takeHead_frame]
@[simp] theorem State.takeHead_rstAsserted : (s.takeHead p).rstAsserted = s.rstAsserted := by
  rw [State.takeHead_frame]
@[simp] theorem State.takeHead_table : (s.takeHead p).table = s.table := by rw [State.takeHead_frame]
@[simp] theorem State.takeHead_stagingA : (s.takeHead p).stagingA = s.stagingA := by rw [State.takeHead_frame]
@[simp] theorem State.takeHead_stagingB : (s.takeHead p).stagingB = s.stagingB := by rw [State.takeHead_frame]
@[simp] theorem State.takeHead_commitQueue : (s.takeHead p).commitQueue = s.commitQueue := by
  rw [State.takeHead_frame]
@[simp] theorem State.takeHead_turn : (s.takeHead p).turn = s.turn := by rw [State.takeHead_frame]
@[simp] theorem State.takeHead_choices : (s.takeHead p).choices = s.choices := by rw [State.takeHead_frame]
@[simp] theorem State.takeHead_raster : (s.takeHead p).raster = s.raster := by rw [State.takeHead_frame]
@[simp] theorem State.takeHead_pins : (s.takeHead p).pins = s.pins := by rw [State.takeHead_frame]
@[simp] theorem State.takeHead_lanes : (s.takeHead p).lanes = s.lanes := by rw [State.takeHead_frame]
@[simp] theorem State.takeHead_lineBackground : (s.takeHead p).lineBackground = s.lineBackground := by
  rw [State.takeHead_frame]
@[simp] theorem State.takeHead_streams : (s.takeHead p).streams = s.streams := by rw [State.takeHead_frame]
@[simp] theorem State.takeHead_suspensions : (s.takeHead p).suspensions = s.suspensions := by
  rw [State.takeHead_frame]
@[simp] theorem State.takeHead_store : (s.takeHead p).store = s.store := by rw [State.takeHead_frame]
@[simp] theorem State.takeHead_mem : (s.takeHead p).mem = s.mem := by rw [State.takeHead_frame]
@[simp] theorem State.takeHead_staging : (s.takeHead p).staging q = s.staging q := by cases q <;> simp [State.staging]

/-! Beginning a command's service changes `linkA`, `linkB`, `nextPort`, `serving`, `raster` only. -/

theorem State.beginService_frame : s.beginService p qc =
    { s with linkA := (s.beginService p qc).linkA, linkB := (s.beginService p qc).linkB, nextPort := (s.beginService p qc).nextPort, serving := (s.beginService p qc).serving, raster := (s.beginService p qc).raster } := by
  unfold State.beginService State.meetRaster outputCommand liveAct quietAct; dsimp only
  cases p <;> dsimp only <;> (repeat' split) <;> rfl

@[simp] theorem State.beginService_pending : (s.beginService p qc).pending = s.pending := by
  rw [State.beginService_frame]
@[simp] theorem State.beginService_rstAsserted : (s.beginService p qc).rstAsserted = s.rstAsserted := by
  rw [State.beginService_frame]
@[simp] theorem State.beginService_table : (s.beginService p qc).table = s.table := by rw [State.beginService_frame]
@[simp] theorem State.beginService_stagingA : (s.beginService p qc).stagingA = s.stagingA := by
  rw [State.beginService_frame]
@[simp] theorem State.beginService_stagingB : (s.beginService p qc).stagingB = s.stagingB := by
  rw [State.beginService_frame]
@[simp] theorem State.beginService_commitQueue : (s.beginService p qc).commitQueue = s.commitQueue := by
  rw [State.beginService_frame]
@[simp] theorem State.beginService_turn : (s.beginService p qc).turn = s.turn := by rw [State.beginService_frame]
@[simp] theorem State.beginService_choices : (s.beginService p qc).choices = s.choices := by
  rw [State.beginService_frame]
@[simp] theorem State.beginService_pins : (s.beginService p qc).pins = s.pins := by rw [State.beginService_frame]
@[simp] theorem State.beginService_lanes : (s.beginService p qc).lanes = s.lanes := by rw [State.beginService_frame]
@[simp] theorem State.beginService_lineBackground : (s.beginService p qc).lineBackground = s.lineBackground := by
  rw [State.beginService_frame]
@[simp] theorem State.beginService_streams : (s.beginService p qc).streams = s.streams := by
  rw [State.beginService_frame]
@[simp] theorem State.beginService_suspensions : (s.beginService p qc).suspensions = s.suspensions := by
  rw [State.beginService_frame]
@[simp] theorem State.beginService_store : (s.beginService p qc).store = s.store := by rw [State.beginService_frame]
@[simp] theorem State.beginService_mem : (s.beginService p qc).mem = s.mem := by rw [State.beginService_frame]
@[simp] theorem State.beginService_staging : (s.beginService p qc).staging q = s.staging q := by
  cases q <;> simp [State.staging]

/-! A request's becoming pending changes `linkA`, `linkB`, `nextPort`, `serving`, `choices`, `raster` only. -/

theorem State.requested_frame : s.requested =
    { s with linkA := (s.requested).linkA, linkB := (s.requested).linkB, nextPort := (s.requested).nextPort, serving := (s.requested).serving, choices := (s.requested).choices, raster := (s.requested).raster } := by
  unfold State.requested; (repeat' split) <;> apply State.ext <;> simp

@[simp] theorem State.requested_pending : (s.requested).pending = s.pending := by rw [State.requested_frame]
@[simp] theorem State.requested_rstAsserted : (s.requested).rstAsserted = s.rstAsserted := by
  rw [State.requested_frame]
@[simp] theorem State.requested_table : (s.requested).table = s.table := by rw [State.requested_frame]
@[simp] theorem State.requested_stagingA : (s.requested).stagingA = s.stagingA := by rw [State.requested_frame]
@[simp] theorem State.requested_stagingB : (s.requested).stagingB = s.stagingB := by rw [State.requested_frame]
@[simp] theorem State.requested_commitQueue : (s.requested).commitQueue = s.commitQueue := by
  rw [State.requested_frame]
@[simp] theorem State.requested_turn : (s.requested).turn = s.turn := by rw [State.requested_frame]
@[simp] theorem State.requested_pins : (s.requested).pins = s.pins := by rw [State.requested_frame]
@[simp] theorem State.requested_lanes : (s.requested).lanes = s.lanes := by rw [State.requested_frame]
@[simp] theorem State.requested_lineBackground : (s.requested).lineBackground = s.lineBackground := by
  rw [State.requested_frame]
@[simp] theorem State.requested_streams : (s.requested).streams = s.streams := by rw [State.requested_frame]
@[simp] theorem State.requested_suspensions : (s.requested).suspensions = s.suspensions := by
  rw [State.requested_frame]
@[simp] theorem State.requested_store : (s.requested).store = s.store := by rw [State.requested_frame]
@[simp] theorem State.requested_mem : (s.requested).mem = s.mem := by rw [State.requested_frame]
@[simp] theorem State.requested_staging : (s.requested).staging q = s.staging q := by cases q <;> simp [State.staging]

/-! Placing a response changes `linkA`, `linkB` only. -/

theorem State.respond_frame : s.respond p qc r =
    { s with linkA := (s.respond p qc r).linkA, linkB := (s.respond p qc r).linkB } := by unfold State.respond; split <;> cases p <;> rfl

@[simp] theorem State.respond_pending : (s.respond p qc r).pending = s.pending := by rw [State.respond_frame]
@[simp] theorem State.respond_rstAsserted : (s.respond p qc r).rstAsserted = s.rstAsserted := by
  rw [State.respond_frame]
@[simp] theorem State.respond_table : (s.respond p qc r).table = s.table := by rw [State.respond_frame]
@[simp] theorem State.respond_stagingA : (s.respond p qc r).stagingA = s.stagingA := by rw [State.respond_frame]
@[simp] theorem State.respond_stagingB : (s.respond p qc r).stagingB = s.stagingB := by rw [State.respond_frame]
@[simp] theorem State.respond_commitQueue : (s.respond p qc r).commitQueue = s.commitQueue := by
  rw [State.respond_frame]
@[simp] theorem State.respond_turn : (s.respond p qc r).turn = s.turn := by rw [State.respond_frame]
@[simp] theorem State.respond_serving : (s.respond p qc r).serving = s.serving := by rw [State.respond_frame]
@[simp] theorem State.respond_choices : (s.respond p qc r).choices = s.choices := by rw [State.respond_frame]
@[simp] theorem State.respond_nextPort : (s.respond p qc r).nextPort = s.nextPort := by rw [State.respond_frame]
@[simp] theorem State.respond_raster : (s.respond p qc r).raster = s.raster := by rw [State.respond_frame]
@[simp] theorem State.respond_pins : (s.respond p qc r).pins = s.pins := by rw [State.respond_frame]
@[simp] theorem State.respond_lanes : (s.respond p qc r).lanes = s.lanes := by rw [State.respond_frame]
@[simp] theorem State.respond_lineBackground : (s.respond p qc r).lineBackground = s.lineBackground := by
  rw [State.respond_frame]
@[simp] theorem State.respond_streams : (s.respond p qc r).streams = s.streams := by rw [State.respond_frame]
@[simp] theorem State.respond_suspensions : (s.respond p qc r).suspensions = s.suspensions := by
  rw [State.respond_frame]
@[simp] theorem State.respond_store : (s.respond p qc r).store = s.store := by rw [State.respond_frame]
@[simp] theorem State.respond_mem : (s.respond p qc r).mem = s.mem := by rw [State.respond_frame]
@[simp] theorem State.respond_staging : (s.respond p qc r).staging q = s.staging q := by
  cases q <;> simp [State.staging]

end Sys2Proof.Machine
end

