-- ==== Sys2Proof/Laws/FetchFrames.lean ====
section
/-! SUPPORT. One lemma for each field that an operation of Machine/Fetch.lean or the freeing of a tag leaves alone. -/

namespace Sys2Proof.Machine

variable (s : State) (q : Port) (ix : SlotIx) (st : Stream) (w : TagEntry → Bool) (v : SlotIx → Bool) (t : TagIx)
variable (x : Tag) (rs : List SlotIx) (e : TagEntry) (k : Pick)

/-! Writing a stream record changes `streams` only. -/

@[simp] theorem State.setStream_pending : (s.setStream ix st).pending = s.pending := rfl
@[simp] theorem State.setStream_rstAsserted : (s.setStream ix st).rstAsserted = s.rstAsserted := rfl
@[simp] theorem State.setStream_table : (s.setStream ix st).table = s.table := rfl
@[simp] theorem State.setStream_stagingA : (s.setStream ix st).stagingA = s.stagingA := rfl
@[simp] theorem State.setStream_stagingB : (s.setStream ix st).stagingB = s.stagingB := rfl
@[simp] theorem State.setStream_commitQueue : (s.setStream ix st).commitQueue = s.commitQueue := rfl
@[simp] theorem State.setStream_turn : (s.setStream ix st).turn = s.turn := rfl
@[simp] theorem State.setStream_serving : (s.setStream ix st).serving = s.serving := rfl
@[simp] theorem State.setStream_choices : (s.setStream ix st).choices = s.choices := rfl
@[simp] theorem State.setStream_nextPort : (s.setStream ix st).nextPort = s.nextPort := rfl
@[simp] theorem State.setStream_linkA : (s.setStream ix st).linkA = s.linkA := rfl
@[simp] theorem State.setStream_linkB : (s.setStream ix st).linkB = s.linkB := rfl
@[simp] theorem State.setStream_raster : (s.setStream ix st).raster = s.raster := rfl
@[simp] theorem State.setStream_pins : (s.setStream ix st).pins = s.pins := rfl
@[simp] theorem State.setStream_lanes : (s.setStream ix st).lanes = s.lanes := rfl
@[simp] theorem State.setStream_lineBackground : (s.setStream ix st).lineBackground = s.lineBackground := rfl
@[simp] theorem State.setStream_suspensions : (s.setStream ix st).suspensions = s.suspensions := rfl
@[simp] theorem State.setStream_store : (s.setStream ix st).store = s.store := rfl
@[simp] theorem State.setStream_mem : (s.setStream ix st).mem = s.mem := rfl
@[simp] theorem State.setStream_link : (s.setStream ix st).link q = s.link q := by cases q <;> simp [State.link]
@[simp] theorem State.setStream_staging : (s.setStream ix st).staging q = s.staging q := by
  cases q <;> simp [State.staging]

/-! Marking tags changes `mem` only. -/

@[simp] theorem State.markTags_pending : (s.markTags w).pending = s.pending := rfl
@[simp] theorem State.markTags_rstAsserted : (s.markTags w).rstAsserted = s.rstAsserted := rfl
@[simp] theorem State.markTags_table : (s.markTags w).table = s.table := rfl
@[simp] theorem State.markTags_stagingA : (s.markTags w).stagingA = s.stagingA := rfl
@[simp] theorem State.markTags_stagingB : (s.markTags w).stagingB = s.stagingB := rfl
@[simp] theorem State.markTags_commitQueue : (s.markTags w).commitQueue = s.commitQueue := rfl
@[simp] theorem State.markTags_turn : (s.markTags w).turn = s.turn := rfl
@[simp] theorem State.markTags_serving : (s.markTags w).serving = s.serving := rfl
@[simp] theorem State.markTags_choices : (s.markTags w).choices = s.choices := rfl
@[simp] theorem State.markTags_nextPort : (s.markTags w).nextPort = s.nextPort := rfl
@[simp] theorem State.markTags_linkA : (s.markTags w).linkA = s.linkA := rfl
@[simp] theorem State.markTags_linkB : (s.markTags w).linkB = s.linkB := rfl
@[simp] theorem State.markTags_raster : (s.markTags w).raster = s.raster := rfl
@[simp] theorem State.markTags_pins : (s.markTags w).pins = s.pins := rfl
@[simp] theorem State.markTags_lanes : (s.markTags w).lanes = s.lanes := rfl
@[simp] theorem State.markTags_lineBackground : (s.markTags w).lineBackground = s.lineBackground := rfl
@[simp] theorem State.markTags_streams : (s.markTags w).streams = s.streams := rfl
@[simp] theorem State.markTags_suspensions : (s.markTags w).suspensions = s.suspensions := rfl
@[simp] theorem State.markTags_store : (s.markTags w).store = s.store := rfl
@[simp] theorem State.markTags_link : (s.markTags w).link q = s.link q := by cases q <;> simp [State.link]
@[simp] theorem State.markTags_staging : (s.markTags w).staging q = s.staging q := by cases q <;> simp [State.staging]

/-! Writing a tag changes `mem` only. -/

@[simp] theorem State.setTag_pending : (s.setTag t x).pending = s.pending := rfl
@[simp] theorem State.setTag_rstAsserted : (s.setTag t x).rstAsserted = s.rstAsserted := rfl
@[simp] theorem State.setTag_table : (s.setTag t x).table = s.table := rfl
@[simp] theorem State.setTag_stagingA : (s.setTag t x).stagingA = s.stagingA := rfl
@[simp] theorem State.setTag_stagingB : (s.setTag t x).stagingB = s.stagingB := rfl
@[simp] theorem State.setTag_commitQueue : (s.setTag t x).commitQueue = s.commitQueue := rfl
@[simp] theorem State.setTag_turn : (s.setTag t x).turn = s.turn := rfl
@[simp] theorem State.setTag_serving : (s.setTag t x).serving = s.serving := rfl
@[simp] theorem State.setTag_choices : (s.setTag t x).choices = s.choices := rfl
@[simp] theorem State.setTag_nextPort : (s.setTag t x).nextPort = s.nextPort := rfl
@[simp] theorem State.setTag_linkA : (s.setTag t x).linkA = s.linkA := rfl
@[simp] theorem State.setTag_linkB : (s.setTag t x).linkB = s.linkB := rfl
@[simp] theorem State.setTag_raster : (s.setTag t x).raster = s.raster := rfl
@[simp] theorem State.setTag_pins : (s.setTag t x).pins = s.pins := rfl
@[simp] theorem State.setTag_lanes : (s.setTag t x).lanes = s.lanes := rfl
@[simp] theorem State.setTag_lineBackground : (s.setTag t x).lineBackground = s.lineBackground := rfl
@[simp] theorem State.setTag_streams : (s.setTag t x).streams = s.streams := rfl
@[simp] theorem State.setTag_suspensions : (s.setTag t x).suspensions = s.suspensions := rfl
@[simp] theorem State.setTag_store : (s.setTag t x).store = s.store := rfl
@[simp] theorem State.setTag_link : (s.setTag t x).link q = s.link q := by cases q <;> simp [State.link]
@[simp] theorem State.setTag_staging : (s.setTag t x).staging q = s.staging q := by cases q <;> simp [State.staging]

/-! Vacating lanes changes `lanes` only. -/

@[simp] theorem State.vacateLanes_pending : (s.vacateLanes v).pending = s.pending := rfl
@[simp] theorem State.vacateLanes_rstAsserted : (s.vacateLanes v).rstAsserted = s.rstAsserted := rfl
@[simp] theorem State.vacateLanes_table : (s.vacateLanes v).table = s.table := rfl
@[simp] theorem State.vacateLanes_stagingA : (s.vacateLanes v).stagingA = s.stagingA := rfl
@[simp] theorem State.vacateLanes_stagingB : (s.vacateLanes v).stagingB = s.stagingB := rfl
@[simp] theorem State.vacateLanes_commitQueue : (s.vacateLanes v).commitQueue = s.commitQueue := rfl
@[simp] theorem State.vacateLanes_turn : (s.vacateLanes v).turn = s.turn := rfl
@[simp] theorem State.vacateLanes_serving : (s.vacateLanes v).serving = s.serving := rfl
@[simp] theorem State.vacateLanes_choices : (s.vacateLanes v).choices = s.choices := rfl
@[simp] theorem State.vacateLanes_nextPort : (s.vacateLanes v).nextPort = s.nextPort := rfl
@[simp] theorem State.vacateLanes_linkA : (s.vacateLanes v).linkA = s.linkA := rfl
@[simp] theorem State.vacateLanes_linkB : (s.vacateLanes v).linkB = s.linkB := rfl
@[simp] theorem State.vacateLanes_raster : (s.vacateLanes v).raster = s.raster := rfl
@[simp] theorem State.vacateLanes_pins : (s.vacateLanes v).pins = s.pins := rfl
@[simp] theorem State.vacateLanes_lineBackground : (s.vacateLanes v).lineBackground = s.lineBackground := rfl
@[simp] theorem State.vacateLanes_streams : (s.vacateLanes v).streams = s.streams := rfl
@[simp] theorem State.vacateLanes_suspensions : (s.vacateLanes v).suspensions = s.suspensions := rfl
@[simp] theorem State.vacateLanes_store : (s.vacateLanes v).store = s.store := rfl
@[simp] theorem State.vacateLanes_mem : (s.vacateLanes v).mem = s.mem := rfl
@[simp] theorem State.vacateLanes_link : (s.vacateLanes v).link q = s.link q := by cases q <;> simp [State.link]
@[simp] theorem State.vacateLanes_staging : (s.vacateLanes v).staging q = s.staging q := by
  cases q <;> simp [State.staging]

/-! Turning lanes to FILL changes `lanes` only. -/

@[simp] theorem State.fillLanes_pending : (s.fillLanes v).pending = s.pending := rfl
@[simp] theorem State.fillLanes_rstAsserted : (s.fillLanes v).rstAsserted = s.rstAsserted := rfl
@[simp] theorem State.fillLanes_table : (s.fillLanes v).table = s.table := rfl
@[simp] theorem State.fillLanes_stagingA : (s.fillLanes v).stagingA = s.stagingA := rfl
@[simp] theorem State.fillLanes_stagingB : (s.fillLanes v).stagingB = s.stagingB := rfl
@[simp] theorem State.fillLanes_commitQueue : (s.fillLanes v).commitQueue = s.commitQueue := rfl
@[simp] theorem State.fillLanes_turn : (s.fillLanes v).turn = s.turn := rfl
@[simp] theorem State.fillLanes_serving : (s.fillLanes v).serving = s.serving := rfl
@[simp] theorem State.fillLanes_choices : (s.fillLanes v).choices = s.choices := rfl
@[simp] theorem State.fillLanes_nextPort : (s.fillLanes v).nextPort = s.nextPort := rfl
@[simp] theorem State.fillLanes_linkA : (s.fillLanes v).linkA = s.linkA := rfl
@[simp] theorem State.fillLanes_linkB : (s.fillLanes v).linkB = s.linkB := rfl
@[simp] theorem State.fillLanes_raster : (s.fillLanes v).raster = s.raster := rfl
@[simp] theorem State.fillLanes_pins : (s.fillLanes v).pins = s.pins := rfl
@[simp] theorem State.fillLanes_lineBackground : (s.fillLanes v).lineBackground = s.lineBackground := rfl
@[simp] theorem State.fillLanes_streams : (s.fillLanes v).streams = s.streams := rfl
@[simp] theorem State.fillLanes_suspensions : (s.fillLanes v).suspensions = s.suspensions := rfl
@[simp] theorem State.fillLanes_store : (s.fillLanes v).store = s.store := rfl
@[simp] theorem State.fillLanes_mem : (s.fillLanes v).mem = s.mem := rfl
@[simp] theorem State.fillLanes_link : (s.fillLanes v).link q = s.link q := by cases q <;> simp [State.link]
@[simp] theorem State.fillLanes_staging : (s.fillLanes v).staging q = s.staging q := by
  cases q <;> simp [State.staging]

/-! Stopping streams changes `streams`, `mem`, `lanes` only. -/

@[simp] theorem State.stopStreams_pending : (s.stopStreams v).pending = s.pending := rfl
@[simp] theorem State.stopStreams_rstAsserted : (s.stopStreams v).rstAsserted = s.rstAsserted := rfl
@[simp] theorem State.stopStreams_table : (s.stopStreams v).table = s.table := rfl
@[simp] theorem State.stopStreams_stagingA : (s.stopStreams v).stagingA = s.stagingA := rfl
@[simp] theorem State.stopStreams_stagingB : (s.stopStreams v).stagingB = s.stagingB := rfl
@[simp] theorem State.stopStreams_commitQueue : (s.stopStreams v).commitQueue = s.commitQueue := rfl
@[simp] theorem State.stopStreams_turn : (s.stopStreams v).turn = s.turn := rfl
@[simp] theorem State.stopStreams_serving : (s.stopStreams v).serving = s.serving := rfl
@[simp] theorem State.stopStreams_choices : (s.stopStreams v).choices = s.choices := rfl
@[simp] theorem State.stopStreams_nextPort : (s.stopStreams v).nextPort = s.nextPort := rfl
@[simp] theorem State.stopStreams_linkA : (s.stopStreams v).linkA = s.linkA := rfl
@[simp] theorem State.stopStreams_linkB : (s.stopStreams v).linkB = s.linkB := rfl
@[simp] theorem State.stopStreams_raster : (s.stopStreams v).raster = s.raster := rfl
@[simp] theorem State.stopStreams_pins : (s.stopStreams v).pins = s.pins := rfl
@[simp] theorem State.stopStreams_lineBackground : (s.stopStreams v).lineBackground = s.lineBackground := rfl
@[simp] theorem State.stopStreams_suspensions : (s.stopStreams v).suspensions = s.suspensions := rfl
@[simp] theorem State.stopStreams_store : (s.stopStreams v).store = s.store := rfl
@[simp] theorem State.stopStreams_link : (s.stopStreams v).link q = s.link q := by cases q <;> simp [State.link]
@[simp] theorem State.stopStreams_staging : (s.stopStreams v).staging q = s.staging q := by
  cases q <;> simp [State.staging]

/-! Stopping a stream changes `streams`, `mem`, `lanes` only. -/

@[simp] theorem State.stopStream_pending : (s.stopStream ix).pending = s.pending := rfl
@[simp] theorem State.stopStream_rstAsserted : (s.stopStream ix).rstAsserted = s.rstAsserted := rfl
@[simp] theorem State.stopStream_table : (s.stopStream ix).table = s.table := rfl
@[simp] theorem State.stopStream_stagingA : (s.stopStream ix).stagingA = s.stagingA := rfl
@[simp] theorem State.stopStream_stagingB : (s.stopStream ix).stagingB = s.stagingB := rfl
@[simp] theorem State.stopStream_commitQueue : (s.stopStream ix).commitQueue = s.commitQueue := rfl
@[simp] theorem State.stopStream_turn : (s.stopStream ix).turn = s.turn := rfl
@[simp] theorem State.stopStream_serving : (s.stopStream ix).serving = s.serving := rfl
@[simp] theorem State.stopStream_choices : (s.stopStream ix).choices = s.choices := rfl
@[simp] theorem State.stopStream_nextPort : (s.stopStream ix).nextPort = s.nextPort := rfl
@[simp] theorem State.stopStream_linkA : (s.stopStream ix).linkA = s.linkA := rfl
@[simp] theorem State.stopStream_linkB : (s.stopStream ix).linkB = s.linkB := rfl
@[simp] theorem State.stopStream_raster : (s.stopStream ix).raster = s.raster := rfl
@[simp] theorem State.stopStream_pins : (s.stopStream ix).pins = s.pins := rfl
@[simp] theorem State.stopStream_lineBackground : (s.stopStream ix).lineBackground = s.lineBackground := rfl
@[simp] theorem State.stopStream_suspensions : (s.stopStream ix).suspensions = s.suspensions := rfl
@[simp] theorem State.stopStream_store : (s.stopStream ix).store = s.store := rfl
@[simp] theorem State.stopStream_link : (s.stopStream ix).link q = s.link q := by cases q <;> simp [State.link]
@[simp] theorem State.stopStream_staging : (s.stopStream ix).staging q = s.staging q := by
  cases q <;> simp [State.staging]

/-! Streams off changes `streams`, `mem`, `lanes` only. -/

@[simp] theorem State.streamsOff_pending : (s.streamsOff).pending = s.pending := rfl
@[simp] theorem State.streamsOff_rstAsserted : (s.streamsOff).rstAsserted = s.rstAsserted := rfl
@[simp] theorem State.streamsOff_table : (s.streamsOff).table = s.table := rfl
@[simp] theorem State.streamsOff_stagingA : (s.streamsOff).stagingA = s.stagingA := rfl
@[simp] theorem State.streamsOff_stagingB : (s.streamsOff).stagingB = s.stagingB := rfl
@[simp] theorem State.streamsOff_commitQueue : (s.streamsOff).commitQueue = s.commitQueue := rfl
@[simp] theorem State.streamsOff_turn : (s.streamsOff).turn = s.turn := rfl
@[simp] theorem State.streamsOff_serving : (s.streamsOff).serving = s.serving := rfl
@[simp] theorem State.streamsOff_choices : (s.streamsOff).choices = s.choices := rfl
@[simp] theorem State.streamsOff_nextPort : (s.streamsOff).nextPort = s.nextPort := rfl
@[simp] theorem State.streamsOff_linkA : (s.streamsOff).linkA = s.linkA := rfl
@[simp] theorem State.streamsOff_linkB : (s.streamsOff).linkB = s.linkB := rfl
@[simp] theorem State.streamsOff_raster : (s.streamsOff).raster = s.raster := rfl
@[simp] theorem State.streamsOff_pins : (s.streamsOff).pins = s.pins := rfl
@[simp] theorem State.streamsOff_lineBackground : (s.streamsOff).lineBackground = s.lineBackground := rfl
@[simp] theorem State.streamsOff_suspensions : (s.streamsOff).suspensions = s.suspensions := rfl
@[simp] theorem State.streamsOff_store : (s.streamsOff).store = s.store := rfl
@[simp] theorem State.streamsOff_link : (s.streamsOff).link q = s.link q := by cases q <;> simp [State.link]
@[simp] theorem State.streamsOff_staging : (s.streamsOff).staging q = s.staging q := by
  cases q <;> simp [State.staging]

/-! Clearing a count changes `streams` only. -/

@[simp] theorem State.clearCount_pending : (s.clearCount ix).pending = s.pending := rfl
@[simp] theorem State.clearCount_rstAsserted : (s.clearCount ix).rstAsserted = s.rstAsserted := rfl
@[simp] theorem State.clearCount_table : (s.clearCount ix).table = s.table := rfl
@[simp] theorem State.clearCount_stagingA : (s.clearCount ix).stagingA = s.stagingA := rfl
@[simp] theorem State.clearCount_stagingB : (s.clearCount ix).stagingB = s.stagingB := rfl
@[simp] theorem State.clearCount_commitQueue : (s.clearCount ix).commitQueue = s.commitQueue := rfl
@[simp] theorem State.clearCount_turn : (s.clearCount ix).turn = s.turn := rfl
@[simp] theorem State.clearCount_serving : (s.clearCount ix).serving = s.serving := rfl
@[simp] theorem State.clearCount_choices : (s.clearCount ix).choices = s.choices := rfl
@[simp] theorem State.clearCount_nextPort : (s.clearCount ix).nextPort = s.nextPort := rfl
@[simp] theorem State.clearCount_linkA : (s.clearCount ix).linkA = s.linkA := rfl
@[simp] theorem State.clearCount_linkB : (s.clearCount ix).linkB = s.linkB := rfl
@[simp] theorem State.clearCount_raster : (s.clearCount ix).raster = s.raster := rfl
@[simp] theorem State.clearCount_pins : (s.clearCount ix).pins = s.pins := rfl
@[simp] theorem State.clearCount_lanes : (s.clearCount ix).lanes = s.lanes := rfl
@[simp] theorem State.clearCount_lineBackground : (s.clearCount ix).lineBackground = s.lineBackground := rfl
@[simp] theorem State.clearCount_suspensions : (s.clearCount ix).suspensions = s.suspensions := rfl
@[simp] theorem State.clearCount_store : (s.clearCount ix).store = s.store := rfl
@[simp] theorem State.clearCount_mem : (s.clearCount ix).mem = s.mem := rfl
@[simp] theorem State.clearCount_link : (s.clearCount ix).link q = s.link q := by cases q <;> simp [State.link]
@[simp] theorem State.clearCount_staging : (s.clearCount ix).staging q = s.staging q := by
  cases q <;> simp [State.staging]

/-! Loading streams changes `streams`, `mem`, `lanes` only. -/

@[simp] theorem State.loadStreams_pending : (s.loadStreams rs).pending = s.pending := rfl
@[simp] theorem State.loadStreams_rstAsserted : (s.loadStreams rs).rstAsserted = s.rstAsserted := rfl
@[simp] theorem State.loadStreams_table : (s.loadStreams rs).table = s.table := rfl
@[simp] theorem State.loadStreams_stagingA : (s.loadStreams rs).stagingA = s.stagingA := rfl
@[simp] theorem State.loadStreams_stagingB : (s.loadStreams rs).stagingB = s.stagingB := rfl
@[simp] theorem State.loadStreams_commitQueue : (s.loadStreams rs).commitQueue = s.commitQueue := rfl
@[simp] theorem State.loadStreams_turn : (s.loadStreams rs).turn = s.turn := rfl
@[simp] theorem State.loadStreams_serving : (s.loadStreams rs).serving = s.serving := rfl
@[simp] theorem State.loadStreams_choices : (s.loadStreams rs).choices = s.choices := rfl
@[simp] theorem State.loadStreams_nextPort : (s.loadStreams rs).nextPort = s.nextPort := rfl
@[simp] theorem State.loadStreams_linkA : (s.loadStreams rs).linkA = s.linkA := rfl
@[simp] theorem State.loadStreams_linkB : (s.loadStreams rs).linkB = s.linkB := rfl
@[simp] theorem State.loadStreams_raster : (s.loadStreams rs).raster = s.raster := rfl
@[simp] theorem State.loadStreams_pins : (s.loadStreams rs).pins = s.pins := rfl
@[simp] theorem State.loadStreams_lineBackground : (s.loadStreams rs).lineBackground = s.lineBackground := rfl
@[simp] theorem State.loadStreams_suspensions : (s.loadStreams rs).suspensions = s.suspensions := rfl
@[simp] theorem State.loadStreams_store : (s.loadStreams rs).store = s.store := rfl
@[simp] theorem State.loadStreams_link : (s.loadStreams rs).link q = s.link q := by cases q <;> simp [State.link]
@[simp] theorem State.loadStreams_staging : (s.loadStreams rs).staging q = s.staging q := by
  cases q <;> simp [State.staging]

/-! Failing a half changes `streams`, `mem` only. -/

theorem State.failHalf_frame : s.failHalf e =
    { s with streams := (s.failHalf e).streams, mem := (s.failHalf e).mem } := by unfold State.failHalf; cases e.handle.ix? <;> rfl

@[simp] theorem State.failHalf_pending : (s.failHalf e).pending = s.pending := by rw [State.failHalf_frame]
@[simp] theorem State.failHalf_rstAsserted : (s.failHalf e).rstAsserted = s.rstAsserted := by
  rw [State.failHalf_frame]
@[simp] theorem State.failHalf_table : (s.failHalf e).table = s.table := by rw [State.failHalf_frame]
@[simp] theorem State.failHalf_stagingA : (s.failHalf e).stagingA = s.stagingA := by rw [State.failHalf_frame]
@[simp] theorem State.failHalf_stagingB : (s.failHalf e).stagingB = s.stagingB := by rw [State.failHalf_frame]
@[simp] theorem State.failHalf_commitQueue : (s.failHalf e).commitQueue = s.commitQueue := by
  rw [State.failHalf_frame]
@[simp] theorem State.failHalf_turn : (s.failHalf e).turn = s.turn := by rw [State.failHalf_frame]
@[simp] theorem State.failHalf_serving : (s.failHalf e).serving = s.serving := by rw [State.failHalf_frame]
@[simp] theorem State.failHalf_choices : (s.failHalf e).choices = s.choices := by rw [State.failHalf_frame]
@[simp] theorem State.failHalf_nextPort : (s.failHalf e).nextPort = s.nextPort := by rw [State.failHalf_frame]
@[simp] theorem State.failHalf_linkA : (s.failHalf e).linkA = s.linkA := by rw [State.failHalf_frame]
@[simp] theorem State.failHalf_linkB : (s.failHalf e).linkB = s.linkB := by rw [State.failHalf_frame]
@[simp] theorem State.failHalf_raster : (s.failHalf e).raster = s.raster := by rw [State.failHalf_frame]
@[simp] theorem State.failHalf_pins : (s.failHalf e).pins = s.pins := by rw [State.failHalf_frame]
@[simp] theorem State.failHalf_lanes : (s.failHalf e).lanes = s.lanes := by rw [State.failHalf_frame]
@[simp] theorem State.failHalf_lineBackground : (s.failHalf e).lineBackground = s.lineBackground := by
  rw [State.failHalf_frame]
@[simp] theorem State.failHalf_suspensions : (s.failHalf e).suspensions = s.suspensions := by
  rw [State.failHalf_frame]
@[simp] theorem State.failHalf_store : (s.failHalf e).store = s.store := by rw [State.failHalf_frame]
@[simp] theorem State.failHalf_link : (s.failHalf e).link q = s.link q := by cases q <;> simp [State.link]
@[simp] theorem State.failHalf_staging : (s.failHalf e).staging q = s.staging q := by cases q <;> simp [State.staging]

/-! Ageing the tags changes `mem` only. -/

@[simp] theorem State.ageTags_pending : (s.ageTags).pending = s.pending := rfl
@[simp] theorem State.ageTags_rstAsserted : (s.ageTags).rstAsserted = s.rstAsserted := rfl
@[simp] theorem State.ageTags_table : (s.ageTags).table = s.table := rfl
@[simp] theorem State.ageTags_stagingA : (s.ageTags).stagingA = s.stagingA := rfl
@[simp] theorem State.ageTags_stagingB : (s.ageTags).stagingB = s.stagingB := rfl
@[simp] theorem State.ageTags_commitQueue : (s.ageTags).commitQueue = s.commitQueue := rfl
@[simp] theorem State.ageTags_turn : (s.ageTags).turn = s.turn := rfl
@[simp] theorem State.ageTags_serving : (s.ageTags).serving = s.serving := rfl
@[simp] theorem State.ageTags_choices : (s.ageTags).choices = s.choices := rfl
@[simp] theorem State.ageTags_nextPort : (s.ageTags).nextPort = s.nextPort := rfl
@[simp] theorem State.ageTags_linkA : (s.ageTags).linkA = s.linkA := rfl
@[simp] theorem State.ageTags_linkB : (s.ageTags).linkB = s.linkB := rfl
@[simp] theorem State.ageTags_raster : (s.ageTags).raster = s.raster := rfl
@[simp] theorem State.ageTags_pins : (s.ageTags).pins = s.pins := rfl
@[simp] theorem State.ageTags_lanes : (s.ageTags).lanes = s.lanes := rfl
@[simp] theorem State.ageTags_lineBackground : (s.ageTags).lineBackground = s.lineBackground := rfl
@[simp] theorem State.ageTags_streams : (s.ageTags).streams = s.streams := rfl
@[simp] theorem State.ageTags_suspensions : (s.ageTags).suspensions = s.suspensions := rfl
@[simp] theorem State.ageTags_store : (s.ageTags).store = s.store := rfl
@[simp] theorem State.ageTags_link : (s.ageTags).link q = s.link q := by cases q <;> simp [State.link]
@[simp] theorem State.ageTags_staging : (s.ageTags).staging q = s.staging q := by cases q <;> simp [State.staging]

/-! Checking for STUCK changes `linkA`, `linkB`, `mem` only. -/

theorem State.checkStuck_frame : s.checkStuck =
    { s with linkA := (s.checkStuck).linkA, linkB := (s.checkStuck).linkB, mem := (s.checkStuck).mem } := by unfold State.checkStuck; split <;> rfl

@[simp] theorem State.checkStuck_pending : (s.checkStuck).pending = s.pending := by rw [State.checkStuck_frame]
@[simp] theorem State.checkStuck_rstAsserted : (s.checkStuck).rstAsserted = s.rstAsserted := by
  rw [State.checkStuck_frame]
@[simp] theorem State.checkStuck_table : (s.checkStuck).table = s.table := by rw [State.checkStuck_frame]
@[simp] theorem State.checkStuck_stagingA : (s.checkStuck).stagingA = s.stagingA := by rw [State.checkStuck_frame]
@[simp] theorem State.checkStuck_stagingB : (s.checkStuck).stagingB = s.stagingB := by rw [State.checkStuck_frame]
@[simp] theorem State.checkStuck_commitQueue : (s.checkStuck).commitQueue = s.commitQueue := by
  rw [State.checkStuck_frame]
@[simp] theorem State.checkStuck_turn : (s.checkStuck).turn = s.turn := by rw [State.checkStuck_frame]
@[simp] theorem State.checkStuck_serving : (s.checkStuck).serving = s.serving := by rw [State.checkStuck_frame]
@[simp] theorem State.checkStuck_choices : (s.checkStuck).choices = s.choices := by rw [State.checkStuck_frame]
@[simp] theorem State.checkStuck_nextPort : (s.checkStuck).nextPort = s.nextPort := by rw [State.checkStuck_frame]
@[simp] theorem State.checkStuck_raster : (s.checkStuck).raster = s.raster := by rw [State.checkStuck_frame]
@[simp] theorem State.checkStuck_pins : (s.checkStuck).pins = s.pins := by rw [State.checkStuck_frame]
@[simp] theorem State.checkStuck_lanes : (s.checkStuck).lanes = s.lanes := by rw [State.checkStuck_frame]
@[simp] theorem State.checkStuck_lineBackground : (s.checkStuck).lineBackground = s.lineBackground := by
  rw [State.checkStuck_frame]
@[simp] theorem State.checkStuck_streams : (s.checkStuck).streams = s.streams := by rw [State.checkStuck_frame]
@[simp] theorem State.checkStuck_suspensions : (s.checkStuck).suspensions = s.suspensions := by
  rw [State.checkStuck_frame]
@[simp] theorem State.checkStuck_store : (s.checkStuck).store = s.store := by rw [State.checkStuck_frame]
@[simp] theorem State.checkStuck_staging : (s.checkStuck).staging q = s.staging q := by
  cases q <;> simp [State.staging]

/-! Offering a pick changes `streams`, `mem` only. -/

@[simp] theorem State.offer_pending : (s.offer t k).pending = s.pending := rfl
@[simp] theorem State.offer_rstAsserted : (s.offer t k).rstAsserted = s.rstAsserted := rfl
@[simp] theorem State.offer_table : (s.offer t k).table = s.table := rfl
@[simp] theorem State.offer_stagingA : (s.offer t k).stagingA = s.stagingA := rfl
@[simp] theorem State.offer_stagingB : (s.offer t k).stagingB = s.stagingB := rfl
@[simp] theorem State.offer_commitQueue : (s.offer t k).commitQueue = s.commitQueue := rfl
@[simp] theorem State.offer_turn : (s.offer t k).turn = s.turn := rfl
@[simp] theorem State.offer_serving : (s.offer t k).serving = s.serving := rfl
@[simp] theorem State.offer_choices : (s.offer t k).choices = s.choices := rfl
@[simp] theorem State.offer_nextPort : (s.offer t k).nextPort = s.nextPort := rfl
@[simp] theorem State.offer_linkA : (s.offer t k).linkA = s.linkA := rfl
@[simp] theorem State.offer_linkB : (s.offer t k).linkB = s.linkB := rfl
@[simp] theorem State.offer_raster : (s.offer t k).raster = s.raster := rfl
@[simp] theorem State.offer_pins : (s.offer t k).pins = s.pins := rfl
@[simp] theorem State.offer_lanes : (s.offer t k).lanes = s.lanes := rfl
@[simp] theorem State.offer_lineBackground : (s.offer t k).lineBackground = s.lineBackground := rfl
@[simp] theorem State.offer_suspensions : (s.offer t k).suspensions = s.suspensions := rfl
@[simp] theorem State.offer_store : (s.offer t k).store = s.store := rfl
@[simp] theorem State.offer_link : (s.offer t k).link q = s.link q := by cases q <;> simp [State.link]
@[simp] theorem State.offer_staging : (s.offer t k).staging q = s.staging q := by cases q <;> simp [State.staging]

end Sys2Proof.Machine
end

