-- ==== Sys2Proof/Laws/ActFrames.lean ====
section
/-! SUPPORT. One lemma for each field that an act of a row leaves alone. -/

namespace Sys2Proof.Machine

variable (s : State) (p q : Port) (h : Handle) (ix : SlotIx) (t : TagIx) (e : TagEntry) (b : Slot) (c : Change)
variable (en : Entry) (tg : PendingTarget) (pt : PendingTurn) (rs : List SlotIx) (ev : RasterEvent) (ln : Nat)
variable (k : Pick)

/-! Freeing a tag changes `mem` only. -/

@[simp] theorem State.freeTag_pending : (s.freeTag t).pending = s.pending := rfl
@[simp] theorem State.freeTag_rstAsserted : (s.freeTag t).rstAsserted = s.rstAsserted := rfl
@[simp] theorem State.freeTag_table : (s.freeTag t).table = s.table := rfl
@[simp] theorem State.freeTag_stagingA : (s.freeTag t).stagingA = s.stagingA := rfl
@[simp] theorem State.freeTag_stagingB : (s.freeTag t).stagingB = s.stagingB := rfl
@[simp] theorem State.freeTag_commitQueue : (s.freeTag t).commitQueue = s.commitQueue := rfl
@[simp] theorem State.freeTag_turn : (s.freeTag t).turn = s.turn := rfl
@[simp] theorem State.freeTag_serving : (s.freeTag t).serving = s.serving := rfl
@[simp] theorem State.freeTag_choices : (s.freeTag t).choices = s.choices := rfl
@[simp] theorem State.freeTag_nextPort : (s.freeTag t).nextPort = s.nextPort := rfl
@[simp] theorem State.freeTag_linkA : (s.freeTag t).linkA = s.linkA := rfl
@[simp] theorem State.freeTag_linkB : (s.freeTag t).linkB = s.linkB := rfl
@[simp] theorem State.freeTag_raster : (s.freeTag t).raster = s.raster := rfl
@[simp] theorem State.freeTag_pins : (s.freeTag t).pins = s.pins := rfl
@[simp] theorem State.freeTag_lanes : (s.freeTag t).lanes = s.lanes := rfl
@[simp] theorem State.freeTag_lineBackground : (s.freeTag t).lineBackground = s.lineBackground := rfl
@[simp] theorem State.freeTag_streams : (s.freeTag t).streams = s.streams := rfl
@[simp] theorem State.freeTag_suspensions : (s.freeTag t).suspensions = s.suspensions := rfl
@[simp] theorem State.freeTag_store : (s.freeTag t).store = s.store := rfl
@[simp] theorem State.freeTag_link : (s.freeTag t).link q = s.link q := by cases q <;> simp [State.link]
@[simp] theorem State.freeTag_staging : (s.freeTag t).staging q = s.staging q := by cases q <;> simp [State.staging]

/-! A timed-out read changes `streams`, `mem`, `linkA`, `linkB` only. -/

theorem State.failTimedOut_frame : s.failTimedOut e =
    { s with streams := (s.failTimedOut e).streams, mem := (s.failTimedOut e).mem, linkA := (s.failTimedOut e).linkA, linkB := (s.failTimedOut e).linkB } := by
  unfold State.failTimedOut; (repeat' split) <;> apply State.ext <;> simp

@[simp] theorem State.failTimedOut_pending : (s.failTimedOut e).pending = s.pending := by
  rw [State.failTimedOut_frame]
@[simp] theorem State.failTimedOut_rstAsserted : (s.failTimedOut e).rstAsserted = s.rstAsserted := by
  rw [State.failTimedOut_frame]
@[simp] theorem State.failTimedOut_table : (s.failTimedOut e).table = s.table := by rw [State.failTimedOut_frame]
@[simp] theorem State.failTimedOut_stagingA : (s.failTimedOut e).stagingA = s.stagingA := by
  rw [State.failTimedOut_frame]
@[simp] theorem State.failTimedOut_stagingB : (s.failTimedOut e).stagingB = s.stagingB := by
  rw [State.failTimedOut_frame]
@[simp] theorem State.failTimedOut_commitQueue : (s.failTimedOut e).commitQueue = s.commitQueue := by
  rw [State.failTimedOut_frame]
@[simp] theorem State.failTimedOut_turn : (s.failTimedOut e).turn = s.turn := by rw [State.failTimedOut_frame]
@[simp] theorem State.failTimedOut_serving : (s.failTimedOut e).serving = s.serving := by
  rw [State.failTimedOut_frame]
@[simp] theorem State.failTimedOut_choices : (s.failTimedOut e).choices = s.choices := by
  rw [State.failTimedOut_frame]
@[simp] theorem State.failTimedOut_nextPort : (s.failTimedOut e).nextPort = s.nextPort := by
  rw [State.failTimedOut_frame]
@[simp] theorem State.failTimedOut_raster : (s.failTimedOut e).raster = s.raster := by rw [State.failTimedOut_frame]
@[simp] theorem State.failTimedOut_pins : (s.failTimedOut e).pins = s.pins := by rw [State.failTimedOut_frame]
@[simp] theorem State.failTimedOut_lanes : (s.failTimedOut e).lanes = s.lanes := by rw [State.failTimedOut_frame]
@[simp] theorem State.failTimedOut_lineBackground : (s.failTimedOut e).lineBackground = s.lineBackground := by
  rw [State.failTimedOut_frame]
@[simp] theorem State.failTimedOut_suspensions : (s.failTimedOut e).suspensions = s.suspensions := by
  rw [State.failTimedOut_frame]
@[simp] theorem State.failTimedOut_store : (s.failTimedOut e).store = s.store := by rw [State.failTimedOut_frame]
@[simp] theorem State.failTimedOut_staging : (s.failTimedOut e).staging q = s.staging q := by
  cases q <;> simp [State.staging]

/-! Quarantining a tag changes `streams`, `mem`, `linkA`, `linkB` only. -/

theorem State.quarantine_frame : s.quarantine t e =
    { s with streams := (s.quarantine t e).streams, mem := (s.quarantine t e).mem, linkA := (s.quarantine t e).linkA, linkB := (s.quarantine t e).linkB } := by
  unfold State.quarantine; (repeat' split) <;> apply State.ext <;> simp

@[simp] theorem State.quarantine_pending : (s.quarantine t e).pending = s.pending := by rw [State.quarantine_frame]
@[simp] theorem State.quarantine_rstAsserted : (s.quarantine t e).rstAsserted = s.rstAsserted := by
  rw [State.quarantine_frame]
@[simp] theorem State.quarantine_table : (s.quarantine t e).table = s.table := by rw [State.quarantine_frame]
@[simp] theorem State.quarantine_stagingA : (s.quarantine t e).stagingA = s.stagingA := by rw [State.quarantine_frame]
@[simp] theorem State.quarantine_stagingB : (s.quarantine t e).stagingB = s.stagingB := by rw [State.quarantine_frame]
@[simp] theorem State.quarantine_commitQueue : (s.quarantine t e).commitQueue = s.commitQueue := by
  rw [State.quarantine_frame]
@[simp] theorem State.quarantine_turn : (s.quarantine t e).turn = s.turn := by rw [State.quarantine_frame]
@[simp] theorem State.quarantine_serving : (s.quarantine t e).serving = s.serving := by rw [State.quarantine_frame]
@[simp] theorem State.quarantine_choices : (s.quarantine t e).choices = s.choices := by rw [State.quarantine_frame]
@[simp] theorem State.quarantine_nextPort : (s.quarantine t e).nextPort = s.nextPort := by rw [State.quarantine_frame]
@[simp] theorem State.quarantine_raster : (s.quarantine t e).raster = s.raster := by rw [State.quarantine_frame]
@[simp] theorem State.quarantine_pins : (s.quarantine t e).pins = s.pins := by rw [State.quarantine_frame]
@[simp] theorem State.quarantine_lanes : (s.quarantine t e).lanes = s.lanes := by rw [State.quarantine_frame]
@[simp] theorem State.quarantine_lineBackground : (s.quarantine t e).lineBackground = s.lineBackground := by
  rw [State.quarantine_frame]
@[simp] theorem State.quarantine_suspensions : (s.quarantine t e).suspensions = s.suspensions := by
  rw [State.quarantine_frame]
@[simp] theorem State.quarantine_store : (s.quarantine t e).store = s.store := by rw [State.quarantine_frame]
@[simp] theorem State.quarantine_staging : (s.quarantine t e).staging q = s.staging q := by
  cases q <;> simp [State.staging]

/-! A tag's timeout changes `streams`, `mem`, `linkA`, `linkB` only. -/

theorem State.timeoutTag_frame : s.timeoutTag t =
    { s with streams := (s.timeoutTag t).streams, mem := (s.timeoutTag t).mem, linkA := (s.timeoutTag t).linkA, linkB := (s.timeoutTag t).linkB } := by
  unfold State.timeoutTag; (repeat' split) <;> apply State.ext <;> simp

@[simp] theorem State.timeoutTag_pending : (s.timeoutTag t).pending = s.pending := by rw [State.timeoutTag_frame]
@[simp] theorem State.timeoutTag_rstAsserted : (s.timeoutTag t).rstAsserted = s.rstAsserted := by
  rw [State.timeoutTag_frame]
@[simp] theorem State.timeoutTag_table : (s.timeoutTag t).table = s.table := by rw [State.timeoutTag_frame]
@[simp] theorem State.timeoutTag_stagingA : (s.timeoutTag t).stagingA = s.stagingA := by rw [State.timeoutTag_frame]
@[simp] theorem State.timeoutTag_stagingB : (s.timeoutTag t).stagingB = s.stagingB := by rw [State.timeoutTag_frame]
@[simp] theorem State.timeoutTag_commitQueue : (s.timeoutTag t).commitQueue = s.commitQueue := by
  rw [State.timeoutTag_frame]
@[simp] theorem State.timeoutTag_turn : (s.timeoutTag t).turn = s.turn := by rw [State.timeoutTag_frame]
@[simp] theorem State.timeoutTag_serving : (s.timeoutTag t).serving = s.serving := by rw [State.timeoutTag_frame]
@[simp] theorem State.timeoutTag_choices : (s.timeoutTag t).choices = s.choices := by rw [State.timeoutTag_frame]
@[simp] theorem State.timeoutTag_nextPort : (s.timeoutTag t).nextPort = s.nextPort := by rw [State.timeoutTag_frame]
@[simp] theorem State.timeoutTag_raster : (s.timeoutTag t).raster = s.raster := by rw [State.timeoutTag_frame]
@[simp] theorem State.timeoutTag_pins : (s.timeoutTag t).pins = s.pins := by rw [State.timeoutTag_frame]
@[simp] theorem State.timeoutTag_lanes : (s.timeoutTag t).lanes = s.lanes := by rw [State.timeoutTag_frame]
@[simp] theorem State.timeoutTag_lineBackground : (s.timeoutTag t).lineBackground = s.lineBackground := by
  rw [State.timeoutTag_frame]
@[simp] theorem State.timeoutTag_suspensions : (s.timeoutTag t).suspensions = s.suspensions := by
  rw [State.timeoutTag_frame]
@[simp] theorem State.timeoutTag_store : (s.timeoutTag t).store = s.store := by rw [State.timeoutTag_frame]
@[simp] theorem State.timeoutTag_staging : (s.timeoutTag t).staging q = s.staging q := by
  cases q <;> simp [State.staging]

/-! An ERROR delivered changes `streams`, `mem`, `linkA`, `linkB` only. -/

theorem State.deliverError_frame : s.deliverError e =
    { s with streams := (s.deliverError e).streams, mem := (s.deliverError e).mem, linkA := (s.deliverError e).linkA, linkB := (s.deliverError e).linkB } := by
  unfold State.deliverError; (repeat' split) <;> apply State.ext <;> simp

@[simp] theorem State.deliverError_pending : (s.deliverError e).pending = s.pending := by
  rw [State.deliverError_frame]
@[simp] theorem State.deliverError_rstAsserted : (s.deliverError e).rstAsserted = s.rstAsserted := by
  rw [State.deliverError_frame]
@[simp] theorem State.deliverError_table : (s.deliverError e).table = s.table := by rw [State.deliverError_frame]
@[simp] theorem State.deliverError_stagingA : (s.deliverError e).stagingA = s.stagingA := by
  rw [State.deliverError_frame]
@[simp] theorem State.deliverError_stagingB : (s.deliverError e).stagingB = s.stagingB := by
  rw [State.deliverError_frame]
@[simp] theorem State.deliverError_commitQueue : (s.deliverError e).commitQueue = s.commitQueue := by
  rw [State.deliverError_frame]
@[simp] theorem State.deliverError_turn : (s.deliverError e).turn = s.turn := by rw [State.deliverError_frame]
@[simp] theorem State.deliverError_serving : (s.deliverError e).serving = s.serving := by
  rw [State.deliverError_frame]
@[simp] theorem State.deliverError_choices : (s.deliverError e).choices = s.choices := by
  rw [State.deliverError_frame]
@[simp] theorem State.deliverError_nextPort : (s.deliverError e).nextPort = s.nextPort := by
  rw [State.deliverError_frame]
@[simp] theorem State.deliverError_raster : (s.deliverError e).raster = s.raster := by rw [State.deliverError_frame]
@[simp] theorem State.deliverError_pins : (s.deliverError e).pins = s.pins := by rw [State.deliverError_frame]
@[simp] theorem State.deliverError_lanes : (s.deliverError e).lanes = s.lanes := by rw [State.deliverError_frame]
@[simp] theorem State.deliverError_lineBackground : (s.deliverError e).lineBackground = s.lineBackground := by
  rw [State.deliverError_frame]
@[simp] theorem State.deliverError_suspensions : (s.deliverError e).suspensions = s.suspensions := by
  rw [State.deliverError_frame]
@[simp] theorem State.deliverError_store : (s.deliverError e).store = s.store := by rw [State.deliverError_frame]
@[simp] theorem State.deliverError_staging : (s.deliverError e).staging q = s.staging q := by
  cases q <;> simp [State.staging]

/-! Signalling a change changes `streams`, `mem`, `lanes`, `linkA`, `linkB` only. -/

theorem State.signal_frame : s.signal ix b c =
    { s with streams := (s.signal ix b c).streams, mem := (s.signal ix b c).mem, lanes := (s.signal ix b c).lanes, linkA := (s.signal ix b c).linkA, linkB := (s.signal ix b c).linkB } := by
  unfold State.signal; split <;> try (apply State.ext <;> simp; done)
  dsimp only; split <;> apply State.ext <;> simp

@[simp] theorem State.signal_pending : (s.signal ix b c).pending = s.pending := by rw [State.signal_frame]
@[simp] theorem State.signal_rstAsserted : (s.signal ix b c).rstAsserted = s.rstAsserted := by rw [State.signal_frame]
@[simp] theorem State.signal_table : (s.signal ix b c).table = s.table := by rw [State.signal_frame]
@[simp] theorem State.signal_stagingA : (s.signal ix b c).stagingA = s.stagingA := by rw [State.signal_frame]
@[simp] theorem State.signal_stagingB : (s.signal ix b c).stagingB = s.stagingB := by rw [State.signal_frame]
@[simp] theorem State.signal_commitQueue : (s.signal ix b c).commitQueue = s.commitQueue := by rw [State.signal_frame]
@[simp] theorem State.signal_turn : (s.signal ix b c).turn = s.turn := by rw [State.signal_frame]
@[simp] theorem State.signal_serving : (s.signal ix b c).serving = s.serving := by rw [State.signal_frame]
@[simp] theorem State.signal_choices : (s.signal ix b c).choices = s.choices := by rw [State.signal_frame]
@[simp] theorem State.signal_nextPort : (s.signal ix b c).nextPort = s.nextPort := by rw [State.signal_frame]
@[simp] theorem State.signal_raster : (s.signal ix b c).raster = s.raster := by rw [State.signal_frame]
@[simp] theorem State.signal_pins : (s.signal ix b c).pins = s.pins := by rw [State.signal_frame]
@[simp] theorem State.signal_lineBackground : (s.signal ix b c).lineBackground = s.lineBackground := by
  rw [State.signal_frame]
@[simp] theorem State.signal_suspensions : (s.signal ix b c).suspensions = s.suspensions := by rw [State.signal_frame]
@[simp] theorem State.signal_store : (s.signal ix b c).store = s.store := by rw [State.signal_frame]
@[simp] theorem State.signal_staging : (s.signal ix b c).staging q = s.staging q := by
  cases q <;> simp [State.staging]

/-! Applying an entry changes `table`, `streams`, `mem`, `lanes`, `linkA`, `linkB` only. -/

theorem State.applyEntry_frame : s.applyEntry en =
    { s with table := (s.applyEntry en).table, streams := (s.applyEntry en).streams, mem := (s.applyEntry en).mem, lanes := (s.applyEntry en).lanes, linkA := (s.applyEntry en).linkA, linkB := (s.applyEntry en).linkB } := by
  unfold State.applyEntry; (repeat' split) <;> apply State.ext <;> simp

@[simp] theorem State.applyEntry_pending : (s.applyEntry en).pending = s.pending := by rw [State.applyEntry_frame]
@[simp] theorem State.applyEntry_rstAsserted : (s.applyEntry en).rstAsserted = s.rstAsserted := by
  rw [State.applyEntry_frame]
@[simp] theorem State.applyEntry_stagingA : (s.applyEntry en).stagingA = s.stagingA := by rw [State.applyEntry_frame]
@[simp] theorem State.applyEntry_stagingB : (s.applyEntry en).stagingB = s.stagingB := by rw [State.applyEntry_frame]
@[simp] theorem State.applyEntry_commitQueue : (s.applyEntry en).commitQueue = s.commitQueue := by
  rw [State.applyEntry_frame]
@[simp] theorem State.applyEntry_turn : (s.applyEntry en).turn = s.turn := by rw [State.applyEntry_frame]
@[simp] theorem State.applyEntry_serving : (s.applyEntry en).serving = s.serving := by rw [State.applyEntry_frame]
@[simp] theorem State.applyEntry_choices : (s.applyEntry en).choices = s.choices := by rw [State.applyEntry_frame]
@[simp] theorem State.applyEntry_nextPort : (s.applyEntry en).nextPort = s.nextPort := by rw [State.applyEntry_frame]
@[simp] theorem State.applyEntry_raster : (s.applyEntry en).raster = s.raster := by rw [State.applyEntry_frame]
@[simp] theorem State.applyEntry_pins : (s.applyEntry en).pins = s.pins := by rw [State.applyEntry_frame]
@[simp] theorem State.applyEntry_lineBackground : (s.applyEntry en).lineBackground = s.lineBackground := by
  rw [State.applyEntry_frame]
@[simp] theorem State.applyEntry_suspensions : (s.applyEntry en).suspensions = s.suspensions := by
  rw [State.applyEntry_frame]
@[simp] theorem State.applyEntry_store : (s.applyEntry en).store = s.store := by rw [State.applyEntry_frame]
@[simp] theorem State.applyEntry_staging : (s.applyEntry en).staging q = s.staging q := by
  cases q <;> simp [State.staging]

/-! Discarding an open batch changes `table`, `stagingA`, `stagingB` only. -/

theorem State.discardOpen_frame : s.discardOpen p =
    { s with table := (s.discardOpen p).table, stagingA := (s.discardOpen p).stagingA, stagingB := (s.discardOpen p).stagingB } := by cases p <;> rfl

@[simp] theorem State.discardOpen_pending : (s.discardOpen p).pending = s.pending := by rw [State.discardOpen_frame]
@[simp] theorem State.discardOpen_rstAsserted : (s.discardOpen p).rstAsserted = s.rstAsserted := by
  rw [State.discardOpen_frame]
@[simp] theorem State.discardOpen_commitQueue : (s.discardOpen p).commitQueue = s.commitQueue := by
  rw [State.discardOpen_frame]
@[simp] theorem State.discardOpen_turn : (s.discardOpen p).turn = s.turn := by rw [State.discardOpen_frame]
@[simp] theorem State.discardOpen_serving : (s.discardOpen p).serving = s.serving := by rw [State.discardOpen_frame]
@[simp] theorem State.discardOpen_choices : (s.discardOpen p).choices = s.choices := by rw [State.discardOpen_frame]
@[simp] theorem State.discardOpen_nextPort : (s.discardOpen p).nextPort = s.nextPort := by
  rw [State.discardOpen_frame]
@[simp] theorem State.discardOpen_linkA : (s.discardOpen p).linkA = s.linkA := by rw [State.discardOpen_frame]
@[simp] theorem State.discardOpen_linkB : (s.discardOpen p).linkB = s.linkB := by rw [State.discardOpen_frame]
@[simp] theorem State.discardOpen_raster : (s.discardOpen p).raster = s.raster := by rw [State.discardOpen_frame]
@[simp] theorem State.discardOpen_pins : (s.discardOpen p).pins = s.pins := by rw [State.discardOpen_frame]
@[simp] theorem State.discardOpen_lanes : (s.discardOpen p).lanes = s.lanes := by rw [State.discardOpen_frame]
@[simp] theorem State.discardOpen_lineBackground : (s.discardOpen p).lineBackground = s.lineBackground := by
  rw [State.discardOpen_frame]
@[simp] theorem State.discardOpen_streams : (s.discardOpen p).streams = s.streams := by rw [State.discardOpen_frame]
@[simp] theorem State.discardOpen_suspensions : (s.discardOpen p).suspensions = s.suspensions := by
  rw [State.discardOpen_frame]
@[simp] theorem State.discardOpen_store : (s.discardOpen p).store = s.store := by rw [State.discardOpen_frame]
@[simp] theorem State.discardOpen_mem : (s.discardOpen p).mem = s.mem := by rw [State.discardOpen_frame]
@[simp] theorem State.discardOpen_link : (s.discardOpen p).link q = s.link q := by cases q <;> simp [State.link]

/-! Staging an entry changes `stagingA`, `stagingB` only. -/

theorem State.appendEntry_frame : s.appendEntry p en =
    { s with stagingA := (s.appendEntry p en).stagingA, stagingB := (s.appendEntry p en).stagingB } := by cases p <;> rfl

@[simp] theorem State.appendEntry_pending : (s.appendEntry p en).pending = s.pending := by
  rw [State.appendEntry_frame]
@[simp] theorem State.appendEntry_rstAsserted : (s.appendEntry p en).rstAsserted = s.rstAsserted := by
  rw [State.appendEntry_frame]
@[simp] theorem State.appendEntry_table : (s.appendEntry p en).table = s.table := by rw [State.appendEntry_frame]
@[simp] theorem State.appendEntry_commitQueue : (s.appendEntry p en).commitQueue = s.commitQueue := by
  rw [State.appendEntry_frame]
@[simp] theorem State.appendEntry_turn : (s.appendEntry p en).turn = s.turn := by rw [State.appendEntry_frame]
@[simp] theorem State.appendEntry_serving : (s.appendEntry p en).serving = s.serving := by
  rw [State.appendEntry_frame]
@[simp] theorem State.appendEntry_choices : (s.appendEntry p en).choices = s.choices := by
  rw [State.appendEntry_frame]
@[simp] theorem State.appendEntry_nextPort : (s.appendEntry p en).nextPort = s.nextPort := by
  rw [State.appendEntry_frame]
@[simp] theorem State.appendEntry_linkA : (s.appendEntry p en).linkA = s.linkA := by rw [State.appendEntry_frame]
@[simp] theorem State.appendEntry_linkB : (s.appendEntry p en).linkB = s.linkB := by rw [State.appendEntry_frame]
@[simp] theorem State.appendEntry_raster : (s.appendEntry p en).raster = s.raster := by rw [State.appendEntry_frame]
@[simp] theorem State.appendEntry_pins : (s.appendEntry p en).pins = s.pins := by rw [State.appendEntry_frame]
@[simp] theorem State.appendEntry_lanes : (s.appendEntry p en).lanes = s.lanes := by rw [State.appendEntry_frame]
@[simp] theorem State.appendEntry_lineBackground : (s.appendEntry p en).lineBackground = s.lineBackground := by
  rw [State.appendEntry_frame]
@[simp] theorem State.appendEntry_streams : (s.appendEntry p en).streams = s.streams := by
  rw [State.appendEntry_frame]
@[simp] theorem State.appendEntry_suspensions : (s.appendEntry p en).suspensions = s.suspensions := by
  rw [State.appendEntry_frame]
@[simp] theorem State.appendEntry_store : (s.appendEntry p en).store = s.store := by rw [State.appendEntry_frame]
@[simp] theorem State.appendEntry_mem : (s.appendEntry p en).mem = s.mem := by rw [State.appendEntry_frame]
@[simp] theorem State.appendEntry_link : (s.appendEntry p en).link q = s.link q := by cases q <;> simp [State.link]

/-! Reserving a slot changes `table` only. -/

@[simp] theorem State.reserve_pending : (s.reserve p ix).pending = s.pending := rfl
@[simp] theorem State.reserve_rstAsserted : (s.reserve p ix).rstAsserted = s.rstAsserted := rfl
@[simp] theorem State.reserve_stagingA : (s.reserve p ix).stagingA = s.stagingA := rfl
@[simp] theorem State.reserve_stagingB : (s.reserve p ix).stagingB = s.stagingB := rfl
@[simp] theorem State.reserve_commitQueue : (s.reserve p ix).commitQueue = s.commitQueue := rfl
@[simp] theorem State.reserve_turn : (s.reserve p ix).turn = s.turn := rfl
@[simp] theorem State.reserve_serving : (s.reserve p ix).serving = s.serving := rfl
@[simp] theorem State.reserve_choices : (s.reserve p ix).choices = s.choices := rfl
@[simp] theorem State.reserve_nextPort : (s.reserve p ix).nextPort = s.nextPort := rfl
@[simp] theorem State.reserve_linkA : (s.reserve p ix).linkA = s.linkA := rfl
@[simp] theorem State.reserve_linkB : (s.reserve p ix).linkB = s.linkB := rfl
@[simp] theorem State.reserve_raster : (s.reserve p ix).raster = s.raster := rfl
@[simp] theorem State.reserve_pins : (s.reserve p ix).pins = s.pins := rfl
@[simp] theorem State.reserve_lanes : (s.reserve p ix).lanes = s.lanes := rfl
@[simp] theorem State.reserve_lineBackground : (s.reserve p ix).lineBackground = s.lineBackground := rfl
@[simp] theorem State.reserve_streams : (s.reserve p ix).streams = s.streams := rfl
@[simp] theorem State.reserve_suspensions : (s.reserve p ix).suspensions = s.suspensions := rfl
@[simp] theorem State.reserve_store : (s.reserve p ix).store = s.store := rfl
@[simp] theorem State.reserve_mem : (s.reserve p ix).mem = s.mem := rfl
@[simp] theorem State.reserve_link : (s.reserve p ix).link q = s.link q := by cases q <;> simp [State.link]
@[simp] theorem State.reserve_staging : (s.reserve p ix).staging q = s.staging q := by
  cases q <;> simp [State.staging]

/-! Queueing a batch changes `table`, `commitQueue`, `stagingA`, `stagingB` only. -/

theorem State.enqueue_frame : s.enqueue p =
    { s with table := (s.enqueue p).table, commitQueue := (s.enqueue p).commitQueue, stagingA := (s.enqueue p).stagingA, stagingB := (s.enqueue p).stagingB } := by cases p <;> rfl

@[simp] theorem State.enqueue_pending : (s.enqueue p).pending = s.pending := by rw [State.enqueue_frame]
@[simp] theorem State.enqueue_rstAsserted : (s.enqueue p).rstAsserted = s.rstAsserted := by rw [State.enqueue_frame]
@[simp] theorem State.enqueue_turn : (s.enqueue p).turn = s.turn := by rw [State.enqueue_frame]
@[simp] theorem State.enqueue_serving : (s.enqueue p).serving = s.serving := by rw [State.enqueue_frame]
@[simp] theorem State.enqueue_choices : (s.enqueue p).choices = s.choices := by rw [State.enqueue_frame]
@[simp] theorem State.enqueue_nextPort : (s.enqueue p).nextPort = s.nextPort := by rw [State.enqueue_frame]
@[simp] theorem State.enqueue_linkA : (s.enqueue p).linkA = s.linkA := by rw [State.enqueue_frame]
@[simp] theorem State.enqueue_linkB : (s.enqueue p).linkB = s.linkB := by rw [State.enqueue_frame]
@[simp] theorem State.enqueue_raster : (s.enqueue p).raster = s.raster := by rw [State.enqueue_frame]
@[simp] theorem State.enqueue_pins : (s.enqueue p).pins = s.pins := by rw [State.enqueue_frame]
@[simp] theorem State.enqueue_lanes : (s.enqueue p).lanes = s.lanes := by rw [State.enqueue_frame]
@[simp] theorem State.enqueue_lineBackground : (s.enqueue p).lineBackground = s.lineBackground := by
  rw [State.enqueue_frame]
@[simp] theorem State.enqueue_streams : (s.enqueue p).streams = s.streams := by rw [State.enqueue_frame]
@[simp] theorem State.enqueue_suspensions : (s.enqueue p).suspensions = s.suspensions := by rw [State.enqueue_frame]
@[simp] theorem State.enqueue_store : (s.enqueue p).store = s.store := by rw [State.enqueue_frame]
@[simp] theorem State.enqueue_mem : (s.enqueue p).mem = s.mem := by rw [State.enqueue_frame]
@[simp] theorem State.enqueue_link : (s.enqueue p).link q = s.link q := by cases q <;> simp [State.link]

/-! Driving the pins changes `pins` only. -/

@[simp] theorem State.pinsDriven_pending : (s.pinsDriven).pending = s.pending := rfl
@[simp] theorem State.pinsDriven_rstAsserted : (s.pinsDriven).rstAsserted = s.rstAsserted := rfl
@[simp] theorem State.pinsDriven_table : (s.pinsDriven).table = s.table := rfl
@[simp] theorem State.pinsDriven_stagingA : (s.pinsDriven).stagingA = s.stagingA := rfl
@[simp] theorem State.pinsDriven_stagingB : (s.pinsDriven).stagingB = s.stagingB := rfl
@[simp] theorem State.pinsDriven_commitQueue : (s.pinsDriven).commitQueue = s.commitQueue := rfl
@[simp] theorem State.pinsDriven_turn : (s.pinsDriven).turn = s.turn := rfl
@[simp] theorem State.pinsDriven_serving : (s.pinsDriven).serving = s.serving := rfl
@[simp] theorem State.pinsDriven_choices : (s.pinsDriven).choices = s.choices := rfl
@[simp] theorem State.pinsDriven_nextPort : (s.pinsDriven).nextPort = s.nextPort := rfl
@[simp] theorem State.pinsDriven_linkA : (s.pinsDriven).linkA = s.linkA := rfl
@[simp] theorem State.pinsDriven_linkB : (s.pinsDriven).linkB = s.linkB := rfl
@[simp] theorem State.pinsDriven_raster : (s.pinsDriven).raster = s.raster := rfl
@[simp] theorem State.pinsDriven_lanes : (s.pinsDriven).lanes = s.lanes := rfl
@[simp] theorem State.pinsDriven_lineBackground : (s.pinsDriven).lineBackground = s.lineBackground := rfl
@[simp] theorem State.pinsDriven_streams : (s.pinsDriven).streams = s.streams := rfl
@[simp] theorem State.pinsDriven_suspensions : (s.pinsDriven).suspensions = s.suspensions := rfl
@[simp] theorem State.pinsDriven_store : (s.pinsDriven).store = s.store := rfl
@[simp] theorem State.pinsDriven_mem : (s.pinsDriven).mem = s.mem := rfl
@[simp] theorem State.pinsDriven_link : (s.pinsDriven).link q = s.link q := by cases q <;> simp [State.link]
@[simp] theorem State.pinsDriven_staging : (s.pinsDriven).staging q = s.staging q := by
  cases q <;> simp [State.staging]

/-! Starting the output changes `raster`, `pins`, `linkA`, `linkB` only. -/

@[simp] theorem State.startOutput_pending : (s.startOutput).pending = s.pending := rfl
@[simp] theorem State.startOutput_rstAsserted : (s.startOutput).rstAsserted = s.rstAsserted := rfl
@[simp] theorem State.startOutput_table : (s.startOutput).table = s.table := rfl
@[simp] theorem State.startOutput_stagingA : (s.startOutput).stagingA = s.stagingA := rfl
@[simp] theorem State.startOutput_stagingB : (s.startOutput).stagingB = s.stagingB := rfl
@[simp] theorem State.startOutput_commitQueue : (s.startOutput).commitQueue = s.commitQueue := rfl
@[simp] theorem State.startOutput_turn : (s.startOutput).turn = s.turn := rfl
@[simp] theorem State.startOutput_serving : (s.startOutput).serving = s.serving := rfl
@[simp] theorem State.startOutput_choices : (s.startOutput).choices = s.choices := rfl
@[simp] theorem State.startOutput_nextPort : (s.startOutput).nextPort = s.nextPort := rfl
@[simp] theorem State.startOutput_lanes : (s.startOutput).lanes = s.lanes := rfl
@[simp] theorem State.startOutput_lineBackground : (s.startOutput).lineBackground = s.lineBackground := rfl
@[simp] theorem State.startOutput_streams : (s.startOutput).streams = s.streams := rfl
@[simp] theorem State.startOutput_suspensions : (s.startOutput).suspensions = s.suspensions := rfl
@[simp] theorem State.startOutput_store : (s.startOutput).store = s.store := rfl
@[simp] theorem State.startOutput_mem : (s.startOutput).mem = s.mem := rfl
@[simp] theorem State.startOutput_staging : (s.startOutput).staging q = s.staging q := by
  cases q <;> simp [State.staging]

/-! Signalling a frame turn changes `raster`, `turn` only. -/

@[simp] theorem State.signalTurn_pending : (s.signalTurn).pending = s.pending := rfl
@[simp] theorem State.signalTurn_rstAsserted : (s.signalTurn).rstAsserted = s.rstAsserted := rfl
@[simp] theorem State.signalTurn_table : (s.signalTurn).table = s.table := rfl
@[simp] theorem State.signalTurn_stagingA : (s.signalTurn).stagingA = s.stagingA := rfl
@[simp] theorem State.signalTurn_stagingB : (s.signalTurn).stagingB = s.stagingB := rfl
@[simp] theorem State.signalTurn_commitQueue : (s.signalTurn).commitQueue = s.commitQueue := rfl
@[simp] theorem State.signalTurn_serving : (s.signalTurn).serving = s.serving := rfl
@[simp] theorem State.signalTurn_choices : (s.signalTurn).choices = s.choices := rfl
@[simp] theorem State.signalTurn_nextPort : (s.signalTurn).nextPort = s.nextPort := rfl
@[simp] theorem State.signalTurn_linkA : (s.signalTurn).linkA = s.linkA := rfl
@[simp] theorem State.signalTurn_linkB : (s.signalTurn).linkB = s.linkB := rfl
@[simp] theorem State.signalTurn_pins : (s.signalTurn).pins = s.pins := rfl
@[simp] theorem State.signalTurn_lanes : (s.signalTurn).lanes = s.lanes := rfl
@[simp] theorem State.signalTurn_lineBackground : (s.signalTurn).lineBackground = s.lineBackground := rfl
@[simp] theorem State.signalTurn_streams : (s.signalTurn).streams = s.streams := rfl
@[simp] theorem State.signalTurn_suspensions : (s.signalTurn).suspensions = s.suspensions := rfl
@[simp] theorem State.signalTurn_store : (s.signalTurn).store = s.store := rfl
@[simp] theorem State.signalTurn_mem : (s.signalTurn).mem = s.mem := rfl
@[simp] theorem State.signalTurn_link : (s.signalTurn).link q = s.link q := by cases q <;> simp [State.link]
@[simp] theorem State.signalTurn_staging : (s.signalTurn).staging q = s.staging q := by
  cases q <;> simp [State.staging]

/-! A raster position's being reached changes `raster`, `serving`, `choices`, `nextPort`, `linkA`, `linkB` only. -/

theorem State.reached_frame : s.reached =
    { s with raster := (s.reached).raster, serving := (s.reached).serving, choices := (s.reached).choices, nextPort := (s.reached).nextPort, linkA := (s.reached).linkA, linkB := (s.reached).linkB } := by
  unfold State.reached; (repeat' split) <;> apply State.ext <;> simp

@[simp] theorem State.reached_pending : (s.reached).pending = s.pending := by rw [State.reached_frame]
@[simp] theorem State.reached_rstAsserted : (s.reached).rstAsserted = s.rstAsserted := by rw [State.reached_frame]
@[simp] theorem State.reached_table : (s.reached).table = s.table := by rw [State.reached_frame]
@[simp] theorem State.reached_stagingA : (s.reached).stagingA = s.stagingA := by rw [State.reached_frame]
@[simp] theorem State.reached_stagingB : (s.reached).stagingB = s.stagingB := by rw [State.reached_frame]
@[simp] theorem State.reached_commitQueue : (s.reached).commitQueue = s.commitQueue := by rw [State.reached_frame]
@[simp] theorem State.reached_turn : (s.reached).turn = s.turn := by rw [State.reached_frame]
@[simp] theorem State.reached_pins : (s.reached).pins = s.pins := by rw [State.reached_frame]
@[simp] theorem State.reached_lanes : (s.reached).lanes = s.lanes := by rw [State.reached_frame]
@[simp] theorem State.reached_lineBackground : (s.reached).lineBackground = s.lineBackground := by
  rw [State.reached_frame]
@[simp] theorem State.reached_streams : (s.reached).streams = s.streams := by rw [State.reached_frame]
@[simp] theorem State.reached_suspensions : (s.reached).suspensions = s.suspensions := by rw [State.reached_frame]
@[simp] theorem State.reached_store : (s.reached).store = s.store := by rw [State.reached_frame]
@[simp] theorem State.reached_mem : (s.reached).mem = s.mem := by rw [State.reached_frame]
@[simp] theorem State.reached_staging : (s.reached).staging q = s.staging q := by cases q <;> simp [State.staging]

/-! Entering OFF changes `raster`, `pins`, `lanes` only. -/

@[simp] theorem State.enterOff_pending : (s.enterOff).pending = s.pending := rfl
@[simp] theorem State.enterOff_rstAsserted : (s.enterOff).rstAsserted = s.rstAsserted := rfl
@[simp] theorem State.enterOff_table : (s.enterOff).table = s.table := rfl
@[simp] theorem State.enterOff_stagingA : (s.enterOff).stagingA = s.stagingA := rfl
@[simp] theorem State.enterOff_stagingB : (s.enterOff).stagingB = s.stagingB := rfl
@[simp] theorem State.enterOff_commitQueue : (s.enterOff).commitQueue = s.commitQueue := rfl
@[simp] theorem State.enterOff_turn : (s.enterOff).turn = s.turn := rfl
@[simp] theorem State.enterOff_serving : (s.enterOff).serving = s.serving := rfl
@[simp] theorem State.enterOff_choices : (s.enterOff).choices = s.choices := rfl
@[simp] theorem State.enterOff_nextPort : (s.enterOff).nextPort = s.nextPort := rfl
@[simp] theorem State.enterOff_linkA : (s.enterOff).linkA = s.linkA := rfl
@[simp] theorem State.enterOff_linkB : (s.enterOff).linkB = s.linkB := rfl
@[simp] theorem State.enterOff_lineBackground : (s.enterOff).lineBackground = s.lineBackground := rfl
@[simp] theorem State.enterOff_streams : (s.enterOff).streams = s.streams := rfl
@[simp] theorem State.enterOff_suspensions : (s.enterOff).suspensions = s.suspensions := rfl
@[simp] theorem State.enterOff_store : (s.enterOff).store = s.store := rfl
@[simp] theorem State.enterOff_mem : (s.enterOff).mem = s.mem := rfl
@[simp] theorem State.enterOff_link : (s.enterOff).link q = s.link q := by cases q <;> simp [State.link]
@[simp] theorem State.enterOff_staging : (s.enterOff).staging q = s.staging q := by cases q <;> simp [State.staging]

/-! RESET_FETCH's act changes `mem`, `streams`, `lanes` only. -/

@[simp] theorem State.resetFetch_pending : (s.resetFetch).pending = s.pending := rfl
@[simp] theorem State.resetFetch_rstAsserted : (s.resetFetch).rstAsserted = s.rstAsserted := rfl
@[simp] theorem State.resetFetch_table : (s.resetFetch).table = s.table := rfl
@[simp] theorem State.resetFetch_stagingA : (s.resetFetch).stagingA = s.stagingA := rfl
@[simp] theorem State.resetFetch_stagingB : (s.resetFetch).stagingB = s.stagingB := rfl
@[simp] theorem State.resetFetch_commitQueue : (s.resetFetch).commitQueue = s.commitQueue := rfl
@[simp] theorem State.resetFetch_turn : (s.resetFetch).turn = s.turn := rfl
@[simp] theorem State.resetFetch_serving : (s.resetFetch).serving = s.serving := rfl
@[simp] theorem State.resetFetch_choices : (s.resetFetch).choices = s.choices := rfl
@[simp] theorem State.resetFetch_nextPort : (s.resetFetch).nextPort = s.nextPort := rfl
@[simp] theorem State.resetFetch_linkA : (s.resetFetch).linkA = s.linkA := rfl
@[simp] theorem State.resetFetch_linkB : (s.resetFetch).linkB = s.linkB := rfl
@[simp] theorem State.resetFetch_raster : (s.resetFetch).raster = s.raster := rfl
@[simp] theorem State.resetFetch_pins : (s.resetFetch).pins = s.pins := rfl
@[simp] theorem State.resetFetch_lineBackground : (s.resetFetch).lineBackground = s.lineBackground := rfl
@[simp] theorem State.resetFetch_suspensions : (s.resetFetch).suspensions = s.suspensions := rfl
@[simp] theorem State.resetFetch_store : (s.resetFetch).store = s.store := rfl
@[simp] theorem State.resetFetch_link : (s.resetFetch).link q = s.link q := by cases q <;> simp [State.link]
@[simp] theorem State.resetFetch_staging : (s.resetFetch).staging q = s.staging q := by
  cases q <;> simp [State.staging]

/-! Dropping a request changes `suspensions`, `turn` only. -/

@[simp] theorem State.dropRequest_pending : (s.dropRequest).pending = s.pending := rfl
@[simp] theorem State.dropRequest_rstAsserted : (s.dropRequest).rstAsserted = s.rstAsserted := rfl
@[simp] theorem State.dropRequest_table : (s.dropRequest).table = s.table := rfl
@[simp] theorem State.dropRequest_stagingA : (s.dropRequest).stagingA = s.stagingA := rfl
@[simp] theorem State.dropRequest_stagingB : (s.dropRequest).stagingB = s.stagingB := rfl
@[simp] theorem State.dropRequest_commitQueue : (s.dropRequest).commitQueue = s.commitQueue := rfl
@[simp] theorem State.dropRequest_serving : (s.dropRequest).serving = s.serving := rfl
@[simp] theorem State.dropRequest_choices : (s.dropRequest).choices = s.choices := rfl
@[simp] theorem State.dropRequest_nextPort : (s.dropRequest).nextPort = s.nextPort := rfl
@[simp] theorem State.dropRequest_linkA : (s.dropRequest).linkA = s.linkA := rfl
@[simp] theorem State.dropRequest_linkB : (s.dropRequest).linkB = s.linkB := rfl
@[simp] theorem State.dropRequest_raster : (s.dropRequest).raster = s.raster := rfl
@[simp] theorem State.dropRequest_pins : (s.dropRequest).pins = s.pins := rfl
@[simp] theorem State.dropRequest_lanes : (s.dropRequest).lanes = s.lanes := rfl
@[simp] theorem State.dropRequest_lineBackground : (s.dropRequest).lineBackground = s.lineBackground := rfl
@[simp] theorem State.dropRequest_streams : (s.dropRequest).streams = s.streams := rfl
@[simp] theorem State.dropRequest_store : (s.dropRequest).store = s.store := rfl
@[simp] theorem State.dropRequest_mem : (s.dropRequest).mem = s.mem := rfl
@[simp] theorem State.dropRequest_link : (s.dropRequest).link q = s.link q := by cases q <;> simp [State.link]
@[simp] theorem State.dropRequest_staging : (s.dropRequest).staging q = s.staging q := by
  cases q <;> simp [State.staging]

/-! Suspending a window changes `table`, `streams`, `mem`, `lanes`, `linkA`, `linkB` only. -/

theorem State.suspend_frame : s.suspend h =
    { s with table := (s.suspend h).table, streams := (s.suspend h).streams, mem := (s.suspend h).mem, lanes := (s.suspend h).lanes, linkA := (s.suspend h).linkA, linkB := (s.suspend h).linkB } := by
  unfold State.suspend; (repeat' split) <;> apply State.ext <;> simp

@[simp] theorem State.suspend_pending : (s.suspend h).pending = s.pending := by rw [State.suspend_frame]
@[simp] theorem State.suspend_rstAsserted : (s.suspend h).rstAsserted = s.rstAsserted := by rw [State.suspend_frame]
@[simp] theorem State.suspend_stagingA : (s.suspend h).stagingA = s.stagingA := by rw [State.suspend_frame]
@[simp] theorem State.suspend_stagingB : (s.suspend h).stagingB = s.stagingB := by rw [State.suspend_frame]
@[simp] theorem State.suspend_commitQueue : (s.suspend h).commitQueue = s.commitQueue := by rw [State.suspend_frame]
@[simp] theorem State.suspend_turn : (s.suspend h).turn = s.turn := by rw [State.suspend_frame]
@[simp] theorem State.suspend_serving : (s.suspend h).serving = s.serving := by rw [State.suspend_frame]
@[simp] theorem State.suspend_choices : (s.suspend h).choices = s.choices := by rw [State.suspend_frame]
@[simp] theorem State.suspend_nextPort : (s.suspend h).nextPort = s.nextPort := by rw [State.suspend_frame]
@[simp] theorem State.suspend_raster : (s.suspend h).raster = s.raster := by rw [State.suspend_frame]
@[simp] theorem State.suspend_pins : (s.suspend h).pins = s.pins := by rw [State.suspend_frame]
@[simp] theorem State.suspend_lineBackground : (s.suspend h).lineBackground = s.lineBackground := by
  rw [State.suspend_frame]
@[simp] theorem State.suspend_suspensions : (s.suspend h).suspensions = s.suspensions := by rw [State.suspend_frame]
@[simp] theorem State.suspend_store : (s.suspend h).store = s.store := by rw [State.suspend_frame]
@[simp] theorem State.suspend_staging : (s.suspend h).staging q = s.staging q := by cases q <;> simp [State.staging]

/-! Posting a turn's OUTPUT changes `linkA`, `linkB` only. -/

theorem State.postTurn_frame : s.postTurn pt =
    { s with linkA := (s.postTurn pt).linkA, linkB := (s.postTurn pt).linkB } := by
  unfold State.postTurn; (repeat' split) <;> apply State.ext <;> simp

@[simp] theorem State.postTurn_pending : (s.postTurn pt).pending = s.pending := by rw [State.postTurn_frame]
@[simp] theorem State.postTurn_rstAsserted : (s.postTurn pt).rstAsserted = s.rstAsserted := by
  rw [State.postTurn_frame]
@[simp] theorem State.postTurn_table : (s.postTurn pt).table = s.table := by rw [State.postTurn_frame]
@[simp] theorem State.postTurn_stagingA : (s.postTurn pt).stagingA = s.stagingA := by rw [State.postTurn_frame]
@[simp] theorem State.postTurn_stagingB : (s.postTurn pt).stagingB = s.stagingB := by rw [State.postTurn_frame]
@[simp] theorem State.postTurn_commitQueue : (s.postTurn pt).commitQueue = s.commitQueue := by
  rw [State.postTurn_frame]
@[simp] theorem State.postTurn_turn : (s.postTurn pt).turn = s.turn := by rw [State.postTurn_frame]
@[simp] theorem State.postTurn_serving : (s.postTurn pt).serving = s.serving := by rw [State.postTurn_frame]
@[simp] theorem State.postTurn_choices : (s.postTurn pt).choices = s.choices := by rw [State.postTurn_frame]
@[simp] theorem State.postTurn_nextPort : (s.postTurn pt).nextPort = s.nextPort := by rw [State.postTurn_frame]
@[simp] theorem State.postTurn_raster : (s.postTurn pt).raster = s.raster := by rw [State.postTurn_frame]
@[simp] theorem State.postTurn_pins : (s.postTurn pt).pins = s.pins := by rw [State.postTurn_frame]
@[simp] theorem State.postTurn_lanes : (s.postTurn pt).lanes = s.lanes := by rw [State.postTurn_frame]
@[simp] theorem State.postTurn_lineBackground : (s.postTurn pt).lineBackground = s.lineBackground := by
  rw [State.postTurn_frame]
@[simp] theorem State.postTurn_streams : (s.postTurn pt).streams = s.streams := by rw [State.postTurn_frame]
@[simp] theorem State.postTurn_suspensions : (s.postTurn pt).suspensions = s.suspensions := by
  rw [State.postTurn_frame]
@[simp] theorem State.postTurn_store : (s.postTurn pt).store = s.store := by rw [State.postTurn_frame]
@[simp] theorem State.postTurn_mem : (s.postTurn pt).mem = s.mem := by rw [State.postTurn_frame]
@[simp] theorem State.postTurn_staging : (s.postTurn pt).staging q = s.staging q := by
  cases q <;> simp [State.staging]

/-! Closing a turn changes `streams`, `mem`, `lanes` only. -/

theorem State.closeTurn_frame : s.closeTurn pt rs =
    { s with streams := (s.closeTurn pt rs).streams, mem := (s.closeTurn pt rs).mem, lanes := (s.closeTurn pt rs).lanes } := by
  unfold State.closeTurn; (repeat' split) <;> apply State.ext <;> simp

@[simp] theorem State.closeTurn_pending : (s.closeTurn pt rs).pending = s.pending := by rw [State.closeTurn_frame]
@[simp] theorem State.closeTurn_rstAsserted : (s.closeTurn pt rs).rstAsserted = s.rstAsserted := by
  rw [State.closeTurn_frame]
@[simp] theorem State.closeTurn_table : (s.closeTurn pt rs).table = s.table := by rw [State.closeTurn_frame]
@[simp] theorem State.closeTurn_stagingA : (s.closeTurn pt rs).stagingA = s.stagingA := by rw [State.closeTurn_frame]
@[simp] theorem State.closeTurn_stagingB : (s.closeTurn pt rs).stagingB = s.stagingB := by rw [State.closeTurn_frame]
@[simp] theorem State.closeTurn_commitQueue : (s.closeTurn pt rs).commitQueue = s.commitQueue := by
  rw [State.closeTurn_frame]
@[simp] theorem State.closeTurn_turn : (s.closeTurn pt rs).turn = s.turn := by rw [State.closeTurn_frame]
@[simp] theorem State.closeTurn_serving : (s.closeTurn pt rs).serving = s.serving := by rw [State.closeTurn_frame]
@[simp] theorem State.closeTurn_choices : (s.closeTurn pt rs).choices = s.choices := by rw [State.closeTurn_frame]
@[simp] theorem State.closeTurn_nextPort : (s.closeTurn pt rs).nextPort = s.nextPort := by rw [State.closeTurn_frame]
@[simp] theorem State.closeTurn_linkA : (s.closeTurn pt rs).linkA = s.linkA := by rw [State.closeTurn_frame]
@[simp] theorem State.closeTurn_linkB : (s.closeTurn pt rs).linkB = s.linkB := by rw [State.closeTurn_frame]
@[simp] theorem State.closeTurn_raster : (s.closeTurn pt rs).raster = s.raster := by rw [State.closeTurn_frame]
@[simp] theorem State.closeTurn_pins : (s.closeTurn pt rs).pins = s.pins := by rw [State.closeTurn_frame]
@[simp] theorem State.closeTurn_lineBackground : (s.closeTurn pt rs).lineBackground = s.lineBackground := by
  rw [State.closeTurn_frame]
@[simp] theorem State.closeTurn_suspensions : (s.closeTurn pt rs).suspensions = s.suspensions := by
  rw [State.closeTurn_frame]
@[simp] theorem State.closeTurn_store : (s.closeTurn pt rs).store = s.store := by rw [State.closeTurn_frame]
@[simp] theorem State.closeTurn_link : (s.closeTurn pt rs).link q = s.link q := by cases q <;> simp [State.link]
@[simp] theorem State.closeTurn_staging : (s.closeTurn pt rs).staging q = s.staging q := by
  cases q <;> simp [State.staging]

/-! Taking an event changes `raster` only. -/

@[simp] theorem State.tookEvent_pending : (s.tookEvent ev).pending = s.pending := rfl
@[simp] theorem State.tookEvent_rstAsserted : (s.tookEvent ev).rstAsserted = s.rstAsserted := rfl
@[simp] theorem State.tookEvent_table : (s.tookEvent ev).table = s.table := rfl
@[simp] theorem State.tookEvent_stagingA : (s.tookEvent ev).stagingA = s.stagingA := rfl
@[simp] theorem State.tookEvent_stagingB : (s.tookEvent ev).stagingB = s.stagingB := rfl
@[simp] theorem State.tookEvent_commitQueue : (s.tookEvent ev).commitQueue = s.commitQueue := rfl
@[simp] theorem State.tookEvent_turn : (s.tookEvent ev).turn = s.turn := rfl
@[simp] theorem State.tookEvent_serving : (s.tookEvent ev).serving = s.serving := rfl
@[simp] theorem State.tookEvent_choices : (s.tookEvent ev).choices = s.choices := rfl
@[simp] theorem State.tookEvent_nextPort : (s.tookEvent ev).nextPort = s.nextPort := rfl
@[simp] theorem State.tookEvent_linkA : (s.tookEvent ev).linkA = s.linkA := rfl
@[simp] theorem State.tookEvent_linkB : (s.tookEvent ev).linkB = s.linkB := rfl
@[simp] theorem State.tookEvent_pins : (s.tookEvent ev).pins = s.pins := rfl
@[simp] theorem State.tookEvent_lanes : (s.tookEvent ev).lanes = s.lanes := rfl
@[simp] theorem State.tookEvent_lineBackground : (s.tookEvent ev).lineBackground = s.lineBackground := rfl
@[simp] theorem State.tookEvent_streams : (s.tookEvent ev).streams = s.streams := rfl
@[simp] theorem State.tookEvent_suspensions : (s.tookEvent ev).suspensions = s.suspensions := rfl
@[simp] theorem State.tookEvent_store : (s.tookEvent ev).store = s.store := rfl
@[simp] theorem State.tookEvent_mem : (s.tookEvent ev).mem = s.mem := rfl
@[simp] theorem State.tookEvent_link : (s.tookEvent ev).link q = s.link q := by cases q <;> simp [State.link]
@[simp] theorem State.tookEvent_staging : (s.tookEvent ev).staging q = s.staging q := by
  cases q <;> simp [State.staging]

/-! What a line start leaves changes `lanes`, `lineBackground` only. -/

@[simp] theorem State.withLine_pending : (s.withLine ln).pending = s.pending := rfl
@[simp] theorem State.withLine_rstAsserted : (s.withLine ln).rstAsserted = s.rstAsserted := rfl
@[simp] theorem State.withLine_table : (s.withLine ln).table = s.table := rfl
@[simp] theorem State.withLine_stagingA : (s.withLine ln).stagingA = s.stagingA := rfl
@[simp] theorem State.withLine_stagingB : (s.withLine ln).stagingB = s.stagingB := rfl
@[simp] theorem State.withLine_commitQueue : (s.withLine ln).commitQueue = s.commitQueue := rfl
@[simp] theorem State.withLine_turn : (s.withLine ln).turn = s.turn := rfl
@[simp] theorem State.withLine_serving : (s.withLine ln).serving = s.serving := rfl
@[simp] theorem State.withLine_choices : (s.withLine ln).choices = s.choices := rfl
@[simp] theorem State.withLine_nextPort : (s.withLine ln).nextPort = s.nextPort := rfl
@[simp] theorem State.withLine_linkA : (s.withLine ln).linkA = s.linkA := rfl
@[simp] theorem State.withLine_linkB : (s.withLine ln).linkB = s.linkB := rfl
@[simp] theorem State.withLine_raster : (s.withLine ln).raster = s.raster := rfl
@[simp] theorem State.withLine_pins : (s.withLine ln).pins = s.pins := rfl
@[simp] theorem State.withLine_streams : (s.withLine ln).streams = s.streams := rfl
@[simp] theorem State.withLine_suspensions : (s.withLine ln).suspensions = s.suspensions := rfl
@[simp] theorem State.withLine_store : (s.withLine ln).store = s.store := rfl
@[simp] theorem State.withLine_mem : (s.withLine ln).mem = s.mem := rfl
@[simp] theorem State.withLine_link : (s.withLine ln).link q = s.link q := by cases q <;> simp [State.link]
@[simp] theorem State.withLine_staging : (s.withLine ln).staging q = s.staging q := by
  cases q <;> simp [State.staging]

/-! An active-line start changes `lanes`, `lineBackground`, `streams`, `raster` only. -/

@[simp] theorem State.activeLineStartAct_pending : (s.activeLineStartAct ln).pending = s.pending := rfl
@[simp] theorem State.activeLineStartAct_rstAsserted : (s.activeLineStartAct ln).rstAsserted = s.rstAsserted := rfl
@[simp] theorem State.activeLineStartAct_table : (s.activeLineStartAct ln).table = s.table := rfl
@[simp] theorem State.activeLineStartAct_stagingA : (s.activeLineStartAct ln).stagingA = s.stagingA := rfl
@[simp] theorem State.activeLineStartAct_stagingB : (s.activeLineStartAct ln).stagingB = s.stagingB := rfl
@[simp] theorem State.activeLineStartAct_commitQueue : (s.activeLineStartAct ln).commitQueue = s.commitQueue := rfl
@[simp] theorem State.activeLineStartAct_turn : (s.activeLineStartAct ln).turn = s.turn := rfl
@[simp] theorem State.activeLineStartAct_serving : (s.activeLineStartAct ln).serving = s.serving := rfl
@[simp] theorem State.activeLineStartAct_choices : (s.activeLineStartAct ln).choices = s.choices := rfl
@[simp] theorem State.activeLineStartAct_nextPort : (s.activeLineStartAct ln).nextPort = s.nextPort := rfl
@[simp] theorem State.activeLineStartAct_linkA : (s.activeLineStartAct ln).linkA = s.linkA := rfl
@[simp] theorem State.activeLineStartAct_linkB : (s.activeLineStartAct ln).linkB = s.linkB := rfl
@[simp] theorem State.activeLineStartAct_pins : (s.activeLineStartAct ln).pins = s.pins := rfl
@[simp] theorem State.activeLineStartAct_suspensions : (s.activeLineStartAct ln).suspensions = s.suspensions := rfl
@[simp] theorem State.activeLineStartAct_store : (s.activeLineStartAct ln).store = s.store := rfl
@[simp] theorem State.activeLineStartAct_mem : (s.activeLineStartAct ln).mem = s.mem := rfl
@[simp] theorem State.activeLineStartAct_link : (s.activeLineStartAct ln).link q = s.link q := by
  cases q <;> simp [State.link]
@[simp] theorem State.activeLineStartAct_staging : (s.activeLineStartAct ln).staging q = s.staging q := by
  cases q <;> simp [State.staging]

/-! An active-line end changes `streams`, `mem` only. -/

@[simp] theorem State.activeLineEndAct_pending : (s.activeLineEndAct ln).pending = s.pending := rfl
@[simp] theorem State.activeLineEndAct_rstAsserted : (s.activeLineEndAct ln).rstAsserted = s.rstAsserted := rfl
@[simp] theorem State.activeLineEndAct_table : (s.activeLineEndAct ln).table = s.table := rfl
@[simp] theorem State.activeLineEndAct_stagingA : (s.activeLineEndAct ln).stagingA = s.stagingA := rfl
@[simp] theorem State.activeLineEndAct_stagingB : (s.activeLineEndAct ln).stagingB = s.stagingB := rfl
@[simp] theorem State.activeLineEndAct_commitQueue : (s.activeLineEndAct ln).commitQueue = s.commitQueue := rfl
@[simp] theorem State.activeLineEndAct_turn : (s.activeLineEndAct ln).turn = s.turn := rfl
@[simp] theorem State.activeLineEndAct_serving : (s.activeLineEndAct ln).serving = s.serving := rfl
@[simp] theorem State.activeLineEndAct_choices : (s.activeLineEndAct ln).choices = s.choices := rfl
@[simp] theorem State.activeLineEndAct_nextPort : (s.activeLineEndAct ln).nextPort = s.nextPort := rfl
@[simp] theorem State.activeLineEndAct_linkA : (s.activeLineEndAct ln).linkA = s.linkA := rfl
@[simp] theorem State.activeLineEndAct_linkB : (s.activeLineEndAct ln).linkB = s.linkB := rfl
@[simp] theorem State.activeLineEndAct_raster : (s.activeLineEndAct ln).raster = s.raster := rfl
@[simp] theorem State.activeLineEndAct_pins : (s.activeLineEndAct ln).pins = s.pins := rfl
@[simp] theorem State.activeLineEndAct_lanes : (s.activeLineEndAct ln).lanes = s.lanes := rfl
@[simp] theorem State.activeLineEndAct_lineBackground : (s.activeLineEndAct ln).lineBackground = s.lineBackground :=
  rfl
@[simp] theorem State.activeLineEndAct_suspensions : (s.activeLineEndAct ln).suspensions = s.suspensions := rfl
@[simp] theorem State.activeLineEndAct_store : (s.activeLineEndAct ln).store = s.store := rfl
@[simp] theorem State.activeLineEndAct_link : (s.activeLineEndAct ln).link q = s.link q := by
  cases q <;> simp [State.link]
@[simp] theorem State.activeLineEndAct_staging : (s.activeLineEndAct ln).staging q = s.staging q := by
  cases q <;> simp [State.staging]

/-! An active end changes `streams`, `suspensions`, `raster`, `serving`, `choices`, `nextPort`, `linkA`, `linkB` only. -/

theorem State.activeEndAct_frame : s.activeEndAct =
    { s with streams := (s.activeEndAct).streams, suspensions := (s.activeEndAct).suspensions, raster := (s.activeEndAct).raster, serving := (s.activeEndAct).serving, choices := (s.activeEndAct).choices, nextPort := (s.activeEndAct).nextPort, linkA := (s.activeEndAct).linkA, linkB := (s.activeEndAct).linkB } := by
  unfold State.activeEndAct; dsimp only; split <;> apply State.ext <;> simp

@[simp] theorem State.activeEndAct_pending : (s.activeEndAct).pending = s.pending := by rw [State.activeEndAct_frame]
@[simp] theorem State.activeEndAct_rstAsserted : (s.activeEndAct).rstAsserted = s.rstAsserted := by
  rw [State.activeEndAct_frame]
@[simp] theorem State.activeEndAct_table : (s.activeEndAct).table = s.table := by rw [State.activeEndAct_frame]
@[simp] theorem State.activeEndAct_stagingA : (s.activeEndAct).stagingA = s.stagingA := by
  rw [State.activeEndAct_frame]
@[simp] theorem State.activeEndAct_stagingB : (s.activeEndAct).stagingB = s.stagingB := by
  rw [State.activeEndAct_frame]
@[simp] theorem State.activeEndAct_commitQueue : (s.activeEndAct).commitQueue = s.commitQueue := by
  rw [State.activeEndAct_frame]
@[simp] theorem State.activeEndAct_turn : (s.activeEndAct).turn = s.turn := by rw [State.activeEndAct_frame]
@[simp] theorem State.activeEndAct_pins : (s.activeEndAct).pins = s.pins := by rw [State.activeEndAct_frame]
@[simp] theorem State.activeEndAct_lanes : (s.activeEndAct).lanes = s.lanes := by rw [State.activeEndAct_frame]
@[simp] theorem State.activeEndAct_lineBackground : (s.activeEndAct).lineBackground = s.lineBackground := by
  rw [State.activeEndAct_frame]
@[simp] theorem State.activeEndAct_store : (s.activeEndAct).store = s.store := by rw [State.activeEndAct_frame]
@[simp] theorem State.activeEndAct_mem : (s.activeEndAct).mem = s.mem := by rw [State.activeEndAct_frame]
@[simp] theorem State.activeEndAct_staging : (s.activeEndAct).staging q = s.staging q := by
  cases q <;> simp [State.staging]

end Sys2Proof.Machine
end

