-- ==== Sys2Proof/Laws/Apply.lean ====
section
/-! SUPPORT. Applying entries and batches: the table is the entries' fold, and everything the act leaves alone. -/

namespace Sys2Proof.Machine

/-- An entry applied to the part applies it to the table. -/
@[simp] theorem State.applyEntry_table (s : State) (e : Entry) : (s.applyEntry e).table = s.table.applyEntry e := by
  unfold State.applyEntry; (repeat' split) <;> simp

/-- Entries applied in order fold over the table. -/
theorem State.applyEntries_table (es : List Entry) (s : State) (rs : List SlotIx) :
    (s.applyEntries rs es).1.table = es.foldl Table.applyEntry s.table := by
  induction es generalizing s rs with
  | nil => rfl
  | cons e es ih => simp [State.applyEntries, ih]

/-- What applying entries leaves alone: everything but the table, the streams, the tags, the lanes and the ports. -/
theorem State.applyEntries_frame (es : List Entry) (s : State) (rs : List SlotIx) :
    (s.applyEntries rs es).1 =
      { s with table := (s.applyEntries rs es).1.table, streams := (s.applyEntries rs es).1.streams,
               mem := (s.applyEntries rs es).1.mem, lanes := (s.applyEntries rs es).1.lanes,
               linkA := (s.applyEntries rs es).1.linkA, linkB := (s.applyEntries rs es).1.linkB } := by
  induction es generalizing s rs with
  | nil => rfl
  | cons e es ih =>
    simp only [State.applyEntries]
    rw [ih]
    apply State.ext <;> simp

/-- A batch applied folds its entries over the table. -/
@[simp] theorem State.applyBatch_table (s : State) (rs : List SlotIx) (b : Batch) :
    (s.applyBatch rs b).1.table = b.entries.foldl Table.applyEntry s.table := by
  simp [State.applyBatch, State.applyEntries_table]

/-- A batch sets its own port's applied ticket and leaves the open batches and the next tickets alone. -/
theorem State.applyBatch_staging (s : State) (rs : List SlotIx) (b : Batch) (q : Port) :
    (s.applyBatch rs b).1.staging q =
      if q = b.port then { s.staging q with appliedTicket := b.ticket } else s.staging q := by
  have h : ∀ q, (s.applyEntries rs b.entries).1.staging q = s.staging q := by
    intro q; rw [State.applyEntries_frame]; cases q <;> rfl
  simp only [State.applyBatch, State.postApplied_staging]
  by_cases hq : q = b.port
  · subst hq; simp [h]
  · simp [hq, State.staging_setStaging_ne _ _ hq, h]

/-- What applying a batch leaves alone. -/
theorem State.applyBatch_frame (s : State) (rs : List SlotIx) (b : Batch) :
    (s.applyBatch rs b).1 =
      { s with table := (s.applyBatch rs b).1.table, stagingA := (s.applyBatch rs b).1.stagingA,
               stagingB := (s.applyBatch rs b).1.stagingB, streams := (s.applyBatch rs b).1.streams,
               mem := (s.applyBatch rs b).1.mem, lanes := (s.applyBatch rs b).1.lanes,
               linkA := (s.applyBatch rs b).1.linkA, linkB := (s.applyBatch rs b).1.linkB } := by
  have h := State.applyEntries_frame b.entries s rs
  apply State.ext <;> first | rfl | (simp [State.applyBatch]; done) | (simp [State.applyBatch]; rw [h])

/-- What applying batches leaves alone. -/
theorem State.applyBatches_frame (bs : List Batch) (s : State) (rs : List SlotIx) :
    (s.applyBatches rs bs).1 =
      { s with table := (s.applyBatches rs bs).1.table, stagingA := (s.applyBatches rs bs).1.stagingA,
               stagingB := (s.applyBatches rs bs).1.stagingB, streams := (s.applyBatches rs bs).1.streams,
               mem := (s.applyBatches rs bs).1.mem, lanes := (s.applyBatches rs bs).1.lanes,
               linkA := (s.applyBatches rs bs).1.linkA, linkB := (s.applyBatches rs bs).1.linkB } := by
  induction bs generalizing s rs with
  | nil => rfl
  | cons b bs ih =>
    simp only [State.applyBatches]
    rw [ih, State.applyBatch_frame]

/-- Batches applied in order fold their entries over the table. -/
theorem State.applyBatches_table (bs : List Batch) (s : State) (rs : List SlotIx) :
    (s.applyBatches rs bs).1.table = bs.foldl (fun t b => b.entries.foldl Table.applyEntry t) s.table := by
  induction bs generalizing s rs with
  | nil => rfl
  | cons b bs ih => simp [State.applyBatches, ih]

/-- Applying batches leaves the open batches and the next tickets alone. -/
theorem State.applyBatches_staging (bs : List Batch) (s : State) (rs : List SlotIx) (q : Port) :
    ((s.applyBatches rs bs).1.staging q).openBatch = (s.staging q).openBatch ∧
      ((s.applyBatches rs bs).1.staging q).nextTicket = (s.staging q).nextTicket := by
  induction bs generalizing s rs with
  | nil => exact ⟨rfl, rfl⟩
  | cons b bs ih =>
    simp only [State.applyBatches]
    rw [(ih _ _).1, (ih _ _).2, State.applyBatch_staging]
    split <;> exact ⟨rfl, rfl⟩

/-- What applying the queue leaves alone. -/
theorem State.applyQueue_frame (s : State) :
    s.applyQueue.1 =
      { s with commitQueue := [], table := s.applyQueue.1.table, stagingA := s.applyQueue.1.stagingA,
               stagingB := s.applyQueue.1.stagingB, streams := s.applyQueue.1.streams, mem := s.applyQueue.1.mem,
               lanes := s.applyQueue.1.lanes, linkA := s.applyQueue.1.linkA, linkB := s.applyQueue.1.linkB } := by
  simp only [State.applyQueue]
  rw [State.applyBatches_frame]

@[simp] theorem State.applyQueue_pending (s : State) : s.applyQueue.1.pending = s.pending := by
  rw [State.applyQueue_frame]
@[simp] theorem State.applyQueue_commitQueue (s : State) : s.applyQueue.1.commitQueue = [] := by
  rw [State.applyQueue_frame]
@[simp] theorem State.applyQueue_turn (s : State) : s.applyQueue.1.turn = s.turn := by rw [State.applyQueue_frame]
@[simp] theorem State.applyQueue_serving (s : State) : s.applyQueue.1.serving = s.serving := by
  rw [State.applyQueue_frame]
@[simp] theorem State.applyQueue_choices (s : State) : s.applyQueue.1.choices = s.choices := by
  rw [State.applyQueue_frame]
@[simp] theorem State.applyQueue_rstAsserted (s : State) : s.applyQueue.1.rstAsserted = s.rstAsserted := by
  rw [State.applyQueue_frame]
@[simp] theorem State.applyQueue_nextPort (s : State) : s.applyQueue.1.nextPort = s.nextPort := by
  rw [State.applyQueue_frame]
@[simp] theorem State.applyQueue_raster (s : State) : s.applyQueue.1.raster = s.raster := by rw [State.applyQueue_frame]
@[simp] theorem State.applyQueue_pins (s : State) : s.applyQueue.1.pins = s.pins := by rw [State.applyQueue_frame]
@[simp] theorem State.applyQueue_lineBackground (s : State) : s.applyQueue.1.lineBackground = s.lineBackground := by
  rw [State.applyQueue_frame]
@[simp] theorem State.applyQueue_suspensions (s : State) : s.applyQueue.1.suspensions = s.suspensions := by
  rw [State.applyQueue_frame]
@[simp] theorem State.applyQueue_store (s : State) : s.applyQueue.1.store = s.store := by rw [State.applyQueue_frame]

/-- The queue applied folds every queued entry over the table, batch by batch. -/
theorem State.applyQueue_table (s : State) :
    s.applyQueue.1.table = s.commitQueue.foldl (fun t b => b.entries.foldl Table.applyEntry t) s.table :=
  State.applyBatches_table s.commitQueue s []

/-- A property of the state that an applied entry, an applied ticket with its notice, and an emptied queue keep, is
kept by applying the queue. -/
theorem State.applyQueue_keeps {P : State → Prop} (s : State) (hs : P s) (he : ∀ s e, P s → P (s.applyEntry e))
    (hb : ∀ (s : State) (p : Port) (t : Byte), P s →
      P ((s.setStaging p { s.staging p with appliedTicket := t }).postApplied p t))
    (hq : ∀ s : State, P s → P { s with commitQueue := [] }) : P s.applyQueue.1 := by
  have entries : ∀ (es : List Entry) (s : State) (rs : List SlotIx), P s → P (s.applyEntries rs es).1 := by
    intro es
    induction es with
    | nil => intro s rs h; exact h
    | cons e es ih => intro s rs h; exact ih _ _ (he s e h)
  have batches : ∀ (bs : List Batch) (s : State) (rs : List SlotIx), P s → P (s.applyBatches rs bs).1 := by
    intro bs
    induction bs with
    | nil => intro s rs h; exact h
    | cons b bs ih => intro s rs h; exact ih _ _ (hb _ _ _ (entries b.entries s rs h))
  exact hq _ (batches s.commitQueue s [] hs)

end Sys2Proof.Machine
end

