-- ==== Sys2Proof/Laws/Commands.lean ====
section
/-! SUPPORT. What taking a command can do, said once for every row that takes one. -/

namespace Sys2Proof.Machine

/-- A port is eligible where a command waits and fewer than four responses stand. -/
theorem State.eligible_iff {s : State} {p : Port} : s.eligible p = true ↔ s.eligibleNow p := by
  simp [State.eligible]

/-- No frame turn reached waits for its row. -/
theorem State.turnReached_iff {s : State} : s.turnReached = false ↔ RasterEvent.frameTurn ∉ s.raster.due := by
  simp [State.turnReached]

/-- The arbiter chooses where it is free, in the words of the claims. -/
theorem State.idle_iff {s : State} : s.idle = true ↔ s.free := by simp [State.idle, State.turnReached_iff]

/-- Rule 4 of R20 chooses a port's command: the arbiter is free, nothing urgent is pending, and the port has its turn. -/
theorem State.chooses_iff {s : State} {p : Port} : s.chooses p = true ↔
    s.free ∧ s.turn = none ∧ s.suspensions = [] ∧ s.linkA.abandonPending = false ∧
      s.linkB.abandonPending = false ∧ s.eligible p = true ∧ (s.nextPort = p ∨ s.eligible (otherPort p) = false) := by
  simp [State.chooses, State.noUrgent, State.idle_iff, and_assoc]

/-- The command chosen is the head of the queue of a port that rule 4 of R20 chooses, in the words of the claims. -/
theorem State.mayTake_iff {s : State} {p : Port} {c : QueuedCommand} :
    s.mayTake p c ↔ s.chooses p = true ∧ (s.link p).commands.head? = some c := by
  have hne : ∀ q, s.eligible q = false ↔ ¬ s.eligibleNow q := fun q => by rw [← State.eligible_iff, Bool.not_eq_true]
  have hab : ((s.link p).abandonPending = false ∧ (s.link (otherPort p)).abandonPending = false) ↔
      (s.linkA.abandonPending = false ∧ s.linkB.abandonPending = false) := by
    cases p
    · exact Iff.rfl
    · exact and_comm
  rw [State.chooses_iff]
  simp only [hne, State.eligible_iff]
  constructor
  · rintro ⟨h1, h2, h3, ha, hb, h5, h6, h7⟩
    obtain ⟨ha, hb⟩ := hab.mp ⟨ha, hb⟩
    exact ⟨⟨h1, h2, h3, ha, hb, ⟨fun e => by simp [e] at h5, h6⟩, h7⟩, h5⟩
  · rintro ⟨⟨h1, h2, h3, ha, hb, h4, h5⟩, h6⟩
    obtain ⟨ha, hb⟩ := hab.mpr ⟨ha, hb⟩
    exact ⟨h1, h2, h3, ha, hb, h6, h4.2, h5⟩

/-- The command of a port whose service may be completed now. -/
theorem State.inService_iff {s : State} {p : Port} {c : QueuedCommand} :
    s.inService p = some c ↔ ∃ reply, s.completes p c reply := by
  unfold State.inService
  split
  · rename_i h
    refine ⟨nofun, fun ⟨_, h'⟩ => ?_⟩
    rw [State.turnReached_iff.mpr h'.2] at h
    cases h
  · rename_i h
    have h' := State.turnReached_iff.mp (by simpa using h)
    cases hs : s.serving with
    | none => simp [State.completes, hs]
    | some x => obtain ⟨q, d, r⟩ := x; simp [State.completes, hs, h']

/-- The command that may be served now, in the words of the claims. -/
theorem State.servable_iff {s : State} {p : Port} {c : QueuedCommand} :
    s.servable p = some c ↔ s.mayServe p c := by
  have hm : s.mayServe p c ↔ s.mayTake p c ∨ ∃ reply, s.completes p c reply := by
    change (s.mayTake p c ∨ (s.completes p c none ∧ _)) ∨ (s.completes p c none ∧ _) ∨ _ ↔ _
    rw [Option.exists (p := fun reply => s.completes p c reply)]
    cases (s.link p).abandonPending <;> simp [or_assoc]
  rw [hm, State.mayTake_iff]
  unfold State.servable
  split
  · rename_i h
    simp [h, (State.chooses_iff.mp h).1.1]
  · rename_i h
    rw [State.inService_iff]
    simp [h]

/-- A command whose effect is still to come found no reply at the raster generator. -/
theorem State.foundReply_none {s : State} {p : Port} {c : QueuedCommand} (h : s.canTake p c ∨ s.cutOff p c) :
    s.foundReply = none := by
  unfold State.foundReply
  obtain (h | h) | h := h
  · rw [h.1.1]; rfl
  · rw [h.1.1]; rfl
  · rw [h.1.1]; rfl

/-- The command that may be served now found a reply at the raster generator where it completes with that one. -/
theorem State.foundReply_some {s : State} {p : Port} {c : QueuedCommand} {r : Reply} (h : s.servable p = some c) :
    s.foundReply = some r ↔ s.completes p c (some r) := by
  obtain h | h | ⟨r', h⟩ := State.servable_iff.mp h
  · rw [State.foundReply_none (.inl h)]
    refine ⟨nofun, fun h' => ?_⟩
    obtain h | h := h
    · exact nomatch h'.1.symm.trans h.1.1
    · exact nomatch h'.1.symm.trans h.1.1
  · rw [State.foundReply_none (.inr h)]
    exact ⟨nofun, fun h' => nomatch h'.1.symm.trans h.1.1⟩
  · unfold State.foundReply
    rw [State.completes, h.1]
    simp [h.2]

/-- The arbiter grants a port's command exactly where one of the port may be served. -/
theorem State.granted_iff {s : State} {p : Port} : s.grants (.command p) = true ↔ ∃ c, s.servable p = some c := by
  unfold State.servable
  simp only [State.grants, Bool.or_eq_true]
  split
  · rename_i h
    obtain ⟨-, -, -, -, -, he, -⟩ := State.chooses_iff.mp h
    obtain ⟨c, cs, hc⟩ := List.exists_cons_of_ne_nil (State.eligible_iff.mp he).1
    simp [h, hc]
  · rename_i h
    simp [h, Option.isSome_iff_exists]

/-- Rule 4 of R20 chooses one port's command at most. -/
theorem State.chooses_one {s : State} {p q : Port} (hp : s.chooses p = true) (hq : s.chooses q = true) : p = q := by
  obtain ⟨-, -, -, -, -, ep, np⟩ := State.chooses_iff.mp hp
  obtain ⟨-, -, -, -, -, eq, nq⟩ := State.chooses_iff.mp hq
  cases p <;> cases q <;> simp_all [otherPort]

/-- The command chosen, in the words of the claims. -/
theorem State.chosenHead_iff {s : State} {p : Port} {c : QueuedCommand} :
    s.chosenHead = some (p, c) ↔ s.mayTake p c := by
  have hport : s.chosenPort = some p ↔ s.chooses p = true := by
    unfold State.chosenPort
    have hab : ¬ (s.chooses .a = true ∧ s.chooses .b = true) := fun h => Port.noConfusion (State.chooses_one h.1 h.2)
    cases p <;> cases ha : s.chooses .a <;> cases hb : s.chooses .b <;> simp_all
  rw [State.mayTake_iff, ← hport]
  unfold State.chosenHead
  simp only [Option.bind_eq_some_iff, Option.map_eq_some_iff, Prod.mk.injEq]
  constructor
  · rintro ⟨q, hq, d, hd, rfl, rfl⟩
    exact ⟨hq, hd⟩
  · rintro ⟨h1, h2⟩
    exact ⟨p, h1, c, h2, rfl, rfl⟩

@[simp] theorem State.setTarget_self (s : State) : s.setTarget s.raster.target = s := rfl

/-- What a command taken does at the raster generator, in the words of the claims (R79, R81, R82, R84). -/
theorem State.meetRaster_eq (s : State) (p : Port) (c : QueuedCommand) :
    s.meetRaster p c = (s.replyWhenTaken p c, s.setTarget (s.targetAfter p c)) := by
  have hr : ∀ t code, (s.setTarget t).outputReply code = ⟨code, [s.raster.output.byte, t.byte]⟩ := fun _ _ => rfl
  have hr' : ∀ code, s.outputReply code = ⟨code, [s.raster.output.byte, s.raster.target.byte]⟩ := fun _ => rfl
  unfold State.meetRaster State.replyWhenTaken State.targetAfter outputCommand liveAct quietAct
  by_cases hp : c.params = []
  · by_cases h1 : c.code = 0x41
    · cases p <;> cases ho : s.raster.output <;> simp [hp, h1, hr, hr', ho]
    · by_cases h2 : c.code = 0x42
      · cases p <;> cases ho : s.raster.output <;> simp [hp, h2, hr, hr', ho]
      · by_cases h3 : c.code = 0x40
        · cases p <;> cases ho : s.raster.output <;> simp [hp, h3, hr', ho]
        · by_cases h4 : c.code = 0x43 <;> cases p <;> simp_all
  · simp [hp]

/-- A command taken and in service, in the words of the claims: an output command has met the raster generator. -/
theorem State.beginService_eq (s : State) (p : Port) (c : QueuedCommand) : s.beginService p c = s.begun p c := by
  unfold State.beginService
  rw [State.meetRaster_eq]
  cases p <;> rfl

/-- What becomes of the arbiter when a request above commands becomes pending, whatever the free value. -/
theorem State.requested_spec (s : State) : s.requestPends s.requested := by
  unfold State.requested
  constructor
  · intro p c h
    rw [State.chosenHead_iff.mpr h]
    dsimp only
    split
    · exact .inl (by rw [State.beginService_eq])
    · exact .inr rfl
  · intro h
    cases hc : s.chosenHead with
    | none => rfl
    | some x => exact absurd (State.chosenHead_iff.mp hc) (h x.1 x.2)

/-- Everything a request's becoming pending can do: nothing, a count of the free value, or a command taken. -/
theorem State.requested_cases (s : State) :
    s.requested = s ∨ s.requested = { s with choices := s.choices + 1 } ∨
      ∃ p c, s.mayTake p c ∧ s.requested = { s.begun p c with choices := s.choices + 1 } := by
  unfold State.requested
  split
  · exact .inl rfl
  · rename_i p c h
    split
    · exact .inr (.inr ⟨p, c, State.chosenHead_iff.mp h, by rw [State.beginService_eq]⟩)
    · exact .inr (.inl rfl)

/-- Of the raster generator, a request's becoming pending changes the pending target only, by R81 and R82. -/
theorem State.requested_raster (s : State) : ∃ target, s.requested.raster = { s.raster with target := target } ∧
    (target = s.raster.target ∨ ∃ p c, target = s.targetAfter p c) := by
  obtain h | h | ⟨p, c, -, h⟩ := State.requested_cases s <;> rw [h]
  · exact ⟨_, rfl, .inl rfl⟩
  · exact ⟨_, rfl, .inl rfl⟩
  · exact ⟨_, rfl, .inr ⟨p, c, rfl⟩⟩

@[simp] theorem State.requested_due (s : State) : s.requested.raster.due = s.raster.due := by
  obtain ⟨_, h, -⟩ := s.requested_raster; rw [h]

@[simp] theorem State.requested_output (s : State) : s.requested.raster.output = s.raster.output := by
  obtain ⟨_, h, -⟩ := s.requested_raster; rw [h]

@[simp] theorem State.requested_profile (s : State) : s.requested.raster.profile = s.raster.profile := by
  obtain ⟨_, h, -⟩ := s.requested_raster; rw [h]

/-- Of a port's part, a request's becoming pending changes the command queue only, which may lose its head. -/
theorem State.requested_link (s : State) (q : Port) :
    ∃ cs, s.requested.link q = { s.link q with commands := cs } ∧ cs.length ≤ (s.link q).commands.length := by
  obtain h | h | ⟨p, c, -, h⟩ := State.requested_cases s <;> rw [h]
  · exact ⟨_, rfl, Nat.le_refl _⟩
  · exact ⟨_, by cases q <;> rfl, Nat.le_refl _⟩
  · by_cases e : q = p
    · subst e
      exact ⟨(s.link q).commands.tail, by cases q <;> rfl, by simp⟩
    · exact ⟨_, by cases p <;> cases q <;> first | rfl | exact absurd rfl e, Nat.le_refl _⟩

/-- Everything a row that takes a command can do: it waits; it completes a command that met the raster generator when it was
taken; it refuses the payload's length; or it carries out its own rule and places the response. -/
theorem serve_cases {p : Port} {code : Byte} {len : Nat} {body : CommandBody} {s t : State}
    (h : serve p code len body s = .next t) :
    t = s ∨ ∃ c, s.servable p = some c ∧ c.code = code ∧
      ((∃ r, s.completes p c (some r) ∧ t = (s.takeHead p).respond p c r) ∨
        (c.params.length ≠ len ∧ t = (s.takeHead p).respond p c (.bare .badLength)) ∨
        (c.params.length = len ∧
          t = (body c.params (s.takeHead p)).2.respond p c (body c.params (s.takeHead p)).1)) := by
  unfold serve at h
  split at h
  · rename_i c hc
    split at h
    · refine .inr ⟨c, hc, ‹_›, ?_⟩
      cases h
      unfold serveHead
      split
      · exact .inl ⟨_, (State.foundReply_some hc).mp ‹_›, rfl⟩
      · split
        · exact .inr (.inl ⟨‹_›, rfl⟩)
        · exact .inr (.inr ⟨by simpa using ‹¬ c.params.length ≠ len›, rfl⟩)
    · cases h; exact .inl rfl
  · cases h; exact .inl rfl

/-- A row that takes a command always answers a next state. -/
theorem serve_next (p : Port) (code : Byte) (len : Nat) (body : CommandBody) (s : State) :
    ∃ t, serve p code len body s = .next t := by
  unfold serve
  split
  · split <;> exact ⟨_, rfl⟩
  · exact ⟨_, rfl⟩

/-- A row that takes a command, where one with its code may be carried out. -/
theorem serve_of_servable {p : Port} {c : QueuedCommand} {len : Nat} {body : CommandBody} {s : State}
    (h : s.canTake p c ∨ s.cutOff p c) (hl : c.params.length = len) :
    serve p c.code len body s =
      .next ((body c.params (s.takeHead p)).2.respond p c (body c.params (s.takeHead p)).1) := by
  simp [serve, State.servable_iff.mpr (h.imp_right .inl), State.foundReply_none h, serveHead, hl]

/-- A row that takes a command, where one with its code met the raster generator when it was taken. -/
theorem serve_of_found {p : Port} {c : QueuedCommand} {r : Reply} {len : Nat} {body : CommandBody} {s : State}
    (h : s.completes p c (some r)) : serve p c.code len body s = .next ((s.takeHead p).respond p c r) := by
  have hs := State.servable_iff.mpr (.inr (.inr ⟨r, h⟩))
  simp [serve, hs, (State.foundReply_some hs).mpr h, serveHead]

/-- A property that taking a head command, the row's own rule and placing a response keep is kept by the row. -/
theorem serve_keeps {P : State → Prop} {p : Port} {code : Byte} {len : Nat} {body : CommandBody} {s t : State}
    (hs : P s) (ht : ∀ s, P s → P (s.takeHead p)) (hb : ∀ ps s, P s → P (body ps s).2)
    (hr : ∀ s c r, P s → P (s.respond p c r)) (h : serve p code len body s = .next t) : P t := by
  obtain rfl | ⟨c, -, -, ⟨r, -, rfl⟩ | ⟨-, rfl⟩ | ⟨-, rfl⟩⟩ := serve_cases h
  · exact hs
  · exact hr _ _ _ (ht _ hs)
  · exact hr _ _ _ (ht _ hs)
  · exact hr _ _ _ (hb _ _ (ht _ hs))

/-- A command's leaving is the words of the claims. -/
theorem State.takeHead_eq (s : State) (p : Port) : s.takeHead p = s.served p := by
  unfold State.takeHead State.served
  cases s.serving <;> rfl

/-- Of the parts of the ports, a command's taking changes the command queue of its own only, which may lose its head. -/
theorem State.takeHead_link (s : State) (p q : Port) :
    ∃ cs, (s.takeHead p).link q = { s.link q with commands := cs } ∧
      (cs = (s.link q).commands ∨ q = p ∧ cs = (s.link q).commands.tail) := by
  unfold State.takeHead
  split
  · exact ⟨_, by cases q <;> rfl, .inl rfl⟩
  · by_cases e : q = p
    · subst e
      exact ⟨_, by cases q <;> rfl, .inr ⟨rfl, rfl⟩⟩
    · exact ⟨_, by cases p <;> cases q <;> first | rfl | exact absurd rfl e, .inl rfl⟩

theorem State.takeHead_abandonPending (s : State) (p q : Port) :
    ((s.takeHead p).link q).abandonPending = (s.link q).abandonPending := by
  obtain ⟨cs, h, -⟩ := State.takeHead_link s p q
  rw [h]

/-- A command the arbiter may take is of a port in no abandon. -/
theorem State.canTake_clear {s : State} {p : Port} {c : QueuedCommand} (h : s.canTake p c) :
    (s.link p).abandonPending = false :=
  h.elim (fun h => h.2.2.2.1) (fun h => h.2)

/-- A response placed where no abandon is pending. -/
theorem State.respond_of_clear {s : State} {p : Port} (c : QueuedCommand) (r : Reply)
    (h : (s.link p).abandonPending = false) : s.respond p c r = s.placed p c r.code r.data := by
  simp [State.respond, State.placed, responseBytes, h]

/-- A response discarded where an abandon is pending (R154). -/
theorem State.respond_of_pending {s : State} {p : Port} (c : QueuedCommand) (r : Reply)
    (h : (s.link p).abandonPending = true) : s.respond p c r = s := by
  simp [State.respond, h]

/-- A command the arbiter may take, taken and answered. -/
theorem State.respond_answered {s : State} {p : Port} {c : QueuedCommand} (h : s.canTake p c) (code : ResultCode)
    (data : List Byte) : (s.takeHead p).respond p c ⟨code, data⟩ = s.answered p c code data := by
  rw [State.respond_of_clear _ _ (by rw [State.takeHead_abandonPending]; exact State.canTake_clear h), State.takeHead_eq]
  rfl

/-- A command cut off by a link reset of its port, its answer discarded. -/
theorem State.respond_cutOff {s : State} {p : Port} {c : QueuedCommand} (h : s.cutOff p c) (r : Reply) :
    (s.takeHead p).respond p c r = { s with serving := none } := by
  rw [State.respond_of_pending _ _ (by rw [State.takeHead_abandonPending]; exact h.2)]
  unfold State.takeHead
  rw [h.1.1]

/-- Every code that a check of an entry against a view can answer (R24 steps 4 to 8). -/
theorem View.refuses_codes {v : View} {p : Port} {e : Entry} {c : ResultCode} (h : v.refuses p e = some c) :
    c ∈ [ResultCode.badHandle, .stale, .retired, .notOwner, .badParam, .badReference] := by
  have hres : ∀ (h : Handle) (c : ResultCode), v.resolve h = .error c →
      c ∈ [ResultCode.badHandle, .stale, .retired, .notOwner, .badParam, .badReference] := by
    intro h c hc
    unfold View.resolve at hc
    (repeat' split at hc) <;> cases hc <;> simp
  have href : ∀ self pin pl c, v.refusesReference self pin pl = some c →
      c ∈ [ResultCode.badHandle, .stale, .retired, .notOwner, .badParam, .badReference] := by
    intro self pin pl c hc
    cases pl <;> simp only [View.refusesReference] at hc <;> (repeat' split at hc) <;> cases hc <;>
      first | exact hres _ _ ‹_› | simp
  unfold View.refuses at h
  split at h
  · cases h
  · exact href _ _ _ _ h
  · split at h
    · cases h; exact hres _ _ ‹_›
    · unfold View.refusesWindow at h
      (repeat' split at h) <;> first | (cases h; simp) | skip
      unfold View.refusesPlacement at h
      split at h
      · exact href _ _ _ _ h
      · cases h

/-- A check of an entry against a view never answers OK. -/
theorem View.refuses_ne_ok {v : View} {p : Port} {e : Entry} {c : ResultCode} (h : v.refuses p e = some c) :
    c ≠ .ok := by
  rintro rfl
  simpa using View.refuses_codes h

/-- The code COMMIT answers for a check that fails again is that check's code where R162 lets COMMIT return it. -/
theorem ResultCode.atCommit_of_allowed {c : ResultCode} (k : Nat) (e : Entry)
    (h : c ∉ [ResultCode.notOwner, .notPermitted, .badParam]) : c.atCommit k e = c := by
  cases c <;> first | rfl | exact absurd h (by simp)

/-- Whatever the free value is, the code is one of the four. -/
theorem recheckCodes_mem : ∀ n : Fin 4, recheckCodes[n] ∈ [ResultCode.badHandle, .stale, .retired, .badReference] := by
  decide

/-- Every code that revalidation can answer for an entry is one of the four R162 allows (log 34). -/
theorem View.refusesAgain_atCommit {v : View} {p : Port} {e : Entry} {c : ResultCode}
    (h : v.refusesAgain p e = some c) (k : Nat) :
    c.atCommit k e ∈ [ResultCode.badHandle, .stale, .retired, .badReference] := by
  have hc : c ∈ [ResultCode.badHandle, .stale, .retired, .notOwner, .badParam, .badReference, .notPermitted] := by
    unfold View.refusesAgain at h
    split_ifs at h
    · cases h; simp
    · cases h; simp
    · have := View.refuses_codes h
      simp only [List.mem_cons, List.not_mem_nil, or_false] at this ⊢
      tauto
  cases c <;> first | exact recheckCodes_mem _ | exact absurd hc (by decide) | simp [ResultCode.atCommit]

/-- Everything a staging command other than OPEN can do: it refuses and leaves the state, or every check passed and it
appends its entry. -/
theorem stage_cases (p : Port) (allowed : Bool) (e : Option Entry) (s : State) :
    (∃ c, c ≠ .ok ∧ stage p allowed e s = (.bare c, s)) ∨
      ∃ e', allowed = true ∧ e = some e' ∧ e'.inDomain = true ∧ (s.staging p).openBatch.length < 16 ∧
        (s.portView p).refuses p e' = none ∧ stage p allowed e s = (.bare .ok, s.appendEntry p e') := by
  unfold stage
  cases allowed with
  | false => exact .inl ⟨.notPermitted, by decide, rfl⟩
  | true =>
    cases e with
    | none => exact .inl ⟨.badParam, by decide, rfl⟩
    | some e =>
      rw [if_neg (by decide)]
      dsimp only
      split
      · exact .inl ⟨.badParam, by decide, rfl⟩
      · rename_i hd
        split
        · exact .inl ⟨.batchFull, by decide, rfl⟩
        · rename_i hf
          split
          · rename_i c hc; exact .inl ⟨c, View.refuses_ne_ok hc, rfl⟩
          · rename_i hc
            exact .inr ⟨e, rfl, rfl, by simpa using hd, by simpa [State.batchFull] using hf, hc, rfl⟩

/-- Everything OPEN can do: it refuses and leaves the state, or every check passed and it reserves the lowest-numbered
FREE slot, answers its handle and appends its entry. -/
theorem stageOpen_cases (p : Port) (params : List Byte) (s : State) :
    (∃ c, c ≠ .ok ∧ stageOpen p params s = (.bare c, s)) ∨
      ∃ w vis pl ix, decodeOpen params = some (w, vis, pl) ∧ ¬ (p = .b ∧ openAsksPinned params = true) ∧
        w.inDomain = true ∧ (s.staging p).openBatch.length < 16 ∧ s.table.lowestFree = some ix ∧
        (s.portView p).refusesReference none w.pinned pl = none ∧
        stageOpen p params s = (⟨.ok, [(handleOf ix (s.table.gen ix)).byte]⟩,
          (s.reserve p ix).appendEntry p (.window (handleOf ix (s.table.gen ix)) (.create w vis pl))) := by
  unfold stageOpen
  split
  · exact .inl ⟨.notPermitted, by decide, rfl⟩
  · rename_i hp
    split
    · exact .inl ⟨.badParam, by decide, rfl⟩
    · rename_i w vis pl hd
      split
      · exact .inl ⟨.badParam, by decide, rfl⟩
      · rename_i hw
        split
        · exact .inl ⟨.batchFull, by decide, rfl⟩
        · rename_i hf
          split
          · exact .inl ⟨.noSlot, by decide, rfl⟩
          · rename_i ix hix
            unfold stageOpenAt
            dsimp only
            split
            · rename_i c hc; exact .inl ⟨c, View.refuses_ne_ok hc, rfl⟩
            · rename_i hc
              exact .inr ⟨w, vis, pl, ix, hd, hp, by simpa using hw, by simpa [State.batchFull] using hf, hix, hc, rfl⟩

end Sys2Proof.Machine
end

