-- ==== Sys2Proof/Laws/Rows.lean ====
section
/-! SUPPORT. What each row that takes no host command can do, said once. -/

namespace Sys2Proof.Machine

theorem next_inj {a b : State} (h : (Host.Outcome.next a : Host.Outcome State Fault Refusal) = .next b) : b = a := by
  injection h with h; exact h.symm

/-- Driving the pins answers the state with its pins, where no pixel falls outside the line store. -/
theorem State.drive_next {s t : State} (h : s.drive = .next t) : s.pixelFault = false ∧ t = s.pinsDriven := by
  unfold State.drive at h
  split at h
  · cases h
  · exact ⟨by simpa using ‹¬ s.pixelFault = true›, next_inj h⟩

/-- A moment of a frame changes its port's part only. -/
theorem frameStep_link (p : Port) (kind : Byte) (capture : LinkPort → Capture)
    (act : Capture → List Byte → LinkPort → LinkPort) (m : Moment) (s : State) :
    ∃ l, frameStep p kind capture act m s = s.setLink p l := by
  cases m with
  | fall =>
    simp only [frameStep, State.csFall]
    split
    · exact ⟨s.link p, by simp⟩
    · exact ⟨_, rfl⟩
  | byte0 => exact ⟨_, rfl⟩
  | rise bits => exact ⟨_, rfl⟩

/-- A moment of a LINK_RESET frame changes its port's part only. -/
theorem State.linkResetStep_link (s : State) (p : Port) (m : Moment) : ∃ l, s.linkResetStep p m = s.setLink p l :=
  frameStep_link _ _ _ _ m s

/-- A moment of a LINK_RESET frame does the same to its port's part, and its abandon indication, where a command may have
been taken before. -/
theorem State.requested_linkResetStep (s : State) (p : Port) (m : Moment) :
    ((s.requested.linkResetStep p m).link p).abandonPending = ((s.linkResetStep p m).link p).abandonPending := by
  obtain ⟨cs, h, -⟩ := State.requested_link s p
  unfold State.linkResetStep
  cases m with
  | fall =>
    simp only [frameStep, State.csFall, State.requested_rstAsserted]
    split
    · rw [h]
    · simp only [State.link_setLink, h, LinkPort.fall]; split <;> rfl
  | byte0 => simp only [frameStep, State.link_setLink, h, LinkPort.kindRead]; (repeat' split) <;> rfl
  | rise bits =>
    simp only [frameStep, State.link_setLink, h, LinkPort.rise, LinkPort.endLinkReset]
    (repeat' split) <;> rfl

/-- A frame row changes its own port's part only, and takes a command where an abandon becomes pending. -/
theorem exec_frame {i : Instr} {m : Moment} {s t : State} (hi : i.moment? = some m) (h : exec i s = .next t) :
    ∃ p l u, t = u.setLink p l ∧
      (u = s ∨ u = s.requested ∧ (s.link p).abandonPending = false ∧ l.abandonPending = true) := by
  have moved : ∀ {p l}, t = s.setLink p l → ∃ p l u, t = u.setLink p l ∧
      (u = s ∨ u = s.requested ∧ (s.link p).abandonPending = false ∧ l.abandonPending = true) :=
    fun {p l} h => ⟨p, l, s, h, .inl rfl⟩
  have step : ∀ {p kind capture act}, t = frameStep p kind capture act m s → ∃ p l u, t = u.setLink p l ∧
      (u = s ∨ u = s.requested ∧ (s.link p).abandonPending = false ∧ l.abandonPending = true) := by
    intro p kind capture act h
    obtain ⟨l, hl⟩ := frameStep_link p kind capture act m s
    exact moved (h.trans hl)
  cases i <;> simp only [Instr.moment?, reduceCtorEq, Option.some.injEq] at hi <;> simp only [exec] at h <;> subst hi
  case emptyFrame p m =>
    unfold execEmptyFrame at h
    split at h
    · refine step (p := p) (kind := 0) (capture := fun _ => .nothing) (act := fun _ _ l => l) (next_inj h)
    · cases h
    · (repeat' split at h) <;> first | exact moved (next_inj h) | cases h
      exact moved (p := .a) (l := s.linkA) rfl
  case commandFrame p m => exact step (next_inj h)
  case read p m => exact step (next_inj h)
  case status p m => exact step (next_inj h)
  case linkReset p m =>
    unfold execLinkReset at h
    split at h
    · exact step (next_inj h)
    · exact step (next_inj h)
    · rename_i bits
      split at h
      · rename_i hab
        obtain ⟨l, hl⟩ := s.requested.linkResetStep_link p (.rise bits)
        refine ⟨p, l, _, (next_inj h).trans hl, .inr ⟨rfl, hab.1, ?_⟩⟩
        rw [← hab.2, ← s.requested_linkResetStep p (.rise bits), hl, State.link_setLink]
      · exact step (next_inj h)
  case idleFrame p k m => unfold execIdleFrame at h; split at h <;> first | exact step (next_inj h) | cases h
  case unknownFrameKind p k m =>
    unfold execUnknownFrameKind at h; split at h <;> first | exact step (next_inj h) | cases h

/-- A command of unknown code waits, or is answered: with BAD_COMMAND, but where it holds a reply already. -/
theorem execUnknownCommandCode_cases {p : Port} {s t : State} (h : execUnknownCommandCode p s = .next t) :
    t = s ∨ ∃ c r, s.servable p = some c ∧ paramLength c.code = none ∧ t = (s.takeHead p).respond p c r ∧
      (s.completes p c (some r) ∨ r = .bare .badCommand) := by
  unfold execUnknownCommandCode at h
  split at h
  · rename_i c hc
    split at h
    · rw [next_inj h]
      unfold serveHead
      split
      · exact .inr ⟨c, _, hc, ‹_›, rfl, .inl ((State.foundReply_some hc).mp ‹_›)⟩
      · rw [if_neg (by simp)]
        exact .inr ⟨c, _, hc, ‹_›, rfl, .inr rfl⟩
    · exact .inl (next_inj h)
  · exact .inl (next_inj h)

/-- The frame turn waits until it is reached; then it is signalled. -/
theorem execFrameTurn_cases {s t : State} (h : execFrameTurn s = .next t) :
    t = s ∨ s.raster.takeable .frameTurn = true ∧ t = (s.tookEvent .frameTurn).signalTurn := by
  unfold execFrameTurn at h
  split at h
  · exact .inr ⟨‹_›, next_inj h⟩
  · exact .inl (next_inj h)

/-- The frame turn's act waits for the arbiter; then the pending turn is taken. -/
theorem execFrameTurnTaken_cases {s t : State} (h : execFrameTurnTaken s = .next t) :
    t = s ∨ ∃ turn, s.grants .frameTurn = true ∧ s.turn = some turn ∧ t = s.takeTurn turn := by
  unfold execFrameTurnTaken at h
  split at h
  · split at h
    · exact .inr ⟨_, ‹_›, ‹_›, next_inj h⟩
    · exact .inl (next_inj h)
  · exact .inl (next_inj h)

/-- A frame turn taken is discarded in OFF; else the queue is applied, OUTPUT posted where due, and the fetch engine
told. -/
theorem State.takeTurn_cases (s : State) (turn : PendingTurn) :
    (s.raster.output = .off ∧ s.takeTurn turn = { s with turn := none }) ∨
      (s.raster.output ≠ .off ∧ s.takeTurn turn =
        ((({ s with turn := none } : State).applyQueue.1.postTurn turn).closeTurn turn
          ({ s with turn := none } : State).applyQueue.2)) := by
  unfold State.takeTurn
  dsimp only
  split
  · exact .inl ⟨‹_›, rfl⟩
  · exact .inr ⟨‹_›, rfl⟩

/-- A suspension request waits for the arbiter; then the head of the list is taken. -/
theorem execSuspensionRequestTaken_cases {s t : State} (h : execSuspensionRequestTaken s = .next t) :
    t = s ∨ ∃ r rs, s.grants .suspension = true ∧ s.suspensions = r :: rs ∧ t = s.dropRequest.suspend r := by
  unfold execSuspensionRequestTaken at h
  split at h
  · split at h
    · exact .inr ⟨_, _, ‹_›, ‹_›, next_inj h⟩
    · exact .inl (next_inj h)
  · exact .inl (next_inj h)

/-- A suspension is ignored, or it makes a SHOWN slot SUSPENDED, stops its stream and posts SUSPENDED. -/
theorem State.suspend_cases (s : State) (r : Handle) :
    s.suspend r = s ∨ ∃ ix o w, r.ix? = some ix ∧ s.table.body ix = .opened o .shown w ∧ s.table.gen ix = r.gen ∧
      s.suspend r =
        (({ s with table := s.table.setBody ix (.opened o .suspended w) } : State).stopStream ix).postSuspended o ix r.gen := by
  unfold State.suspend
  split
  · exact .inl rfl
  · rename_i ix hix
    split
    · rename_i o w hb
      split
      · exact .inr ⟨ix, o, w, hix, hb, ‹_›, rfl⟩
      · exact .inl rfl
    · exact .inl rfl

/-- An abandon request waits for the arbiter; then the open batch is discarded and the indication cleared. -/
theorem execLinkResetAbandon_cases {p : Port} {s t : State} (h : execLinkResetAbandon p s = .next t) :
    t = s ∨ s.grants (.abandon p) = true ∧
      t = (s.discardOpen p).setLink p { s.link p with abandonPending := false } := by
  unfold execLinkResetAbandon at h
  split at h
  · refine .inr ⟨‹_›, ?_⟩
    rw [next_inj h]
    simp
  · exact .inl (next_inj h)

/-- A line start waits until it is due; then the tags age and time out. -/
theorem execLineStart_cases {s t : State} (h : execLineStart s = .next t) :
    t = s ∨ ∃ l, s.nextEvent = some (.lineStart l) ∧ t = (s.tookEvent (.lineStart l)).lineStartAct := by
  unfold execLineStart at h
  split at h
  · exact .inr ⟨_, ‹_›, next_inj h⟩
  · exact .inl (next_inj h)

/-- A property that ageing and each timeout keep is kept by a line start's act. -/
theorem State.lineStartAct_keeps {P : State → Prop} {s : State} (hs : P s.ageTags)
    (ht : ∀ s t, P s → P (s.timeoutTag t)) : P s.lineStartAct := by
  have : ∀ (l : List TagIx) (s : State), P s → P (l.foldl State.timeoutTag s) := by
    intro l
    induction l with
    | nil => intro s h; exact h
    | cons a l ih => intro s h; exact ih _ (ht s a h)
  exact this _ _ hs

/-- A tag's timeout waits, or quarantines the tag with its age one more. -/
theorem execTagTimeout_cases {k : TagIx} {s t : State} (h : execTagTimeout k s = .next t) :
    t = s ∨ ∃ l e, s.nextEvent = some (.lineStart l) ∧ s.mem.tags[k] = .waiting e ∧ s.mem.timeout ≤ agedBy e.age ∧
      t = s.quarantine k { e with age := agedBy e.age } := by
  unfold execTagTimeout at h
  split at h
  · split at h
    · split at h
      · exact .inr ⟨_, _, ‹_›, ‹_›, ‹_›, next_inj h⟩
      · exact .inl (next_inj h)
    · exact .inl (next_inj h)
  · exact .inl (next_inj h)

/-- An active-line start waits until it is due; then its act is made and the pins are driven. -/
theorem execActiveLineStart_cases {s t : State} (h : execActiveLineStart s = .next t) :
    t = s ∨ ∃ l, s.nextEvent = some (.activeLineStart l) ∧
      t = ((s.tookEvent (.activeLineStart l)).activeLineStartAct l).pinsDriven := by
  unfold execActiveLineStart at h
  split at h
  · exact .inr ⟨_, ‹_›, (State.drive_next h).2⟩
  · exact .inl (next_inj h)

/-- An active-line end waits until it is due; then its act is made. -/
theorem execActiveLineEnd_cases {s t : State} (h : execActiveLineEnd s = .next t) :
    t = s ∨ ∃ l, s.nextEvent = some (.activeLineEnd l) ∧
      t = (s.tookEvent (.activeLineEnd l)).activeLineEndAct l := by
  unfold execActiveLineEnd at h
  split at h
  · exact .inr ⟨_, ‹_›, next_inj h⟩
  · exact .inl (next_inj h)

/-- An active end waits until it is due; then its act is made. -/
theorem execActiveEnd_cases {s t : State} (h : execActiveEnd s = .next t) :
    t = s ∨ s.nextEvent = some .activeEnd ∧ t = (s.tookEvent .activeEnd).activeEndAct := by
  unfold execActiveEnd at h
  split at h
  · exact .inr ⟨‹_›, next_inj h⟩
  · exact .inl (next_inj h)

/-- A pick is made where the output is LIVE, the channel EMPTY, a tag FREE and a candidate waiting. -/
theorem execFetchPick_cases {s t : State} (h : execFetchPick s = .next t) :
    t = s ∨ ∃ k d pick, s.raster.output = .live ∧ s.mem.channel = none ∧ s.lowestFreeTag = some k ∧
      s.bestCandidate = some (d, pick) ∧ t = s.offer k pick := by
  unfold execFetchPick at h
  split at h
  · rename_i hp
    split at h
    · exact .inr ⟨_, _, _, hp.1, hp.2.1, ‹_›, ‹_›, next_inj h⟩
    · exact .inl (next_inj h)
  · exact .inl (next_inj h)

/-- An acceptance empties the channel, and marks the tag's entry accepted where the offer's epoch is current. -/
theorem execRequestAccept_cases {s t : State} (h : execRequestAccept s = .next t) :
    (s.mem.channel = none ∧ t = s) ∨ ∃ o, s.mem.channel = some o ∧
      ((o.epoch ≠ s.mem.epoch ∧ t = { s with mem := { s.mem with channel := none } }) ∨
       (o.epoch = s.mem.epoch ∧ t = ({ s with mem := { s.mem with channel := none } } : State).setTag o.tag
          (s.mem.tags[o.tag]).acceptedNow)) := by
  unfold execRequestAccept at h
  split at h
  · exact .inl ⟨‹_›, next_inj h⟩
  · rename_i o ho
    refine .inr ⟨o, ho, ?_⟩
    dsimp only at h
    split at h
    · exact .inr ⟨‹_›, next_inj h⟩
    · exact .inl ⟨‹_›, next_inj h⟩

/-- An active end changes the pending target of the raster generator only, where a command may have been taken. -/
theorem State.activeEndAct_raster (s : State) :
    s.activeEndAct.raster = s.raster ∨ s.activeEndAct.raster = s.requested.raster := by
  unfold State.activeEndAct
  dsimp only
  split
  · exact .inl rfl
  · exact .inr rfl

/-- An event taken leaves the list of those due, and does not bring the output to OFF. -/
theorem State.takeEvent_next {e : RasterEvent} {s t : State} (h : s.takeEvent e = .next t) :
    t.raster.due = s.raster.due.erase e ∧ (s.raster.output ≠ .off → t.raster.output ≠ .off) := by
  cases e with
  | lineStart l =>
    rw [next_inj h]
    have := State.lineStartAct_keeps (P := fun x => x.raster = (s.tookEvent (.lineStart l)).raster)
      (s := s.tookEvent (.lineStart l)) (by simp) (fun s t h => by simpa using h)
    rw [this]
    exact ⟨rfl, fun h => h⟩
  | frameTurn =>
    rw [next_inj h]
    show (s.raster.took .frameTurn).turned.due = _ ∧ (_ → (s.raster.took .frameTurn).turned.output ≠ .off)
    unfold Raster.turned
    dsimp only
    split
    · exact ⟨rfl, fun _ => by simp⟩
    · split
      · exact ⟨rfl, fun _ => by simp⟩
      · exact ⟨rfl, fun h => h⟩
    · exact ⟨rfl, fun h => h⟩
  | activeLineStart l => rw [(State.drive_next h).2]; exact ⟨rfl, fun h => h⟩
  | activeLineEnd l => rw [next_inj h]; exact ⟨rfl, fun h => h⟩
  | activeEnd =>
    rw [next_inj h]
    obtain e | e := (s.tookEvent .activeEnd).activeEndAct_raster <;> rw [e]
    · exact ⟨rfl, fun h => h⟩
    · rw [State.requested_due, State.requested_output]; exact ⟨rfl, fun h => h⟩

/-- The next position is reached, and a command may have been taken where it is the frame turn's. -/
theorem State.reached_cases (s : State) : ∃ u, (u = s ∨ u = s.requested) ∧
    s.reached = { u with raster := u.raster.advanced } := by
  unfold State.reached
  dsimp only
  split
  · exact ⟨_, .inr rfl, rfl⟩
  · exact ⟨_, .inl rfl, rfl⟩

/-- A clock edge does nothing in OFF; else the events due come about, the counters advance and the pins are driven. -/
theorem execPclkRisingEdge_cases {s t : State} (h : execPclkRisingEdge s = .next t) :
    (s.raster.output = .off ∧ t = s) ∨ ∃ u, s.raster.output ≠ .off ∧ State.takeEvents s.raster.due s = .next u ∧
      t = u.reached.pinsDriven := by
  unfold execPclkRisingEdge at h
  split at h
  · exact .inl ⟨‹_›, next_inj h⟩
  · refine .inr ?_
    split at h
    · exact ⟨_, ‹_›, ‹_›, (State.drive_next h).2⟩
    · cases h
    · cases h

/-- A completion's outcomes at a tag (R130): SPURIOUS for a FREE tag; else the tag becomes FREE, and an unmarked
WAITING one's data is delivered or its half fails. -/
theorem State.matchTag_next {s t : State} {k : TagIx} {error : Bool} {beats : List Beat}
    (h : s.matchTag k error beats = .next t) :
    (s.mem.tags[k] = .free ∧ t = s.postSpurious) ∨ t = s.freeTag k ∨
      ∃ e, s.mem.tags[k] = .waiting e ∧ e.discard = false ∧
        ((e.takesOk error beats.length = true ∧ (s.freeTag k).deliver e beats = .next t) ∨
         (e.takesOk error beats.length = false ∧ t = (s.freeTag k).deliverError e)) := by
  unfold State.matchTag at h
  split at h
  · exact .inl ⟨‹_›, next_inj h⟩
  · exact .inr (.inl (next_inj h))
  · rename_i e he
    split at h
    · exact .inr (.inl (next_inj h))
    · rename_i hd
      refine .inr (.inr ⟨e, he, by simpa using hd, ?_⟩)
      split at h
      · exact .inl ⟨‹_›, h⟩
      · exact .inr ⟨by simpa using ‹¬ e.takesOk error beats.length = true›, next_inj h⟩

/-- A delivery finds the half FILLING the row, and writes the data and counts the segment; or the half is not, and
nothing changes. -/
theorem State.deliver_next {s t : State} {e : TagEntry} {beats : List Beat} (h : s.deliver e beats = .next t) :
    t = s ∨ ∃ ix seg ld, e.handle.ix? = some ix ∧ (s.streams[ix].half e.half).fills e.row = true ∧
      (s.streams[ix].half e.half).place = some seg ∧ s.streams[ix].load = some ld ∧
      t = ({ s with store := Memory.writeBytes s.store (storeAddress (seg + e.segment) 0) (dataBytes beats) } :
        State).setStream ix
          (s.streams[ix].setHalf e.half ((s.streams[ix].half e.half).filledOne ld.segments)) := by
  unfold State.deliver at h
  split at h
  · exact .inl (next_inj h)
  · rename_i ix hix
    dsimp only at h
    split at h
    · split at h
      · split at h
        · exact .inr ⟨ix, _, _, hix, ‹_›, ‹_›, ‹_›, next_inj h⟩
        · cases h
      · cases h
    · exact .inl (next_inj h)

/-- Beats join those held, or complete a completion of an old epoch that is dropped, or one that is matched. -/
theorem execCompletion_cases {beats : List Beat} {s t : State} (h : execCompletion beats s = .next t) :
    (∃ held, t = { s with mem := { s.mem with beats := held } }) ∨
      ∃ (k : TagIx) (error : Bool) (all : List Beat),
        ({ s with mem := { s.mem with beats := [] } } : State).matchTag k error all = .next t := by
  unfold execCompletion at h
  split at h
  · split at h
    · exact .inl ⟨s.mem.beats, next_inj h⟩
    unfold State.arrive at h
    dsimp only at h
    split at h
    · unfold State.complete at h
      split at h
      · exact .inl ⟨[], next_inj h⟩
      · split at h
        · exact .inr ⟨_, _, _, h⟩
        · exact .inl ⟨[], next_inj h⟩
    · exact .inl ⟨_, next_inj h⟩
  · cases h

end Sys2Proof.Machine
end

