-- ==== Sys2Proof/Laws/Acts.lean ====
section
/-! SUPPORT. The acts a step is made of. `CommandAct` lists what a command taken can do besides its response; `Act`
lists what any step can do. Every invariant of the part is a case analysis over these. -/

namespace Sys2Proof.Machine

/-- What a command of port `p` can do to the state `u` left by taking it, besides its response. -/
inductive CommandAct (p : Port) (u : State) : State → Prop
  | nothing : CommandAct p u u
  | staged (e : Entry) (hd : e.inDomain = true) (hl : (u.staging p).openBatch.length < 16)
      (hr : (u.portView p).refuses p e = none) (hn : openedBy [e] = []) : CommandAct p u (u.appendEntry p e)
  | opened (ix : SlotIx) (w : Window) (vis : Visibility) (pl : Placement) (hw : w.inDomain = true)
      (hl : (u.staging p).openBatch.length < 16) (hf : u.table.lowestFree = some ix) :
      CommandAct p u ((u.reserve p ix).appendEntry p (.window (handleOf ix (u.table.gen ix)) (.create w vis pl)))
  | committed (h : u.refusesCommit p = none) : CommandAct p u (u.acceptCommit p)
  | abandoned : CommandAct p u (u.discardOpen p)
  | noticesTaken : CommandAct p u (u.post p fun _ => Notices.empty)
  | started (ho : u.raster.output = .off) (hv : u.raster.profile.valid = true) : CommandAct p u u.startOutput
  | liveAsked (ho : u.raster.output = .syncOnly) : CommandAct p u (u.setTarget .live)
  | quietAsked (ho : u.raster.output = .live) : CommandAct p u (u.setTarget .syncOnly)
  | targetCleared : CommandAct p u (u.setTarget .none)
  | stopped (ho : u.raster.output ≠ .off) : CommandAct p u u.stopOutput
  | retimed (prof : Profile) (ho : u.raster.output = .off) (hv : prof.valid = true)
      (hl : peakLanes u.liveView.countedWindows prof.activeHeight ≤ 6) :
      CommandAct p u { u with raster := { u.raster with profile := prof }, pins := prof.offPins }
  | timeoutSet (n : Nat) (h1 : 1 ≤ n) (h2 : n ≤ 63) : CommandAct p u { u with mem := { u.mem with timeout := n } }
  | fetchReset : CommandAct p u u.resetFetch

theorem stage_act (p : Port) (allowed : Bool) (e : Option Entry) (u : State)
    (hn : ∀ e', e = some e' → openedBy [e'] = []) : CommandAct p u (stage p allowed e u).2 := by
  obtain ⟨c, -, h⟩ | ⟨e', -, he, hd, hl, hr, h⟩ := stage_cases p allowed e u <;> rw [h]
  · exact .nothing
  · exact .staged e' hd hl hr (hn e' he)

/-- The parameters of a command that names a window never spell OPEN's entry. -/
theorem decodeNamed_opens {code : Byte} {params : List Byte} {e : Entry} (h : decodeNamed code params = some e) :
    openedBy [e] = [] := by
  unfold decodeNamed at h
  split at h
  · obtain ⟨c, hc, rfl⟩ := Option.map_eq_some_iff.mp h
    suffices ∀ w vis pl, c ≠ .create w vis pl by cases c <;> first | (exact absurd rfl (this _ _ _)) | rfl
    rintro w vis pl rfl
    unfold decodeChange at hc
    (repeat' split at hc) <;> simp at hc
  · cases h

theorem decodeBackdrop_opens {params : List Byte} {e : Entry} (h : decodeBackdrop params = some e) :
    openedBy [e] = [] := by
  unfold decodeBackdrop at h
  split at h <;> cases h
  rfl

theorem stageOpen_act (p : Port) (params : List Byte) (u : State) : CommandAct p u (stageOpen p params u).2 := by
  obtain ⟨c, -, h⟩ | ⟨w, vis, pl, ix, -, -, hw, hl, hf, -, h⟩ := stageOpen_cases p params u <;> rw [h]
  · exact .nothing
  · exact .opened ix w vis pl hw hl hf

theorem commitBody_act (p : Port) (params : List Byte) (u : State) : CommandAct p u (commitBody p params u).2 := by
  unfold commitBody
  split
  · exact .nothing
  · exact .committed ‹_›

theorem queryWindowBody_act (p : Port) (params : List Byte) (u : State) :
    CommandAct p u (queryWindowBody p params u).2 := by
  unfold queryWindowBody
  split <;> exact .nothing

theorem takeNoticesBody_act (p : Port) (params : List Byte) (u : State) :
    CommandAct p u (takeNoticesBody p params u).2 := by
  unfold takeNoticesBody
  dsimp only
  split
  · exact .nothing
  · exact .noticesTaken

theorem outputCommand_act {act : State → ResultCode × State} {p : Port} {u : State} (params : List Byte)
    (h : CommandAct p u (act u).2) : CommandAct p u (outputCommand p act params u).2 := by
  cases p
  · exact h
  · exact .nothing

theorem startAct_act (p : Port) (u : State) : CommandAct p u (startAct u).2 := by
  unfold startAct
  split
  · split
    · exact .started ‹_› ‹_›
    · exact .nothing
  · exact .nothing

theorem liveAct_act (p : Port) (u : State) : CommandAct p u (liveAct u).2 := by
  unfold liveAct
  split
  · exact .nothing
  · exact .liveAsked ‹_›
  · exact .targetCleared

theorem quietAct_act (p : Port) (u : State) : CommandAct p u (quietAct u).2 := by
  unfold quietAct
  split
  · exact .nothing
  · exact .quietAsked ‹_›
  · exact .targetCleared

theorem stopAct_act (p : Port) (u : State) : CommandAct p u (stopAct u).2 := by
  unfold stopAct
  split
  · exact .nothing
  · exact .stopped ‹_›

/-- A timing profile that passes SET_TIMING's checks is valid, and the output is OFF. -/
theorem State.checkTiming_ok {u : State} {params : List Byte} {prof : Profile} (h : u.checkTiming params = .ok prof) :
    u.raster.output = .off ∧ decodeProfile params = some prof ∧ prof.valid = true ∧
      peakLanes u.liveView.countedWindows prof.activeHeight ≤ 6 := by
  unfold State.checkTiming at h
  split at h
  · cases h
  · rename_i ho
    split at h
    · cases h
    · rename_i t ht
      (repeat' split at h) <;> first | (cases h; done) | skip
      rename_i h1 h2 h3
      cases h
      exact ⟨by simpa using ho, ht, by simp_all [Profile.valid], by simpa using h3⟩

theorem setTimingBody_act (p : Port) (params : List Byte) (u : State) :
    CommandAct p u (setTimingBody p params u).2 := by
  unfold setTimingBody
  split
  · exact .nothing
  · split
    · exact .nothing
    · have := State.checkTiming_ok ‹_›
      exact .retimed _ this.1 this.2.2.1 this.2.2.2

theorem setFetchTimeoutBody_act (p : Port) (params : List Byte) (u : State) :
    CommandAct p u (setFetchTimeoutBody p params u).2 := by
  unfold setFetchTimeoutBody
  split
  · exact .nothing
  · split
    · exact .nothing
    · rename_i n hn
      unfold decodeTimeout at hn
      split at hn
      · split at hn
        · cases hn; exact .timeoutSet _ (by omega) (by omega)
        · cases hn
      · cases hn

theorem resetFetchBody_act (p : Port) (params : List Byte) (u : State) :
    CommandAct p u (resetFetchBody p params u).2 := by
  unfold resetFetchBody
  split
  · exact .nothing
  · exact .fetchReset

/-- Everything a row that takes a known command can do: it waits, or the command is taken, makes one of
the acts, and its response is placed. -/
theorem exec_command {i : Instr} {p : Port} {code : Byte} {s t : State} (hi : i.command? = some (p, code))
    (h : exec i s = .next t) :
    t = s ∨ ∃ c v r, s.servable p = some c ∧ c.code = code ∧ CommandAct p (s.takeHead p) v ∧ t = v.respond p c r := by
  have key : ∀ {len : Nat} {body : CommandBody}, (∀ ps, CommandAct p (s.takeHead p) (body ps (s.takeHead p)).2) →
      serve p code len body s = .next t → t = s ∨ ∃ c v r, s.servable p = some c ∧ c.code = code ∧
        CommandAct p (s.takeHead p) v ∧ t = v.respond p c r := by
    intro len body hb h
    obtain h | ⟨c, hc, hcode, ⟨r, -, h⟩ | ⟨-, h⟩ | ⟨-, h⟩⟩ := serve_cases h
    · exact .inl h
    · exact .inr ⟨c, _, r, hc, hcode, .nothing, h⟩
    · exact .inr ⟨c, _, _, hc, hcode, .nothing, h⟩
    · exact .inr ⟨c, _, _, hc, hcode, hb _, h⟩
  cases i <;> simp only [Instr.command?, reduceCtorEq, Option.some.injEq, Prod.mk.injEq] at hi <;>
    obtain ⟨rfl, rfl⟩ := hi <;> simp only [exec] at h
  case openWindow => exact key (fun _ => stageOpen_act _ _ _) h
  case commit => exact key (fun _ => commitBody_act _ _ _) h
  case abandon => exact key (fun _ => .abandoned) h
  case queryWindow => exact key (fun _ => queryWindowBody_act _ _ _) h
  case queryState => exact key (fun _ => .nothing) h
  case takeNotices => exact key (fun _ => takeNoticesBody_act _ _ _) h
  case queryTiming => exact key (fun _ => .nothing) h
  case outputStart => exact key (fun _ => outputCommand_act _ (startAct_act _ _)) h
  case outputLive => exact key (fun _ => outputCommand_act _ (liveAct_act _ _)) h
  case outputQuiet => exact key (fun _ => outputCommand_act _ (quietAct_act _ _)) h
  case outputStop => exact key (fun _ => outputCommand_act _ (stopAct_act _ _)) h
  case setTiming => exact key (fun _ => setTimingBody_act _ _ _) h
  case setFetchTimeout => exact key (fun _ => setFetchTimeoutBody_act _ _ _) h
  case resetFetch => exact key (fun _ => resetFetchBody_act _ _ _) h
  case backdrop => exact key (fun _ => stage_act _ _ _ _ fun _ => decodeBackdrop_opens) h
  all_goals exact key (fun _ => stage_act _ _ _ _ fun _ => decodeNamed_opens) h

/-- What one step can do to the state. -/
inductive Act (s : State) : State → Prop
  | wait : Act s s
  | reset : Act s { State.reset with pending := s.pending, rstAsserted := !s.rstAsserted, choices := s.choices }
  | frame {i : Instr} {m : Moment} {t : State} (hi : i.moment? = some m) (h : exec i s = .next t) : Act s t
  | command (p : Port) (c : QueuedCommand) (r : Reply) {v : State} (hc : s.servable p = some c)
      (h : CommandAct p (s.takeHead p) v) : Act s (v.respond p c r)
  | frameTurn (h : s.raster.takeable .frameTurn = true) : Act s (s.tookEvent .frameTurn).signalTurn
  | turnTaken (turn : PendingTurn) (hg : s.grants .frameTurn = true) (h : s.turn = some turn) : Act s (s.takeTurn turn)
  | suspension (r : Handle) (rs : List Handle) (h : s.suspensions = r :: rs) : Act s (s.dropRequest.suspend r)
  | abandon (p : Port) (hg : s.grants (.abandon p) = true) :
      Act s ((s.discardOpen p).setLink p { s.link p with abandonPending := false })
  | lineStart (l : Nat) (h : s.nextEvent = some (.lineStart l)) : Act s (s.tookEvent (.lineStart l)).lineStartAct
  | tagTimeout (k : TagIx) (e : TagEntry) (h : s.mem.tags[k] = .waiting e) (ht : s.mem.timeout ≤ agedBy e.age) :
      Act s (s.quarantine k { e with age := agedBy e.age })
  | activeLineStart (l : Nat) (h : s.nextEvent = some (.activeLineStart l)) :
      Act s ((s.tookEvent (.activeLineStart l)).activeLineStartAct l).pinsDriven
  | activeLineEnd (l : Nat) (h : s.nextEvent = some (.activeLineEnd l)) :
      Act s ((s.tookEvent (.activeLineEnd l)).activeLineEndAct l)
  | activeEnd (h : s.nextEvent = some .activeEnd) : Act s (s.tookEvent .activeEnd).activeEndAct
  | pick (k : TagIx) (d : Int) (pick : Pick) (ho : s.raster.output = .live) (hc : s.mem.channel = none)
      (hk : s.lowestFreeTag = some k) (hb : s.bestCandidate = some (d, pick)) : Act s (s.offer k pick)
  | accept : Act s { s with mem := { s.mem with channel := none } }
  | acceptTag (o : Offer) (h : s.mem.channel = some o) : Act s
      (({ s with mem := { s.mem with channel := none } } : State).setTag o.tag (s.mem.tags[o.tag]).acceptedNow)
  | beats (held : List Beat) : Act s { s with mem := { s.mem with beats := held } }
  | spurious : Act s ({ s with mem := { s.mem with beats := [] } } : State).postSpurious
  | freed (k : TagIx) : Act s (({ s with mem := { s.mem with beats := [] } } : State).freeTag k)
  | delivered (k : TagIx) (e : TagEntry) (all : List Beat) {t : State} (he : s.mem.tags[k] = .waiting e)
      (hd : e.discard = false)
      (h : (({ s with mem := { s.mem with beats := [] } } : State).freeTag k).deliver e all = .next t) : Act s t
  | failed (k : TagIx) (e : TagEntry) (he : s.mem.tags[k] = .waiting e) (hd : e.discard = false) :
      Act s ((({ s with mem := { s.mem with beats := [] } } : State).freeTag k).deliverError e)
  | edge (ho : s.raster.output ≠ .off) (hd : s.raster.due = []) {u : State} (hu : u = s ∨ u = s.requested) :
      Act s ({ u with raster := u.raster.advanced } : State).pinsDriven

/-- Acts made one after the other, as a PCLK edge makes the events still due and then moves the counters. -/
inductive Acts : State → State → Prop
  | done (s : State) : Acts s s
  | more {s u t : State} (h : Act s u) (rest : Acts u t) : Acts s t

/-- A property that every act keeps is kept by acts in a row. -/
theorem Acts.keeps {P : State → Prop} (hP : ∀ s t, Act s t → P s → P t) {s t : State} (h : Acts s t) : P s → P t := by
  induction h with
  | done => exact fun h => h
  | more h _ ih => exact fun hs => ih (hP _ _ h hs)

theorem Acts.one {s t : State} (h : Act s t) : Acts s t := .more h (.done t)

theorem Acts.trans {s u t : State} (h : Acts s u) (h' : Acts u t) : Acts s t := by
  induction h with
  | done => exact h'
  | more h _ ih => exact .more h (ih h')

/-- The event that is due first, taken, is an act. -/
theorem State.takeEvent_act {e : RasterEvent} {s t : State} (hd : s.raster.due.head? = some e)
    (h : s.takeEvent e = .next t) : Act s t := by
  cases e with
  | lineStart l => rw [next_inj h]; exact .lineStart l hd
  | frameTurn => rw [next_inj h]; exact .frameTurn (by simp [Raster.takeable, hd])
  | activeLineStart l => rw [(State.drive_next h).2]; exact .activeLineStart l hd
  | activeLineEnd l => rw [next_inj h]; exact .activeLineEnd l hd
  | activeEnd => rw [next_inj h]; exact .activeEnd hd

/-- The events due, taken in their order, are acts; none is due afterwards, and the output is not brought to OFF. -/
theorem State.takeEvents_acts {es : List RasterEvent} {s t : State} (hd : s.raster.due = es)
    (h : State.takeEvents es s = .next t) :
    Acts s t ∧ t.raster.due = [] ∧ (s.raster.output ≠ .off → t.raster.output ≠ .off) := by
  induction es generalizing s with
  | nil => rw [next_inj h]; exact ⟨.done s, hd, fun h => h⟩
  | cons e es ih =>
    unfold State.takeEvents at h
    split at h
    · rename_i u hu
      have hn := State.takeEvent_next hu
      obtain ⟨h1, h2, h3⟩ := ih (by rw [hn.1, hd]; simp) h
      exact ⟨.more (State.takeEvent_act (by rw [hd]; rfl) hu) h1, h2, fun ho => h3 (hn.2 ho)⟩
    · cases h
    · cases h

/-- A row that takes no host command makes one of the acts, or several where a PCLK edge finds events due. -/
theorem exec_event_acts {i : Instr} {s t : State} (hi : i.command? = none) (hm : i.moment? = none)
    (h : exec i s = .next t) : Acts s t := by
  by_cases he : i = .pclkRisingEdge
  · subst he
    obtain ⟨-, e⟩ | ⟨u, ho, hu, e⟩ := execPclkRisingEdge_cases h <;> rw [e]
    · exact .done s
    · obtain ⟨h1, h2, h3⟩ := State.takeEvents_acts rfl hu
      obtain ⟨v, hv, e⟩ := u.reached_cases
      rw [e]
      exact h1.trans (.one (.edge (h3 ho) h2 hv))
  refine .one ?_
  cases i <;> simp only [Instr.command?, Instr.moment?, reduceCtorEq] at hi hm <;> simp only [exec] at h
  case deviceReset => rw [next_inj h]; exact .reset
  case unknownCommandCode p =>
    obtain e | ⟨c, r, hc, -, e, -⟩ := execUnknownCommandCode_cases h <;> rw [e]
    exacts [.wait, .command p c _ hc .nothing]
  case frameTurn => obtain e | ⟨h', e⟩ := execFrameTurn_cases h <;> rw [e]; exacts [.wait, .frameTurn h']
  case frameTurnTaken =>
    obtain e | ⟨turn, hg, h', e⟩ := execFrameTurnTaken_cases h <;> rw [e]; exacts [.wait, .turnTaken turn hg h']
  case suspensionRequestTaken =>
    obtain e | ⟨r, rs, -, h', e⟩ := execSuspensionRequestTaken_cases h <;> rw [e]; exacts [.wait, .suspension r rs h']
  case linkResetAbandon p =>
    obtain e | ⟨hg, e⟩ := execLinkResetAbandon_cases h <;> rw [e]; exacts [.wait, .abandon p hg]
  case lineStart => obtain e | ⟨l, h', e⟩ := execLineStart_cases h <;> rw [e]; exacts [.wait, .lineStart l h']
  case tagTimeout k =>
    obtain e | ⟨l, w, -, h', ht, e⟩ := execTagTimeout_cases h <;> rw [e]; exacts [.wait, .tagTimeout k w h' ht]
  case activeLineStart =>
    obtain e | ⟨l, h', e⟩ := execActiveLineStart_cases h <;> rw [e]; exacts [.wait, .activeLineStart l h']
  case activeLineEnd =>
    obtain e | ⟨l, h', e⟩ := execActiveLineEnd_cases h <;> rw [e]; exacts [.wait, .activeLineEnd l h']
  case activeEnd => obtain e | ⟨h', e⟩ := execActiveEnd_cases h <;> rw [e]; exacts [.wait, .activeEnd h']
  case fetchPick =>
    obtain e | ⟨k, d, pick, ho, hc, hk, hb, e⟩ := execFetchPick_cases h <;> rw [e]
    exacts [.wait, .pick k d pick ho hc hk hb]
  case requestAccept =>
    obtain ⟨-, e⟩ | ⟨o, ho, ⟨-, e⟩ | ⟨-, e⟩⟩ := execRequestAccept_cases h <;> rw [e]
    exacts [.wait, .accept, .acceptTag o ho]
  case completion =>
    obtain ⟨held, e⟩ | ⟨k, error, all, h'⟩ := execCompletion_cases h
    · rw [e]; exact .beats held
    · obtain ⟨-, e⟩ | e | ⟨w, he, hd, ⟨-, hdel⟩ | ⟨-, e⟩⟩ := State.matchTag_next h'
      · rw [e]; exact .spurious
      · rw [e]; exact .freed k
      · exact .delivered k w all he hd hdel
      · rw [e]; exact .failed k w he hd
  case pclkRisingEdge => exact absurd rfl he

/-- Every step that answers a next state makes acts. -/
theorem exec_acts {i : Instr} {s t : State} (h : exec i s = .next t) : Acts s t := by
  cases hm : i.moment? with
  | some m => exact .one (.frame hm h)
  | none => cases hi : i.command? with
    | none => exact exec_event_acts hi hm h
    | some pc =>
      obtain e | ⟨c, v, r, hc, -, ha, e⟩ := exec_command (p := pc.1) (code := pc.2) hi h <;> rw [e]
      · exact .done s
      · exact .one (.command _ c r hc ha)

end Sys2Proof.Machine
end

