-- ==== Sys2Proof/Laws/Tables.lean ====
section
/-! SUPPORT. The tabulated vectors, the lists of all slots and all tags, handles and slot numbers. -/

namespace Sys2Proof.Machine

@[simp] theorem tabSlots_getElem {α : Type} (f : SlotIx → α) (i : Nat) (h : i < 15) : (tabSlots f)[i] = f ⟨i, h⟩ := by
  interval_cases i <;> rfl

@[simp] theorem tabTags_getElem {α : Type} (f : TagIx → α) (i : Nat) (h : i < 8) : (tabTags f)[i] = f ⟨i, h⟩ := by
  interval_cases i <;> rfl

@[simp] theorem tabLanes_getElem {α : Type} (f : Fin 6 → α) (i : Nat) (h : i < 6) : (tabLanes f)[i] = f ⟨i, h⟩ := by
  interval_cases i <;> rfl

@[simp] theorem tabSlots_get {α : Type} (f : SlotIx → α) (ix : SlotIx) : (tabSlots f)[ix] = f ix :=
  tabSlots_getElem f ix.val ix.isLt

@[simp] theorem tabTags_get {α : Type} (f : TagIx → α) (t : TagIx) : (tabTags f)[t] = f t :=
  tabTags_getElem f t.val t.isLt

@[simp] theorem tabLanes_get {α : Type} (f : Fin 6 → α) (i : Fin 6) : (tabLanes f)[i] = f i :=
  tabLanes_getElem f i.val i.isLt

@[simp] theorem mem_allSlots (ix : SlotIx) : ix ∈ allSlots := by revert ix; decide

@[simp] theorem mem_allTags (t : TagIx) : t ∈ allTags := by revert t; decide

theorem allSlots_nodup : allSlots.Nodup := by decide

theorem allTags_nodup : allTags.Nodup := by decide

/-- A record written at one slot, read at any slot. -/
theorem getSlot_set {α : Type} (v : Vector α 15) (i j : SlotIx) (x : α) :
    (v.set i x)[j] = if i = j then x else v[j] := by
  simp only [Fin.getElem_fin, Vector.getElem_set, Fin.val_inj]

/-- An entry written at one tag, read at any tag. -/
theorem getTag_set {α : Type} (v : Vector α 8) (i j : TagIx) (x : α) :
    (v.set i x)[j] = if i = j then x else v[j] := by
  simp only [Fin.getElem_fin, Vector.getElem_set, Fin.val_inj]

/-- A sum over the slots that changes at one slot only. -/
theorem sum_allSlots_update (f g : SlotIx → Nat) (ix : SlotIx) (h : ∀ j, j ≠ ix → g j = f j) :
    (allSlots.map g).sum + f ix = (allSlots.map f).sum + g ix := by
  have e (l : List SlotIx) (hn : l.Nodup) :
      (l.map g).sum + (if ix ∈ l then f ix else 0) = (l.map f).sum + (if ix ∈ l then g ix else 0) := by
    induction l with
    | nil => simp
    | cons a l ih =>
      have hn' := List.nodup_cons.mp hn
      have ih := ih hn'.2
      by_cases ha : ix = a
      · subst ha
        simp only [hn'.1, if_false] at ih
        simp; omega
      · have := h a (Ne.symm ha)
        simp only [List.map_cons, List.sum_cons, List.mem_cons, ha, false_or]; omega
  simpa using e allSlots allSlots_nodup

/-- A sum over the slots of equal summands. -/
theorem sum_allSlots_congr (f g : SlotIx → Nat) (h : ∀ j, g j = f j) : (allSlots.map g).sum = (allSlots.map f).sum := by
  rw [show g = f from funext h]

/-- The handle made for a slot names the slot. -/
@[simp] theorem handleOf_ix (ix : SlotIx) (g : Nibble) : (handleOf ix g).ix? = some ix := by
  have h : (BitVec.ofNat 4 (ix.val + 1)).toNat = ix.val + 1 := by
    have := ix.isLt; simp; omega
  simp [Handle.ix?, handleOf, h]

@[simp] theorem handleOf_gen (ix : SlotIx) (g : Nibble) : (handleOf ix g).gen = g := rfl

/-- A handle that names a slot is the handle of that slot with its own generation. -/
theorem handle_of_ix {h : Handle} {ix : SlotIx} (e : h.ix? = some ix) : h = handleOf ix h.gen := by
  unfold Handle.ix? at e
  split at e
  · cases e
  · cases e
    obtain ⟨g, n⟩ := h
    have hn := n.isLt
    simp only [handleOf, Handle.mk.injEq, true_and] at *
    apply BitVec.eq_of_toNat_eq
    simp; omega

end Sys2Proof.Machine
end

