-- ==== Sys2Proof/Laws/TableActs.lean ====
section
/-! SUPPORT. The window table: its slots after each update, and what an applied change can do, said once. -/

namespace Sys2Proof.Machine

theorem Table.body_setBody (t : Table) (ix j : SlotIx) (b : SlotBody) :
    (t.setBody ix b).body j = if ix = j then b else t.body j := by
  simp only [Table.setBody, Table.body, getSlot_set]; split <;> rfl

theorem Table.gen_setBody (t : Table) (ix j : SlotIx) (b : SlotBody) : (t.setBody ix b).gen j = t.gen j := by
  simp only [Table.setBody, Table.gen, getSlot_set]; split
  · subst_vars; rfl
  · rfl

theorem Table.body_release (t : Table) (ix j : SlotIx) :
    (t.release ix).body j = if ix = j then .free else t.body j := by
  simp only [Table.release, Table.body, getSlot_set]; split <;> rfl

theorem Table.gen_release (t : Table) (ix j : SlotIx) :
    (t.release ix).gen j = if ix = j then t.gen j + 1 else t.gen j := by
  simp only [Table.release, Table.gen, getSlot_set]; split
  · subst_vars; rfl
  · rfl

/-- RESERVED slots of a port stand QUEUED, every other slot as it was. -/
theorem Table.body_reservedQueued (t : Table) (p : Port) (j : SlotIx) :
    (t.reservedQueued p).body j = if t.body j = .reserved p then .queued p else t.body j := by
  show Slot.body ((tabSlots _)[j]) = _
  rw [tabSlots_get]
  cases t.body j <;> simp
  split <;> simp_all

theorem Table.gen_reservedQueued (t : Table) (p : Port) (j : SlotIx) : (t.reservedQueued p).gen j = t.gen j := by
  show Slot.gen ((tabSlots _)[j]) = _
  rw [tabSlots_get]
  cases t.body j <;> rfl

/-- RESERVED slots of a port are FREE, every other slot as it was. -/
theorem Table.body_releaseReserved (t : Table) (p : Port) (j : SlotIx) :
    (t.releaseReserved p).body j = if t.body j = .reserved p then .free else t.body j := by
  show Slot.body ((tabSlots _)[j]) = _
  rw [tabSlots_get]
  cases t.body j <;> simp
  split <;> simp_all

/-- The generation of a released slot is one more (R4, R9). -/
theorem Table.gen_releaseReserved (t : Table) (p : Port) (j : SlotIx) :
    (t.releaseReserved p).gen j = if t.body j = .reserved p then t.gen j + 1 else t.gen j := by
  show Slot.gen ((tabSlots _)[j]) = _
  rw [tabSlots_get]
  cases t.body j <;> simp
  split <;> simp_all

/-- The held segments of a table that changes at one slot only. -/
theorem Table.held_update {t t' : Table} (ix : SlotIx) (h : ∀ j, j ≠ ix → t'.body j = t.body j) :
    (allSlots.map fun j => (t'.body j).held).sum + (t.body ix).held =
      (allSlots.map fun j => (t.body j).held).sum + (t'.body ix).held :=
  sum_allSlots_update (fun j => (t.body j).held) (fun j => (t'.body j).held) ix fun j hj => by
    show (t'.body j).held = (t.body j).held
    rw [h j hj]

/-- Everything a change can do to the slot it names. -/
inductive ChangeAct (t : Table) (ix : SlotIx) : Table → Prop
  | nothing : ChangeAct t ix t
  | created (o : Port) (w : Window) (vis : Visibility) (pl : Placement) (h : t.body ix = .queued o) :
      ChangeAct t ix (t.create ix o w vis pl)
  | rewritten (o : Port) (st st' : OpenState) (w w' : Window) (h : t.body ix = .opened o st w)
      (hp : w'.pinned = w.pinned) : ChangeAct t ix (t.rewrite ix o st w st' w')
  | restacked (o : Port) (st : OpenState) (w : Window) (pl : Placement) (h : t.body ix = .opened o st w) :
      ChangeAct t ix (t.restack ix w pl)
  | pinned (o : Port) (st : OpenState) (w : Window) (on : Bool) (h : t.body ix = .opened o st w) :
      ChangeAct t ix (t.pin ix o st w on)
  | retired (o : Port) (st : OpenState) (w : Window) (h : t.body ix = .opened o st w) :
      ChangeAct t ix (t.retire ix st w)

theorem Table.applyChange_act (t : Table) (ix : SlotIx) (c : Change) : ChangeAct t ix (t.applyChange ix c) := by
  cases hb : t.body ix with
  | opened o st w =>
    cases c <;> cases st <;> simp only [Table.applyChange, hb] <;>
      first
      | exact .nothing
      | exact .rewritten o _ _ w _ hb rfl
      | exact .restacked o _ w _ hb
      | exact .pinned o _ w _ hb
      | exact .retired o _ w hb
  | queued o =>
    cases c <;> simp only [Table.applyChange, hb] <;> first | exact .nothing | exact .created o _ _ _ hb
  | _ => simp only [Table.applyChange, hb]; exact .nothing

/-- A property of the table that every change keeps, and a new background, is kept by an entry. -/
theorem Table.applyEntry_keeps {P : Table → Prop} {t : Table} (e : Entry) (h : P t)
    (hc : ∀ t ix t', ChangeAct t ix t' → P t → P t') (hb : ∀ (t : Table) (c : Colour), P t → P { t with background := c }) :
    P (t.applyEntry e) := by
  unfold Table.applyEntry
  split
  · split
    · exact hc _ _ _ (Table.applyChange_act _ _ _) h
    · exact h
  · exact hb _ _ h

/-- A property of the table that an entry keeps is kept by a queue of batches. -/
theorem Table.applyQueue_keeps {P : Table → Prop} (q : List Batch) {t : Table} (h : P t)
    (he : ∀ t e, P t → P (t.applyEntry e)) :
    P (q.foldl (fun t b => b.entries.foldl Table.applyEntry t) t) := by
  have entries : ∀ (es : List Entry) (t : Table), P t → P (es.foldl Table.applyEntry t) := by
    intro es
    induction es with
    | nil => intro t h; exact h
    | cons e es ih => intro t h; exact ih _ (he t e h)
  induction q generalizing t with
  | nil => exact h
  | cons b q ih => exact ih (entries _ _ h)

end Sys2Proof.Machine
end

