-- ==== Sys2Proof/Laws/Views.lean ====
section
/-! SUPPORT. The views of R19: what an entry does in one, said once, and how a view follows the table the entries will
be applied to. -/

namespace Sys2Proof.Machine

/-! ### A change and the slots -/

/-- A change reaches no slot but the one it names. -/
theorem Table.applyChange_slots_ne (t : Table) {ix j : SlotIx} (c : Change) (h : ix ≠ j) :
    (t.applyChange ix c).slots[j] = t.slots[j] := by
  have h' : ix.val ≠ j.val := fun e => h (Fin.ext e)
  suffices key : ∀ t', ChangeAct t ix t' → t'.slots[j] = t.slots[j] by
    exact key _ (Table.applyChange_act t ix c)
  intro t' ht'
  cases ht' with
  | pinned o st w on _ => unfold Table.pin; split <;> simp [Table.setBody, h']
  | _ => simp [Table.create, Table.rewrite, Table.restack, Table.retire, Table.release, Table.setBody, h']

/-- What a change makes of the slot it names depends on that slot alone. -/
theorem Table.applyChange_slot_congr {t u : Table} {ix : SlotIx} (c : Change) (h : t.slots[ix] = u.slots[ix]) :
    (t.applyChange ix c).slots[ix] = (u.applyChange ix c).slots[ix] := by
  have hb : t.body ix = u.body ix := by unfold Table.body; rw [h]
  have hg : t.gen ix = u.gen ix := by unfold Table.gen; rw [h]
  unfold Table.applyChange
  rw [hb]
  split <;>
    first
    | (unfold Table.pin; split <;> simp [Table.setBody, hg, h])
    | simp [Table.create, Table.rewrite, Table.restack, Table.retire, Table.release, Table.setBody, hg, h]

/-- RETIRE and RECLAIM: the changes that free a slot. -/
def Change.frees : Change → Bool
  | .retire | .reclaim => true
  | _ => false

/-- Only RETIRE and RECLAIM advance a generation. -/
theorem Table.gen_applyChange (t : Table) (ix j : SlotIx) {c : Change} (h : c.frees = false) :
    (t.applyChange ix c).gen j = t.gen j := by
  unfold Table.applyChange
  split <;>
    first
    | (cases h; done)
    | (unfold Table.pin; split; rfl; exact Table.gen_setBody _ _ _ _)
    | (simp only [Table.create, Table.rewrite, Table.restack]; first | exact Table.gen_setBody _ _ _ _ | rfl)
    | rfl

/-! ### An entry in a view -/

/-- The slot an entry acts on: the one its handle names, of the handle's generation and not pending retirement. -/
theorem View.acted_some {v : View} {h : Handle} {ix : SlotIx} :
    v.acted h = some ix ↔ h.ix? = some ix ∧ v.table.gen ix = h.gen ∧ ix ∉ v.retiring := by
  unfold View.acted
  cases h.ix? with
  | none => simp
  | some j =>
    by_cases hc : v.table.gen j = h.gen ∧ v.isRetiring j = false
    · simp only [hc, and_self, if_true, Option.some.injEq]
      constructor
      · rintro rfl; exact ⟨rfl, hc.1, by simpa [View.isRetiring] using hc.2⟩
      · exact fun e => e.1
    · simp only [hc, if_false, reduceCtorEq, Option.some.injEq, false_iff]
      rintro ⟨rfl, h1, h2⟩
      exact hc ⟨h1, by simpa [View.isRetiring] using h2⟩

/-- Everything an entry can do in a view: nothing; a new background; what it does to the table, freeing no slot; or an
open window becomes pending retirement. -/
theorem View.apply_cases (v : View) (e : Entry) :
    v.apply e = v ∨ (∃ colour, e = .backdrop colour ∧ v.apply e = { v with table := { v.table with background := colour } }) ∨
      ∃ h c ix, e = .window h c ∧ v.acted h = some ix ∧
        ((c.frees = false ∧ v.apply e = { v with table := v.table.applyChange ix c }) ∨
         (c.frees = true ∧ (v.table.body ix).isOpen = true ∧
           v.apply e = ⟨{ v.table with zorder := without v.table.zorder ix }, ix :: v.retiring⟩)) := by
  cases e with
  | backdrop colour => exact .inr (.inl ⟨colour, rfl, rfl⟩)
  | window h c =>
    cases ha : v.acted h with
    | none => exact .inl (by simp [View.apply, ha])
    | some ix =>
      have hx := (View.acted_some.mp ha).1
      cases hf : c.frees with
      | false =>
        refine .inr (.inr ⟨h, c, ix, rfl, ha, .inl ⟨hf, ?_⟩⟩)
        cases c <;> first | (cases hf; done) | simp [View.apply, ha, Table.applyEntry, hx]
      | true =>
        have e : v.apply (.window h c) = v.retire ix := by
          cases c <;> first | (cases hf; done) | simp [View.apply, ha]
        by_cases ho : (v.table.body ix).isOpen = true
        · refine .inr (.inr ⟨h, c, ix, rfl, ha, .inr ⟨hf, ho, ?_⟩⟩)
          rw [e, View.retire, if_pos ho]
        · exact .inl (by rw [e, View.retire, if_neg ho])

/-- In a view no slot changes its generation. -/
@[simp] theorem View.apply_gen (v : View) (e : Entry) (ix : SlotIx) : (v.apply e).table.gen ix = v.table.gen ix := by
  obtain h | ⟨c, -, h⟩ | ⟨_, c, j, -, -, ⟨hf, h⟩ | ⟨-, -, h⟩⟩ := View.apply_cases v e <;> rw [h]
  · rfl
  · exact Table.gen_applyChange _ _ _ hf
  · rfl

/-- A window pending retirement stays so, and keeps its slot as it is. -/
theorem View.apply_retiring (v : View) (e : Entry) {ix : SlotIx} (h : ix ∈ v.retiring) :
    ix ∈ (v.apply e).retiring ∧ (v.apply e).table.slots[ix] = v.table.slots[ix] := by
  obtain h' | ⟨c, -, h'⟩ | ⟨_, c, j, -, ha, ⟨hf, h'⟩ | ⟨-, -, h'⟩⟩ := View.apply_cases v e <;> rw [h']
  · exact ⟨h, rfl⟩
  · exact ⟨h, rfl⟩
  · refine ⟨h, Table.applyChange_slots_ne _ _ ?_⟩
    rintro rfl
    exact (View.acted_some.mp ha).2.2 h
  · exact ⟨List.mem_cons_of_mem _ h, rfl⟩

/-- A property of the view that every entry keeps is kept by a list of entries. -/
theorem View.applyAll_keeps {P : View → Prop} (es : List Entry) {v : View} (h : P v)
    (he : ∀ v e, e ∈ es → P v → P (v.apply e)) : P (v.applyAll es) := by
  unfold View.applyAll
  induction es generalizing v with
  | nil => exact h
  | cons e es ih => exact ih (he v e (by simp) h) fun v e' h' => he v e' (by simp [h'])

/-- Batches applied in a view apply their entries one after the other. -/
theorem View.applyBatches_eq (v : View) (q : List Batch) : v.applyBatches q = v.applyAll (q.flatMap Batch.entries) := by
  unfold View.applyBatches View.applyAll
  induction q generalizing v with
  | nil => rfl
  | cons b q ih => rw [List.foldl_cons, ih, List.flatMap_cons, List.foldl_append]

/-! ### The view and the table the entries will be applied to -/

/-- A view follows a table at a slot: the slots agree, or the window is pending retirement in the view and its slot in
the table is FREE, its generation advanced. -/
def View.follows (v : View) (t : Table) (ix : SlotIx) : Prop :=
  (ix ∉ v.retiring ∧ v.table.slots[ix] = t.slots[ix]) ∨
    (ix ∈ v.retiring ∧ (v.table.body ix).isOpen = true ∧ t.slots[ix] = ⟨v.table.gen ix + 1, .free⟩)

/-- A view that follows a table at a slot follows it after an entry, where the entry does not name the slot or names it
by the generation the view holds. -/
theorem View.follows_apply {v : View} {t : Table} {ix : SlotIx} {e : Entry} (h : v.follows t ix)
    (he : ∀ hd c, e = .window hd c → hd.ix? = some ix → hd.gen = v.table.gen ix) :
    (v.apply e).follows (t.applyEntry e) ix := by
  cases e with
  | backdrop colour => exact h
  | window hd c =>
    by_cases hx : hd.ix? = some ix
    · have hg := he hd c rfl hx
      have ht : t.applyEntry (.window hd c) = t.applyChange ix c := by simp [Table.applyEntry, hx]
      rw [ht]
      obtain ⟨hr, hs⟩ | ⟨hr, ho, hs⟩ := h
      · have ha : v.acted hd = some ix := View.acted_some.mpr ⟨hx, hg.symm, hr⟩
        cases hf : c.frees with
        | false =>
          have e : v.apply (.window hd c) = { v with table := v.table.applyChange ix c } := by
            cases c <;> first | (cases hf; done) | simp [View.apply, ha, Table.applyEntry, hx]
          rw [e]
          exact .inl ⟨hr, Table.applyChange_slot_congr c hs⟩
        | true =>
          have e : v.apply (.window hd c) = v.retire ix := by
            cases c <;> first | (cases hf; done) | simp [View.apply, ha]
          rw [e]
          have hb : t.body ix = v.table.body ix := by unfold Table.body; rw [hs]
          have hgt : t.gen ix = v.table.gen ix := by unfold Table.gen; rw [hs]
          by_cases ho : (v.table.body ix).isOpen = true
          · rw [View.retire, if_pos ho]
            refine .inr ⟨by simp, ho, ?_⟩
            cases hbx : v.table.body ix <;> rw [hbx] at ho hb <;> first | (cases ho; done) | skip
            cases c <;> first | (cases hf; done) | skip
            all_goals
              simp only [Table.applyChange, hb, Table.retire, Table.release]
              simpa [Table.gen] using hgt
          · rw [View.retire, if_neg ho]
            refine .inl ⟨hr, ?_⟩
            rw [hs]
            cases hbx : v.table.body ix <;> rw [hbx] at ho hb <;> first | (exact absurd rfl ho) | skip
            all_goals
              cases c <;> first | (cases hf; done) | skip
            all_goals simp only [Table.applyChange, hb]
      · have hn : v.acted hd = none := by
          cases ha : v.acted hd with
          | none => rfl
          | some j =>
            have := View.acted_some.mp ha
            obtain rfl : ix = j := by rw [hx] at this; simpa using this.1
            exact absurd hr this.2.2
        have e : v.apply (.window hd c) = v := by simp [View.apply, hn]
        have hb : t.body ix = .free := by unfold Table.body; rw [hs]
        rw [e]
        refine .inr ⟨hr, ho, ?_⟩
        rw [← hs]
        cases c <;> simp only [Table.applyChange, hb]
    · have ht : (t.applyEntry (.window hd c)).slots[ix] = t.slots[ix] := by
        cases hj : hd.ix? with
        | none => simp [Table.applyEntry, hj]
        | some j =>
          simp only [Table.applyEntry, hj]
          exact Table.applyChange_slots_ne _ _ fun e => hx (by rw [hj, e])
      unfold View.follows
      rw [ht]
      obtain h' | ⟨c', hc', -⟩ | ⟨hd', c', j, he', ha, ⟨hf, h'⟩ | ⟨-, -, h'⟩⟩ := View.apply_cases v (.window hd c)
      · rw [h']; exact h
      · cases hc'
      · cases he'
        have hj : j ≠ ix := fun e => hx (e ▸ (View.acted_some.mp ha).1)
        rw [h']
        simp only [Table.body, Table.gen, Table.applyChange_slots_ne _ _ hj]
        exact h
      · cases he'
        have hj : ix ≠ j := fun e => hx (e ▸ (View.acted_some.mp ha).1)
        rw [h']
        simp only [List.mem_cons, hj, false_or]
        exact h

/-- A view that follows a table at a slot follows it after a list of entries that name the slot by the generation the
view holds. -/
theorem View.follows_applyAll {ix : SlotIx} (es : List Entry) {v : View} {t : Table} (h : v.follows t ix)
    (he : ∀ hd c, Entry.window hd c ∈ es → hd.ix? = some ix → hd.gen = v.table.gen ix) :
    (v.applyAll es).follows (es.foldl Table.applyEntry t) ix := by
  unfold View.applyAll
  induction es generalizing v t with
  | nil => exact h
  | cons e es ih =>
    refine ih (View.follows_apply h fun hd c h' => he hd c (by simp [h'])) fun hd c h' => ?_
    rw [View.apply_gen]
    exact he hd c (by simp [h'])

end Sys2Proof.Machine
end

