-- ==== Sys2Proof/Laws/Applied.lean ====
section
/-! SUPPORT. What applied entries do beside the table, said once for a whole list of them: which streams are stopped,
which counts are cleared, and what becomes of the reads in flight and the lanes of the stopped streams. -/

namespace Sys2Proof.Machine

/-! ### What happens among a list of entries -/

theorem Table.happens_nil (t : Table) (what : Table → Entry → Prop) : ¬ t.happens [] what := by
  rintro ⟨before, e, after, h, -⟩
  simp at h

/-- Among a list of entries something happens at the first or among the rest. -/
theorem Table.happens_cons (t : Table) (e : Entry) (es : List Entry) (what : Table → Entry → Prop) :
    t.happens (e :: es) what ↔ what t e ∨ (t.applyEntry e).happens es what := by
  constructor
  · rintro ⟨before, e', after, h, hw⟩
    cases before with
    | nil => cases h; exact .inl hw
    | cons b bs => cases h; exact .inr ⟨bs, e', after, rfl, hw⟩
  · rintro (hw | ⟨before, e', after, rfl, hw⟩)
    · exact ⟨[], e, es, rfl, hw⟩
    · exact ⟨e :: before, e', after, rfl, hw⟩

/-- Among two lists of entries something happens in the one or in the other. -/
theorem Table.happens_append (t : Table) (es fs : List Entry) (what : Table → Entry → Prop) :
    t.happens (es ++ fs) what ↔ t.happens es what ∨ (es.foldl Table.applyEntry t).happens fs what := by
  induction es generalizing t with
  | nil => simp [Table.happens_nil]
  | cons e es ih => simp only [List.cons_append, Table.happens_cons, ih, List.foldl_cons, or_assoc]

/-! ### The parts of an act -/

/-- From `s` to `t` the streams that `stops` names are stopped, each with its count cleared, and the counts that `clears`
names are cleared; the tags and the lanes follow, and nothing else of the memory port changes. -/
structure Applied (s t : State) (stops clears : SlotIx → Prop) : Prop where
  stopsClear : ∀ ix : SlotIx, stops ix → clears ix
  load : ∀ ix : SlotIx, t.streams[ix].load = s.streams[ix].load
  loaded : ∀ ix : SlotIx, t.streams[ix].loaded = true ↔ s.streams[ix].loaded = true ∧ ¬ stops ix
  cleared : ∀ ix : SlotIx, clears ix →
    (stops ix ∧ s.streams[ix].loaded = true → t.streams[ix] = s.streams[ix].stopped.countCleared) ∧
    (¬ (stops ix ∧ s.streams[ix].loaded = true) → t.streams[ix] = s.streams[ix].countCleared)
  kept : ∀ ix : SlotIx, ¬ clears ix → t.streams[ix] = s.streams[ix]
  tags : ∀ k : TagIx, match s.mem.tags[k] with
    | .waiting e => ∃ d, t.mem.tags[k] = .waiting { e with discard := d } ∧
        (d = true ↔ e.discard = true ∨ ∃ ix, e.handle.ix? = some ix ∧ stops ix ∧ s.streams[ix].loaded = true)
    | x => t.mem.tags[k] = x
  lanes : ∀ i : Fin 6, match s.lanes[i] with
    | some l => ((∃ ix, l.handle.ix? = some ix ∧ stops ix) → t.lanes[i] = none) ∧
        ((∀ ix, l.handle.ix? = some ix → ¬ stops ix) → t.lanes[i] = some l)
    | none => t.lanes[i] = none
  mem : t.mem = { s.mem with tags := t.mem.tags }

/-- A count that is cleared is 0, with the starved flag clear. -/
theorem Applied.count {s t : State} {stops clears : SlotIx → Prop} (h : Applied s t stops clears) {ix : SlotIx}
    (hc : clears ix) : t.streams[ix].count = 0 ∧ t.streams[ix].starved = false := by
  by_cases hs : stops ix ∧ s.streams[ix].loaded = true
  · rw [(h.cleared ix hc).1 hs]; exact ⟨rfl, rfl⟩
  · rw [(h.cleared ix hc).2 hs]; exact ⟨rfl, rfl⟩

/-- A stream that was not loaded has its count cleared or is kept. -/
theorem Applied.unloaded {s t : State} {stops clears : SlotIx → Prop} (h : Applied s t stops clears) {ix : SlotIx}
    (hl : s.streams[ix].loaded = false) :
    (clears ix → t.streams[ix] = s.streams[ix].countCleared) ∧ (¬ clears ix → t.streams[ix] = s.streams[ix]) :=
  ⟨fun hc => (h.cleared ix hc).2 fun hs => (by rw [hl] at hs; cases hs.2), h.kept ix⟩

/-- Where streams, lanes and memory port stand, nothing is stopped and nothing cleared. -/
theorem Applied.of_eq {s t : State} (h1 : t.streams = s.streams) (h2 : t.lanes = s.lanes) (h3 : t.mem = s.mem) :
    Applied s t (fun _ => False) (fun _ => False) where
  stopsClear _ h := h.elim
  load ix := by rw [h1]
  loaded ix := by rw [h1]; simp
  cleared ix h := h.elim
  kept ix _ := by rw [h1]
  tags k := by
    rw [h3]
    cases s.mem.tags[k] with
    | waiting e => exact ⟨e.discard, rfl, by simp⟩
    | free => rfl
    | quarantined e => rfl
  lanes i := by
    rw [h2]
    cases s.lanes[i] with
    | none => rfl
    | some l => exact ⟨fun ⟨_, _, h⟩ => h.elim, fun _ => rfl⟩
  mem := by rw [h3]

theorem Applied.congr {s t : State} {st cl st' cl' : SlotIx → Prop} (h : Applied s t st cl) (h1 : ∀ ix, st ix ↔ st' ix)
    (h2 : ∀ ix, cl ix ↔ cl' ix) : Applied s t st' cl' := by
  obtain rfl : st = st' := funext fun ix => propext (h1 ix)
  obtain rfl : cl = cl' := funext fun ix => propext (h2 ix)
  exact h

/-- One after the other. -/
theorem Applied.trans {s u t : State} {st cl st' cl' : SlotIx → Prop} (h : Applied s u st cl) (h' : Applied u t st' cl') :
    Applied s t (fun ix => st ix ∨ st' ix) (fun ix => cl ix ∨ cl' ix) where
  stopsClear ix hs := hs.imp (h.stopsClear ix) (h'.stopsClear ix)
  load ix := by rw [h'.load, h.load]
  loaded ix := by rw [h'.loaded, h.loaded]; tauto
  cleared ix hc := by
    have hu := h.loaded ix
    by_cases h1 : cl ix
    · by_cases h2 : cl' ix
      · by_cases h3 : st ix ∧ s.streams[ix].loaded = true
        · have h4 : ¬ (st' ix ∧ u.streams[ix].loaded = true) := fun x => (hu.mp x.2).2 h3.1
          rw [(h'.cleared ix h2).2 h4, (h.cleared ix h1).1 h3]
          exact ⟨fun _ => rfl, fun x => absurd ⟨.inl h3.1, h3.2⟩ x⟩
        · by_cases h4 : st' ix ∧ u.streams[ix].loaded = true
          · rw [(h'.cleared ix h2).1 h4, (h.cleared ix h1).2 h3]
            exact ⟨fun _ => rfl, fun x => absurd ⟨.inr h4.1, (hu.mp h4.2).1⟩ x⟩
          · rw [(h'.cleared ix h2).2 h4, (h.cleared ix h1).2 h3]
            refine ⟨fun x => ?_, fun _ => rfl⟩
            exact x.1.elim (fun y => absurd ⟨y, x.2⟩ h3) fun y => absurd ⟨y, hu.mpr ⟨x.2, fun z => h3 ⟨z, x.2⟩⟩⟩ h4
      · rw [h'.kept ix h2]
        have hn : ¬ st' ix := fun x => h2 (h'.stopsClear ix x)
        refine ⟨fun x => (h.cleared ix h1).1 ⟨x.1.resolve_right hn, x.2⟩, fun x => (h.cleared ix h1).2 fun y => ?_⟩
        exact x ⟨.inl y.1, y.2⟩
    · have h2 := hc.resolve_left h1
      have hn : ¬ st ix := fun x => h1 (h.stopsClear ix x)
      have he := h.kept ix h1
      have h3 := h'.cleared ix h2
      rw [he] at h3
      refine ⟨fun x => h3.1 ⟨x.1.resolve_left hn, x.2⟩, fun x => h3.2 fun y => x ⟨.inr y.1, y.2⟩⟩
  kept ix hc := by rw [h'.kept ix fun x => hc (.inr x), h.kept ix fun x => hc (.inl x)]
  tags k := by
    have h1 := h.tags k
    have h2 := h'.tags k
    cases hk : s.mem.tags[k] with
    | waiting e =>
      rw [hk] at h1
      obtain ⟨d, hd, hd'⟩ := h1
      rw [hd] at h2
      obtain ⟨d2, hd2, hd2'⟩ := h2
      refine ⟨d2, hd2, ?_⟩
      rw [hd2']
      dsimp only
      rw [hd']
      constructor
      · rintro ((h | ⟨ix, a, b, c⟩) | ⟨ix, a, b, c⟩)
        · exact .inl h
        · exact .inr ⟨ix, a, .inl b, c⟩
        · exact .inr ⟨ix, a, .inr b, ((h.loaded ix).mp c).1⟩
      · rintro (h | ⟨ix, a, b, c⟩)
        · exact .inl (.inl h)
        · by_cases hs : st ix
          · exact .inl (.inr ⟨ix, a, hs, c⟩)
          · exact .inr ⟨ix, a, b.resolve_left hs, (h.loaded ix).mpr ⟨c, hs⟩⟩
    | free => rw [hk] at h1; dsimp only at h1; rw [h1] at h2; exact h2
    | quarantined e => rw [hk] at h1; dsimp only at h1; rw [h1] at h2; exact h2
  lanes i := by
    have h1 := h.lanes i
    have h2 := h'.lanes i
    cases hi : s.lanes[i] with
    | none => rw [hi] at h1; dsimp only at h1; rw [h1] at h2; exact h2
    | some l =>
      rw [hi] at h1
      refine ⟨fun ⟨ix, a, b⟩ => ?_, fun hn => ?_⟩
      · by_cases hs : ∃ ix, l.handle.ix? = some ix ∧ st ix
        · have := h1.1 hs; rw [this] at h2; exact h2
        · have h3 := h1.2 fun jx hj hst => hs ⟨jx, hj, hst⟩
          rw [h3] at h2
          exact h2.1 ⟨ix, a, b.resolve_left fun hst => hs ⟨ix, a, hst⟩⟩
      · have h3 := h1.2 fun jx hj hst => hn jx hj (.inl hst)
        rw [h3] at h2
        exact h2.2 fun jx hj hst => hn jx hj (.inr hst)
  mem := by rw [h'.mem, h.mem]

/-! ### The operations -/

/-- A lane after a stop (R93): vacant where its slot is stopped, else kept. -/
theorem State.stopStreams_lanes (s : State) (which : SlotIx → Bool) (i : Fin 6) :
    match s.lanes[i] with
    | some l => ((∃ ix, l.handle.ix? = some ix ∧ which ix = true) → (s.stopStreams which).lanes[i] = none) ∧
        ((∀ ix, l.handle.ix? = some ix → which ix = false) → (s.stopStreams which).lanes[i] = some l)
    | none => (s.stopStreams which).lanes[i] = none := by
  have h : (s.stopStreams which).lanes[i] = match s.lanes[i] with
      | some l => if allSlots.any (fun ix => l.ofSlot ix && which ix) then none else some l
      | none => none := tabLanes_get _ _
  rw [h]
  cases s.lanes[i] with
  | none => rfl
  | some l =>
    dsimp only
    refine ⟨fun ⟨ix, hix, hw⟩ => if_pos ?_, fun hn => if_neg ?_⟩
    · rw [List.any_eq_true]
      exact ⟨ix, mem_allSlots ix, by simp [Lane.ofSlot, hix, hw]⟩
    · rw [List.any_eq_true]
      rintro ⟨ix, -, hx⟩
      simp only [Lane.ofSlot, Bool.and_eq_true, beq_iff_eq] at hx
      rw [hn ix hx.1] at hx
      exact absurd hx.2 (by simp)

/-- A stream after a stop (R108). -/
theorem State.stopStreams_streams (s : State) (which : SlotIx → Bool) (ix : SlotIx) :
    (s.stopStreams which).streams[ix] =
      if which ix = true ∧ s.streams[ix].loaded = true then s.streams[ix].stopped else s.streams[ix] := by
  have h : (s.stopStreams which).streams[ix] =
      if which ix && s.streams[ix].loaded then s.streams[ix].stopped else s.streams[ix] := tabSlots_get _ _
  rw [h]
  simp only [Bool.and_eq_true]

/-- A tag after a stop (R131): a read in flight for a loaded stream that is stopped is marked discard. -/
theorem State.stopStreams_tags (s : State) (which : SlotIx → Bool) (k : TagIx) :
    match s.mem.tags[k] with
    | .waiting e => ∃ d, (s.stopStreams which).mem.tags[k] = .waiting { e with discard := d } ∧ (d = true ↔
        e.discard = true ∨ ∃ ix, e.handle.ix? = some ix ∧ which ix = true ∧ s.streams[ix].loaded = true)
    | x => (s.stopStreams which).mem.tags[k] = x := by
  have h : (s.stopStreams which).mem.tags[k] = (s.mem.tags[k]).mark fun e =>
      allSlots.any fun ix => e.ofSlot ix && (which ix && s.streams[ix].loaded) := tabTags_get _ _
  rw [h]
  cases s.mem.tags[k] with
  | free => rfl
  | quarantined e => rfl
  | waiting e =>
    have hiff : (allSlots.any fun ix => e.ofSlot ix && (which ix && s.streams[ix].loaded)) = true ↔
        ∃ ix, e.handle.ix? = some ix ∧ which ix = true ∧ s.streams[ix].loaded = true := by
      simp [List.any_eq_true, TagEntry.ofSlot]
    dsimp only [Tag.mark]
    split
    · exact ⟨true, rfl, fun _ => .inr (hiff.mp ‹_›), fun _ => rfl⟩
    · exact ⟨e.discard, rfl, .inl, fun h => h.elim id fun h => absurd (hiff.mpr h) ‹_›⟩

theorem State.setStream_get (s : State) (ix jx : SlotIx) (st : Stream) :
    (s.setStream ix st).streams[jx] = if ix = jx then st else s.streams[jx] := getSlot_set _ _ _ _

/-- A stream stop with its count clear (R31, R35, R36). -/
theorem Applied.stopClear (s : State) (ix : SlotIx) :
    Applied s ((s.stopStream ix).clearCount ix) (fun j => j = ix) (fun j => j = ix) where
  stopsClear _ h := h
  load jx := by
    rw [State.clearCount, State.setStream_get]
    simp only [State.stopStream, State.stopStreams_streams]
    split <;> (try subst ix) <;> (repeat' split) <;> rfl
  loaded jx := by
    rw [State.clearCount, State.setStream_get]
    simp only [State.stopStream, State.stopStreams_streams]
    by_cases h : ix = jx
    · subst h
      cases hl : s.streams[ix].loaded
      · simpa [Stream.countCleared, Stream.loaded] using hl
      · simp [Stream.countCleared, Stream.loaded, Stream.stopped]
    · simp [h, Ne.symm h]
  cleared jx h := by
    subst h
    rw [State.clearCount, State.setStream_get, if_pos rfl, State.stopStream, State.stopStreams_streams]
    refine ⟨fun h => ?_, fun h => ?_⟩
    · rw [if_pos ⟨by simp, h.2⟩]
    · rw [if_neg fun x => h ⟨rfl, x.2⟩]
  kept jx h := by
    rw [State.clearCount, State.setStream_get, if_neg (Ne.symm h), State.stopStream, State.stopStreams_streams,
      if_neg (by simp [h])]
  tags k := by simpa [State.stopStream] using s.stopStreams_tags (fun i => i == ix) k
  lanes i := by simpa [State.stopStream] using s.stopStreams_lanes (fun i => i == ix) i
  mem := rfl

/-- A count clear alone (R32, R109). -/
theorem Applied.clear (s : State) (ix : SlotIx) :
    Applied s (s.clearCount ix) (fun _ => False) (fun j => j = ix) where
  stopsClear _ h := h.elim
  load jx := by rw [State.clearCount, State.setStream_get]; split <;> (try subst ix) <;> rfl
  loaded jx := by
    rw [State.clearCount, State.setStream_get]
    split
    · subst ix; simp [Stream.countCleared, Stream.loaded]
    · simp
  cleared jx h := by
    subst h
    rw [State.clearCount, State.setStream_get, if_pos rfl]
    exact ⟨fun h => h.1.elim, fun _ => rfl⟩
  kept jx h := by rw [State.clearCount, State.setStream_get, if_neg (Ne.symm h)]
  tags k := (Applied.of_eq (s := s) rfl rfl rfl).tags k
  lanes i := (Applied.of_eq (s := s) rfl rfl rfl).lanes i
  mem := rfl

/-- One entry applied. -/
theorem State.applyEntry_applied (s : State) (e : Entry) :
    Applied s (s.applyEntry e) (fun ix => s.table.stops e ix) (fun ix => s.table.clears e ix) := by
  have same : ∀ t : State, t.streams = s.streams → t.lanes = s.lanes → t.mem = s.mem →
      (∀ ix, ¬ s.table.clears e ix) → Applied s t (fun ix => s.table.stops e ix) (fun ix => s.table.clears e ix) := by
    intro t h1 h2 h3 hn
    refine (Applied.of_eq h1 h2 h3).congr (fun ix => ⟨fun h => h.elim, ?_⟩) fun ix => ⟨fun h => h.elim, hn ix⟩
    rintro ⟨h, c, o, st, w, rfl, hix, hb, hc⟩
    exact hn ix ⟨h, c, o, st, w, rfl, hix, hb, by obtain rfl | rfl | ⟨rfl, rfl⟩ := hc <;> simp⟩
  cases e with
  | backdrop colour => exact same _ rfl rfl rfl fun ix ⟨h, c, o, st, w, he, _⟩ => by cases he
  | window h c =>
    cases hix : h.ix? with
    | none =>
      refine same _ ?_ ?_ ?_ fun ix ⟨h', c', o, st, w, he, hi, _⟩ => by cases he; rw [hix] at hi; cases hi
      all_goals simp [State.applyEntry, hix]
    | some ix =>
      let s1 : State := { s with table := s.table.applyEntry (.window h c) }
      have h0 : Applied s s1 (fun _ => False) (fun _ => False) := Applied.of_eq rfl rfl rfl
      have heq : s.applyEntry (.window h c) = s1.signal ix s.table.slots[ix] c := by
        simp [State.applyEntry, hix, s1]
      have hst : ∀ jx, s.table.stops (.window h c) jx ↔ jx = ix ∧ ∃ o st w, s.table.body ix = .opened o st w ∧
          (c = .retire ∨ c = .reclaim ∨ (c = .hide ∧ st = .shown)) := by
        intro jx
        constructor
        · rintro ⟨h', c', o, st, w, he, hi, hb, hc⟩
          cases he
          rw [hix] at hi
          cases hi
          exact ⟨rfl, o, st, w, hb, hc⟩
        · rintro ⟨rfl, o, st, w, hb, hc⟩
          exact ⟨h, c, o, st, w, rfl, hix, hb, hc⟩
      have hcl : ∀ jx, s.table.clears (.window h c) jx ↔ jx = ix ∧ ∃ o st w, s.table.body ix = .opened o st w ∧
          (c = .retire ∨ c = .reclaim ∨ (c = .hide ∧ st ≠ .hidden) ∨ (c = .resume ∧ st = .suspended)) := by
        intro jx
        constructor
        · rintro ⟨h', c', o, st, w, he, hi, hb, hc⟩
          cases he
          rw [hix] at hi
          cases hi
          exact ⟨rfl, o, st, w, hb, hc⟩
        · rintro ⟨rfl, o, st, w, hb, hc⟩
          exact ⟨h, c, o, st, w, rfl, hix, hb, hc⟩
      have hbody : s.table.slots[ix].body = s.table.body ix := rfl
      have stopped : ∀ t : State, Applied ((s1.stopStream ix).clearCount ix) t (fun _ => False) (fun _ => False) →
          (∃ o st w, s.table.body ix = .opened o st w ∧ (c = .retire ∨ c = .reclaim ∨ (c = .hide ∧ st = .shown))) →
          Applied s t (fun jx => s.table.stops (.window h c) jx) (fun jx => s.table.clears (.window h c) jx) := by
        intro t ht hc
        refine ((h0.trans (Applied.stopClear s1 ix)).trans ht).congr (fun jx => ?_) fun jx => ?_
        · rw [hst, false_or, or_false]
          exact ⟨fun h => ⟨h, hc⟩, fun h => h.1⟩
        · rw [hcl]
          obtain ⟨o, st, w, hb, hc⟩ := hc
          have : ∃ o st w, s.table.body ix = .opened o st w ∧ (c = .retire ∨ c = .reclaim ∨
              (c = .hide ∧ st ≠ .hidden) ∨ (c = .resume ∧ st = .suspended)) :=
            ⟨o, st, w, hb, by obtain rfl | rfl | ⟨rfl, rfl⟩ := hc <;> simp⟩
          rw [false_or, or_false]
          exact ⟨fun h => ⟨h, this⟩, fun h => h.1⟩
      rw [heq]
      unfold State.signal
      rw [hbody]
      cases hb : s.table.body ix with
      | opened o st w =>
        cases c with
        | hide =>
          cases st with
          | shown => exact stopped _ (Applied.of_eq rfl rfl rfl) ⟨o, _, w, hb, by simp⟩
          | suspended =>
            refine (h0.trans (Applied.clear s1 ix)).congr (fun jx => ?_) fun jx => ?_
            · rw [hst, hb]; simp
            · rw [hcl, hb]; simp
          | hidden =>
            refine h0.congr (fun jx => ?_) fun jx => ?_
            · rw [hst, hb]; simp
            · rw [hcl, hb]; simp
        | resume =>
          cases st with
          | suspended =>
            refine (h0.trans (Applied.clear s1 ix)).congr (fun jx => ?_) fun jx => ?_
            · rw [hst, hb]; simp
            · rw [hcl, hb]; simp
          | shown | hidden =>
            refine h0.congr (fun jx => ?_) fun jx => ?_
            · rw [hst, hb]; simp
            · rw [hcl, hb]; simp
        | retire => cases st <;> exact stopped _ (Applied.of_eq rfl rfl rfl) ⟨o, _, w, hb, by simp⟩
        | reclaim =>
          refine stopped _ ?_ ⟨o, st, w, hb, by simp⟩
          cases st <;> cases o <;> exact Applied.of_eq rfl rfl rfl
        | _ =>
          cases st <;>
          · refine h0.congr (fun jx => ?_) fun jx => ?_
            · rw [hst, hb]; simp
            · rw [hcl, hb]; simp
      | _ =>
        refine h0.congr (fun jx => ?_) fun jx => ?_
        · rw [hst, hb]; simp
        · rw [hcl, hb]; simp

/-- Entries applied one after the other. -/
theorem State.applyEntries_applied (es : List Entry) (s : State) (rs : List SlotIx) :
    Applied s (s.applyEntries rs es).1 (fun ix => s.table.happens es fun u e => u.stops e ix)
      (fun ix => s.table.happens es fun u e => u.clears e ix) := by
  induction es generalizing s rs with
  | nil =>
    exact (Applied.of_eq rfl rfl rfl).congr (fun ix => ⟨fun h => h.elim, fun h => s.table.happens_nil _ h⟩) fun ix =>
      ⟨fun h => h.elim, fun h => s.table.happens_nil _ h⟩
  | cons e es ih =>
    refine ((s.applyEntry_applied e).trans (ih _ _)).congr (fun ix => ?_) fun ix => ?_ <;>
      rw [Table.happens_cons, State.applyEntry_table]

/-! ### The generations an apply leaves (R36) -/

theorem Table.applyEntry_some {t : Table} {h : Handle} {c : Change} {ix : SlotIx} (hix : h.ix? = some ix) :
    t.applyEntry (.window h c) = t.applyChange ix c := by simp [Table.applyEntry, hix]

theorem Table.applyEntry_none {t : Table} {h : Handle} {c : Change} (hix : h.ix? = none) :
    t.applyEntry (.window h c) = t := by simp [Table.applyEntry, hix]

/-- RETIRE and RECLAIM of an open window free its slot, and leave every other slot as it was. -/
theorem Table.applyChange_frees (t : Table) (ix : SlotIx) (c : Change) (hf : c.frees = true) :
    t.applyChange ix c = t ∨ (t.applyChange ix c).body ix = .free := by
  unfold Table.applyChange
  cases t.body ix with
  | opened o st w =>
    right
    cases c with
    | retire | reclaim => cases st <;> exact (Table.body_release _ ix ix).trans (if_pos rfl)
    | _ => cases hf
  | queued o => cases c <;> first | exact .inl rfl | cases hf
  | _ => exact .inl rfl

/-- An entry keeps a slot's generation, or leaves the slot FREE. -/
theorem Table.applyEntry_gen (t : Table) (e : Entry) (ix : SlotIx) :
    (t.applyEntry e).gen ix = t.gen ix ∨ (t.applyEntry e).body ix = .free := by
  cases e with
  | backdrop colour => exact .inl rfl
  | window h c =>
    cases hix : h.ix? with
    | none => rw [Table.applyEntry_none hix]; exact .inl rfl
    | some jx =>
      rw [Table.applyEntry_some hix]
      by_cases hj : jx = ix
      · subst hj
        cases hf : c.frees with
        | false => exact .inl (t.gen_applyChange jx jx hf)
        | true =>
          obtain h | h := t.applyChange_frees jx c hf
          · rw [h]; exact .inl rfl
          · exact .inr h
      · left
        unfold Table.gen
        rw [t.applyChange_slots_ne c hj]

/-- A FREE slot stays FREE. -/
theorem Table.applyEntry_free (t : Table) (e : Entry) (ix : SlotIx) (h : t.body ix = .free) :
    (t.applyEntry e).body ix = .free := by
  cases e with
  | backdrop colour => exact h
  | window hd c =>
    cases hix : hd.ix? with
    | none => rw [Table.applyEntry_none hix]; exact h
    | some jx =>
      rw [Table.applyEntry_some hix]
      by_cases hj : jx = ix
      · subst hj
        unfold Table.applyChange
        rw [h]
        exact h
      · unfold Table.body
        rw [t.applyChange_slots_ne c hj]
        exact h

/-- What happens only to an open window happens to a slot of the generation it had before the entries. -/
theorem Table.gen_of_happens (t : Table) (es : List Entry) (ix : SlotIx) {what : Table → Entry → Prop}
    (hw : ∀ u e, what u e → u.body ix ≠ .free) : t.body ix ≠ .free ∨ ¬ t.happens es what := by
  induction es generalizing t with
  | nil => exact .inr (t.happens_nil what)
  | cons e es ih =>
    by_cases hf : t.body ix = .free
    · right
      rw [Table.happens_cons]
      rintro (h | h)
      · exact hw t e h hf
      · exact (ih _).elim (fun hn => hn (t.applyEntry_free e ix hf)) fun hn => hn h
    · exact .inl hf

/-- Entries keep a slot's generation, or leave the slot FREE. -/
theorem Table.foldl_gen (es : List Entry) (t : Table) (ix : SlotIx) :
    (es.foldl Table.applyEntry t).gen ix = t.gen ix ∨ (es.foldl Table.applyEntry t).body ix = .free := by
  induction es generalizing t with
  | nil => exact .inl rfl
  | cons e es ih =>
    obtain h | h := ih (t.applyEntry e)
    · obtain h1 | h1 := t.applyEntry_gen e ix
      · exact .inl (h.trans h1)
      · right
        have free : ∀ (es : List Entry) (t : Table), t.body ix = .free → (es.foldl Table.applyEntry t).body ix = .free := by
          intro es
          induction es with
          | nil => exact fun _ h => h
          | cons e es ih => exact fun t h => ih _ (t.applyEntry_free e ix h)
        exact free es _ h1
    · exact .inr h

/-- Places before and after one list of entries, then before and after another, are places before and after both. -/
theorem Table.reclaims_append (t : Table) (es fs : List Entry) (old mid new : Vector (Option Nibble) 15)
    (h1 : t.reclaims es old mid) (h2 : (es.foldl Table.applyEntry t).reclaims fs mid new) :
    t.reclaims (es ++ fs) old new := by
  intro ix
  obtain ⟨a1, b1⟩ := h1 ix
  obtain ⟨a2, b2⟩ := h2 ix
  dsimp only
  rw [Table.happens_append]
  have hgen := (es.foldl Table.applyEntry t).gen_of_happens fs ix
    (what := fun u e => ∃ (h : Handle) (st : OpenState) (w : Window), e = .window h .reclaim ∧ h.ix? = some ix ∧
      u.body ix = .opened .b st w) (by rintro u e ⟨h, st, w, -, -, hb⟩ hf; rw [hf] at hb; cases hb)
  constructor
  · intro h
    by_cases hr : (es.foldl Table.applyEntry t).happens fs fun u e => ∃ (h : Handle) (st : OpenState) (w : Window),
        e = .window h .reclaim ∧ h.ix? = some ix ∧ u.body ix = .opened .b st w
    · rw [a2 hr]
      obtain hg | hg := Table.foldl_gen es t ix
      · rw [hg]
      · exact absurd hr (hgen.resolve_left fun hn => hn hg)
    · rw [b2 hr]
      exact a1 (h.resolve_right hr)
  · intro h
    rw [b2 fun hr => h (.inr hr)]
    exact b1 fun hr => h (.inl hr)

/-! ### The ports (R36, R46) -/

/-- An entry reaches no port but Port B, and there the RECLAIMED places alone. -/
theorem State.applyEntry_links (s : State) (e : Entry) : (s.applyEntry e).linkA = s.linkA ∧
    ∃ reclaimed, s.table.reclaims [e] s.linkB.notices.reclaimed reclaimed ∧ (s.applyEntry e).linkB =
      { s.linkB with notices := { s.linkB.notices with reclaimed := reclaimed } } := by
  have single : ∀ new : Vector (Option Nibble) 15, (∀ ix : SlotIx,
      ((∃ (h : Handle) (st : OpenState) (w : Window), e = .window h .reclaim ∧ h.ix? = some ix ∧
          s.table.body ix = .opened .b st w) → new[ix] = some (s.table.gen ix)) ∧
      (¬ (∃ (h : Handle) (st : OpenState) (w : Window), e = .window h .reclaim ∧ h.ix? = some ix ∧
          s.table.body ix = .opened .b st w) → new[ix] = s.linkB.notices.reclaimed[ix])) →
      s.table.reclaims [e] s.linkB.notices.reclaimed new := by
    intro new h ix
    dsimp only
    rw [Table.happens_cons]
    exact ⟨fun hh => (h ix).1 (hh.resolve_right (Table.happens_nil _ _)), fun hh => (h ix).2 fun hx => hh (.inl hx)⟩
  have none' : (∀ ix : SlotIx, ¬ ∃ (h : Handle) (st : OpenState) (w : Window), e = .window h .reclaim ∧
      h.ix? = some ix ∧ s.table.body ix = .opened .b st w) → (s.applyEntry e).linkA = s.linkA →
      (s.applyEntry e).linkB = s.linkB → (s.applyEntry e).linkA = s.linkA ∧
    ∃ reclaimed, s.table.reclaims [e] s.linkB.notices.reclaimed reclaimed ∧ (s.applyEntry e).linkB =
      { s.linkB with notices := { s.linkB.notices with reclaimed := reclaimed } } := by
    intro hn ha hb
    exact ⟨ha, s.linkB.notices.reclaimed, single _ fun ix => ⟨fun h => absurd h (hn ix), fun _ => rfl⟩, hb⟩
  cases e with
  | backdrop colour => exact none' (fun ix ⟨h, st, w, he, _⟩ => by cases he) rfl rfl
  | window h c =>
    cases hix : h.ix? with
    | none =>
      refine none' (fun ix ⟨h', st, w, he, hi, _⟩ => by cases he; rw [hix] at hi; cases hi) ?_ ?_
      all_goals simp [State.applyEntry, hix]
    | some ix =>
      let s1 : State := { s with table := s.table.applyEntry (.window h c) }
      have heq : s.applyEntry (.window h c) = s1.signal ix s.table.slots[ix] c := by
        simp [State.applyEntry, hix, s1]
      have hbody : s.table.slots[ix].body = s.table.body ix := rfl
      by_cases hr : c = .reclaim ∧ ∃ st w, s.table.body ix = .opened .b st w
      · obtain ⟨rfl, st, w, hb⟩ := hr
        refine ⟨?_, s.linkB.notices.reclaimed.set ix (some (s.table.gen ix)), single _ fun jx => ?_, ?_⟩
        · rw [heq]; unfold State.signal; rw [hbody, hb]; cases st <;> rfl
        · by_cases hj : ix = jx
          · subst hj
            refine ⟨fun _ => ?_, fun hn => absurd ⟨h, st, w, rfl, hix, hb⟩ hn⟩
            exact (getSlot_set _ _ _ _).trans (if_pos rfl)
          · refine ⟨fun ⟨h', st', w', he, hi, _⟩ => ?_, fun _ => (getSlot_set _ _ _ _).trans (if_neg hj)⟩
            cases he
            rw [hix] at hi
            exact absurd (Option.some.inj hi) hj
        · rw [heq]; unfold State.signal; rw [hbody, hb]; cases st <;> rfl
      · refine none' (fun jx ⟨h', st, w, he, hi, hb⟩ => ?_) ?_ ?_
        · cases he
          rw [hix] at hi
          cases hi
          exact hr ⟨rfl, st, w, hb⟩
        all_goals
          rw [heq]
          unfold State.signal
          rw [hbody]
          cases hb : s.table.body ix with
          | opened o st w =>
            cases c with
            | reclaim =>
              cases o with
              | b => exact absurd ⟨rfl, st, w, hb⟩ hr
              | a => cases st <;> rfl
            | _ => cases st <;> rfl
          | _ => rfl

/-- Entries reach no port but Port B, and there the RECLAIMED places alone. -/
theorem State.applyEntries_links (es : List Entry) (s : State) (rs : List SlotIx) :
    (s.applyEntries rs es).1.linkA = s.linkA ∧
    ∃ reclaimed, s.table.reclaims es s.linkB.notices.reclaimed reclaimed ∧ (s.applyEntries rs es).1.linkB =
      { s.linkB with notices := { s.linkB.notices with reclaimed := reclaimed } } := by
  induction es generalizing s rs with
  | nil =>
    exact ⟨rfl, s.linkB.notices.reclaimed, fun ix => ⟨fun h => absurd h (Table.happens_nil _ _), fun _ => rfl⟩, rfl⟩
  | cons e es ih =>
    obtain ⟨ha, r1, hr1, hb1⟩ := s.applyEntry_links e
    obtain ⟨ha', r2, hr2, hb2⟩ := ih (s.applyEntry e) (rs ++ s.table.resumedBy e)
    refine ⟨by simp only [State.applyEntries]; rw [ha', ha], r2, ?_, ?_⟩
    · rw [hb1, State.applyEntry_table] at hr2
      exact Table.reclaims_append _ [e] es _ _ _ hr1 hr2
    · simp only [State.applyEntries]; rw [hb2, hb1]

/-! ### The slots resumed (R32, R47) -/

/-- The entry moves a slot from SUSPENDED to SHOWN by RESUME. -/
abbrev Table.resumes (t : Table) (e : Entry) (ix : SlotIx) : Prop :=
  ∃ (h : Handle) (o : Port) (w : Window), e = .window h .resume ∧ h.ix? = some ix ∧ t.body ix = .opened o .suspended w

theorem Table.mem_resumedBy (t : Table) (e : Entry) (ix : SlotIx) : ix ∈ t.resumedBy e ↔ t.resumes e ix := by
  unfold Table.resumedBy
  constructor
  · intro hm
    split at hm
    · split at hm
      · split at hm
        · rw [List.mem_singleton] at hm
          subst hm
          exact ⟨_, _, _, rfl, ‹_›, ‹_›⟩
        · cases hm
      · cases hm
    · cases hm
  · rintro ⟨h, o, w, rfl, hix, hb⟩
    simp [hix, hb]

/-- The slots that applied entries collect as resumed. -/
theorem State.mem_applyEntries_resumed (es : List Entry) (s : State) (rs : List SlotIx) (ix : SlotIx) :
    ix ∈ (s.applyEntries rs es).2 ↔ ix ∈ rs ∨ s.table.happens es fun u e => u.resumes e ix := by
  induction es generalizing s rs with
  | nil => simp [State.applyEntries, Table.happens_nil]
  | cons e es ih =>
    simp only [State.applyEntries]
    rw [ih, List.mem_append, Table.mem_resumedBy, Table.happens_cons, State.applyEntry_table, or_assoc]

/-! ### Batches (R46) -/

/-- Batches applied, beside the table and the ports. -/
theorem State.applyBatches_applied (bs : List Batch) (s : State) (rs : List SlotIx) :
    Applied s (s.applyBatches rs bs).1 (fun ix => s.table.happens (bs.flatMap Batch.entries) fun u e => u.stops e ix)
      (fun ix => s.table.happens (bs.flatMap Batch.entries) fun u e => u.clears e ix) := by
  induction bs generalizing s rs with
  | nil =>
    exact (Applied.of_eq rfl rfl rfl).congr (fun ix => ⟨fun h => h.elim, fun h => s.table.happens_nil _ h⟩) fun ix =>
      ⟨fun h => h.elim, fun h => s.table.happens_nil _ h⟩
  | cons b bs ih =>
    have h1 := s.applyEntries_applied b.entries rs
    have h2 : Applied (s.applyEntries rs b.entries).1 (s.applyBatch rs b).1 (fun _ => False) (fun _ => False) :=
      Applied.of_eq (by simp [State.applyBatch]) (by simp [State.applyBatch]) (by simp [State.applyBatch])
    refine ((h1.trans h2).trans (ih (s.applyBatch rs b).1 (s.applyBatch rs b).2)).congr (fun ix => ?_) fun ix => ?_ <;>
      rw [List.flatMap_cons, Table.happens_append, State.applyBatch_table, or_false]

/-- The slots that applied batches collect as resumed. -/
theorem State.mem_applyBatches_resumed (bs : List Batch) (s : State) (rs : List SlotIx) (ix : SlotIx) :
    ix ∈ (s.applyBatches rs bs).2 ↔
      ix ∈ rs ∨ s.table.happens (bs.flatMap Batch.entries) fun u e => u.resumes e ix := by
  induction bs generalizing s rs with
  | nil => simp [State.applyBatches, Table.happens_nil]
  | cons b bs ih =>
    simp only [State.applyBatches]
    rw [ih, State.applyBatch_table, List.flatMap_cons, Table.happens_append, ← or_assoc]
    exact or_congr_left (State.mem_applyEntries_resumed b.entries s rs ix)

/-- A posting reaches the notices of its own port. -/
theorem State.post_link_if (s : State) (p q : Port) (f : Notices → Notices) : (s.post p f).link q =
    if q = p then { s.link q with notices := f (s.link q).notices } else s.link q := by
  cases p <;> cases q <;> rfl

/-- What applied batches leave in a port: its last batch's ticket as APPLIED, and RECLAIMED in Port B. -/
theorem State.applyBatches_links (bs : List Batch) (s : State) (rs : List SlotIx) :
    ∃ reclaimed, s.table.reclaims (bs.flatMap Batch.entries) s.linkB.notices.reclaimed reclaimed ∧
      ∀ p : Port, ∃ applied : Option Byte,
        (s.applyBatches rs bs).1.link p = { s.link p with notices := { (s.link p).notices with
          applied := applied
          reclaimed := if p = .b then reclaimed else (s.link p).notices.reclaimed } } ∧
        match (bs.filter fun b => b.port == p).getLast? with
        | some b => ((s.applyBatches rs bs).1.staging p).appliedTicket = b.ticket ∧ applied = some b.ticket
        | none => ((s.applyBatches rs bs).1.staging p).appliedTicket = (s.staging p).appliedTicket ∧
            applied = (s.link p).notices.applied := by
  induction bs generalizing s rs with
  | nil =>
    refine ⟨s.linkB.notices.reclaimed, fun ix => ⟨fun h => absurd h (Table.happens_nil _ _), fun _ => rfl⟩, fun p =>
      ⟨(s.link p).notices.applied, ?_, rfl, rfl⟩⟩
    cases p <;> rfl
  | cons b bs ih =>
    obtain ⟨r2, hr2, hl2⟩ := ih (s.applyBatch rs b).1 (s.applyBatch rs b).2
    obtain ⟨ha, r1, hr1, hb1⟩ := s.applyEntries_links b.entries rs
    have hlink : ∀ p, (s.applyBatch rs b).1.link p = { s.link p with notices := { (s.link p).notices with
        applied := if p = b.port then some b.ticket else (s.link p).notices.applied
        reclaimed := if p = .b then r1 else (s.link p).notices.reclaimed } } := by
      intro p
      have he : ∀ p, (s.applyEntries rs b.entries).1.link p = { s.link p with notices := { (s.link p).notices with
          reclaimed := if p = .b then r1 else (s.link p).notices.reclaimed } } := by
        intro p
        cases p
        · exact ha
        · exact hb1
      simp only [State.applyBatch, State.postApplied]
      rw [State.post_link_if, State.setStaging_link, he]
      by_cases hp : p = b.port
      · rw [if_pos hp, if_pos hp]
      · rw [if_neg hp, if_neg hp]
    refine ⟨r2, ?_, fun p => ?_⟩
    · rw [State.applyBatch_table] at hr2
      have hB : (s.applyBatch rs b).1.linkB.notices.reclaimed = r1 := by
        have := hlink .b
        exact congrArg (fun l : LinkPort => l.notices.reclaimed) this
      rw [hB] at hr2
      exact Table.reclaims_append _ _ _ _ _ _ hr1 hr2
    · obtain ⟨a2, h1, h2⟩ := hl2 p
      refine ⟨a2, ?_, ?_⟩
      · simp only [State.applyBatches]
        rw [h1, hlink p]
        cases p <;> rfl
      · simp only [State.applyBatches]
        have hst := State.applyBatch_staging s rs b p
        rw [List.filter_cons]
        by_cases hp : b.port = p
        · rw [if_pos (by simpa using hp), List.getLast?_cons]
          cases hg : (bs.filter fun b => b.port == p).getLast? with
          | some b' => rw [hg] at h2; simpa using h2
          | none =>
            rw [hg] at h2
            dsimp only at h2 ⊢
            rw [h2.1, h2.2, hst, hlink p, if_pos hp.symm, if_pos hp.symm]
            exact ⟨rfl, rfl⟩
        · rw [if_neg (by simpa using hp)]
          cases hg : (bs.filter fun b => b.port == p).getLast? with
          | some b' => rw [hg] at h2; simpa using h2
          | none =>
            rw [hg] at h2
            dsimp only at h2 ⊢
            rw [h2.1, h2.2, hst, hlink p, if_neg (Ne.symm hp), if_neg (Ne.symm hp)]
            exact ⟨rfl, rfl⟩

/-- The commit queue applied, beside the table and the ports (R46). -/
theorem State.applyQueue_applied (s : State) : Applied s s.applyQueue.1
    (fun ix => s.table.happens (s.commitQueue.flatMap Batch.entries) fun u e => u.stops e ix)
    (fun ix => s.table.happens (s.commitQueue.flatMap Batch.entries) fun u e => u.clears e ix) := by
  refine ((s.applyBatches_applied s.commitQueue []).trans
    (t := s.applyQueue.1) (st' := fun _ => False) (cl' := fun _ => False) (Applied.of_eq rfl rfl rfl)).congr
    (fun ix => by rw [or_false]) fun ix => by rw [or_false]

/-- The table after the commit queue is applied: every queued entry, in queue order. -/
theorem State.applyQueue_foldl (s : State) :
    s.applyQueue.1.table = (s.commitQueue.flatMap Batch.entries).foldl Table.applyEntry s.table := by
  rw [State.applyQueue_table, List.foldl_flatMap]

/-- The slots the commit queue resumes. -/
theorem State.mem_applyQueue_resumed (s : State) (ix : SlotIx) : ix ∈ s.applyQueue.2 ↔
    s.table.happens (s.commitQueue.flatMap Batch.entries) fun u e => u.resumes e ix := by
  refine (s.mem_applyBatches_resumed s.commitQueue [] ix).trans ?_
  simp

theorem Table.happens_mono (t : Table) (es : List Entry) {what what' : Table → Entry → Prop}
    (h : ∀ u e, what u e → what' u e) : t.happens es what → t.happens es what' :=
  fun ⟨before, e, after, he, hw⟩ => ⟨before, e, after, he, h _ _ hw⟩

/-- What the commit queue applied leaves in the ports (R43, R46). -/
theorem State.applyQueue_links (s : State) :
    ∃ reclaimed, s.table.reclaims (s.commitQueue.flatMap Batch.entries) s.linkB.notices.reclaimed reclaimed ∧
      ∀ p : Port, ∃ applied : Option Byte,
        s.applyQueue.1.link p = { s.link p with notices := { (s.link p).notices with
          applied := applied
          reclaimed := if p = .b then reclaimed else (s.link p).notices.reclaimed } } ∧
        match (s.commitQueue.filter fun b => b.port == p).getLast? with
        | some b => (s.applyQueue.1.staging p).appliedTicket = b.ticket ∧ applied = some b.ticket
        | none => (s.applyQueue.1.staging p).appliedTicket = (s.staging p).appliedTicket ∧
            applied = (s.link p).notices.applied := by
  obtain ⟨r, hr, h⟩ := s.applyBatches_links s.commitQueue []
  refine ⟨r, hr, fun p => ?_⟩
  obtain ⟨a, h1, h2⟩ := h p
  have e1 : s.applyQueue.1.link p = (s.applyBatches [] s.commitQueue).1.link p := by cases p <;> rfl
  have e2 : s.applyQueue.1.staging p = (s.applyBatches [] s.commitQueue).1.staging p := by cases p <;> rfl
  exact ⟨a, by rw [e1, h1], by rw [e2]; exact h2⟩

/-- The commit queue applied leaves the open batches and the next tickets alone. -/
theorem State.applyQueue_staging (s : State) (p : Port) : (s.applyQueue.1.staging p).openBatch = (s.staging p).openBatch ∧
    (s.applyQueue.1.staging p).nextTicket = (s.staging p).nextTicket := by
  have e : s.applyQueue.1.staging p = (s.applyBatches [] s.commitQueue).1.staging p := by cases p <;> rfl
  rw [e]
  exact State.applyBatches_staging s.commitQueue s [] p

end Sys2Proof.Machine
end

