-- ==== Sys2Proof/Laws/CutOff.lean ====
section
/-! SUPPORT. A command's own rule does not depend on the queues and the abandon indication of the ports: with others in
their place it answers the same and does the same. So a command that a link reset of its port cut off has the effect it
would have had (R21, R153, R154). -/

namespace Sys2Proof.Machine

variable (s : State) (p q : Port) (cs : List QueuedCommand) (rs : List (List Byte)) (b : Bool)

/-! ### The operations, with other queues in place -/

theorem State.withQueues_staging : (s.withQueues p cs rs b).staging q = s.staging q := by cases p <;> cases q <;> rfl

theorem State.withQueues_portView : (s.withQueues p cs rs b).portView q = s.portView q := by cases p <;> cases q <;> rfl

theorem State.withQueues_post (f : Notices → Notices) :
    (s.withQueues p cs rs b).post q f = (s.post q f).withQueues p cs rs b := by cases p <;> cases q <;> rfl

theorem State.withQueues_setStaging (g : Staging) :
    (s.withQueues p cs rs b).setStaging q g = (s.setStaging q g).withQueues p cs rs b := by cases p <;> cases q <;> rfl

theorem State.withQueues_postOutput (o : OutputState) :
    (s.withQueues p cs rs b).postOutput o = (s.postOutput o).withQueues p cs rs b := by cases p <;> rfl

theorem State.withQueues_streamsOff : (s.withQueues p cs rs b).streamsOff = s.streamsOff.withQueues p cs rs b := by
  cases p <;> rfl

theorem State.withQueues_signal (ix : SlotIx) (before : Slot) (c : Change) :
    (s.withQueues p cs rs b).signal ix before c = (s.signal ix before c).withQueues p cs rs b := by
  unfold State.signal
  cases before.body with
  | opened o st w => cases st <;> cases c <;> cases p <;> first | rfl | (cases o <;> rfl)
  | _ => cases c <;> rfl

theorem State.withQueues_applyEntry (e : Entry) :
    (s.withQueues p cs rs b).applyEntry e = (s.applyEntry e).withQueues p cs rs b := by
  cases e with
  | backdrop colour => cases p <;> rfl
  | window h c =>
    cases hix : h.ix? with
    | none => simp only [State.applyEntry, hix]; cases p <;> rfl
    | some ix =>
      simp only [State.applyEntry, hix]
      rw [← State.withQueues_signal]
      cases p <;> rfl

theorem State.withQueues_table : (s.withQueues p cs rs b).table = s.table := by cases p <;> rfl

theorem State.withQueues_applyEntries (es : List Entry) (resumed : List SlotIx) :
    (s.withQueues p cs rs b).applyEntries resumed es =
      ((s.applyEntries resumed es).1.withQueues p cs rs b, (s.applyEntries resumed es).2) := by
  induction es generalizing s resumed with
  | nil => rfl
  | cons e es ih =>
    simp only [State.applyEntries]
    rw [State.withQueues_applyEntry, State.withQueues_table, ih]

theorem State.withQueues_applyBatch (resumed : List SlotIx) (x : Batch) :
    (s.withQueues p cs rs b).applyBatch resumed x =
      ((s.applyBatch resumed x).1.withQueues p cs rs b, (s.applyBatch resumed x).2) := by
  simp only [State.applyBatch, State.withQueues_applyEntries, State.withQueues_staging, State.withQueues_setStaging,
    State.postApplied, State.withQueues_post]

theorem State.withQueues_applyBatches (bs : List Batch) (resumed : List SlotIx) :
    (s.withQueues p cs rs b).applyBatches resumed bs =
      ((s.applyBatches resumed bs).1.withQueues p cs rs b, (s.applyBatches resumed bs).2) := by
  induction bs generalizing s resumed with
  | nil => rfl
  | cons x bs ih =>
    simp only [State.applyBatches]
    rw [State.withQueues_applyBatch, ih]

theorem State.withQueues_applyQueue :
    (s.withQueues p cs rs b).applyQueue = (s.applyQueue.1.withQueues p cs rs b, s.applyQueue.2) := by
  unfold State.applyQueue
  rw [show (s.withQueues p cs rs b).commitQueue = s.commitQueue by cases p <;> rfl, State.withQueues_applyBatches]
  cases p <;> rfl

/-! ### The commands' own rules, with other queues in place -/

/-- A command's rule answers the same and does the same with other queues in place. -/
def CommandBody.blind (body : CommandBody) : Prop :=
  ∀ (params : List Byte) (s : State) (p : Port) (cs : List QueuedCommand) (rs : List (List Byte)) (b : Bool),
    body params (s.withQueues p cs rs b) = ((body params s).1, (body params s).2.withQueues p cs rs b)

theorem stage_blind (q : Port) (allowed : Bool) (e : Option Entry) :
    stage q allowed e (s.withQueues p cs rs b) = ((stage q allowed e s).1, (stage q allowed e s).2.withQueues p cs rs b) := by
  unfold stage State.batchFull State.appendEntry
  rw [State.withQueues_staging, State.withQueues_portView]
  (repeat' split) <;> first | rfl | (dsimp only; rw [State.withQueues_setStaging])

theorem stageOpen_blind (q : Port) : CommandBody.blind (stageOpen q) := by
  intro params s p cs rs b
  unfold stageOpen stageOpenAt State.batchFull
  rw [State.withQueues_staging, State.withQueues_portView, State.withQueues_table]
  split
  · rfl
  · split
    · rfl
    · split
      · rfl
      · split
        · rfl
        · split
          · rfl
          · dsimp only
            split
            · rfl
            · cases p <;> cases q <;> rfl

theorem commitBody_blind (q : Port) : CommandBody.blind (commitBody q) := by
  intro params s p cs rs b
  have h1 : (s.withQueues p cs rs b).refusesCommit q = s.refusesCommit q := by cases p <;> cases q <;> rfl
  have h2 : (s.withQueues p cs rs b).enqueue q = (s.enqueue q).withQueues p cs rs b := by
    cases p <;> cases q <;> rfl
  have h3 : ((s.enqueue q).withQueues p cs rs b).raster = (s.enqueue q).raster := by cases p <;> rfl
  unfold commitBody
  rw [h1, State.withQueues_staging]
  split
  · rfl
  · simp only [State.acceptCommit, h2, h3, State.withQueues_applyQueue]
    split <;> rfl

theorem abandonBody_blind (q : Port) : CommandBody.blind (abandonBody q) := by
  intro params s p cs rs b
  cases p <;> cases q <;> rfl

theorem queryWindowBody_blind (q : Port) : CommandBody.blind (queryWindowBody q) := by
  intro params s p cs rs b
  unfold queryWindowBody
  split
  · rfl
  · cases p <;> cases q <;> rfl

theorem queryStateBody_blind (q : Port) : CommandBody.blind (queryStateBody q) := by
  intro params s p cs rs b
  cases p <;> cases q <;> rfl

theorem queryTimingBody_blind : CommandBody.blind queryTimingBody := by
  intro params s p cs rs b
  cases p <;> rfl

theorem outputCommand_blind (q : Port) {act : State → ResultCode × State}
    (h : ∀ (s : State) (p : Port) (cs : List QueuedCommand) (rs : List (List Byte)) (b : Bool),
      act (s.withQueues p cs rs b) = ((act s).1, (act s).2.withQueues p cs rs b)) :
    CommandBody.blind (outputCommand q act) := by
  intro params s p cs rs b
  unfold outputCommand
  cases q with
  | b => cases p <;> rfl
  | a =>
    dsimp only
    rw [h]
    cases p <;> rfl

theorem State.withQueues_raster : (s.withQueues p cs rs b).raster = s.raster := by cases p <;> rfl

theorem State.withQueues_pinsDriven : (s.withQueues p cs rs b).pinsDriven = s.pinsDriven.withQueues p cs rs b := by
  unfold State.pinsDriven State.atLineStart
  rw [State.withQueues_raster]
  split <;> cases p <;> rfl

theorem State.withQueues_startOutput : (s.withQueues p cs rs b).startOutput = s.startOutput.withQueues p cs rs b := by
  have h : ({ s.withQueues p cs rs b with raster := s.raster.started } : State) =
      ({ s with raster := s.raster.started } : State).withQueues p cs rs b := by cases p <;> rfl
  unfold State.startOutput
  rw [State.withQueues_raster, h, State.withQueues_pinsDriven, State.withQueues_postOutput]

theorem startAct_blind : startAct (s.withQueues p cs rs b) = ((startAct s).1, (startAct s).2.withQueues p cs rs b) := by
  unfold startAct
  rw [State.withQueues_raster]
  split
  · split
    · rw [State.withQueues_startOutput]
    · rfl
  · rfl

theorem liveAct_blind : liveAct (s.withQueues p cs rs b) = ((liveAct s).1, (liveAct s).2.withQueues p cs rs b) := by
  unfold liveAct
  rw [State.withQueues_raster]
  split <;> first | rfl | (cases p <;> rfl)

theorem quietAct_blind : quietAct (s.withQueues p cs rs b) = ((quietAct s).1, (quietAct s).2.withQueues p cs rs b) := by
  unfold quietAct
  rw [State.withQueues_raster]
  split <;> first | rfl | (cases p <;> rfl)

theorem stopAct_blind : stopAct (s.withQueues p cs rs b) = ((stopAct s).1, (stopAct s).2.withQueues p cs rs b) := by
  have h : (s.withQueues p cs rs b).enterOff = s.enterOff.withQueues p cs rs b := by cases p <;> rfl
  unfold stopAct
  rw [State.withQueues_raster]
  split
  · rfl
  · simp only [State.stopOutput, h, State.withQueues_applyQueue, State.withQueues_streamsOff, State.withQueues_postOutput]

theorem setTimingBody_blind (q : Port) : CommandBody.blind (setTimingBody q) := by
  intro params s p cs rs b
  have h : (s.withQueues p cs rs b).checkTiming params = s.checkTiming params := by cases p <;> rfl
  unfold setTimingBody
  cases q with
  | b => rfl
  | a => dsimp only; rw [h]; split <;> first | rfl | (cases p <;> rfl)

theorem setFetchTimeoutBody_blind (q : Port) : CommandBody.blind (setFetchTimeoutBody q) := by
  intro params s p cs rs b
  unfold setFetchTimeoutBody
  cases q with
  | b => rfl
  | a => dsimp only; split <;> first | rfl | (cases p <;> rfl)

theorem resetFetchBody_blind (q : Port) : CommandBody.blind (resetFetchBody q) := by
  intro params s p cs rs b
  cases p <;> cases q <;> rfl

/-! ### A command cut off -/

/-- A command cut off has the effect it has with the port in no abandon and no other queues, but that the port keeps its
queues and stays in its abandon: the response is discarded (R154). -/
theorem serve_cutOff {p : Port} {len : Nat} {body : CommandBody} {c : QueuedCommand} {s : State} (h : s.cutOff p c)
    (hb : body.blind) : ∃ t, serve p c.code len body (s.withQueues p [] [] false) = .next t ∧
      serve p c.code len body s = .next (t.withQueues p (s.link p).commands (s.link p).responses true) := by
  obtain ⟨hs, ha⟩ := h
  have h1 : (s.withQueues p [] [] false).completes p c none := by
    unfold State.completes at hs ⊢
    cases p <;> exact hs
  have h2 : s.takeHead p =
      ((s.withQueues p [] [] false).takeHead p).withQueues p (s.link p).commands (s.link p).responses true := by
    unfold State.takeHead
    rw [hs.1, h1.1, ← ha]
    cases p <;> rfl
  have hc : (((s.withQueues p [] [] false).takeHead p).link p).abandonPending = false := by
    rw [State.takeHead_abandonPending]; cases p <;> rfl
  have hrespond : ∀ (u : State) (r : Reply), (u.link p).abandonPending = false →
      (u.withQueues p (s.link p).commands (s.link p).responses true).respond p c r =
        (u.respond p c r).withQueues p (s.link p).commands (s.link p).responses true := by
    intro u r hu
    rw [State.respond_of_pending _ _ (by cases p <;> rfl), State.respond_of_clear _ _ hu]
    cases p <;> rfl
  have hbody : ((body c.params ((s.withQueues p [] [] false).takeHead p)).2.link p).abandonPending = false := by
    generalize (s.withQueues p [] [] false).takeHead p = u at hc
    have hsame : u = u.withQueues p (u.link p).commands (u.link p).responses false := by
      unfold State.withQueues; rw [← hc]; exact (u.setLink_link p).symm
    have := congrArg (fun r => (r.2.link p).abandonPending) (hb c.params u p (u.link p).commands (u.link p).responses false)
    dsimp only at this
    rw [← hsame] at this
    rw [this]
    cases p <;> rfl
  unfold serve
  have t1 : s.canTake p c ∨ s.cutOff p c := .inr ⟨hs, ha⟩
  have t2 : (s.withQueues p [] [] false).canTake p c ∨ (s.withQueues p [] [] false).cutOff p c :=
    .inl (.inr ⟨h1, by cases p <;> rfl⟩)
  rw [State.servable_iff.mpr (t1.imp_right .inl), State.servable_iff.mpr (t2.imp_right .inl)]
  simp only [if_true]
  refine ⟨_, rfl, ?_⟩
  unfold serveHead
  rw [State.foundReply_none t1, State.foundReply_none t2, h2]
  dsimp only
  split
  · rw [hrespond _ _ hc]
  · rw [hb, hrespond _ _ hbody]

end Sys2Proof.Machine
end

