-- ==== Sys2Proof/Laws/Loads.lean ====
section
/-! SUPPORT. What the loads of a frame turn do, said once for each part of the state they reach: the streams, the reads
in flight and the lanes, with the rows, the count and the place that a load gives a stream (R47, R105 to R108). -/

namespace Sys2Proof.Machine

/-- The frame-turn act sends a load for exactly the SHOWN slots (R47). -/
theorem Table.loadFor_isSome (t : Table) (ix : SlotIx) :
    (t.loadFor ix).isSome = true ↔ ∃ o w, t.body ix = .opened o .shown w := by
  unfold Table.loadFor
  cases t.body ix with
  | opened o st w => cases st <;> simp
  | _ => simp

/-- A stream after the loads of a frame turn (R106, R108): restarted where its slot is SHOWN, else stopped. -/
theorem State.loadStreams_streams (s : State) (rs : List SlotIx) (ix : SlotIx) : (s.loadStreams rs).streams[ix] =
    match s.table.loadFor ix with
    | some ld => s.streams[ix].restarted ld (rs.contains ix) (s.table.placeOf ix) s.raster.profile.activeHeight
        s.raster.linesBegun
    | none => if s.streams[ix].loaded = true then s.streams[ix].stopped else s.streams[ix] := by
  have h : (s.loadStreams rs).streams[ix] = match s.table.loadFor ix with
      | some ld => (s.stopStreams fun ix => !(s.table.loadFor ix).isSome).streams[ix].restarted ld (rs.contains ix)
          (s.table.placeOf ix) s.raster.profile.activeHeight s.raster.linesBegun
      | none => (s.stopStreams fun ix => !(s.table.loadFor ix).isSome).streams[ix] := tabSlots_get _ _
  rw [h, State.stopStreams_streams]
  cases s.table.loadFor ix <;> simp

/-- A stream after "streams off" (R47, R108). -/
theorem State.streamsOff_streams (s : State) (ix : SlotIx) : s.streamsOff.streams[ix] =
    if s.streams[ix].loaded = true then s.streams[ix].stopped else s.streams[ix] := by
  rw [State.streamsOff, State.stopStreams_streams]; simp

/-- A read in flight after the loads of a frame turn (R131): marked where its stream is restarted or was stopped. -/
theorem State.loadStreams_tags (s : State) (rs : List SlotIx) (k : TagIx) : match s.mem.tags[k] with
    | .waiting e => ∃ d, (s.loadStreams rs).mem.tags[k] = .waiting { e with discard := d } ∧ (d = true ↔
        e.discard = true ∨ ∃ ix, e.handle.ix? = some ix ∧
          ((s.table.loadFor ix).isSome = true ∨ s.streams[ix].loaded = true))
    | x => (s.loadStreams rs).mem.tags[k] = x := by
  have h : (s.loadStreams rs).mem.tags[k] =
      ((s.stopStreams fun ix => !(s.table.loadFor ix).isSome).mem.tags[k]).mark fun e =>
        allSlots.any fun ix => e.ofSlot ix && (s.table.loadFor ix).isSome := tabTags_get _ _
  have h2 := s.stopStreams_tags (fun ix => !(s.table.loadFor ix).isSome) k
  rw [h]
  cases hk : s.mem.tags[k] with
  | free => rw [hk] at h2; dsimp only at h2; rw [h2]; rfl
  | quarantined e => rw [hk] at h2; dsimp only at h2; rw [h2]; rfl
  | waiting e =>
    rw [hk] at h2
    obtain ⟨d, h3, h4⟩ := h2
    rw [h3]
    have hiff : (allSlots.any fun ix => TagEntry.ofSlot { e with discard := d } ix && (s.table.loadFor ix).isSome) =
        true ↔ ∃ ix, e.handle.ix? = some ix ∧ (s.table.loadFor ix).isSome = true := by
      simp [List.any_eq_true, TagEntry.ofSlot]
    dsimp only [Tag.mark]
    split
    · rename_i hh
      obtain ⟨ix, h5, h6⟩ := hiff.1 hh
      exact ⟨true, rfl, fun _ => .inr ⟨ix, h5, .inl h6⟩, fun _ => rfl⟩
    · rename_i hh
      refine ⟨d, rfl, ?_⟩
      rw [h4]
      constructor
      · rintro (h | ⟨ix, a, b, c⟩)
        · exact .inl h
        · exact .inr ⟨ix, a, .inr c⟩
      · rintro (h | ⟨ix, a, b⟩)
        · exact .inl h
        · by_cases hn : (s.table.loadFor ix).isSome = true
          · exact absurd (hiff.2 ⟨ix, a, hn⟩) hh
          · exact .inr ⟨ix, a, by simpa using hn, b.resolve_left hn⟩

/-- A lane after the loads of a frame turn (R93): FILL where its slot is SHOWN, else vacant. -/
theorem State.loadStreams_lanes (s : State) (rs : List SlotIx) (i : Fin 6) : match s.lanes[i] with
    | some l => ∀ ix, l.handle.ix? = some ix → (s.loadStreams rs).lanes[i] =
        if (s.table.loadFor ix).isSome = true then some { l with source := .fill } else none
    | none => (s.loadStreams rs).lanes[i] = none := by
  have h : (s.loadStreams rs).lanes[i] =
      ((s.stopStreams fun ix => !(s.table.loadFor ix).isSome).lanes[i]).map fun l =>
        if allSlots.any (fun ix => l.ofSlot ix && (s.table.loadFor ix).isSome) then { l with source := .fill } else l :=
    tabLanes_get _ _
  have h2 := s.stopStreams_lanes (fun ix => !(s.table.loadFor ix).isSome) i
  rw [h]
  cases hk : s.lanes[i] with
  | none => rw [hk] at h2; dsimp only at h2; rw [h2]; rfl
  | some l =>
    rw [hk] at h2
    intro ix hix
    by_cases hn : (s.table.loadFor ix).isSome = true
    · rw [h2.2 (fun jx hj => by rw [hix] at hj; cases hj; simp [hn]), if_pos hn]
      simp only [Option.map_some]
      rw [if_pos]
      rw [List.any_eq_true]; exact ⟨ix, mem_allSlots ix, by simp [Lane.ofSlot, hix, hn]⟩
    · rw [h2.1 ⟨ix, hix, by simpa using hn⟩, if_neg hn]; rfl

/-- The visible rows of a window are those that fall on active lines (R105). -/
theorem rowVisible_visibleRows (y : Int) (h a : Nat) (r : Nat) :
    rowVisible (visibleRows y h a) r = true ↔ 0 ≤ y + r ∧ y + r < (a : Int) ∧ r < h := by
  unfold visibleRows rowVisible
  dsimp only
  split_ifs with hc
  · simp only [decide_eq_true_eq]; omega
  · simp only [false_iff]; omega

/-- The rows a load assigns are the first two visible rows not yet begun (R106). -/
theorem firstRows_iff (y : Int) (h a b : Nat) (r : Nat) :
    let open' := fun q : Nat => (0 ≤ y + q ∧ y + q < (a : Int) ∧ q < h) ∧ (b : Int) ≤ y + q
    let rows := firstRows (visibleRows y h a) y b
    (rows.1 = some r ↔ open' r ∧ ∀ q, q < r → ¬ open' q) ∧
      (rows.2 = some r ↔ open' r ∧ ∃ q, rows.1 = some q ∧ r = q + 1) := by
  unfold visibleRows firstRows
  dsimp only
  by_cases hc : (((-y).toNat : Nat) : Int) < min (h : Int) ((a : Int) - y)
  · rw [if_pos hc]
    dsimp only
    constructor
    · constructor
      · intro hh
        split_ifs at hh with h1
        simp only [Option.some.injEq] at hh
        refine ⟨by omega, fun q hq => by omega⟩
      · rintro ⟨h1, h2⟩
        have : r = max (-y).toNat ((b : Int) - y).toNat := by
          by_contra hne
          have hlt : max (-y).toNat ((b : Int) - y).toNat < r := by omega
          exact h2 _ hlt (by omega)
        rw [if_pos (by omega)]; rw [this]
    · constructor
      · intro hh
        split_ifs at hh with h1
        simp only [Option.some.injEq] at hh
        refine ⟨by omega, _, by rw [if_pos (by omega)], by omega⟩
      · rintro ⟨h1, q, h2, h3⟩
        split_ifs at h2 with h4
        simp only [Option.some.injEq] at h2
        rw [if_pos (by omega)]
        simp only [Option.some.injEq]; omega
  · rw [if_neg hc]
    simp only [reduceCtorEq, false_iff, false_and, exists_false, and_false, and_true]
    intro h; omega

/-- A load keeps the count of a stream loaded with its handle, unless it carries the resume flag (R107). -/
theorem Stream.keepsCount_iff (st : Stream) (ld : StreamLoad) (rs : Bool) :
    st.keepsCount ld rs = true ↔ st.loaded = true ∧ st.load.map StreamLoad.handle = some ld.handle ∧ rs = false := by
  simp [Stream.keepsCount, and_assoc]

/-- A half assigned a row, or none (R106, R112). -/
theorem Half.assign_fields (h : Half) (o : Option Nat) : (h.assign o).row = o ∧ (h.assign o).filled = 0 ∧
    (h.assign o).requested = [] ∧
    (h.assign o).cond = (if o = none then .empty else .filling) ∧ (h.assign o).place = h.place := by
  cases o <;> simp [Half.assign, Half.take, Half.emptied]

/-- A sum over a part of the slots, and one slot outside it, is at most the sum over a part that has both. -/
theorem sum_filter_le (f : SlotIx → Nat) (p q : SlotIx → Bool) (hpq : ∀ x, p x = true → q x = true) (x : SlotIx)
    (hq : q x = true) (hp : p x = false) (l : List SlotIx) :
    ((l.filter p).map f).sum + (if x ∈ l then f x else 0) ≤ ((l.filter q).map f).sum := by
  induction l with
  | nil => simp
  | cons a l ih =>
    have mono : ∀ l : List SlotIx, ((l.filter p).map f).sum ≤ ((l.filter q).map f).sum := by
      intro l
      induction l with
      | nil => simp
      | cons b l ih =>
        have := hpq b
        cases h1 : p b <;> cases h2 : q b <;> simp_all; omega
    have := hpq a
    have m := mono l
    by_cases hx : x = a
    · subst hx; simp [hq, hp]; omega
    · have e : (x ∈ a :: l) = (x ∈ l) := by simp [hx]
      simp only [e]
      cases h1 : p a <;> cases h2 : q a <;> simp_all <;> omega

/-- The streams are placed one after the other (R106, log 12). -/
theorem Table.placeOf_lt (t : Table) (ix jx : SlotIx) (h : ix < jx) {ld : StreamLoad}
    (hl : t.loadFor ix = some ld) : t.placeOf ix + 2 * ld.segments ≤ t.placeOf jx := by
  unfold Table.placeOf
  have := sum_filter_le (fun j => match t.loadFor j with | some ld => 2 * ld.segments | none => 0)
    (fun j => decide (j < ix)) (fun j => decide (j < jx)) (fun x hx => by simp at hx ⊢; exact lt_trans hx h) ix
    (by simpa using h) (by simp) allSlots
  rw [if_pos (mem_allSlots ix)] at this
  simp only [hl] at this
  exact this

/-- An entry that resumes a window clears its count (R32, R109). -/
theorem Table.clears_of_resumes (t : Table) (e : Entry) (ix : SlotIx) (h : t.resumes e ix) : t.clears e ix := by
  unfold Table.resumes at h
  unfold Table.clears
  aesop

end Sys2Proof.Machine
end

