-- ==== Sys2Proof/Laws/Memory.lean ====
section
/-! SUPPORT. The line store's list of (address, byte): every write keeps the canonical form, a read after a write to
the same address gives the byte written, and a write leaves every other address alone. -/

namespace Sys2Proof.Machine

theorem Memory.wfFrom_mono {lo lo' : Nat} {m : List Host.Cell} (h : lo' ≤ lo) (w : Memory.wfFrom lo m = true) :
    Memory.wfFrom lo' m = true := by
  cases m with
  | nil => rfl
  | cons c m =>
    simp only [Memory.wfFrom, Bool.and_eq_true, decide_eq_true_eq] at w ⊢
    exact ⟨⟨by omega, w.1.2⟩, w.2⟩

/-- Below its lower bound a canonical list reads as nothing written. -/
theorem Memory.read_below {lo a : Nat} {m : List Host.Cell} (w : Memory.wfFrom lo m = true) (h : a < lo) :
    Memory.read m a = Config.storeByte := by
  induction m generalizing lo with
  | nil => rfl
  | cons c m ih =>
    simp only [Memory.wfFrom, Bool.and_eq_true, decide_eq_true_eq] at w
    simp only [Memory.read]
    rw [if_neg (by omega)]
    exact ih w.2 (by omega)

theorem Memory.wfFrom_cons {lo a : Nat} {v : Byte} {m : List Host.Cell} (h : lo ≤ a)
    (w : Memory.wfFrom (a + 1) m = true) : Memory.wfFrom lo (Memory.cons a v m) = true := by
  unfold Memory.cons
  split
  · exact Memory.wfFrom_mono (by omega) w
  · simp_all [Memory.wfFrom]

theorem Memory.wfFrom_write {lo a : Nat} {v : Byte} {m : List Host.Cell} (h : lo ≤ a)
    (w : Memory.wfFrom lo m = true) : Memory.wfFrom lo (Memory.write m a v) = true := by
  induction m generalizing lo with
  | nil => exact Memory.wfFrom_cons h rfl
  | cons c m ih =>
    have w' := w
    simp only [Memory.wfFrom, Bool.and_eq_true, decide_eq_true_eq] at w'
    unfold Memory.write
    split
    · exact Memory.wfFrom_cons h (by simp_all [Memory.wfFrom])
    · split
      · exact Memory.wfFrom_cons h (by simp_all)
      · simp only [Memory.wfFrom, Bool.and_eq_true, decide_eq_true_eq]
        exact ⟨w'.1, ih (by omega) w'.2⟩

/-- A write keeps the canonical form. -/
theorem Memory.wf_write {m : List Host.Cell} (a : Nat) (v : Byte) (w : Memory.wf m = true) :
    Memory.wf (Memory.write m a v) = true := Memory.wfFrom_write (Nat.zero_le a) w

/-- A run of writes keeps the canonical form. -/
theorem Memory.wf_writeBytes {m : List Host.Cell} (a : Nat) (vs : List Byte) (w : Memory.wf m = true) :
    Memory.wf (Memory.writeBytes m a vs) = true := by
  induction vs generalizing m a with
  | nil => exact w
  | cons v vs ih => exact ih (a + 1) (Memory.wf_write a v w)

theorem Memory.read_cons {lo a b : Nat} {v : Byte} {m : List Host.Cell} (w : Memory.wfFrom lo m = true) (h : a < lo) :
    Memory.read (Memory.cons a v m) b = if b = a then v else Memory.read m b := by
  unfold Memory.cons
  split
  · split
    · subst_vars; exact Memory.read_below w h
    · rfl
  · rfl

theorem Memory.read_write_from {lo a b : Nat} {v : Byte} {m : List Host.Cell} (w : Memory.wfFrom lo m = true) :
    Memory.read (Memory.write m a v) b = if b = a then v else Memory.read m b := by
  induction m generalizing lo with
  | nil => exact Memory.read_cons (lo := a + 1) rfl (by omega)
  | cons c m ih =>
    simp only [Memory.wfFrom, Bool.and_eq_true, decide_eq_true_eq] at w
    unfold Memory.write
    split
    · exact Memory.read_cons (lo := c.1) (by simpa [Memory.wfFrom] using ⟨by simpa using w.1.2, w.2⟩) ‹_›
    · split
      · subst_vars
        rw [Memory.read_cons w.2 (by omega)]
        simp only [Memory.read]
        split <;> rfl
      · simp only [Memory.read, ih w.2]
        split <;> split <;> first | rfl | omega

/-- Reading after a write: the byte written at its address, what was there at every other. -/
theorem Memory.read_write {m : List Host.Cell} (w : Memory.wf m = true) (a b : Nat) (v : Byte) :
    Memory.read (Memory.write m a v) b = if b = a then v else Memory.read m b := Memory.read_write_from w

/-- Reading after a run of writes: byte `k` of the run at address `a + k`, what was there outside the run. -/
theorem Memory.read_writeBytes {m : List Host.Cell} (w : Memory.wf m = true) (a b : Nat) (vs : List Byte) :
    Memory.read (Memory.writeBytes m a vs) b =
      if a ≤ b then (match vs[b - a]? with
        | some v => v
        | none => Memory.read m b) else Memory.read m b := by
  induction vs generalizing m a with
  | nil => simp [Memory.writeBytes]
  | cons v vs ih =>
    rw [Memory.writeBytes, ih (Memory.wf_write a v w), Memory.read_write w]
    by_cases h : b = a
    · subst h; simp
    · by_cases h1 : a + 1 ≤ b
      · have : b - a = (b - (a + 1)) + 1 := by omega
        simp [h, h1, this, show a ≤ b by omega]
      · simp [h, h1, show ¬ a ≤ b by omega]

end Sys2Proof.Machine
end

