-- ==== Sys2Proof/Laws/Steps.lean ====
section
/-! SUPPORT. What a step of the whole part does: acts, made one after the other, on the state with the rest of the
queue. -/

namespace Sys2Proof.Machine

/-- A step is a run of acts on the state with the rest of the queue; on an empty queue there is none. -/
theorem step_acts {s t : State} (h : step s = .next t) : Acts { s with pending := s.pending.tail } t := by
  unfold step at h
  split at h
  · rename_i hq
    cases h
    rw [show ({ s with pending := s.pending.tail } : State) = s by cases s; simp_all]
    exact .done s
  · rename_i c rest hq
    rw [hq]
    exact exec_acts h

/-- What every act keeps, and the queue of steps does not enter, every step keeps. -/
theorem step_keeps {P : State → Prop} (hP : ∀ s t, Act s t → P s → P t)
    (hq : ∀ (s : State) (rest : List Instr), P s → P { s with pending := rest }) {s t : State} (h : step s = .next t)
    (hs : P s) : P t := (step_acts h).keeps hP (hq s _ hs)

end Sys2Proof.Machine
end

