-- ==== Sys2Proof/Laws/TableSteps.lean ====
section
/-! SUPPORT. The window table over every step of the part. -/

namespace Sys2Proof.Machine

/-- A property of the window table that every change, a new background, a reservation, a batch's queueing or release
and a suspension keep is kept by every step. -/
theorem Act.table_keeps {P : Table → Prop} (h0 : P Table.reset)
    (hchg : ∀ t ix t', ChangeAct t ix t' → P t → P t') (hbg : ∀ (t : Table) (c : Colour), P t → P { t with background := c })
    (hres : ∀ (t : Table) p ix, t.body ix = .free → P t → P (t.setBody ix (.reserved p)))
    (hq : ∀ (t : Table) p, P t → P (t.reservedQueued p)) (hrel : ∀ (t : Table) p, P t → P (t.releaseReserved p))
    (hsus : ∀ (t : Table) ix o w, t.body ix = .opened o .shown w → P t → P (t.setBody ix (.opened o .suspended w)))
    {s t : State} (h : Act s t) (hs : P s.table) : P t.table := by
  have eqc : ∀ {t : State}, t.table = s.table → P t.table := fun h => by rw [h]; exact hs
  have q : ∀ (u : State), P u.table → P u.applyQueue.1.table := fun u h => by
    rw [State.applyQueue_table]
    exact Table.applyQueue_keeps _ h fun t e h => Table.applyEntry_keeps e h hchg hbg
  cases h with
  | wait => exact hs
  | reset => exact h0
  | frame hi h => obtain ⟨p, l, u, rfl, rfl | ⟨rfl, -⟩⟩ := exec_frame hi h <;> exact eqc (by simp)
  | command p c r hc h =>
    rw [State.respond_table]
    have hu : P (s.takeHead p).table := by simpa using hs
    cases h with
    | opened ix w vis pl hw hl hf =>
      simp only [State.appendEntry_table]
      refine hres _ _ _ ?_ hu
      have := List.find?_some hf
      revert this; cases (s.takeHead p).table.body ix <;> simp [SlotBody.isFree]
    | committed h =>
      have : P ((s.takeHead p).enqueue p).table := by
        simp only [State.enqueue, State.setStaging_table]; exact hq _ _ hu
      simp only [State.acceptCommit]; split
      · exact q _ this
      · exact this
    | abandoned => simp only [State.discardOpen, State.setStaging_table]; exact hrel _ _ hu
    | stopped ho =>
      simp only [State.stopOutput, State.postOutput_table, State.streamsOff_table]
      exact q _ (by simpa using hu)
    | _ => simpa using hu
  | turnTaken turn hg h =>
    obtain ⟨-, h⟩ | ⟨-, h⟩ := State.takeTurn_cases s turn <;> rw [h]
    · exact hs
    · simp only [State.closeTurn_table, State.postTurn_table]
      exact q _ hs
  | suspension r rs h =>
    obtain h | ⟨ix, o, w, hix, hbd, hg, h⟩ := State.suspend_cases s.dropRequest r <;> rw [h]
    · exact eqc (by simp)
    · simp only [State.postSuspended_table, State.stopStream_table, State.dropRequest_table] at *
      exact hsus _ _ _ _ hbd hs
  | abandon p hg =>
    simp only [State.setLink_table, State.discardOpen, State.setStaging_table]
    exact hrel _ _ hs
  | lineStart l h =>
    apply eqc
    exact State.lineStartAct_keeps (P := fun x => x.table = s.table) (by simp) (fun s t h => by simpa using h)
  | delivered k e all he hd h =>
    obtain rfl | ⟨ix, seg, ld, -, -, -, -, rfl⟩ := State.deliver_next h
    · exact eqc (by simp)
    · exact eqc (by simp)
  | edge _ _ hu => obtain rfl | rfl := hu <;> exact eqc (by simp)
  | _ => exact eqc (by simp)

end Sys2Proof.Machine
end

