-- ==== Sys2Proof/Tests/Slice0.lean ====
section
/-! SUPPORT. Tests by evaluation: ill-formed terms refused, values the spec gives, each step once on a small state, and
for every statement with hypotheses a state and operands that meet them. -/

namespace Sys2Proof.Tests

open Sys2Proof.Machine

set_option Elab.async false

/-! ### Small states -/

/-- The state a step answers, or the state before it where it stops. -/
def after (i : Instr) (s : State) : State :=
  match exec i s with
  | .next t => t
  | _ => s

/-- The fault or the refusal a step stops with. -/
def stopOf (i : Instr) (s : State) : Option (Sum Fault Refusal) :=
  match exec i s with
  | .next _ => none
  | .fault f => some (.inl f)
  | .refused r => some (.inr r)

/-- A command waiting at the head of a port's queue, the pointer naming the port. -/
def asking (s : State) (p : Port) (code : Byte) (params : List Byte) : State :=
  { s.setLink p { s.link p with commands := [⟨7, code, params⟩] } with nextPort := p }

/-- The command `asking` puts there. -/
def asked (code : Byte) (params : List Byte) : QueuedCommand := ⟨7, code, params⟩

/-- A frame of a kind in progress on Port A, its byte 0 complete, with a capture. -/
def framed (kind : Byte) (capture : Capture) : State :=
  { State.reset with linkA := { LinkPort.reset with frame := some ⟨0xA0, some kind, capture⟩ } }

/-- A small valid profile: 128 by 72 positions, 64 by 64 active pixels from pixel 8, line 2. -/
def profile : Profile := ⟨128, 8, 64, 100, 4, .high, 72, 2, 64, 70, 1, .low⟩

/-- A window of 4 by 8 pixels, C32, at the top left corner. -/
def window : Window := ⟨⟨0, 0, 4, 8⟩, ⟨.c32, 0x1000, 16⟩, ⟨255, ⟨9, 9, 9⟩, none⟩, 1, false⟩

/-- A table with the window in slot 1, generation 0, of Port A, in a state. -/
def tableWith (st : OpenState) (w : Window) : Table :=
  { Table.reset with
    slots := Table.reset.slots.set 0 ⟨0, .opened .a st w⟩
    zorder := [0], free := 384 - (w.held st : Int) }

/-- The part after reset with that table. -/
def withWindow (st : OpenState) : State := { State.reset with table := tableWith st window }

/-- The handle of slot 1, generation 0. -/
def h1 : Handle := ⟨0, 1⟩

/-- The stream load of the window. -/
def load : StreamLoad := ⟨h1, .a, 0x1000, 16, .c32, 4, 0, 8, 1⟩

/-- The stream loaded for the window: half A FILLING row 0 in store segment 0, half B row 1 in segment 1. -/
def stream : Stream :=
  ⟨.running, some load, some (0, 7), ⟨some 0, .filling, 0, [], some 0⟩, ⟨some 1, .filling, 0, [], some 1⟩,
    false, 0, false⟩

/-- LIVE at a position of the small profile, with events due there, the window SHOWN and its stream a given one. -/
def liveAt (line pixel : Nat) (due : List RasterEvent) (st : Stream) : State :=
  { withWindow .shown with
    raster := ⟨profile, pixel, line, .live, .none, 2, due, 0⟩
    pins := ⟨profile.hsAt pixel, profile.vsAt line, profile.activeAt line pixel, 0⟩
    streams := State.reset.streams.set 0 st }

/-- The tag entry of the read of half A's row 0: segment 0, one beat, accepted. -/
def entry : TagEntry := ⟨h1, .a, 0, 0, 1, false, 7, true⟩

/-- That read in flight under tag 0. -/
def reading (due : List RasterEvent) (e : TagEntry) : State :=
  let s := liveAt 0 0 due { stream with halfA := ⟨some 0, .filling, 0, [0], some 0⟩ }
  { s with mem := { s.mem with tags := s.mem.tags.set 0 (.waiting e) } }

/-- One final beat for a tag. -/
def beat (tag : BitVec 3) (epoch : Byte) (error : Bool) : Beat := ⟨tag, epoch, error, 0x0F0E0D0C0B0A09080706050403020100, true⟩

/-! ### Ill-formed terms are refused, and faults are where log 14 says -/

theorem test_wf_empty_frame_has_no_byte0 : Instr.wf (.emptyFrame .a .byte0) = false := by decide +kernel
theorem test_wf_empty_frame_has_seven_bits :
    Instr.wf (.emptyFrame .a (.rise (List.replicate 8 true))) = false ∧
      Instr.wf (.emptyFrame .a (.rise (List.replicate 7 true))) = true := by decide +kernel
theorem test_wf_idle_kind : Instr.wf (.idleFrame .a 0x01 .fall) = false ∧ Instr.wf (.idleFrame .a 0xFF .fall) = true := by
  decide +kernel
theorem test_wf_unknown_kind :
    Instr.wf (.unknownFrameKind .b 0xC1 .fall) = false ∧ Instr.wf (.unknownFrameKind .b 0xC0 .fall) = true := by decide +kernel
theorem test_wf_completion_needs_a_beat : Instr.wf (.completion []) = false := by decide +kernel
theorem test_wf_one_last_beat :
    Instr.wf (.completion [beat 0 0 false, beat 0 0 false]) = false ∧ Instr.wf (.completion [beat 0 0 false]) = true := by
  decide +kernel
theorem test_ill_formed_is_refused : stopOf (.completion []) State.reset = some (.inr .illFormed) := by decide +kernel
/-- A half placed outside the line store: the premise of the fault, in a state no run reaches. -/
def misplaced : State :=
  { reading [] entry with
    streams := State.reset.streams.set 0 { stream with halfA := ⟨some 0, .filling, 0, [0], some 384⟩ } }

theorem test_stops_fault_applies : stopOf (.completion [beat 0 0 false]) misplaced = some (.inl .lineStoreAddress) := by decide +kernel

/-! ### Step, and device reset -/

theorem test_step_runs_front :
    (match step { State.reset with pending := [.frameTurn, .lineStart] } with
      | .next t => t.pending
      | _ => []) = [.lineStart] := by decide +kernel
theorem test_step_idles_applies : State.reset.pending = [] := rfl
theorem test_device_reset : (after .deviceReset (liveAt 5 9 [] stream)).raster = Raster.reset := by decide +kernel
/-- The first edge of RST_N asserts it and the second releases it; in between no frame begins and no completion counts. -/
theorem test_device_reset_held_applies :
    let held := after .deviceReset State.reset
    stopOf .deviceReset State.reset = none ∧ held.rstAsserted = true ∧ Instr.wf (.read .a .fall) = true ∧
      (after (.read .a .fall) held).linkA.frame = none ∧ (after .deviceReset held).rstAsserted = false := by decide +kernel

/-! ### The link: bytes, CRC-8 and the status byte (10.1, R142, R144) -/

theorem test_crc_of_link_reset_kind : crc8 [0xF0] = 0xDE := by decide +kernel
theorem test_bits_are_most_significant_first :
    bytesOfBits [true, true, false, false, false, false, false, true, true] = [0xC1] := by decide +kernel
theorem test_status_byte_after_reset : LinkPort.reset.statusByte = 0xA0 := by decide +kernel
theorem test_status_byte_full :
    LinkPort.statusByte { LinkPort.reset with
      commands := List.replicate 4 ⟨0, 0, []⟩, responses := [[]], dropped := true
      notices := { Notices.empty with spurious := true } } = 0x87 := by decide +kernel
theorem test_frame_begins_applies :
    State.reset.rstAsserted = false ∧ Instr.wf (.read .a .fall) = true ∧ Instr.framePort? (.read .a .fall) = some .a ∧
      Instr.moment? (.read .a .fall) = some .fall := by decide +kernel
theorem test_frame_begins : (after (.idleFrame .b 0x00 .fall) State.reset).linkB.frame = some ⟨0xA0, none, .nothing⟩ := by
  decide +kernel
/-- The data line is undriven before chip select falls, and then carries the status byte, most significant bit first. -/
theorem test_frame_begins_drives :
    State.reset.linkB.sdoLevel 0 = none ∧
      (List.range 8).map (after (.read .b .fall) State.reset).linkB.sdoLevel =
        [some true, some false, some true, some false, some false, some false, some false, some false] := by decide +kernel
theorem test_byte_zero_applies :
    Instr.wf (.status .a .byte0) = true ∧ Instr.frameKind? (.status .a .byte0) = some (.a, 0xE3) ∧
      Instr.moment? (.status .a .byte0) = some .byte0 ∧
      ((after (.status .a .fall) State.reset).link .a).frame = some ⟨0xA0, none, .nothing⟩ := by decide +kernel
theorem test_byte_zero_captures :
    (after (.status .a .byte0) (after (.status .a .fall) State.reset)).linkA.frame =
      some ⟨0xA0, some 0xE3, .extendedStatus [0x00, 0x00]⟩ := by decide +kernel

/-- QUERY_STATE with sequence number 5, framed: length 2, payload 05h 31h, CRC-8. -/
def queryFrame : List Byte := [0x02, 0x05, 0x31, crc8 [0x02, 0x05, 0x31]]

theorem test_command_frame_applies :
    ((framed 0xC1 .nothing).link .a).frame = some ⟨0xA0, some 0xC1, .nothing⟩ ∧
      bytesOfBits (bitsOfBytes queryFrame) = 0x02 :: 0x05 :: 0x31 :: ([] ++ crc8 [0x02, 0x05, 0x31] :: []) ∧
      (0x02 : Byte).toNat = ([] : List Byte).length + 2 ∧ (0x02 : Byte).toNat ≤ 40 := by decide +kernel
theorem test_command_frame_longest_applies :
    let params : List Byte := List.replicate 38 0x00
    bytesOfBits (bitsOfBytes (40 :: 1 :: 0x31 :: (params ++ [0xAA]))) = 40 :: 1 :: 0x31 :: (params ++ 0xAA :: []) ∧
      (40 : Byte).toNat = params.length + 2 := by decide +kernel
theorem test_command_frame_bad_applies :
    bytesOfBits [true] = [] ∧ (0x01 : Byte).toNat < 2 ∧ 40 < (0x29 : Byte).toNat ∧
      ([0x05, 0x31] : List Byte).length < (0x02 : Byte).toNat + 1 := by decide +kernel
theorem test_command_frame_joins :
    (after (.commandFrame .a (.rise (bitsOfBytes queryFrame))) (framed 0xC1 .nothing)).linkA.commands =
      [⟨0x05, 0x31, []⟩] := by decide +kernel
theorem test_command_frame_bad_crc :
    (after (.commandFrame .a (.rise (bitsOfBytes [0x02, 0x05, 0x31, 0x01]))) (framed 0xC1 .nothing)).linkA.frameError =
      true := by decide +kernel
theorem test_read_frame_applies :
    ((framed 0xD2 (.response (some [1, 2, 0]))).link .a).frame = some ⟨0xA0, some 0xD2, .response (some [1, 2, 0])⟩ := by
  decide +kernel
theorem test_read_frame_whole :
    let s := framed 0xD2 (.response (some [1, 2, 0]))
    let s := { s with linkA := { s.linkA with responses := [[1, 2, 0]] } }
    (after (.read .a (.rise (bitsOfBytes (List.replicate 5 0)))) s).linkA.responses = [] ∧
      (after (.read .a (.rise (bitsOfBytes (List.replicate 4 0)))) s).linkA.responses = [[1, 2, 0]] := by decide +kernel
theorem test_read_frame_empty :
    (after (.read .a (.rise (bitsOfBytes (List.replicate 3 0)))) (framed 0xD2 (.response none))).linkA.sdo =
      [0xA0, 0x00, 0x00, 0x00] := by decide +kernel
theorem test_status_frame_applies :
    ((framed 0xE3 (.extendedStatus [0x40, 0x03])).link .a).frame =
      some ⟨0xA0, some 0xE3, .extendedStatus [0x40, 0x03]⟩ := by decide +kernel
theorem test_status_frame_clears :
    let s := framed 0xE3 (.extendedStatus [0x00, 0x03])
    let s := { s with linkA := { s.linkA with dropped := true, frameError := true } }
    (after (.status .a (.rise (bitsOfBytes (List.replicate 3 0)))) s).linkA.linkFlag = false ∧
      (after (.status .a (.rise (bitsOfBytes (List.replicate 2 0)))) s).linkA.linkFlag = true := by decide +kernel
theorem test_link_reset_applies :
    ((framed 0xF0 .nothing).link .a).frame = some ⟨0xA0, some 0xF0, .nothing⟩ ∧
      bytesOfBits (bitsOfBytes [0xDE]) = 0xDE :: [] := by decide +kernel
theorem test_link_reset_bad_applies : ∀ rest : List Byte, bytesOfBits (bitsOfBytes [0xDF]) ≠ 0xDE :: rest := by
  intro rest h
  have : bytesOfBits (bitsOfBytes [0xDF]) = [0xDF] := by decide +kernel
  rw [this] at h; injection h with h; exact absurd h (by decide)
theorem test_link_reset_good :
    (after (.linkReset .a (.rise (bitsOfBytes [0xDE]))) (framed 0xF0 .nothing)).linkA.abandonPending = true := by decide +kernel
theorem test_link_reset_bad :
    (after (.linkReset .a (.rise [])) (framed 0xF0 .nothing)).linkA.frameError = true := by decide +kernel
theorem test_other_frames_apply :
    ((framed 0xFF .nothing).link .a).frame = some ⟨0xA0, some 0xFF, .nothing⟩ ∧
      ((framed 0x5A .nothing).link .a).frame = some ⟨0xA0, some 0x5A, .nothing⟩ ∧
      (0x5A : Byte) ∉ ([0xC1, 0xD2, 0xE3, 0xF0, 0x00, 0xFF] : List Byte) ∧
      ((after (.emptyFrame .a .fall) State.reset).link .a).frame = some ⟨0xA0, none, .nothing⟩ ∧
      ([true, false, true] : List Bool).length < 8 := by decide +kernel
theorem test_no_such_frame_applies :
    Instr.wf (.read .a (.rise [])) = true ∧ Instr.frameKind? (.read .a (.rise [])) = some (.a, 0xD2) ∧
      Instr.moment? (.read .a (.rise [])) = some (.rise []) ∧ (State.reset.link .a).frame = none := by decide +kernel
theorem test_unknown_frame_kind :
    (after (.unknownFrameKind .a 0x5A (.rise [])) (framed 0x5A .nothing)).linkA.frameError = true := by decide +kernel
theorem test_empty_frame :
    (after (.emptyFrame .a (.rise [true])) (after (.emptyFrame .a .fall) State.reset)).linkA.frameError = false := by
  decide +kernel
theorem test_round_trip_applies :
    (Entry.window h1 (.create window .shown (.above h1))).inDomain = true ∧
      ((framed 0xC1 .nothing).link .a).frame = some ⟨0xA0, some 0xC1, .nothing⟩ ∧
      ((framed 0xC1 .nothing).link .a).commands.length < 4 ∧ profile.inRange = true := by decide +kernel
theorem test_negative_position_bytes :
    decodeGeometry [0xFF, 0xFF, 0x00, 0xF8, 0x00, 0x08, 0x01, 0x00] = some ⟨-1, -2048, 2048, 1⟩ := by decide +kernel
theorem test_round_trip_entry :
    let w := { window with geometry := ⟨-5, -2048, 2048, 1⟩, look := ⟨128, ⟨1, 2, 3⟩, some ⟨4, 5, 6⟩⟩ }
    decodeOpen (Entry.window h1 (.create w .hidden (.below ⟨3, 9⟩))).params = some (w, .hidden, .below ⟨3, 9⟩) := by decide +kernel

/-! ### The arbiter and the taking of a command (R20, R147, R152) -/

theorem test_arbiter_suspension_before_later_turn :
    let s := { State.reset with suspensions := [h1], turn := some ⟨.live, false, 1⟩ }
    s.grants .suspension = true ∧ s.grants .frameTurn = false ∧
      { s with turn := some ⟨.live, false, 0⟩ }.grants .frameTurn = true := by decide +kernel
/-- A request that becomes pending where the arbiter chooses a command finds it in its queue or in service. -/
theorem test_requested :
    let s := asking State.reset .a 0x31 []
    s.mayTake .a (asked 0x31 []) ∧ (Config.taken 0 = false → s.requested = { s with choices := 1 }) ∧
      (Config.taken 0 = true → s.requested = { s.begun .a (asked 0x31 []) with choices := 1 }) := by
  have h : (asking State.reset .a 0x31 []).chosenHead = some (.a, asked 0x31 []) := by decide +kernel
  refine ⟨by decide +kernel, fun hf => ?_, fun ht => ?_⟩
  · unfold State.requested; rw [h]; dsimp only; rw [if_neg (by rw [show (asking State.reset .a 0x31 []).choices = 0 from rfl, hf]; decide)]; rfl
  · unfold State.requested; rw [h]; dsimp only; rw [if_pos (by exact ht), State.beginService_eq]; rfl
/-- A QUERY_STATE in service when the frame turn was reached is answered before the turn is taken: LIVE, settle count 2,
one batch still queued (R48, R161). -/
theorem test_arbiter_command_in_service :
    let s := (asking (liveAt 66 0 [.frameTurn] stream) .a 0x31 []).begun .a (asked 0x31 [])
    let s := { s with
      commitQueue := [⟨.a, 1, []⟩], stagingA := ⟨[], 2, 0⟩
      raster := { s.raster with output := .syncOnly, target := .live, settle := 1 } }
    let t := after .frameTurn s
    after (.queryState .a) s = s ∧ t.canTake .a (asked 0x31 []) ∧ after .frameTurnTaken t = t ∧
      (after (.queryState .a) t).linkA.responses = [[7, 0x31, 0x00, 2, 0, 2, 1, 0, 0, 0, 2, 0, 0x7E, 0x01, 14, 0, 0, 8]] ∧
      (after .frameTurnTaken (after (.queryState .a) t)).stagingA.appliedTicket = 1 := by decide +kernel
/-- Four commands are queued and one is in service while a frame turn waits: a fifth finds a place, the status byte shows
none free after it, and the one in service is answered before the turn and before the others (R20, R142, R146). -/
theorem test_service_frees_a_place :
    let four := { framed 0xC1 .nothing with
      linkA := { (framed 0xC1 .nothing).linkA with
        commands := [asked 0x31 [], asked 0x33 [], asked 0x33 [], asked 0x33 []] }
      turn := some ⟨.live, false, 0⟩ }
    let t := after (.commandFrame .a (.rise (bitsOfBytes [0x02, 9, 0x31, crc8 [0x02, 9, 0x31]])))
    (t four).linkA.dropped = true ∧ (t (four.begun .a (asked 0x31 []))).linkA.dropped = false ∧
      (t (four.begun .a (asked 0x31 []))).linkA.commands = [asked 0x33 [], asked 0x33 [], asked 0x33 [], ⟨9, 0x31, []⟩] ∧
      (after (.queryState .a) (t (four.begun .a (asked 0x31 [])))).linkA.commands.length = 4 ∧
      (after (.queryState .a) (t (four.begun .a (asked 0x31 [])))).linkA.responses.length = 1 ∧
      (after (.queryTiming .a) (t (four.begun .a (asked 0x31 [])))).linkA.responses = [] := by decide +kernel
/-- A good link reset while a command is in service: its response is discarded, and the abandon comes after it (R20,
R154). -/
def cutOff : State :=
  after (.linkReset .a (.rise (bitsOfBytes [0xDE]))) ((asking (framed 0xF0 .nothing) .a 0x31 []).begun .a (asked 0x31 []))

theorem test_cut_off_applies :
    cutOff.cutOff .a (asked 0x31 []) ∧ cutOff.grants (.abandon .a) = false ∧
      (after (.queryState .a) cutOff).linkA.responses = [] ∧ (after (.queryState .a) cutOff).serving = none ∧
      (after (.queryState .a) cutOff).grants (.abandon .a) = true := by decide +kernel
/-- OUTPUT_LIVE in SYNC_ONLY with settle count 1, taken before the edge that reaches the frame-turn line: the turn, reached
in its service, enters LIVE, and the response carries what the command found and left (R84, second row). -/
theorem test_output_live_before_the_turn :
    let s := liveAt 65 127 [] stream
    let s := asking { s with raster := { s.raster with output := .syncOnly, settle := 1 } } .a 0x41 []
    let t := after .frameTurn (after .pclkRisingEdge (s.begun .a (asked 0x41 [])))
    let r : Reply := ⟨.ok, [0x01, 0x02]⟩
    s.mayTake .a (asked 0x41 []) ∧ t.completes .a (asked 0x41 []) (some r) ∧ t.raster.output = .live ∧
      t.raster.target = .none ∧ (after (.outputLive .a) t).linkA.responses = [[7, 0x41, 0x00, 0x01, 0x02]] ∧
      (after (.outputLive .a) t).raster.target = .none := by decide +kernel
/-- The same command still in its queue when the line is reached: it waits, the turn keeps SYNC_ONLY, and the target set
is for the next turn (R84, second row). -/
theorem test_output_live_after_the_turn :
    let s := liveAt 66 0 [.lineStart 66, .frameTurn] stream
    let s := asking { s with raster := { s.raster with output := .syncOnly, settle := 1 } } .a 0x41 []
    let t := after .frameTurnTaken (after .frameTurn s)
    after (.outputLive .a) s = s ∧ after (.outputLive .a) (after .frameTurn s) = after .frameTurn s ∧
      t.raster.output = .syncOnly ∧ t.raster.settle = 2 ∧
      (after (.outputLive .a) t).linkA.responses = [[7, 0x41, 0x00, 0x01, 0x02]] ∧
      (after (.outputLive .a) t).raster.target = .live := by decide +kernel
theorem test_command_row_waits_applies : ∀ c, State.reset.mayServe .a c → c.code ≠ 0x11 := by
  rintro c ((h | h) | h | ⟨r, h⟩)
  · exact nomatch (show (none : Option QueuedCommand) = some c from h.2.2.2.2.2.1)
  · exact nomatch (show (none : Option Service) = _ from h.1.1)
  · exact nomatch (show (none : Option Service) = _ from h.1.1)
  · exact nomatch (show (none : Option Service) = _ from h.1)
theorem test_unknown_command_waits_applies :
    let s := asking State.reset .a 0x31 []
    ∀ c, s.mayServe .a c → paramLength c.code ≠ none := by
  rintro s c ((h | h) | h | ⟨r, h⟩)
  · obtain rfl := Option.some.inj (show some (asked 0x31 []) = some c from h.2.2.2.2.2.1)
    decide
  · exact nomatch (show (none : Option Service) = _ from h.1.1)
  · exact nomatch (show (none : Option Service) = _ from h.1.1)
  · exact nomatch (show (none : Option Service) = _ from h.1)
theorem test_command_screens_apply :
    let bad := asking State.reset .a 0x0F []
    let short := asking State.reset .b 0x11 []
    bad.canTake .a (asked 0x0F []) ∧ paramLength 0x0F = none ∧ short.canTake .b (asked 0x11 []) ∧
      Instr.command? (.place .b) = some (.b, 0x11) ∧ paramLength 0x11 = some 9 := by decide +kernel
theorem test_unknown_command_code :
    (after (.unknownCommandCode .a) (asking State.reset .a 0x47 [1])).linkA.responses = [[7, 0x47, 0x01]] := by
  decide +kernel
theorem test_screen_length :
    (after (.hide .b) (asking State.reset .b 0x15 [1, 2])).linkB.responses = [[7, 0x15, 0x02]] := by decide +kernel
theorem test_command_answered_applies :
    (asking State.reset .b 0x31 []).canTake .b (asked 0x31 []) ∧
      Instr.command? (.queryState .b) = some (.b, 0x31) := by decide +kernel

/-- The rows open to Port A only, with their codes and the lengths of their parameters (R152). -/
def portARows : List (Instr × Byte × Nat) :=
  [(.pin .b, 0x17, 2), (.reclaim .b, 0x1A, 1), (.backdrop .b, 0x1B, 3), (.setTiming .b, 0x44, 22),
   (.setFetchTimeout .b, 0x45, 1), (.resetFetch .b, 0x46, 0), (.outputStart .b, 0x40, 0), (.outputLive .b, 0x41, 0),
   (.outputQuiet .b, 0x42, 0), (.outputStop .b, 0x43, 0)]

theorem test_port_a_only_applies : ∀ r ∈ portARows,
    let params := List.replicate r.2.2 0x00
    (asking State.reset .b r.2.1 params).canTake .b (asked r.2.1 params) ∧
      r.1.command? = some (.b, r.2.1) ∧ paramLength r.2.1 = some params.length := by decide +kernel
theorem test_port_a_only_pinned_open_applies :
    let params := List.replicate 24 0x00 ++ [0x01, 0x00, 0x00, 0x00]
    (asking State.reset .b 0x10 params).canTake .b (asked 0x10 params) ∧ paramLength 0x10 = some params.length ∧
      params[24]? = some 0x01 := by decide +kernel
theorem test_port_b_is_refused :
    (after (.outputLive .b) (asking State.reset .b 0x41 [])).linkB.responses = [[7, 0x41, 0x07, 0x00, 0x00]] := by
  decide +kernel

/-! ### Staging (R24 to R36) -/

/-- A row that stages a change of a named window, the state of that window, and the change. -/
def stagingRows : List (Instr × OpenState × Change) :=
  [(.place .a, .shown, .place ⟨-4, 2047, 4, 1⟩), (.source .a, .shown, .source ⟨.c16, 0x20, 16⟩),
   (.look .a, .hidden, .look ⟨0, ⟨1, 2, 3⟩, some ⟨4, 5, 6⟩⟩), (.showWindow .a, .hidden, .unhide),
   (.hide .a, .shown, .hide), (.restack .a, .shown, .restack .bottom), (.pin .a, .shown, .pin true),
   (.resume .a, .suspended, .resume), (.retire .a, .hidden, .retire), (.reclaim .a, .suspended, .reclaim)]

theorem test_staged_in_order_applies : ∀ r ∈ stagingRows,
    let e := Entry.window h1 r.2.2
    let s := asking (withWindow r.2.1) .a e.code e.params
    s.canTake .a (asked e.code e.params) ∧ r.1.command? = some (.a, e.code) ∧
      paramLength e.code = some e.params.length ∧ decodeNamed e.code e.params = some e ∧
      firstFailing ((s.portView .a).namedChecks .a (s.staging .a).openBatch.length h1 r.2.2) = .ok := by decide +kernel
theorem test_staged_in_order_bad_bytes_apply :
    let s := asking (withWindow .shown) .a 0x17 [0x01, 0x02]
    s.canTake .a (asked 0x17 [0x01, 0x02]) ∧ Instr.command? (.pin .a) = some (.a, 0x17) ∧
      paramLength 0x17 = some 2 ∧ decodeNamed 0x17 [0x01, 0x02] = none := by decide +kernel

/-- Each staging row run: its entry is the open batch. -/
theorem test_staging_rows_stage : ∀ r ∈ stagingRows,
    let e := Entry.window h1 r.2.2
    (after r.1 (asking (withWindow r.2.1) .a e.code e.params)).stagingA.openBatch = [e] := by decide +kernel
theorem test_stale_handle :
    (after (.hide .a) (asking (withWindow .shown) .a 0x15 [0x11])).linkA.responses = [[7, 0x15, 0x05]] := by decide +kernel
theorem test_not_owner :
    (after (.retire .b) (asking (withWindow .shown) .b 0x19 [0x01])).linkB.responses = [[7, 0x19, 0x06]] := by
  decide +kernel

/-- The parameters of an OPEN of `window` at the top. -/
def openParams : List Byte := (Entry.window h1 (.create window .shown .top)).params

/-- Every slot RESERVED to Port B but for slot 15, or for none. -/
def fullTable (last : SlotBody) : Table :=
  { Table.reset with slots := tabSlots fun ix => ⟨0, if ix = 14 then last else .reserved .b⟩ }

theorem test_open_reserves_applies :
    let s := asking { State.reset with table := fullTable .free } .a 0x10 openParams
    s.canTake .a (asked 0x10 openParams) ∧ openParams.length = 28 ∧
      decodeOpen openParams = some (window, .shown, .top) ∧ s.table.body 14 = .free ∧
      (∀ j : SlotIx, j < 14 → s.table.body j ≠ .free) := by decide +kernel
theorem test_open_no_slot_applies :
    let s := asking { State.reset with table := fullTable (.queued .a) } .a 0x10 openParams
    s.canTake .a (asked 0x10 openParams) ∧ ∀ ix : SlotIx, s.table.body ix ≠ .free := by decide +kernel
theorem test_open_bad_bytes_apply :
    let params := List.replicate 8 0x00 ++ 0x03 :: List.replicate 19 0x00
    (asking State.reset .b 0x10 params).canTake .b (asked 0x10 params) ∧ params.length = 28 ∧
      decodeOpen params = none := by decide +kernel
theorem test_open_answers_handle :
    (after (.openWindow .a) (asking { State.reset with table := fullTable .free } .a 0x10 openParams)).linkA.responses =
      [[7, 0x10, 0x00, 0x0F]] := by decide +kernel
theorem test_backdrop_staged_applies :
    let s := { asking State.reset .a 0x1B [1, 2, 3] with stagingA := ⟨List.replicate 16 (.backdrop ⟨0, 0, 0⟩), 1, 0⟩ }
    (asking State.reset .a 0x1B [1, 2, 3]).canTake .a (asked 0x1B [1, 2, 3]) ∧ s.canTake .a (asked 0x1B [1, 2, 3]) ∧
      (after (.backdrop .a) s).linkA.responses = [[7, 0x1B, 0x0A]] := by decide +kernel

/-- Four windows: slots 1 and 3 SHOWN and slot 2 SUSPENDED, of Port A; slot 4, generation 2, SHOWN, of Port B. -/
def mixed : Table :=
  { Table.reset with
    slots := tabSlots fun ix =>
      if ix = 0 ∨ ix = 2 then ⟨0, .opened .a .shown window⟩ else if ix = 1 then ⟨0, .opened .a .suspended window⟩
      else if ix = 3 then ⟨2, .opened .b .shown window⟩ else ⟨0, .free⟩
    zorder := [0, 1, 2, 3], free := 376 }

/-- Slot 1 hidden, slot 2 resumed, slot 3 retired, slot 4 reclaimed. -/
def mixedEntries : List Entry :=
  [.window h1 .hide, .window ⟨0, 2⟩ .resume, .window ⟨0, 3⟩ .retire, .window ⟨2, 4⟩ .reclaim]

/-! ### The views (R19) -/

theorem test_port_views_apply :
    let v : View := ⟨mixed, []⟩
    ⟨2, 4⟩ = handleOf 3 (v.table.gen 3) ∧ (v.table.body 3).isOpen = true ∧ 3 ∉ v.retiring ∧
      (v.apply (.window ⟨2, 4⟩ .reclaim)) = ⟨{ mixed with zorder := [0, 1, 2] }, [3]⟩ := by decide +kernel
/-- An own entry staged before the other port's RECLAIM, and a stale RETIRE, change nothing in the view. -/
theorem test_port_views_stale_and_pending :
    let v : View := ⟨mixed, [3]⟩
    v.apply (.window ⟨2, 4⟩ .hide) = v ∧ v.apply (.window ⟨1, 1⟩ .retire) = v := by decide +kernel
theorem test_port_views_queue_applies :
    let s := { State.reset with table := mixed, commitQueue := [⟨.a, 1, mixedEntries⟩] }
    ReservationLaw s ∧ QueuedEntriesLaw s := by
  refine ⟨⟨fun p => ?_, by decide +kernel, by decide +kernel, fun ix p => ?_⟩, ?_⟩
  · cases p <;> decide +kernel
  · cases p <;> revert ix <;> decide +kernel
  · intro b hb e he
    obtain rfl : b = ⟨.a, 1, mixedEntries⟩ := by simpa using hb
    refine ⟨by revert e; decide +kernel, fun h c hc => ?_⟩
    subst hc
    have : (h, c) ∈ [(h1, Change.hide), (⟨0, 2⟩, .resume), (⟨0, 3⟩, .retire), (⟨2, 4⟩, .reclaim)] := by
      simpa [mixedEntries] using he
    simp only [List.mem_cons, Prod.mk.injEq, List.not_mem_nil, or_false] at this
    obtain ⟨rfl, rfl⟩ | ⟨rfl, rfl⟩ | ⟨rfl, rfl⟩ | ⟨rfl, rfl⟩ := this
    exacts [⟨0, .a, rfl, .inr ⟨_, _, rfl⟩, .inl rfl⟩, ⟨1, .a, rfl, .inr ⟨_, _, rfl⟩, .inl rfl⟩,
      ⟨2, .a, rfl, .inr ⟨_, _, rfl⟩, .inl rfl⟩, ⟨3, .b, rfl, .inr ⟨_, _, rfl⟩, .inr rfl⟩]

/-! ### Committing, abandoning, applying (R38 to R60) -/

/-- A table of seven SHOWN windows of a width, all on the same lines. -/
def seven (width : Nat) : Table :=
  { Table.reset with slots := tabSlots fun ix => ⟨0, if ix < 7 then
      .opened .a .shown { window with geometry := { window.geometry with width := width } } else .free⟩ }

theorem batchValid_of_empty (s : State) (p : Port) (h : (s.staging p).openBatch = []) : s.batchValid p := by
  rintro k code ⟨e, he, -⟩
  rw [h] at he
  exact nomatch (show (none : Option Entry) = some e from by simp at he)

theorem commitPasses_of_empty (s : State) (p : Port) (h : (s.staging p).openBatch = []) (hroom : s.commitRoom p)
    (hlanes : (s.portView p).countedWindows.length ≤ 6) (hstore : ¬ (s.portView p).storeOver) : s.commitPasses p := by
  refine ⟨hroom, batchValid_of_empty s p h, ?_, hstore⟩
  rintro ⟨-, l, -, hl⟩
  exact absurd (Nat.lt_of_lt_of_le hl (List.length_filter_le ..)) (by omega)

theorem test_commit_queue_full_applies :
    let s := asking { State.reset with commitQueue := [⟨.b, 1, []⟩, ⟨.b, 2, []⟩] } .b 0x20 []
    s.canTake .b (asked 0x20 []) ∧ ¬ s.commitRoom .b ∧ s.commitRoom .a := by decide +kernel
theorem test_commit_entry_fails_applies :
    let s := { asking State.reset .a 0x20 [] with
      stagingA := ⟨[.backdrop ⟨1, 2, 3⟩, .window h1 .hide], 1, 0⟩ }
    s.canTake .a (asked 0x20 []) ∧ s.commitRoom .a ∧ s.entryFails .a 1 .badHandle ∧
      ∀ j code', j < 1 → ¬ s.entryFails .a j code' := by
  refine ⟨by decide +kernel, by decide +kernel, ⟨.window h1 .hide, rfl, by decide +kernel⟩, ?_⟩
  rintro j code' hj ⟨e, he, hr⟩
  obtain rfl : j = 0 := by omega
  obtain rfl : Entry.backdrop ⟨1, 2, 3⟩ = e := Option.some.inj (show some (Entry.backdrop ⟨1, 2, 3⟩) = some e from he)
  exact hr.1 (show ResultCode.ok = code' from hr.2).symm
/-- Port B's batch, left open while slot 1 came round to its generation, names Port A's window by its handle. -/
def outlivedBatch : State := { asking (withWindow .shown) .b 0x20 [] with stagingB := ⟨[.window h1 .hide], 1, 0⟩ }
theorem test_commit_entry_not_owner_applies :
    outlivedBatch.canTake .b (asked 0x20 []) ∧ outlivedBatch.commitRoom .b ∧ outlivedBatch.entryFails .b 0 .notOwner :=
  ⟨by decide +kernel, by decide +kernel, .window h1 .hide, rfl, by decide +kernel⟩
theorem test_commit_entry_not_owner_code :
    ∃ code ∈ [ResultCode.badHandle, .stale, .retired, .badReference],
      (after (.commit .b) outlivedBatch).linkB.responses = [[7, 0x20, code.byte, 0]] :=
  ⟨recheckCodes[Config.recheckCode h1.byte 0], recheckCodes_mem _, rfl⟩
theorem test_commit_over_lanes_applies :
    let s := asking { State.reset with table := seven 4, raster := { Raster.reset with profile := profile } } .a 0x20 []
    s.canTake .a (asked 0x20 []) ∧ s.commitRoom .a ∧ s.batchValid .a ∧ (s.portView .a).lanesOver s.raster.profile :=
  ⟨by decide +kernel, by decide +kernel, batchValid_of_empty _ _ rfl, by decide +kernel, 7, by decide +kernel, by decide +kernel⟩
theorem test_commit_over_store_applies :
    let s := asking { State.reset with table := seven 2048 } .b 0x20 []
    s.canTake .b (asked 0x20 []) ∧ s.commitRoom .b ∧ s.batchValid .b ∧
      ¬ (s.portView .b).lanesOver s.raster.profile ∧ (s.portView .b).storeOver :=
  ⟨by decide +kernel, by decide +kernel, batchValid_of_empty _ _ rfl, fun h => absurd h.1 (by decide +kernel),
    by decide +kernel⟩
theorem test_commit_queued_applies :
    let s := asking (liveAt 0 0 [] stream) .a 0x20 []
    s.canTake .a (asked 0x20 []) ∧ s.commitPasses .a ∧ s.raster.output ≠ .off :=
  ⟨by decide +kernel, commitPasses_of_empty _ _ rfl (by decide +kernel) (by decide +kernel) (by decide +kernel), by decide +kernel⟩
theorem test_commit_in_off_applies :
    let s := asking State.reset .b 0x20 []
    s.canTake .b (asked 0x20 []) ∧ s.commitPasses .b ∧ s.raster.output = .off ∧ OffQuiet s :=
  ⟨by decide +kernel, commitPasses_of_empty _ _ rfl (by decide +kernel) (by decide +kernel) (by decide +kernel), rfl,
    by decide +kernel⟩
theorem test_commit_in_off_reclaims :
    let t := after (.commit .a) { asking { State.reset with table := mixed } .a 0x20 [] with stagingA := ⟨mixedEntries, 9, 8⟩ }
    t.linkB.notices.reclaimed[3] = some 2 ∧ t.linkA.notices.applied = some 9 ∧ t.table.free = 382 := by decide +kernel
theorem test_commit_in_off_opens_the_window :
    let s := { asking State.reset .a 0x20 [] with
      table := { Table.reset with slots := Table.reset.slots.set 0 ⟨0, .reserved .a⟩ }
      stagingA := ⟨[.window h1 (.create window .shown .top)], 255, 254⟩ }
    (after (.commit .a) s).table = tableWith .shown window ∧
      (after (.commit .a) s).stagingA = ⟨[], 1, 255⟩ := by decide +kernel
theorem test_commit_names_the_failing_entry :
    (after (.commit .a) { asking State.reset .a 0x20 [] with
      stagingA := ⟨[.backdrop ⟨1, 2, 3⟩, .window h1 .hide], 1, 0⟩ }).linkA.responses = [[7, 0x20, 0x04, 0x01]] := by
  decide +kernel
theorem test_abandon_applies :
    (asking State.reset .a 0x21 []).canTake .a (asked 0x21 []) ∧
      (State.reset.setLink .b { LinkPort.reset with abandonPending := true }).turn = none ∧
      ((State.reset.setLink .b { LinkPort.reset with abandonPending := true }).link .b).abandonPending = true := by
  decide +kernel
theorem test_abandon_frees_the_slot :
    let s := { asking State.reset .a 0x21 [] with
      table := { Table.reset with slots := Table.reset.slots.set 0 ⟨15, .reserved .a⟩ }
      stagingA := ⟨[.window h1 (.create window .shown .top)], 1, 0⟩ }
    (after (.abandon .a) s).table = Table.reset ∧ (after (.abandon .a) s).linkA.responses = [[7, 0x21, 0x00, 0x01]] := by
  decide +kernel
theorem test_link_reset_abandon :
    (after (.linkResetAbandon .b) { State.reset with
      linkB := { LinkPort.reset with abandonPending := true }, stagingB := ⟨[.backdrop ⟨1, 2, 3⟩], 5, 4⟩ }).stagingB =
      ⟨[], 5, 4⟩ := by decide +kernel
theorem test_entry_applied_applies : h1.ix? = some 0 ∧ Handle.ix? ⟨7, 15⟩ = some 14 ∧ Handle.ix? ⟨7, 0⟩ = none := by
  decide +kernel
theorem test_placement_forms_apply :
    ZOrderLaw (withWindow .shown) ∧ ZOrderLaw { State.reset with
        table := { Table.reset with slots := Table.reset.slots.set 0 ⟨0, .queued .a⟩ } } ∧
      (withWindow .shown).table.body 0 = .opened .a .shown window ∧ window.pinned ≠ true := by decide +kernel

/-- The z-order list [1, 2, 3, 4] of windows of which 3 and 4 are pinned. -/
def stacked : Table :=
  { Table.reset with
    slots := tabSlots fun ix => ⟨0, if ix < 4 then .opened .a .shown { window with pinned := decide (2 ≤ ix) } else .free⟩
    zorder := [0, 1, 2, 3] }

theorem test_placements :
    (stacked.applyEntry (.window h1 (.restack (.above ⟨0, 2⟩)))).zorder = [1, 0, 2, 3] ∧
      (stacked.applyEntry (.window ⟨0, 4⟩ (.restack (.below ⟨0, 3⟩)))).zorder = [0, 1, 3, 2] ∧
      (stacked.applyEntry (.window h1 (.pin true))).zorder = [1, 0, 2, 3] ∧
      (stacked.applyEntry (.window ⟨0, 4⟩ (.pin false))).zorder = [0, 1, 3, 2] := by decide +kernel

/-! ### Frame turns and suspensions (R20, R47, R105 to R109, R122) -/

/-- A frame turn into a LIVE frame waits, the window SHOWN and its stream loaded. -/
def turning (coming : OutputState) : State := { liveAt 66 0 [] stream with turn := some ⟨coming, true, 0⟩ }

theorem test_frame_turn_applies :
    (turning .live).turn = some ⟨.live, true, 0⟩ ∧ (turning .live).suspensions = [] ∧
      (turning .live).raster.output ≠ .off ∧ (turning .live).commitQueue = [] ∧
      (∃ o w, (turning .live).table.body 0 = .opened o .shown w) ∧
      { State.reset with turn := some ⟨.off, true, 0⟩ }.raster.output = .off :=
  ⟨rfl, rfl, by decide +kernel, rfl, ⟨.a, window, rfl⟩, rfl⟩
/-- The four windows in LIVE, the streams of the SHOWN ones loaded, a frame turn waiting with a queue that hides, resumes,
retires and reclaims. -/
def mixedTurn : State :=
  { turning .live with
    table := mixed, commitQueue := [⟨.a, 5, mixedEntries⟩]
    streams := tabSlots fun ix => if ix = 0 ∨ ix = 3 then { stream with count := 4 }
      else { Stream.reset with count := 4 }
    lanes := vacantLanes.set 0 (some ⟨h1, 0, 0, some (0, 3), .c32, 255, ⟨0, 0, 0⟩, none, .fill⟩) }

theorem test_frame_turn_mixed_applies :
    mixedTurn.turn = some ⟨.live, true, 0⟩ ∧ mixedTurn.suspensions = [] ∧ mixedTurn.raster.output ≠ .off ∧
      mixedTurn.commitQueue.flatMap Batch.entries = [] ++ .window h1 .hide :: mixedEntries.tail ∧
      (mixedEntries.foldl Table.applyEntry mixed).body 1 = .opened .a .shown window := by decide +kernel
theorem test_frame_turn_mixed :
    let t := after .frameTurnTaken mixedTurn
    t.linkB.notices.reclaimed[3] = some 2 ∧ t.stagingA.appliedTicket = 5 ∧ t.streams[0].count = 0 ∧
      t.streams[1].cond = .running ∧ t.streams[1].count = 0 ∧ t.streams[5].count = 4 ∧ t.lanes[0] = none := by
  decide +kernel
/-- A frame turn waiting as in `mixedTurn`, a read for the hidden window in flight under tag 0, tag 1 QUARANTINED. -/
def mixedReads (coming : OutputState) : State :=
  { mixedTurn with
    turn := some ⟨coming, true, 0⟩
    mem := { mixedTurn.mem with tags := (mixedTurn.mem.tags.set 0 (.waiting entry)).set 1 (.quarantined entry) } }

/-- At every coming frame the read is marked discard, and FREE and QUARANTINED tags are kept (R108, R131). -/
theorem test_frame_turn_marks : ∀ coming ∈ [OutputState.live, .syncOnly],
    let t := after .frameTurnTaken (mixedReads coming)
    (mixedReads coming).turn = some ⟨coming, true, 0⟩ ∧ t.mem.tags[0] = .waiting { entry with discard := true } ∧
      t.mem.tags[1] = .quarantined entry ∧ t.mem.tags[2] = .free ∧ t.lanes[0] = none ∧
      t.streams[3].loaded = false ∧ t.streams[5].count = 4 := by decide +kernel
/-- HIDE applied by a late frame-turn act vacates a FILL lane whose stream was STOPPED before (R2, R93). -/
theorem test_late_hide_vacates_its_lane :
    (after .frameTurnTaken { mixedTurn with streams := State.reset.streams }).lanes[0] = none := by decide +kernel
theorem test_frame_turn_loads :
    let st := (after .frameTurnTaken (turning .live)).streams[0]
    st.load = some load ∧ st.visible = some (0, 7) ∧ st.halfA.row = some 0 ∧ st.halfB.row = some 1 := by decide +kernel
theorem test_frame_turn_stops_streams :
    (after .frameTurnTaken (turning .syncOnly)).streams[0].loaded = false ∧
      (after .frameTurnTaken (turning .syncOnly)).linkB.notices.output = some .syncOnly := by decide +kernel
theorem test_suspension_applies :
    let s := { liveAt 72 0 [] stream with suspensions := [h1], turn := some ⟨.live, false, 1⟩ }
    s.suspensions = h1 :: [] ∧ (∀ turn, s.turn = some turn → 0 < turn.ahead) ∧
      s.table.body 0 = .opened .a .shown window ∧ s.table.gen 0 = h1.gen ∧ (⟨1, 1⟩ : Handle).ix? = some 0 := by
  refine ⟨rfl, ?_, rfl, rfl, by decide +kernel⟩
  intro turn h
  obtain rfl := Option.some.inj h
  decide
theorem test_suspension_taken :
    let t := after .suspensionRequestTaken { liveAt 72 0 [] { stream with count := 3 } with suspensions := [h1] }
    t.table.body 0 = .opened .a .suspended window ∧ t.streams[0].count = 3 ∧ t.linkA.notices.suspended[0] = some 0 := by
  decide +kernel
theorem test_stale_suspension_discarded :
    (after .suspensionRequestTaken { liveAt 72 0 [] stream with suspensions := [⟨1, 1⟩] }).table.body 0 =
      .opened .a .shown window := by decide +kernel

/-! ### Queries and notices (R22, R157 to R160) -/

theorem test_query_window_applies :
    let t := (tableWith .suspended window)
    let s := { State.reset with table := { t with slots := (t.slots.set 1 ⟨2, .reserved .b⟩).set 2 ⟨3, .queued .a⟩ } }
    (asking s .b 0x30 [0x01, 0x00]).canTake .b (asked 0x30 [0x01, 0x00]) ∧
      (asking s .b 0x30 [0x01, 0x01]).canTake .b (asked 0x30 [0x01, 0x01]) ∧
      (asking s .b 0x30 [0x01, 0x02]).canTake .b (asked 0x30 [0x01, 0x02]) ∧ (Handle.ofByte 0x01).ix? = some 0 ∧ s.table.body 0 = .opened .a .suspended window ∧
      (Handle.ofByte 0x10).ix? = none ∧ (Handle.ofByte 0x0F).ix? = some 14 ∧ s.table.body 14 = .free ∧
      (Handle.ofByte 0x22).ix? = some 1 ∧ s.table.gen 1 = (Handle.ofByte 0x22).gen ∧ s.table.body 1 = .reserved .b ∧
      (Handle.ofByte 0x33).ix? = some 2 ∧ s.table.gen 2 = (Handle.ofByte 0x33).gen ∧ s.table.body 2 = .queued .a ∧
      (s.portView .b).windowAt h1 = some (0, .a, window) ∧ (s.portView .b).windowAt ⟨2, 2⟩ = none :=
  ⟨by decide +kernel, by decide +kernel, by decide +kernel, by decide +kernel⟩
theorem test_query_window_live :
    (after (.queryWindow .b) (asking (withWindow .suspended) .b 0x30 [0x01, 0x00])).linkB.responses =
      [[7, 0x30, 0x00, 0x05, 0x00, 0x00, 0x01, 0, 0, 0, 0, 4, 0, 8, 0, 0, 0x00, 0x10, 0, 0, 16, 0, 255, 9, 9, 9, 0, 0, 0,
        0, 1, 0, 2, 0x05, 0]] := by decide +kernel
theorem test_query_window_stale :
    (after (.queryWindow .a) (asking (withWindow .hidden) .a 0x30 [0x11, 0x01])).linkA.responses = [[7, 0x30, 0x05]] := by
  decide +kernel
theorem test_query_state_applies : (asking State.reset .a 0x31 []).canTake .a (asked 0x31 []) := by decide +kernel
theorem test_query_state_after_reset :
    (after (.queryState .a) (asking State.reset .a 0x31 [])).linkA.responses =
      [[7, 0x31, 0x00, 0, 0, 0, 0, 0, 0, 0, 1, 0, 0x80, 0x01, 15, 0, 0, 8]] := by decide +kernel
theorem test_take_notices_applies :
    (asking State.reset .b 0x32 []).canTake .b (asked 0x32 []) ∧ Ranges (asking State.reset .b 0x32 []) := by
  refine ⟨by decide +kernel, fun p => by cases p <;> decide +kernel, by decide +kernel, by decide +kernel, ?_,
    by decide +kernel, by decide +kernel, by decide +kernel, by decide +kernel⟩
  intro t
  have h : (asking State.reset .b 0x32 []).mem.tags[t] = .free := by revert t; decide +kernel
  rw [h]
  trivial
theorem test_take_notices :
    let n := { Notices.empty with
      applied := some 9, spurious := true, suspended := Notices.empty.suspended.set 14 (some 2)
      fetchFault := Notices.empty.fetchFault.set 0 (some (0, .timeout)) }
    let s := asking (State.reset.setLink .a { LinkPort.reset with notices := n }) .a 0x32 []
    (after (.takeNotices .a) s).linkA.responses = [[7, 0x32, 0x00, 4, 0x01, 9, 0x04, 0, 0x05, 0x2F, 0x08, 0x01]] := by
  decide +kernel
theorem test_query_timing_applies :
    (asking State.reset .b 0x33 []).canTake .b (asked 0x33 []) ∧ RasterLaw (asking State.reset .b 0x33 []) := by
  decide +kernel
theorem test_query_timing :
    (after (.queryTiming .a) (asking (liveAt 0 0 [] stream) .a 0x33 [])).linkA.responses =
      [[7, 0x33, 0x00, 1, 128, 0, 8, 0, 64, 0, 100, 0, 4, 0, 0, 72, 0, 2, 0, 64, 0, 70, 0, 1, 0, 1]] := by decide +kernel

/-! ### Output, timing and fetch commands (R66 to R88, R132, R137) -/

theorem test_output_start_applies :
    let off := asking { State.reset with raster := { Raster.reset with profile := profile } } .a 0x40 []
    off.canTake .a (asked 0x40 []) ∧ off.raster.output = .off ∧ off.raster.profile.valid = true ∧
      (asking State.reset .a 0x40 []).canTake .a (asked 0x40 []) ∧ State.reset.raster.profile.valid = false ∧
      (asking (liveAt 0 0 [] stream) .a 0x40 []).canTake .a (asked 0x40 []) ∧
      (liveAt 0 0 [] stream).raster.output ≠ .off := by decide +kernel
theorem test_output_start :
    let s := asking { State.reset with raster := { Raster.reset with profile := profile } } .a 0x40 []
    (after (.outputStart .a) s).raster = ⟨profile, 0, 0, .syncOnly, .none, 0, [.lineStart 0], 0⟩ ∧
      (after (.outputStart .a) s).pins = ⟨false, true, false, 0⟩ ∧
      (after (.outputStart .a) s).linkA.responses = [[7, 0x40, 0x00, 0x01, 0x00]] := by decide +kernel
/-- Where the active area begins at line 0, pixel 0, OUTPUT_START raises DE and puts the background on PD (R75, R80). -/
theorem test_output_start_in_the_active_area :
    let s := { State.reset with
      table := { Table.reset with background := ⟨1, 2, 3⟩ }
      raster := { Raster.reset with profile := { profile with hActiveStart := 0, vActiveStart := 0 } } }
    (after (.outputStart .a) (asking s .a 0x40 [])).pins = ⟨false, true, true, 0x010203⟩ := by decide +kernel
theorem test_output_targets_apply : ∀ code ∈ ([0x41, 0x42] : List Byte),
    (asking (liveAt 0 0 [] stream) .a code []).canTake .a (asked code []) ∧
      (asking State.reset .a code []).canTake .a (asked code []) := by decide +kernel
theorem test_output_live_cancels :
    let s := liveAt 0 0 [] stream
    (after (.outputLive .a) (asking { s with raster := { s.raster with target := .syncOnly } } .a 0x41 [])).raster.target =
      .none := by decide +kernel
theorem test_output_quiet_asks :
    (after (.outputQuiet .a) (asking (liveAt 0 0 [] stream) .a 0x42 [])).linkA.responses =
      [[7, 0x42, 0x00, 0x02, 0x01]] := by decide +kernel
theorem test_output_stop_applies :
    (asking (liveAt 5 9 [] stream) .a 0x43 []).canTake .a (asked 0x43 []) ∧
      (asking State.reset .a 0x43 []).canTake .a (asked 0x43 []) := by decide +kernel
theorem test_output_stop :
    let s := { asking (liveAt 5 9 [] stream) .a 0x43 [] with commitQueue := [⟨.b, 3, [.backdrop ⟨1, 2, 3⟩]⟩] }
    (after (.outputStop .a) s).pins = ⟨false, true, false, 0⟩ ∧
      (after (.outputStop .a) s).table.background = ⟨1, 2, 3⟩ ∧
      (after (.outputStop .a) s).linkB.notices.applied = some 3 := by decide +kernel
/-- OUTPUT_STOP stops the reads and keeps the counts; FREE and QUARANTINED tags are kept (R83, R108). -/
theorem test_output_stop_marks :
    let t := after (.outputStop .a) (asking { mixedReads .live with turn := none, commitQueue := [] } .a 0x43 [])
    t.streams[0].loaded = false ∧ t.streams[0].count = 4 ∧ t.mem.tags[0] = .waiting { entry with discard := true } ∧
      t.mem.tags[1] = .quarantined entry ∧ t.mem.tags[2] = .free := by decide +kernel
/-- A suspension request that becomes pending while OUTPUT_STOP is in service stays pending, and is taken in OFF (R20,
R121). -/
theorem test_output_stop_in_service :
    let t := after .activeEnd 
      ((asking (liveAt 65 72 [.activeEnd] { stream with starved := true }) .a 0x43 []).begun .a (asked 0x43 []))
    let u := after (.outputStop .a) t
    after .suspensionRequestTaken t = t ∧ t.suspensions = [h1] ∧ u.raster.output = .off ∧ u.suspensions = [h1] ∧
      (after .suspensionRequestTaken u).table.body 0 = .opened .a .suspended window := by decide +kernel
theorem test_set_timing_applies :
    (asking State.reset .a 0x44 profile.bytes).canTake .a (asked 0x44 profile.bytes) ∧ profile.bytes.length = 22 ∧
      decodeProfile profile.bytes = some profile ∧ profile.valid = true ∧
      decodeProfile (profile.bytes.set 10 0x02) = none ∧ (asked 0x44 (profile.bytes.set 10 0x02)).params.length = 22 ∧
      decodeProfile Profile.reset.bytes = some Profile.reset ∧ Profile.reset.valid = false := by decide +kernel
theorem test_set_timing :
    (after (.setTiming .a) (asking State.reset .a 0x44 profile.bytes)).raster.profile = profile ∧
      (after (.setTiming .a) (asking State.reset .a 0x44 profile.bytes)).pins = ⟨false, true, false, 0⟩ := by
  decide +kernel
theorem test_profile_edges :
    { profile with hTotal := 88, hSyncStart := 0 }.valid = false ∧ { profile with hTotal := 127 }.valid = false ∧
      { profile with hTotal := 128, hActiveStart := 48, hSyncStart := 0 }.valid = true ∧
      { profile with hTotal := 128, hActiveStart := 49, hSyncStart := 0 }.valid = false ∧
      { profile with vSyncStart := 65 }.valid = false ∧ { profile with vTotal := 67, vSyncStart := 0 }.valid = false := by
  decide +kernel
theorem test_set_fetch_timeout_applies : ∀ v ∈ ([0, 1, 63, 64] : List Byte),
    (asking State.reset .a 0x45 [v]).canTake .a (asked 0x45 [v]) ∧
      (after (.setFetchTimeout .a) (asking State.reset .a 0x45 [v])).mem.timeout =
        (if v = 1 then 1 else if v = 63 then 63 else 8) := by decide +kernel
theorem test_reset_fetch_applies :
    (asking (reading [] entry) .a 0x46 []).canTake .a (asked 0x46 []) := by decide +kernel
theorem test_reset_fetch :
    let s := reading [] entry
    let t := after (.resetFetch .a) (asking { s with mem := { s.mem with epoch := 255, fetchState := .stuck } } .a 0x46 [])
    t.linkA.responses = [[7, 0x46, 0x00, 0x00]] ∧ t.mem.tags[0] = .free ∧ t.mem.fetchState = .running ∧
      t.streams[0].cond = .idle ∧ t.streams[0].excused = true ∧ t.streams[0].halfA.cond = .empty ∧
      t.streams[0].halfB.place = some 1 := by decide +kernel

/-! ### The whole part, and the raster (R71 to R75, R76, R90, R111, R112, R120, R133) -/

theorem test_output_state_changes_apply :
    let off := asking { State.reset with raster := { Raster.reset with profile := profile } } .a 0x40 []
    let turned := fun o target => { liveAt 66 0 [.lineStart 66, .frameTurn] stream with
      raster := ⟨profile, 0, 66, o, target, 1, [.lineStart 66, .frameTurn], 0⟩ }
    ∀ r ∈ [(Instr.outputStart .a, off), (.frameTurn, turned .syncOnly .live), (.frameTurn, turned .live .syncOnly),
        (.outputStop .a, asking (liveAt 0 0 [] stream) .a 0x43 []), (.deviceReset, liveAt 0 0 [] stream)],
      RasterLaw r.2 ∧ stopOf r.1 r.2 = none ∧ (after r.1 r.2).raster.output ≠ r.2.raster.output := by decide +kernel
theorem test_output_state_changes_by_an_edge :
    let s := { liveAt 66 0 [.frameTurn] stream with raster := ⟨profile, 0, 66, .live, .syncOnly, 2, [.frameTurn], 0⟩ }
    RasterLaw s ∧ (after .pclkRisingEdge s).raster.output = .syncOnly := by decide +kernel
theorem test_live_table_changes_apply :
    stopOf .frameTurnTaken (turning .live) = none ∧ stopOf (.resetFetch .a) State.reset = none ∧
      stopOf .pclkRisingEdge (liveAt 2 8 [] stream) = none := by decide +kernel

/-- The raster events of the small profile, at the positions the edges of the next test reach. -/
def edges : List (Nat × Nat × List RasterEvent) :=
  [(0, 4, []), (0, 127, [.lineStart 1]), (71, 127, [.lineStart 0]), (2, 7, [.activeLineStart 0]), (2, 8, []),
   (2, 70, []), (2, 71, [.activeLineEnd 0]), (65, 71, [.activeLineEnd 63, .activeEnd]), (65, 127, [.lineStart 66, .frameTurn])]

theorem test_pclk_edge_applies : ∀ e ∈ edges,
    let s := liveAt e.1 e.2.1 [] stream
    RasterLaw s ∧ s.raster.output ≠ .off ∧ s.lanesInStore (s.raster.pixel + 1 - 8) = true ∧
      (s.withLine (s.raster.line - 2)).lanesInStore (s.raster.pixel + 1 - 8) = true := by decide +kernel
theorem test_pclk_edge_events : ∀ e ∈ edges,
    (after .pclkRisingEdge (liveAt e.1 e.2.1 [] stream)).raster.due = e.2.2 := by decide +kernel
theorem test_pclk_edge_pins :
    (after .pclkRisingEdge (liveAt 70 99 [] stream)).pins = ⟨true, false, false, 0⟩ ∧
      (after .pclkRisingEdge (liveAt 69 127 [] stream)).pins = ⟨false, false, false, 0⟩ ∧
      (after .pclkRisingEdge (liveAt 2 70 [] stream)).pins = ⟨false, true, true, 0⟩ := by decide +kernel
/-- An edge with an event still due takes the event and moves the counters on. -/
theorem test_pclk_edge_takes_what_is_due :
    let s := reading [.lineStart 1] { entry with age := 0 }
    let t := after .pclkRisingEdge { s with raster := { s.raster with line := 1 } }
    s.raster.output ≠ .off ∧ s.raster.due = .lineStart 1 :: [] ∧ t.raster.pixel = 1 ∧ t.raster.due = [] ∧
      t.mem.tags[0] = .waiting { entry with age := 1 } := by decide +kernel
theorem test_pclk_edge_held_in_off : (State.reset).raster.output = .off := rfl
theorem test_frame_turn_reached_applies :
    RasterEvent.frameTurn ∈ (liveAt 66 0 [.lineStart 66, .frameTurn] stream).raster.due ∧
      RasterEvent.frameTurn ∉ State.reset.raster.due := by decide +kernel
theorem test_frame_turn_settles :
    let s := liveAt 66 0 [.frameTurn] stream
    let s1 := { s with raster := { s.raster with output := .syncOnly, target := .live, settle := 0 } }
    let t1 := after .frameTurn s1
    let t2 := after .frameTurn { t1 with raster := { t1.raster with due := [.frameTurn] } }
    t1.raster.output = .syncOnly ∧ t1.raster.target = .live ∧ t1.turn = some ⟨.syncOnly, false, 0⟩ ∧
      t2.raster.output = .live ∧ t2.raster.target = .none ∧ t2.turn = some ⟨.live, true, 0⟩ := by decide +kernel

/-! ### Reads in flight: the law FetchLaw holds of the small states -/

theorem halfLaw_of_unloaded (s : State) (ix : SlotIx) (i : HalfId) (h : s.streams[ix].load = none)
    (ht : s.liveTags ix i = []) (hc : (s.streams[ix].half i).cond ≠ .filling) : s.halfLaw ix i := by
  refine ⟨fun ld hl => ?_, fun e he => ?_, fun hf => absurd hf hc⟩
  · rw [h] at hl; exact nomatch hl
  · rw [ht] at he; exact nomatch he

theorem halfLaw_of_loaded (s : State) (ix : SlotIx) (i : HalfId) (ld : StreamLoad) (h : s.streams[ix].load = some ld)
    (hx : ld.handle.ix? = some ix)
    (ht : ∀ e ∈ s.liveTags ix i, (s.streams[ix].half i).cond = .filling ∧ (s.streams[ix].half i).row = some e.row ∧
      s.streams[ix].loaded = true ∧ some ld.handle = some e.handle ∧ e.segment ∈ (s.streams[ix].half i).requested)
    (hc : (s.streams[ix].half i).requested.Nodup ∧ (∀ seg ∈ (s.streams[ix].half i).requested, seg < ld.segments) ∧
      (s.streams[ix].half i).requested.length = (s.streams[ix].half i).filled + (s.liveTags ix i).length) :
    s.halfLaw ix i := by
  refine ⟨fun ld' hl => ?_, fun e he => ?_, fun _ => ⟨hc.1, fun seg hs => ⟨ld, h, hc.2.1 seg hs⟩, hc.2.2⟩⟩
  · rw [h] at hl; cases hl; exact hx
  · obtain ⟨a, b, c, d, f⟩ := ht e he
    exact ⟨a, b, c, by rw [h]; exact d, f⟩

/-- Only stream 1 of the small states is loaded, for `window`. -/
theorem fetchLaw_of (s : State)
    (h : ∀ ix : SlotIx, ix ≠ 0 → ∀ i ∈ [HalfId.a, HalfId.b], s.streams[ix].load = none ∧ s.liveTags ix i = [] ∧
      (s.streams[ix].half i).cond = .empty)
    (h0 : s.streams[(0 : SlotIx)].load = some load)
    (hc : ∀ i ∈ [HalfId.a, HalfId.b],
      (∀ e ∈ s.liveTags 0 i, (s.streams[(0 : SlotIx)].half i).cond = .filling ∧
        (s.streams[(0 : SlotIx)].half i).row = some e.row ∧ s.streams[(0 : SlotIx)].loaded = true ∧
        some load.handle = some e.handle ∧ e.segment ∈ (s.streams[(0 : SlotIx)].half i).requested) ∧
      (s.streams[(0 : SlotIx)].half i).requested.Nodup ∧
      (∀ seg ∈ (s.streams[(0 : SlotIx)].half i).requested, seg < load.segments) ∧
      (s.streams[(0 : SlotIx)].half i).requested.length =
        (s.streams[(0 : SlotIx)].half i).filled + (s.liveTags 0 i).length) : FetchLaw s := by
  intro ix i
  have hi : i ∈ [HalfId.a, HalfId.b] := by cases i <;> simp
  by_cases hx : ix = 0
  · subst hx
    exact halfLaw_of_loaded s 0 i load h0 (by decide) (hc i hi).1 (hc i hi).2
  · obtain ⟨a, b, c⟩ := h ix hx i hi
    exact halfLaw_of_unloaded s ix i a b (by rw [c]; decide)

/-- Seven tags QUARANTINED and the eighth WAITING with an entry. -/
def lastTag (e : TagEntry) : State :=
  let s := reading [.lineStart 0] e
  { s with mem := { s.mem with tags := tabTags fun k => if k = 7 then .waiting e else .quarantined { e with discard := true } } }

theorem test_line_start_applies :
    let s := reading [.lineStart 0] entry
    s.raster.due.head? = some (.lineStart 0) ∧ FetchLaw s ∧ s.timesOut entry ∧ s.mem.tags[0] = .waiting entry :=
  ⟨rfl, fetchLaw_of _ (by decide +kernel) rfl (by decide +kernel), by decide +kernel, rfl⟩
theorem test_line_start_stuck_applies : FetchLaw (lastTag entry) :=
  fetchLaw_of _ (by decide +kernel) rfl (by decide +kernel)
theorem test_line_start_sticks :
    let t := after .lineStart (lastTag entry)
    t.mem.fetchState = .stuck ∧ t.streams[0].halfA.cond = .failed ∧ t.linkB.notices.fetchStuck = true ∧
      t.linkA.notices.fetchFault[0] = some (0, .timeout) ∧ t.linkB.notices.fetchFault[0] = none := by decide +kernel
theorem test_line_start_ages :
    (after .lineStart (reading [.lineStart 0] { entry with age := 6 })).mem.tags[0] =
      .waiting { entry with age := 7 } := by decide +kernel
theorem test_tag_times_out_applies :
    let s := reading [.lineStart 0] entry
    s.raster.due.head? = some (.lineStart 0) ∧ s.mem.tags[0] = .waiting entry ∧ s.timesOut entry ∧
      entry.discard = false ∧ (s.streams[0].half entry.half).row = some entry.row ∧
      (s.streams[0].half entry.half).cond = .filling ∧ s.streams[0].load = some load := by decide +kernel
theorem test_tag_times_out_marked_applies :
    let e := { entry with discard := true }
    let s := reading [.lineStart 0] e
    s.mem.tags[0] = .waiting e ∧ s.timesOut e ∧ (after (.tagTimeout 0) s).streams = s.streams := by decide +kernel
theorem test_tag_times_out :
    let t := after (.tagTimeout 0) (reading [.lineStart 0] entry)
    t.mem.tags[0] = .quarantined { entry with age := 8 } ∧ t.streams[0].halfA.cond = .failed ∧
      t.raster.due = [.lineStart 0] := by decide +kernel

/-- At active line 0 of the small profile with half A of the window's stream READY. -/
def starting : State :=
  { liveAt 2 8 [.activeLineStart 0] { stream with halfA := ⟨some 0, .ready, 1, [0], some 383⟩ } with
    store := [(98048, 40), (98049, 80), (98050, 200), (98051, 128)] }

theorem test_active_line_start_applies : starting.raster.due = [.activeLineStart 0] ∧ RasterLaw starting ∧
    starting.raster.output ≠ .off ∧ RowsInStore starting := by
  refine ⟨rfl, by decide +kernel, by decide +kernel, ?_⟩
  have h : ∀ ix : SlotIx, ∀ i ∈ [HalfId.a, HalfId.b], (starting.streams[ix].half i).cond = .ready → ix = 0 ∧ i = .a := by
    decide +kernel
  intro ix i hc
  obtain ⟨rfl, rfl⟩ := h ix i (by cases i <;> simp) hc
  exact ⟨383, .a, .shown, window, rfl, rfl, by decide +kernel⟩
theorem test_active_line_start_fills :
    let t := after .activeLineStart starting
    t.lanes[0] = some ⟨h1, 0, 0, some (0, 3), .c32, 255, ⟨9, 9, 9⟩, none, .half .a⟩ ∧ t.lanes[1] = none ∧
      t.pins.pd = 0x642814 := by decide +kernel
/-- The edge that reaches a line's first active pixel drives that pixel, and the active-line start finds it there (R75). -/
theorem test_first_active_pixel :
    let s := { starting with raster := { starting.raster with pixel := 7, due := [] } }
    let t := after .pclkRisingEdge s
    t.raster.due = [.activeLineStart 0] ∧ t.pins = ⟨false, true, true, 0x642814⟩ ∧
      (after .activeLineStart t).pins = t.pins := by decide +kernel
theorem test_active_line_start_starves :
    let t := after .activeLineStart (liveAt 2 8 [.activeLineStart 0] stream)
    t.streams[0].starved = true ∧ t.pins.pd = 0x090909 := by decide +kernel
theorem test_active_line_end_applies :
    (liveAt 2 72 [.activeLineEnd 0] stream).raster.due.head? = some (.activeLineEnd 0) := by decide +kernel
theorem test_active_line_end_releases :
    (after .activeLineEnd (liveAt 2 72 [.activeLineEnd 0] stream)).streams[0].halfA =
      ⟨some 2, .filling, 0, [], some 0⟩ := by decide +kernel
theorem test_active_end_applies :
    let s := liveAt 65 72 [.activeEnd] { stream with starved := true }
    s.raster.due.head? = some .activeEnd ∧ FetchLaw s :=
  ⟨rfl, fetchLaw_of _ (by decide +kernel) rfl (by decide +kernel)⟩
theorem test_active_end_requests :
    let t := after .activeEnd (liveAt 65 72 [.activeEnd] { stream with starved := true })
    t.suspensions = [h1] ∧ t.streams[0].count = 1 ∧ t.streams[0].starved = false := by decide +kernel
theorem test_active_end_excuses :
    (after .activeEnd (liveAt 65 72 [.activeEnd] { stream with starved := true, excused := true, count := 0 })).suspensions =
      [] := by decide +kernel

/-! ### Fetch and memory (R113 to R118, R127 to R137, R169) -/

theorem test_fetch_pick_applies :
    let s := liveAt 0 0 [] stream
    s.raster.output = .live ∧ RasterEvent.frameTurn ∉ s.raster.due ∧ s.mem.channel = none ∧ s.mem.tags[0] = .free ∧
      s.isCandidate 0 .a load 0 0 ∧ State.reset.raster.output ≠ .live := by decide +kernel
theorem test_fetch_pick_offers :
    let t := after .fetchPick (liveAt 0 0 [] { stream with halfA := ⟨some 0, .filling, 0, [0], some 0⟩ })
    t.mem.channel = some ⟨0, 0, 0x1010, 1⟩ ∧ t.mrqValid = true ∧ t.streams[0].halfB.requested = [0] ∧
      t.mem.tags[0] = .waiting ⟨h1, .b, 1, 0, 1, false, 0, false⟩ := by decide +kernel
theorem test_request_accept_applies :
    let t := after .fetchPick (liveAt 0 0 [.lineStart 0] stream)
    State.reset.mem.channel = none ∧ State.reset.mrqValid = false ∧ t.mem.channel = some ⟨0, 0, 0x1000, 1⟩ ∧
      stopOf .lineStart t = none ∧ (after .lineStart t).mem.channel = some ⟨0, 0, 0x1000, 1⟩ := by decide +kernel
/-- The beat count field is the beats less one (10.8). -/
theorem test_beat_field : (Offer.mk 0 0 0 16).beatField = 15 ∧ (Offer.mk 0 0 0 1).beatField = 0 := by decide +kernel
theorem test_request_accepted :
    let s := reading [] { entry with accepted := false }
    (after .requestAccept { s with mem := { s.mem with channel := some ⟨0, 0, 0x1000, 1⟩ } }).mem.tags[0] =
      .waiting entry ∧
    (after .requestAccept { s with mem := { s.mem with channel := some ⟨0, 9, 0x1000, 1⟩ } }).mem.tags[0] =
      .waiting { entry with accepted := false } := by decide +kernel
theorem test_completions_dropped_apply :
    Instr.wf (.completion [beat 0 0 false]) = true ∧ Instr.wf (.completion [{ beat 0 0 false with last := false }]) = true ∧
      State.reset.mem.beats ++ [beat 0 0 false] = beat 0 0 false :: [] ∧ (beat 0 1 false).epoch ≠ State.reset.mem.epoch ∧
      State.reset.mem.tags[(beat 7 0 false).tag.toFin] = .free ∧
      ((lastTag entry).mem.tags[(beat 0 0 false).tag.toFin]).isQuarantined = true ∧
      (lastTag { entry with discard := true }).mem.tags[(beat 7 0 false).tag.toFin] =
        .waiting { entry with discard := true } := by decide +kernel
theorem test_completion_spurious :
    (after (.completion [beat 7 0 false]) State.reset).linkA.notices.spurious = true ∧
      (after (.completion [beat 7 1 false]) State.reset).linkA.notices.spurious = false := by decide +kernel
/-- While RST_N is asserted a completion is ignored (R129). -/
theorem test_completion_in_reset :
    (after (.completion [beat 7 0 false]) { State.reset with rstAsserted := true }).linkA.notices.spurious = false := by
  decide +kernel
theorem test_completion_fails_applies :
    let s := reading [] entry
    s.rstAsserted = false ∧ s.mem.beats ++ [beat 0 0 true] = beat 0 0 true :: [] ∧ (beat 0 0 true).epoch = s.mem.epoch ∧
      s.mem.tags[(beat 0 0 true).tag.toFin] = .waiting entry ∧ entry.discard = false ∧ entry.handle.ix? = some 0 ∧
      s.streams[(0 : SlotIx)].load = some load ∧ load.handle.ix? = some 0 ∧
      (s.streams[(0 : SlotIx)].half entry.half).row = some entry.row ∧
      (s.streams[(0 : SlotIx)].half entry.half).cond = .filling ∧
      ([beat 0 0 false, beat 0 0 false] : List Beat).length ≠ entry.beats := by decide +kernel
theorem test_completion_delivers_applies :
    let s := { reading [] entry with
      streams := State.reset.streams.set 0 { stream with halfA := ⟨some 0, .filling, 0, [0], some 383⟩ } }
    StoreOk s ∧ s.mem.tags[(beat 0 0 false).tag.toFin] = .waiting entry ∧ (beat 0 0 false).error = false ∧
      ([beat 0 0 false] : List Beat).length = entry.beats ∧ entry.accepted = true ∧
      (s.streams[(0 : SlotIx)].half entry.half).place = some 383 ∧ (383 + entry.segment) * 256 + 16 * entry.beats ≤ 384 * 256 := by
  decide +kernel
theorem test_completion_delivers :
    let t := after (.completion [beat 0 0 false]) (reading [] entry)
    t.streams[0].halfA.cond = .ready ∧ Memory.read t.store 15 = 0x0F ∧ Memory.read t.store 0 = 0x00 ∧
      t.mem.tags[0] = .free := by decide +kernel

/-! ### The pixel (R95 to R101) -/

/-- Section 5.10's line: five lanes, with the source bytes at pixel 300 in the line store. -/
def fiveLanes : State :=
  let at' := fun place => { stream with halfA := ⟨some 0, .ready, 0, [], some place⟩ }
  { State.reset with
    lineBackground := ⟨16, 32, 64⟩
    streams := ((State.reset.streams.set 0 (at' 0)).set 3 (at' 100)).set 1 (at' 200)
    store := [(1200, 40), (1201, 80), (1202, 200), (1203, 128), (25700, 0x1F), (25701, 0xF8), (51300, 100)]
    lanes := #v[some ⟨⟨0, 1⟩, 200, 0, some (0, 1279), .c32, 255, ⟨0, 0, 0⟩, none, .half .a⟩,
      some ⟨⟨0, 3⟩, 50, 1400, none, .c32, 255, ⟨0, 0, 0⟩, none, .half .a⟩,
      some ⟨⟨0, 4⟩, 20, 250, some (250, 349), .c16, 255, ⟨0, 0, 0⟩, some ⟨255, 0, 255⟩, .half .a⟩,
      some ⟨⟨0, 2⟩, 50, 200, some (200, 839), .a8, 200, ⟨0, 255, 0⟩, none, .half .a⟩,
      some ⟨⟨0, 5⟩, 10, 0, some (0, 799), .c16, 64, ⟨255, 255, 255⟩, none, .fill⟩, none] }

theorem test_pixel_of_section_5_10 : fiveLanes.composed 300 = ⟨120, 152, 91⟩ := by decide +kernel
theorem test_pixel_composed_applies :
    let l : Lane := ⟨⟨0, 4⟩, 20, 250, some (250, 349), .c16, 255, ⟨0, 0, 0⟩, some ⟨255, 0, 255⟩, .half .a⟩
    fiveLanes.lanes[2] = some l ∧ l.span = some (250, 349) ∧ l.handle.ix? = some 3 ∧ l.source = .half .a ∧
      (fiveLanes.streams[3].half .a).place = some 100 ∧ l.format = .c16 := by decide +kernel

/-! ### The invariants' premises -/

theorem test_table_laws_apply : SegmentBalance (withWindow .shown) ∧ ZOrderLaw (withWindow .shown) := by decide +kernel
theorem test_raster_laws_apply :
    RasterLaw (liveAt 2 9 [] stream) ∧ OffQuiet (liveAt 2 9 [] stream) ∧ OffQuiet State.reset :=
  ⟨by decide +kernel, by decide +kernel, by decide +kernel⟩
theorem test_capacities_apply : Capacities ((asking State.reset .a 0x31 []).begun .a (asked 0x31 [])) :=
  ⟨fun p => by cases p <;> decide +kernel, by decide +kernel, by decide +kernel⟩
theorem test_fetch_laws_apply : FetchLaw (reading [] entry) ∧ StuckLaw (reading [] entry) :=
  ⟨fetchLaw_of _ (by decide +kernel) rfl (by decide +kernel), by decide +kernel⟩
theorem test_step_of_a_lawful_state :
    stopOf .pclkRisingEdge (liveAt 2 9 [] stream) = none ∧ StoreOk starting ∧
      stopOf .activeLineStart starting = none := by decide +kernel

/-- The read in flight, beside the SHOWN window a slot RESERVED to Port A and one QUEUED to Port B, each with its OPEN
entry, and the window's lane on the line in progress. -/
def laden : State :=
  let s := reading [] entry
  { s with
    table := { s.table with slots := (s.table.slots.set 1 ⟨3, .reserved .a⟩).set 2 ⟨0, .queued .b⟩ }
    stagingA := ⟨[.window ⟨3, 2⟩ (.create window .hidden .top)], 4, 3⟩
    commitQueue := [⟨.b, 1, [.window ⟨0, 3⟩ (.create window .shown .top)]⟩]
    lanes := s.lanes.set 0 (some ⟨h1, 0, 0, some (0, 3), .c32, 255, ⟨9, 9, 9⟩, none, .half .a⟩) }

/-- Six counted windows or fewer meet the lane limit under any profile. -/
theorem not_lanesOver_of_few (v : View) (prof : Profile) (h : v.countedWindows.length ≤ 6) : ¬ v.lanesOver prof :=
  fun ⟨_, _, _, hl⟩ => absurd (Nat.le_trans (List.length_filter_le _ _) h) (Nat.not_le.mpr hl)

theorem test_admission_laws_apply : AdmissionLaw laden ∧ OffQuiet laden ∧ stopOf .frameTurnTaken laden = none := by
  refine ⟨⟨by decide +kernel, by decide +kernel, by decide +kernel, fun k hk => ?_, ⟨fun p => ?_, by decide +kernel,
    by decide +kernel, fun ix p => ?_⟩, fun b hb e he => ?_, fun ix o st w h hp => ?_⟩, by decide +kernel,
    by decide +kernel⟩
  · have hk' : k = 0 ∨ k = 1 := by have : laden.commitQueue.length = 1 := rfl; omega
    obtain rfl | rfl := hk' <;>
      exact ⟨not_lanesOver_of_few _ _ (by decide +kernel), by decide +kernel⟩
  · cases p <;> decide +kernel
  · cases p <;> revert ix <;> decide +kernel
  · obtain rfl : b = ⟨.b, 1, [.window ⟨0, 3⟩ (.create window .shown .top)]⟩ := by simpa [laden] using hb
    obtain rfl : e = .window ⟨0, 3⟩ (.create window .shown .top) := by simpa using he
    refine ⟨rfl, fun h c hc => ?_⟩
    cases hc
    exact ⟨2, .b, rfl, .inl rfl, .inl rfl⟩
  · have hall : ∀ ix : SlotIx, (laden.table.body ix = .opened .a .shown window) ∨ (laden.table.body ix).isOpen = false := by
      decide +kernel
    obtain h' | h' := hall ix
    · rw [h] at h'; cases h'; cases hp
    · rw [h] at h'; cases h'

theorem test_line_store_apply : PlacementLaw laden ∧ FetchLaw laden := by
  have hl : ∀ ix : SlotIx, laden.streams[ix].loaded = true → ix = 0 := by decide +kernel
  refine ⟨⟨fun ix h => ?_, fun ix jx i j ld ld' a b hne h h' e e' p p' => ?_, fun ix i h => ?_, fun n l i h hs => ?_,
    fun k e h => ?_⟩, ?_⟩
  · obtain rfl := hl ix h
    refine ⟨load, rfl, by decide +kernel, fun i => ?_⟩
    cases i
    exacts [⟨0, rfl, by decide +kernel⟩, ⟨1, rfl, by decide +kernel⟩]
  · obtain rfl := hl ix h
    obtain rfl := hl jx h'
    obtain rfl : load = ld := Option.some.inj e
    obtain rfl : load = ld' := Option.some.inj e'
    have hs : load.segments = 1 := by decide +kernel
    have hp : ∀ i : HalfId, (laden.streams[(0 : SlotIx)].half i).place = some (if i = .a then 0 else 1) := by
      intro i; cases i <;> rfl
    rw [hp] at p p'
    cases p; cases p'
    rw [hs]
    cases i <;> cases j <;> simp_all
  · have : ∀ ix : SlotIx, ix ≠ 0 → laden.streams[ix] = Stream.reset := by decide +kernel
    have hx : ix ≠ 0 := by rintro rfl; exact absurd h (by decide +kernel)
    rw [this ix hx]
    cases i <;> rfl
  · have hn : ∀ n : Fin 6, n ≠ 0 → laden.lanes[n] = none := by decide +kernel
    obtain rfl | hx := Decidable.eq_or_ne n 0
    · have : laden.lanes[(0 : Fin 6)] = some ⟨h1, 0, 0, some (0, 3), .c32, 255, ⟨9, 9, 9⟩, none, .half .a⟩ := by
        decide +kernel
      rw [this] at h
      cases h
      exact ⟨0, load, by decide +kernel, by decide +kernel, rfl, rfl, fun a b hab => by cases hab; decide +kernel⟩
    · rw [hn n hx] at h; cases h
  · have : ∀ k : TagIx, laden.mem.tags[k] = .waiting entry ∨ (laden.mem.tags[k]).isFree = true := by decide +kernel
    obtain h' | h' := this k
    · rw [h] at h'; cases h'; decide +kernel
    · rw [h] at h'; cases h'
  · exact fetchLaw_of _ (by decide +kernel) rfl (by decide +kernel)

end Sys2Proof.Tests
end

