-- ==== Sys2Proof/Proofs/QueryTiming.lean ====
section
/-! PROOF. QUERY_TIMING (R70): the bytes of a timing profile as section 10.5 lists them, what the row answers, and when
the profile in force is invalid. -/

namespace Sys2Proof.Machine

/-! ### The bytes of a timing profile (10.5) -/

/-- Least significant byte first (00 section 6). -/
theorem bytes16_eq (n : Nat) : bytes16 n = [BitVec.ofNat 8 n, BitVec.ofNat 8 (n / 256)] := by
  simp [bytes16, byteOfNat]

theorem Polarity.byte_eq (x : Polarity) : x.byte = if x = .high then 0x00 else 0x01 := by
  cases x <;> rfl

/-! ### Its validity (R68, R70) -/

/-- The reset profile's horizontal total, 0, is below the range of R67. -/
theorem Profile.reset_invalid : Profile.reset.valid = false := by decide

/-- A profile that is valid or the reset one is invalid exactly where it is the reset one. -/
theorem Profile.invalid_iff_reset {t : Profile} (h : t.valid = true ∨ t = Profile.reset) :
    t.valid = false ↔ t = Profile.reset := by
  constructor
  · intro hv
    exact h.resolve_left (by simp [hv])
  · rintro rfl
    exact Profile.reset_invalid

/-! ### The row -/

theorem exec_queryTiming (p : Port) (s : State) : exec (.queryTiming p) s = serve p 0x33 0 queryTimingBody s := rfl

/-- QUERY_TIMING carried out: the answer is that of the profile in force, and nothing else changes. -/
theorem exec_queryTiming_of_canTake {p : Port} {c : QueuedCommand} {s : State} (h : s.canTake p c)
    (hcode : c.code = 0x33) (hparams : c.params = []) : exec (.queryTiming p) s =
      .next (s.answered p c .ok (flagByte s.raster.profile.valid :: s.raster.profile.bytes)) := by
  have hlen : c.params.length = 0 := by rw [hparams]; rfl
  rw [exec_queryTiming, ← hcode, serve_of_servable (.inl h) hlen]
  simp only [queryTimingBody, State.takeHead_raster, State.respond_answered h]

/-- Settles O31: the row's answer, its bytes written out, and the first clause of the raster law. -/
theorem queryTimingAnswers : Obligations.QueryTimingAnswers := by
  intro p c s h hcode hparams
  refine ⟨?answer, fun law => Profile.invalid_iff_reset law.1⟩
  case answer =>
    rw [exec_queryTiming_of_canTake h hcode hparams]
    simp only [flagByte, Profile.bytes, bytes16_eq, Polarity.byte_eq]

end Sys2Proof.Machine
end

