-- ==== Sys2Proof/Proofs/AlphaBlend.lean ====
section
/-! PROOF. The effective alpha (R99) and the blend (R100): both stay in 0..255, and their end values are exact. -/

namespace Sys2Proof.Machine

/-- A byte is at most 255, in the form `omega` takes. -/
theorem byte_toNat_le (b : Byte) : b.toNat ≤ 255 := Nat.le_of_lt_succ b.isLt

/-- The rounding of R99 and R100 is exact on a multiple of 255. -/
theorem round255_mul (n : Nat) : (n * 255 + 127) / 255 = n := by omega

/-! ### The effective alpha (R99) -/

theorem effectiveAlpha_le (p g : Byte) : effectiveAlpha p g ≤ 255 := by
  have hprod : p.toNat * g.toNat ≤ 255 * 255 := Nat.mul_le_mul (byte_toNat_le p) (byte_toNat_le g)
  simp only [effectiveAlpha]
  omega

theorem effectiveAlpha_comm (p g : Byte) : effectiveAlpha p g = effectiveAlpha g p := by
  simp only [effectiveAlpha, Nat.mul_comm]

/-- The sources without a pixel alpha of their own (R96) count as 255. -/
theorem effectiveAlpha_full_left (g : Byte) : effectiveAlpha 255 g = g.toNat :=
  calc effectiveAlpha 255 g = (g.toNat * 255 + 127) / 255 := effectiveAlpha_comm 255 g
    _ = g.toNat := round255_mul g.toNat

theorem effectiveAlpha_zero_left (g : Byte) : effectiveAlpha 0 g = 0 := by simp [effectiveAlpha]

theorem effectiveAlpha_eq_zero {p g : Byte} (h : p = 0 ∨ g = 0) : effectiveAlpha p g = 0 := by
  obtain rfl | rfl := h
  · exact effectiveAlpha_zero_left g
  · rw [effectiveAlpha_comm, effectiveAlpha_zero_left]

/-- One step below full alpha already rounds below 255: 254 × 255 + 127 < 255 × 255. -/
theorem eq_full_of_effectiveAlpha {p g : Byte} (h : effectiveAlpha p g = 255) : p = 255 := by
  by_contra hp
  have hne : p.toNat ≠ 255 := fun heq => hp (BitVec.eq_of_toNat_eq heq)
  have hp' : p.toNat ≤ 254 := Nat.le_of_lt_succ (Nat.lt_of_le_of_ne (byte_toNat_le p) hne)
  have hprod : p.toNat * g.toNat ≤ 254 * 255 := Nat.mul_le_mul hp' (byte_toNat_le g)
  simp only [effectiveAlpha] at h
  omega

theorem effectiveAlpha_eq_full_iff (p g : Byte) : effectiveAlpha p g = 255 ↔ p = 255 ∧ g = 255 := by
  constructor
  · intro h
    exact ⟨eq_full_of_effectiveAlpha h, eq_full_of_effectiveAlpha (effectiveAlpha_comm p g ▸ h)⟩
  · rintro ⟨rfl, rfl⟩
    exact effectiveAlpha_full_left 255

/-! ### One channel of the blend (R100) -/

/-- The weights a and 255 - a add up to 255, so the channel's byte holds the whole quotient. -/
theorem blendChannel_toNat (s d : Byte) {a : Nat} (ha : a ≤ 255) :
    (blendChannel s d a).toNat = (s.toNat * a + d.toNat * (255 - a) + 127) / 255 := by
  have hs : s.toNat * a ≤ 255 * a := Nat.mul_le_mul_right a (byte_toNat_le s)
  have hd : d.toNat * (255 - a) ≤ 255 * (255 - a) := Nat.mul_le_mul_right (255 - a) (byte_toNat_le d)
  rw [blendChannel, BitVec.toNat_ofNat, Nat.mod_eq_of_lt (by omega)]

/-- Where the weighted sum is 255 times a byte, the channel is that byte. -/
theorem blendChannel_eq_of_sum {s d c : Byte} {a : Nat} (h : s.toNat * a + d.toNat * (255 - a) = c.toNat * 255) :
    blendChannel s d a = c := by
  rw [blendChannel, h, round255_mul, BitVec.ofNat_toNat, BitVec.setWidth_eq]

theorem blendChannel_full (s d : Byte) : blendChannel s d 255 = s := blendChannel_eq_of_sum (by simp)

theorem blendChannel_zero (s d : Byte) : blendChannel s d 0 = d := blendChannel_eq_of_sum (by simp)

theorem blendChannel_self (s : Byte) {a : Nat} (ha : a ≤ 255) : blendChannel s s a = s :=
  blendChannel_eq_of_sum (by rw [← Nat.mul_add, Nat.add_sub_cancel' ha])

/-! ### The three channels (R100) -/

theorem blend_full (s d : Colour) : blend s d 255 = s := by simp only [blend, blendChannel_full]

theorem blend_zero (s d : Colour) : blend s d 0 = d := by simp only [blend, blendChannel_zero]

theorem blend_self (s : Colour) {a : Nat} (ha : a ≤ 255) : blend s s a = s := by
  simp only [blend, blendChannel_self _ ha]

/-- Settles O51: the formulas with their bounds, then the end values of each. -/
theorem alphaAndBlend : Obligations.AlphaAndBlend := by
  constructor
  · intro p g
    exact ⟨rfl, effectiveAlpha_le p g, effectiveAlpha_full_left g, effectiveAlpha_eq_zero,
      effectiveAlpha_eq_full_iff p g⟩
  · intro s d a ha
    exact ⟨blendChannel_toNat s.red d.red ha, blendChannel_toNat s.green d.green ha,
      blendChannel_toNat s.blue d.blue ha, blend_full s d, blend_zero s d, blend_self s ha⟩

end Sys2Proof.Machine
end

section
/-! PROOF. The line store over every step (6.2, 6.4): only an OK completion writes it, and a write keeps the canonical
form. -/

namespace Sys2Proof.Machine

/-- No command writes the line store. -/
theorem CommandAct.store_eq {p : Port} {u v : State} (h : CommandAct p u v) : v.store = u.store := by
  cases h with
  | committed h => simp only [State.acceptCommit]; split <;> simp
  | stopped ho => simp [State.stopOutput]
  | _ => simp

/-- An act leaves the line store alone, or writes bytes at rising addresses of it. -/
theorem Act.store_keeps {s t : State} (h : Act s t) (hs : StoreOk s) : StoreOk t := by
  have same : ∀ {t : State}, t.store = s.store → StoreOk t := fun e => by rw [StoreOk, e]; exact hs
  cases h with
  | reset => exact rfl
  | frame hi h => obtain ⟨p, l, u, rfl, rfl | ⟨rfl, -⟩⟩ := exec_frame hi h <;> exact same (by simp)
  | command p c r hc h => exact same (by rw [State.respond_store, h.store_eq, State.takeHead_store])
  | turnTaken turn hg h =>
    obtain ⟨-, h⟩ | ⟨-, h⟩ := State.takeTurn_cases s turn <;> rw [h] <;> exact same (by simp)
  | lineStart l h =>
    exact same (State.lineStartAct_keeps (P := fun x => x.store = s.store) (by simp) fun s t h => by simpa using h)
  | delivered k e all he hd h =>
    obtain rfl | ⟨ix, seg, ld, -, -, -, -, rfl⟩ := State.deliver_next h
    · exact same (by simp)
    · exact Memory.wf_writeBytes _ _ (by simpa using hs)
  | edge _ _ hu => obtain rfl | rfl := hu <;> exact same (by simp)
  | _ => exact same (by simp)

/-- Settles O53: the canonical form is kept by every act, and the queue of steps is no part of the store. -/
theorem lineStoreFormKept : Obligations.LineStoreFormKept := fun _ _ hs h =>
  step_keeps (fun _ _ => Act.store_keeps) (fun _ _ hs => hs) h hs

end Sys2Proof.Machine
end

section
/-! PROOF. The window table over every step (R14 to R17, R57): where a window is put in the z-order list, that the list
keeps its law, and that the free segment count balances the segments held. -/

namespace Sys2Proof.Machine

/-! ### Insertion in a section (R16) -/

/-- What a placement asks of the windows below and above the place, in their section (R16). -/
def Placement.meets (pl : Placement) (sec below above : List SlotIx) : Prop :=
  match pl with
  | .top => above = []
  | .bottom => below = []
  | .above r => ∀ k : SlotIx, r.ix? = some k → k ∈ sec → ∃ rest, below = rest ++ [k]
  | .below r => ∀ k : SlotIx, r.ix? = some k → k ∈ sec → ∃ rest, above = k :: rest

theorem insertAbove_split (r ix : SlotIx) (sec : List SlotIx) : ∃ below above, sec = below ++ above ∧
    insertAbove r ix sec = below ++ ix :: above ∧ (r ∈ sec → ∃ rest, below = rest ++ [r]) := by
  induction sec with
  | nil => exact ⟨[], [], rfl, rfl, by simp⟩
  | cons y ys ih =>
    by_cases hy : y = r
    · exact ⟨[y], ys, rfl, by simp [insertAbove, hy], fun _ => ⟨[], by simp [hy]⟩⟩
    · obtain ⟨below, above, hs, hi, hr⟩ := ih
      refine ⟨y :: below, above, by simp [hs], by simp [insertAbove, hy, hi], fun hm => ?_⟩
      obtain ⟨rest, e⟩ := hr ((List.mem_cons.1 hm).resolve_left (Ne.symm hy))
      exact ⟨y :: rest, by simp [e]⟩

theorem insertBelow_split (r ix : SlotIx) (sec : List SlotIx) : ∃ below above, sec = below ++ above ∧
    insertBelow r ix sec = below ++ ix :: above ∧ (r ∈ sec → ∃ rest, above = r :: rest) := by
  induction sec with
  | nil => exact ⟨[], [], rfl, rfl, by simp⟩
  | cons y ys ih =>
    by_cases hy : y = r
    · exact ⟨[], y :: ys, rfl, by simp [insertBelow, hy], fun _ => ⟨ys, by rw [hy]⟩⟩
    · obtain ⟨below, above, hs, hi, hr⟩ := ih
      exact ⟨y :: below, above, by simp [hs], by simp [insertBelow, hy, hi],
        fun hm => hr ((List.mem_cons.1 hm).resolve_left (Ne.symm hy))⟩

/-- A window is put between two parts of its section, as its placement asks (R16). -/
theorem insertAt_split (ix : SlotIx) (sec : List SlotIx) (pl : Placement) : ∃ below above, sec = below ++ above ∧
    insertAt ix sec pl = below ++ ix :: above ∧ pl.meets sec below above := by
  cases pl with
  | top => exact ⟨sec, [], by simp, rfl, rfl⟩
  | bottom => exact ⟨[], sec, rfl, rfl, rfl⟩
  | above h =>
    cases hr : h.ix? with
    | none => exact ⟨sec, [], by simp, by simp [insertAt, hr], by simp [Placement.meets, hr]⟩
    | some r =>
      obtain ⟨below, above, hs, hi, hm⟩ := insertAbove_split r ix sec
      refine ⟨below, above, hs, by simp [insertAt, hr, hi], fun k hk hin => ?_⟩
      obtain rfl : r = k := Option.some.inj (hr.symm.trans hk)
      exact hm hin
  | below h =>
    cases hr : h.ix? with
    | none => exact ⟨sec, [], by simp, by simp [insertAt, hr], by simp [Placement.meets, hr]⟩
    | some r =>
      obtain ⟨below, above, hs, hi, hm⟩ := insertBelow_split r ix sec
      refine ⟨below, above, hs, by simp [insertAt, hr, hi], fun k hk hin => ?_⟩
      obtain rfl : r = k := Option.some.inj (hr.symm.trans hk)
      exact hm hin

/-! ### Insertion in the list (R14, R16) -/

/-- No pinned window stands below an unpinned one (R14). -/
def Table.layered (t : Table) (z : List SlotIx) : Prop :=
  z.Pairwise fun below above => t.pinned below = true → t.pinned above = true

/-- The two sections of a layered list, one on the other, are the list. -/
theorem Table.sections_append {t : Table} {z : List SlotIx} (h : t.layered z) :
    t.lowerSection z ++ t.upperSection z = z := by
  induction z with
  | nil => rfl
  | cons x xs ih =>
    obtain ⟨hx, hxs⟩ := List.pairwise_cons.1 h
    cases hp : t.pinned x with
    | false => simpa [Table.lowerSection, Table.upperSection, hp] using ih hxs
    | true =>
      have hall : ∀ j ∈ xs, t.pinned j = true := fun j hj => hx j hj hp
      have hlow : xs.filter (fun j => !t.pinned j) = [] := by
        rw [List.filter_eq_nil_iff]; intro j hj; simp [hall j hj]
      simp [Table.lowerSection, Table.upperSection, hp, hlow, List.filter_eq_self.2 hall]

/-- What a placement asks of the windows below and above the place, in the whole list (R14, R16). -/
def Placement.meetsIn (pl : Placement) (t : Table) (up : Bool) (z lower upper : List SlotIx) : Prop :=
  match pl with
  | .top => ∀ j ∈ upper, t.pinned j ≠ up
  | .bottom => ∀ j ∈ lower, t.pinned j ≠ up
  | .above r => ∀ k : SlotIx, r.ix? = some k → k ∈ z → t.pinned k = up → ∃ rest, lower = rest ++ [k]
  | .below r => ∀ k : SlotIx, r.ix? = some k → k ∈ z → t.pinned k = up → ∃ rest, upper = k :: rest

/-- A window is put into a layered list in its section, as its placement asks, and nothing else moves (R14, R16). -/
theorem Table.inserted_split {t : Table} {z : List SlotIx} (h : t.layered z) (ix : SlotIx) (up : Bool)
    (pl : Placement) : ∃ lower upper, z = lower ++ upper ∧ t.inserted z ix up pl = lower ++ ix :: upper ∧
      (∀ j ∈ lower, t.pinned j = true → up = true) ∧ (∀ j ∈ upper, up = true → t.pinned j = true) ∧
      pl.meetsIn t up z lower upper := by
  have hz := Table.sections_append h
  have mem_low : ∀ {j}, j ∈ t.lowerSection z ↔ j ∈ z ∧ t.pinned j = false := by simp [Table.lowerSection]
  have mem_up : ∀ {j}, j ∈ t.upperSection z ↔ j ∈ z ∧ t.pinned j = true := by simp [Table.upperSection]
  cases up with
  | true =>
    obtain ⟨below, above, hs, hi, hm⟩ := insertAt_split ix (t.upperSection z) pl
    have hab : ∀ j ∈ above, t.pinned j = true := fun j hj => (mem_up.1 (hs ▸ List.mem_append_right _ hj)).2
    refine ⟨t.lowerSection z ++ below, above, by rw [List.append_assoc, ← hs, hz],
      by simp [Table.inserted, hi], by simp, fun j hj _ => hab j hj, ?_⟩
    cases pl with
    | top => simp [Placement.meetsIn, show above = [] from hm]
    | bottom =>
      have hb : below = [] := hm
      intro j hj
      have := (mem_low.1 (by simpa [hb] using hj)).2
      simp [this]
    | above r =>
      intro k hk hkz hp
      obtain ⟨rest, e⟩ := hm k hk (mem_up.2 ⟨hkz, hp⟩)
      exact ⟨t.lowerSection z ++ rest, by simp [e]⟩
    | below r => exact fun k hk hkz hp => hm k hk (mem_up.2 ⟨hkz, hp⟩)
  | false =>
    obtain ⟨below, above, hs, hi, hm⟩ := insertAt_split ix (t.lowerSection z) pl
    have hbe : ∀ j ∈ below, t.pinned j = false := fun j hj => (mem_low.1 (hs ▸ List.mem_append_left _ hj)).2
    refine ⟨below, above ++ t.upperSection z, by rw [← List.append_assoc, ← hs, hz],
      by simp [Table.inserted, hi], fun j hj hp => by simp [hbe j hj] at hp, by simp, ?_⟩
    cases pl with
    | top =>
      have ha : above = [] := hm
      intro j hj
      have := (mem_up.1 (by simpa [ha] using hj)).2
      simp [this]
    | bottom => simp [Placement.meetsIn, show below = [] from hm]
    | above r => exact fun k hk hkz hp => hm k hk (mem_low.2 ⟨hkz, hp⟩)
    | below r =>
      intro k hk hkz hp
      obtain ⟨rest, e⟩ := hm k hk (mem_low.2 ⟨hkz, hp⟩)
      exact ⟨rest ++ t.upperSection z, by simp [e]⟩

/-! ### The law of the z-order list (R14) -/

/-- The law of the z-order list, of a table (R14). -/
def Table.ordered (t : Table) : Prop :=
  t.zorder.Nodup ∧ (∀ ix : SlotIx, ix ∈ t.zorder ↔ (t.body ix).isOpen = true) ∧ t.layered t.zorder

theorem zOrderLaw_iff (s : State) : ZOrderLaw s ↔ s.table.ordered := Iff.rfl

theorem Table.layered_congr {t t' : Table} {z : List SlotIx} (h : t.layered z)
    (hp : ∀ j ∈ z, t'.pinned j = t.pinned j) : t'.layered z :=
  h.imp_of_mem fun {a b} ha hb hab => by rw [hp a ha, hp b hb]; exact hab

/-- A table whose list and whose slots' places in it are the same keeps the law. -/
theorem Table.ordered_congr {t t' : Table} (h : t.ordered) (hz : t'.zorder = t.zorder)
    (ho : ∀ j, (t'.body j).isOpen = (t.body j).isOpen) (hp : ∀ j, t'.pinned j = t.pinned j) : t'.ordered := by
  obtain ⟨hn, hm, hl⟩ := h
  refine ⟨hz ▸ hn, fun j => ?_, ?_⟩
  · rw [hz, ho, hm]
  · rw [hz]; exact Table.layered_congr hl fun j _ => hp j

theorem mem_without {z : List SlotIx} {ix j : SlotIx} : j ∈ without z ix ↔ j ∈ z ∧ j ≠ ix := by
  simp [without]

/-- A window taken out leaves the others in their order and layers. -/
theorem Table.ordered_without {t : Table} (h : t.ordered) (ix : SlotIx) :
    (without t.zorder ix).Nodup ∧ t.layered (without t.zorder ix) :=
  ⟨h.1.filter _, h.2.2.filter _⟩

theorem Table.pinned_congr {t t' : Table} {j : SlotIx} (h : t'.body j = t.body j) : t'.pinned j = t.pinned j := by
  simp only [Table.pinned, h]

/-- A slot not open any more, its window out of the list, and every other slot as it was, keep the law. -/
theorem Table.ordered_removed {t t' : Table} (h : t.ordered) (ix : SlotIx) (hz : t'.zorder = without t.zorder ix)
    (hb : ∀ j, j ≠ ix → t'.body j = t.body j) (hix : (t'.body ix).isOpen = false) : t'.ordered := by
  obtain ⟨hn, hl⟩ := Table.ordered_without h ix
  refine ⟨hz ▸ hn, fun j => ?_, ?_⟩
  · rw [hz, mem_without, h.2.1]
    by_cases hj : j = ix
    · simp [hj, hix]
    · simp [hj, hb j hj]
  · rw [hz]
    exact Table.layered_congr hl fun j hj => Table.pinned_congr (hb j (mem_without.1 hj).2)

/-- An open slot put into the list in its section, and every other slot as it was, keep the law. -/
theorem Table.ordered_inserted {t t' : Table} (h : t.ordered) (ix : SlotIx) (up : Bool) (pl : Placement)
    (hz : t'.zorder = t.inserted (without t.zorder ix) ix up pl) (hb : ∀ j, j ≠ ix → t'.body j = t.body j)
    (hix : (t'.body ix).isOpen = true) (hup : t'.pinned ix = up) : t'.ordered := by
  obtain ⟨hn, hl⟩ := Table.ordered_without h ix
  obtain ⟨lower, upper, hsplit, hins, hlow, hhigh, -⟩ := Table.inserted_split hl ix up pl
  have hpin : ∀ j ∈ without t.zorder ix, t'.pinned j = t.pinned j :=
    fun j hj => Table.pinned_congr (hb j (mem_without.1 hj).2)
  have hlay : t'.layered (lower ++ upper) := hsplit ▸ Table.layered_congr hl hpin
  have hout : ix ∉ lower ++ upper := by rw [← hsplit, mem_without]; simp
  rw [hsplit] at hn hpin
  refine ⟨?nodup, fun j => ?mem, ?layers⟩
  case nodup => rw [hz, hins, List.nodup_middle]; exact List.nodup_cons.2 ⟨hout, hn⟩
  case mem =>
    rw [hz, hins, List.mem_append, List.mem_cons, or_left_comm, ← List.mem_append, ← hsplit, mem_without, h.2.1]
    by_cases hj : j = ix
    · simp [hj, hix]
    · simp [hj, hb j hj]
  case layers =>
    rw [Table.layered, hz, hins, List.pairwise_append]
    obtain ⟨h1, h2, h3⟩ := List.pairwise_append.1 hlay
    refine ⟨h1, List.pairwise_cons.2 ⟨fun j hj hp => ?_, h2⟩, fun a ha b hbm hp => ?_⟩
    · rw [hpin j (List.mem_append_right _ hj)]
      exact hhigh j hj (hup ▸ hp)
    · obtain rfl | hbu := List.mem_cons.1 hbm
      · rw [hup]
        exact hlow a ha (hpin a (List.mem_append_left _ ha) ▸ hp)
      · exact h3 a ha b hbu hp

theorem Table.body_of_slots {t t' : Table} (h : t'.slots = t.slots) (j : SlotIx) : t'.body j = t.body j := by
  simp only [Table.body, h]

/-! ### The slots after a change (R26 to R36) -/

theorem Table.body_create (t : Table) (ix j : SlotIx) (o : Port) (w : Window) (vis : Visibility) (pl : Placement) :
    (t.create ix o w vis pl).body j = if ix = j then .opened o vis.openState w else t.body j :=
  Table.body_setBody t ix j _

theorem Table.body_rewrite (t : Table) (ix j : SlotIx) (o : Port) (st st' : OpenState) (w w' : Window) :
    (t.rewrite ix o st w st' w').body j = if ix = j then .opened o st' w' else t.body j :=
  Table.body_setBody t ix j _

theorem Table.body_restack (t : Table) (ix j : SlotIx) (w : Window) (pl : Placement) :
    (t.restack ix w pl).body j = t.body j := rfl

theorem Table.body_retire (t : Table) (ix j : SlotIx) (st : OpenState) (w : Window) :
    (t.retire ix st w).body j = if ix = j then .free else t.body j := Table.body_release t ix j

/-- PIN on a window of the other section (R17). -/
theorem Table.pin_of_ne {w : Window} {on : Bool} (h : w.pinned ≠ on) (t : Table) (ix : SlotIx) (o : Port)
    (st : OpenState) :
    (t.pin ix o st w on).zorder = t.inserted (without t.zorder ix) ix on (if on then .bottom else .top) ∧
      (t.pin ix o st w on).free = t.free ∧
      ∀ j, (t.pin ix o st w on).body j = if ix = j then .opened o st { w with pinned := on } else t.body j := by
  rw [Table.pin, if_neg h]
  exact ⟨rfl, rfl, fun j => Table.body_setBody t ix j _⟩

theorem Table.pin_of_eq {w : Window} {on : Bool} (h : w.pinned = on) (t : Table) (ix : SlotIx) (o : Port)
    (st : OpenState) : t.pin ix o st w on = t := if_pos h

theorem Table.pinned_of_body {t : Table} {ix : SlotIx} {o : Port} {st : OpenState} {w : Window}
    (h : t.body ix = .opened o st w) : t.pinned ix = w.pinned := by
  simp only [Table.pinned, h]

/-- Every change keeps the law of the list. -/
theorem ChangeAct.ordered {t t' : Table} {ix : SlotIx} (h : ChangeAct t ix t') (ht : t.ordered) : t'.ordered := by
  cases h with
  | nothing => exact ht
  | created o w vis pl hb =>
    have own := (t.body_create ix ix o w vis pl).trans (if_pos rfl)
    exact Table.ordered_inserted ht ix w.pinned pl rfl
      (fun j hj => (t.body_create ix j o w vis pl).trans (if_neg (Ne.symm hj))) (by rw [own]; rfl)
      (Table.pinned_of_body own)
  | rewritten o st st' w w' hb hp =>
    refine Table.ordered_congr ht rfl (fun j => ?_) fun j => ?_ <;> have hj' := t.body_rewrite ix j o st st' w w' <;>
      by_cases hj : ix = j
    · subst hj; rw [hb, hj', if_pos rfl]; rfl
    · rw [hj', if_neg hj]
    · subst hj; rw [if_pos rfl] at hj'; rw [Table.pinned_of_body hj', Table.pinned_of_body hb, hp]
    · rw [if_neg hj] at hj'; exact Table.pinned_congr hj'
  | restacked o st w pl hb =>
    exact Table.ordered_inserted ht ix w.pinned pl rfl (fun j _ => t.body_restack ix j w pl)
      (by rw [Table.body_restack, hb]; rfl) (Table.pinned_of_body hb)
  | pinned o st w on hb =>
    by_cases hp : w.pinned = on
    · rw [Table.pin_of_eq hp]; exact ht
    · obtain ⟨hz, -, hbody⟩ := Table.pin_of_ne hp t ix o st
      have own := (hbody ix).trans (if_pos rfl)
      exact Table.ordered_inserted ht ix on _ hz (fun j hj => (hbody j).trans (if_neg (Ne.symm hj)))
        (by rw [own]; rfl) (Table.pinned_of_body own)
  | retired o st w hb =>
    exact Table.ordered_removed ht ix rfl (fun j hj => (t.body_retire ix j st w).trans (if_neg (Ne.symm hj)))
      (by rw [Table.body_retire, if_pos rfl]; rfl)

/-- A slot that is neither open before nor after keeps the law, and so does an open window whose section is the same. -/
theorem Table.ordered_setBody {t : Table} (h : t.ordered) (ix : SlotIx) {b : SlotBody}
    (ho : b.isOpen = (t.body ix).isOpen) (hp : ∀ t' : Table, t'.body ix = b → t'.pinned ix = t.pinned ix) :
    (t.setBody ix b).ordered := by
  refine Table.ordered_congr h rfl (fun j => ?_) fun j => ?_ <;> by_cases hj : ix = j
  · subst hj; rw [Table.body_setBody, if_pos rfl, ho]
  · rw [Table.body_setBody, if_neg hj]
  · subst hj; exact hp _ (by rw [Table.body_setBody, if_pos rfl])
  · exact Table.pinned_congr (by rw [Table.body_setBody, if_neg hj])

/-- Every act keeps the law of the z-order list. -/
theorem Act.ordered {s t : State} (h : Act s t) (hs : s.table.ordered) : t.table.ordered := by
  refine h.table_keeps ?reset (fun t ix t' => ChangeAct.ordered) ?background ?reserved ?queued ?released ?suspended hs
  case reset => exact ⟨by simp [Table.reset], by decide, by simp [Table.reset, Table.layered]⟩
  case background => exact fun t c h => Table.ordered_congr h rfl (fun _ => rfl) fun _ => rfl
  case reserved =>
    intro t p ix hb h
    exact Table.ordered_setBody h ix (by simp [hb, SlotBody.isOpen]) fun t' hb' => by simp [Table.pinned, hb, hb']
  case queued =>
    refine fun t p h => Table.ordered_congr h rfl (fun j => ?_) fun j => ?_
    · rw [Table.body_reservedQueued]; split <;> simp [*, SlotBody.isOpen]
    · by_cases hj : t.body j = .reserved p <;> simp [Table.pinned, Table.body_reservedQueued, hj]
  case released =>
    refine fun t p h => Table.ordered_congr h rfl (fun j => ?_) fun j => ?_
    · rw [Table.body_releaseReserved]; split <;> simp [*, SlotBody.isOpen]
    · by_cases hj : t.body j = .reserved p <;> simp [Table.pinned, Table.body_releaseReserved, hj]
  case suspended =>
    intro t ix o w hb h
    exact Table.ordered_setBody h ix (by simp [hb, SlotBody.isOpen]) fun t' hb' => by simp [Table.pinned, hb, hb']

/-! ### The segment balance (R57) -/

/-- The segment balance, of a table (R57). -/
def Table.balanced (t : Table) : Prop := t.free + (t.heldSum : Int) = 384

theorem segmentBalance_iff (s : State) : SegmentBalance s ↔ s.table.balanced := Iff.rfl

/-- The balance stands where the free count moves by what one slot takes or gives back. -/
theorem Table.balanced_update {t t' : Table} (h : t.balanced) (ix : SlotIx) (hb : ∀ j, j ≠ ix → t'.body j = t.body j)
    (hf : t'.free + ((t'.body ix).held : Int) = t.free + ((t.body ix).held : Int)) : t'.balanced := by
  have := Table.held_update ix hb
  simp only [Table.balanced, Table.heldSum] at *
  omega

theorem Table.balanced_congr {t t' : Table} (h : t.balanced) (hf : t'.free = t.free)
    (hb : ∀ j, (t'.body j).held = (t.body j).held) : t'.balanced := by
  simp only [Table.balanced, Table.heldSum, hf, hb] at *
  exact h

/-- Every change keeps the balance: PIN and RESTACK move no segment, the others move the difference. -/
theorem ChangeAct.balanced {t t' : Table} {ix : SlotIx} (h : ChangeAct t ix t') (ht : t.balanced) : t'.balanced := by
  cases h with
  | nothing => exact ht
  | created o w vis pl hb =>
    refine Table.balanced_update ht ix (fun j hj => (t.body_create ix j o w vis pl).trans (if_neg (Ne.symm hj))) ?_
    rw [Table.body_create, if_pos rfl, hb]
    simp [Table.create, SlotBody.held]
  | rewritten o st st' w w' hb hp =>
    refine Table.balanced_update ht ix (fun j hj => (t.body_rewrite ix j o st st' w w').trans (if_neg (Ne.symm hj))) ?_
    rw [Table.body_rewrite, if_pos rfl, hb]
    simp [Table.rewrite, SlotBody.held]
  | restacked o st w pl hb => exact ht
  | pinned o st w on hb =>
    by_cases hp : w.pinned = on
    · rw [Table.pin_of_eq hp]; exact ht
    · obtain ⟨-, hf, hbody⟩ := Table.pin_of_ne hp t ix o st
      refine Table.balanced_update ht ix (fun j hj => (hbody j).trans (if_neg (Ne.symm hj))) ?_
      rw [hf, hbody, if_pos rfl, hb]
      cases st <;> rfl
  | retired o st w hb =>
    refine Table.balanced_update ht ix (fun j hj => (t.body_retire ix j st w).trans (if_neg (Ne.symm hj))) ?_
    rw [Table.body_retire, if_pos rfl, hb]
    simp [Table.retire, SlotBody.held]

/-- Every act keeps the segment balance. -/
theorem Act.balanced {s t : State} (h : Act s t) (hs : s.table.balanced) : t.table.balanced := by
  have setBody : ∀ (t : Table) (ix : SlotIx) (b : SlotBody), b.held = (t.body ix).held → t.balanced →
      (t.setBody ix b).balanced := fun t ix b hb h => Table.balanced_congr h rfl fun j => by
    rw [Table.body_setBody]; split <;> simp [*]
  refine h.table_keeps ?reset (fun t ix t' => ChangeAct.balanced) (fun _ _ h => h) ?reserved ?queued ?released
    ?suspended hs
  case reset => exact (by decide : Table.reset.free + (Table.reset.heldSum : Int) = 384)
  case reserved => exact fun t p ix hb h => setBody t ix _ (by simp [hb, SlotBody.held]) h
  case queued =>
    refine fun t p h => Table.balanced_congr h rfl fun j => ?_
    rw [Table.body_reservedQueued]; split <;> simp [*, SlotBody.held]
  case released =>
    refine fun t p h => Table.balanced_congr h rfl fun j => ?_
    rw [Table.body_releaseReserved]; split <;> simp [*, SlotBody.held]
  case suspended => exact fun t ix o w hb h => setBody t ix _ (by simp [hb, SlotBody.held, Window.held]) h

/-- Settles O54: every act keeps both laws of the table, and the queue of steps is no part of it. -/
theorem tableLawsKept : Obligations.TableLawsKept := fun _ _ hb hz h =>
  step_keeps (P := fun s => s.table.balanced ∧ s.table.ordered)
    (fun _ _ ha hs => ⟨ha.balanced hs.1, ha.ordered hs.2⟩) (fun _ _ hs => hs) h ⟨hb, hz⟩

/-! ### Where OPEN, RESTACK and PIN put a window -/

/-- A change that places a window inserts it in a section, at a placement (R15 to R17, R26). -/
theorem Table.zorder_of_placed {t : Table} {h : Handle} {ix : SlotIx} {ch : Change} {up : Bool} {pl : Placement}
    (hix : h.ix? = some ix)
    (hc : (∃ o st w, t.body ix = .opened o st w ∧ ch = .restack pl ∧ up = w.pinned) ∨
      (∃ o st w, t.body ix = .opened o st w ∧ ch = .pin up ∧ w.pinned ≠ up ∧ pl = if up then .bottom else .top) ∨
      (∃ o w vis, t.body ix = .queued o ∧ ch = .create w vis pl ∧ up = w.pinned)) :
    (t.applyEntry (.window h ch)).zorder = t.inserted (without t.zorder ix) ix up pl := by
  rw [Table.applyEntry_some hix]
  obtain ⟨o, st, w, hb, rfl, rfl⟩ | ⟨o, st, w, hb, rfl, hne, rfl⟩ | ⟨o, w, vis, hb, rfl, rfl⟩ := hc
  · simp [Table.applyChange, hb, Table.restack]
  · simp [Table.applyChange, hb, Table.pin, hne]
  · simp [Table.applyChange, hb, Table.create]

/-- Settles O24: the list without the window is split where its placement asks, and the window put there. -/
theorem placementForms : Obligations.PlacementForms := by
  intro s h ix ch up pl law hix hc
  obtain ⟨-, hl⟩ := Table.ordered_without law ix
  obtain ⟨lower, upper, hsplit, hins, hlow, hhigh, hpl⟩ := Table.inserted_split hl ix up pl
  have hz := Table.zorder_of_placed hix hc
  have hmem : ∀ k : SlotIx, k ≠ ix → (s.table.body k).isOpen = true → k ∈ without s.table.zorder ix :=
    fun k hk ho => mem_without.2 ⟨(law.2.1 k).2 ho, hk⟩
  have hout : ∀ j ∈ lower ++ upper, j ≠ ix := fun j hj => (mem_without.1 (hsplit ▸ hj)).2
  refine ⟨?kept, lower, upper, hz.trans hins, hlow, hhigh, ?placed⟩
  case kept =>
    have hself : (lower ++ upper).filter (fun j => decide (j ≠ ix)) = lower ++ upper :=
      List.filter_eq_self.2 fun j hj => by simpa using hout j hj
    have : s.table.zorder.filter (fun j => decide (j ≠ ix)) = lower ++ upper := hsplit
    rw [hz, hins, this, List.filter_append, List.filter_cons_of_neg (by simp), ← List.filter_append, hself]
  case placed =>
    cases pl with
    | top => exact hpl
    | bottom => exact hpl
    | above r => exact fun k hr hk ho hp => hpl k hr (hmem k hk ho) hp
    | below r => exact fun k hr hk ho hp => hpl k hr (hmem k hk ho) hp

end Sys2Proof.Machine
end

section
/-! PROOF. The steps row by row: the queue of steps, which stops they name (logs 14, 25), and which rows reach the live
table (R19) and the output state (R76). -/

namespace Sys2Proof.Machine

/-- Settles O1: both clauses are the two cases of `step`. -/
theorem stepRunsFront : Obligations.StepRunsFront := by
  refine ⟨fun c rest s => rfl, fun s hs => ?_⟩
  simp only [step, hs]

/-! ### Stops (logs 14, 25) -/

/-- A row that takes a host command always answers a next state. -/
theorem exec_command_next {i : Instr} {pc : Port × Byte} (hi : i.command? = some pc) (s : State) :
    ∃ t, exec i s = .next t := by
  cases i <;> simp only [Instr.command?, reduceCtorEq] at hi <;> exact serve_next _ _ _ _ _

theorem State.drive_ne_refused (s : State) (r : Refusal) : s.drive ≠ .refused r := by
  unfold State.drive; split <;> simp

theorem State.takeEvent_ne_refused (e : RasterEvent) (s : State) (r : Refusal) : s.takeEvent e ≠ .refused r := by
  cases e with
  | activeLineStart l => exact State.drive_ne_refused _ r
  | _ => simp [State.takeEvent]

theorem State.takeEvents_ne_refused (es : List RasterEvent) (s : State) (r : Refusal) :
    State.takeEvents es s ≠ .refused r := by
  induction es generalizing s with
  | nil => simp [State.takeEvents]
  | cons e es ih =>
    rw [State.takeEvents]
    split
    · exact ih _
    · simp
    · rename_i r' h; exact absurd h (State.takeEvent_ne_refused e s r')

theorem execPclkRisingEdge_ne_refused (s : State) (r : Refusal) : execPclkRisingEdge s ≠ .refused r := by
  unfold execPclkRisingEdge
  split
  · simp
  · split
    · exact State.drive_ne_refused _ r
    · simp
    · rename_i r' h; exact absurd h (State.takeEvents_ne_refused _ s r')

/-- Only an activeLineStart event drives the pins, and so may fault. -/
theorem State.takeEvent_next_of_ne {e : RasterEvent} (h : ∀ l, e ≠ .activeLineStart l) (s : State) :
    ∃ t, s.takeEvent e = .next t := by
  cases e with
  | activeLineStart l => exact absurd rfl (h l)
  | _ => exact ⟨_, rfl⟩

theorem State.complete_ne_refused (s : State) (beats : List Beat) (r : Refusal) : s.complete beats ≠ .refused r := by
  have deliver : ∀ (s : State) e, s.deliver e beats ≠ .refused r := fun s e => by
    unfold State.deliver
    split
    · simp
    · dsimp only; split
      · split
        · split <;> simp
        · simp
      · simp
  have matched : ∀ (s : State) k er, s.matchTag k er beats ≠ .refused r := fun s k er => by
    unfold State.matchTag
    split
    · simp
    · simp
    · split
      · simp
      · split
        · exact deliver _ _
        · simp
  unfold State.complete
  split
  · simp
  · split
    · exact matched _ _ _
    · simp

/-- A row that is no host command, no link frame and not one of the three that touch the line store always answers a next
state. -/
theorem exec_event_next {i : Instr} (hi : i.command? = none) (hm : i.moment? = none)
    (hc : ∀ beats, i ≠ .completion beats) (ha : i ≠ .activeLineStart) (hp : i ≠ .pclkRisingEdge) (s : State) :
    ∃ t, exec i s = .next t := by
  cases i <;> simp only [Instr.command?, Instr.moment?, reduceCtorEq] at hi hm <;> simp only [exec]
  case deviceReset => exact ⟨_, rfl⟩
  case unknownCommandCode p => unfold execUnknownCommandCode; split <;> [split; skip] <;> exact ⟨_, rfl⟩
  case frameTurn => unfold execFrameTurn; split <;> exact ⟨_, rfl⟩
  case frameTurnTaken => unfold execFrameTurnTaken; split <;> [split; skip] <;> exact ⟨_, rfl⟩
  case suspensionRequestTaken => unfold execSuspensionRequestTaken; split <;> [split; skip] <;> exact ⟨_, rfl⟩
  case linkResetAbandon p => unfold execLinkResetAbandon; split <;> exact ⟨_, rfl⟩
  case lineStart => unfold execLineStart; split <;> exact ⟨_, rfl⟩
  case tagTimeout k => unfold execTagTimeout; split <;> [(split <;> [split; skip]); skip] <;> exact ⟨_, rfl⟩
  case activeLineStart => exact absurd rfl ha
  case activeLineEnd => unfold execActiveLineEnd; split <;> exact ⟨_, rfl⟩
  case activeEnd => unfold execActiveEnd; split <;> exact ⟨_, rfl⟩
  case fetchPick => unfold execFetchPick; split <;> [split; skip] <;> exact ⟨_, rfl⟩
  case requestAccept => unfold execRequestAccept; split <;> [skip; split] <;> exact ⟨_, rfl⟩
  case completion beats => exact absurd rfl (hc beats)
  case pclkRisingEdge => exact absurd rfl hp

/-- A well-formed link frame answers a next state; an ill-formed one is refused. -/
theorem exec_frame_stops {i : Instr} {m : Moment} (hi : i.moment? = some m) (s : State) :
    (i.wf = true ∧ ∃ t, exec i s = .next t) ∨ (i.wf = false ∧ exec i s = .refused .illFormed) := by
  cases i <;> simp only [Instr.moment?, reduceCtorEq, Option.some.injEq] at hi <;> simp only [exec]
  case emptyFrame p m' =>
    cases m' with
    | fall => exact .inl ⟨rfl, _, rfl⟩
    | byte0 => exact .inr ⟨rfl, rfl⟩
    | rise bits =>
      by_cases hb : 8 ≤ bits.length
      · exact .inr ⟨by simp [Instr.wf, hb], by simp [execEmptyFrame, hb]⟩
      · refine .inl ⟨by simp [Instr.wf]; omega, ?_⟩
        simp only [execEmptyFrame, if_neg hb]
        split <;> exact ⟨_, rfl⟩
  case linkReset p m' =>
    refine .inl ⟨rfl, ?_⟩
    unfold execLinkReset
    split <;> [skip; skip; split] <;> exact ⟨_, rfl⟩
  case idleFrame p kind m' =>
    cases hw : Instr.wf (.idleFrame p kind m') with
    | true => exact .inl ⟨rfl, by simp [execIdleFrame, hw]⟩
    | false => exact .inr ⟨rfl, by simp [execIdleFrame, hw]⟩
  case unknownFrameKind p kind m' =>
    cases hw : Instr.wf (.unknownFrameKind p kind m') with
    | true => exact .inl ⟨rfl, by simp [execUnknownFrameKind, hw]⟩
    | false => exact .inr ⟨rfl, by simp [execUnknownFrameKind, hw]⟩
  all_goals exact .inl ⟨rfl, _, rfl⟩

/-- Every row but a link frame and a completion is well-formed. -/
theorem Instr_wf_of_no_frame {i : Instr} (hm : i.moment? = none) (hc : ∀ beats, i ≠ .completion beats) :
    i.wf = true := by
  cases i <;> simp only [Instr.moment?, reduceCtorEq] at hm
  case completion beats => exact absurd rfl (hc beats)
  all_goals rfl

/-- What a step can answer, by its row. -/
theorem exec_stops (i : Instr) (s : State) :
    (i.wf = false ∧ exec i s = .refused .illFormed) ∨ (i.wf = true ∧ ((∃ t, exec i s = .next t) ∨
      ((∀ r, exec i s ≠ .refused r) ∧ ((∃ beats, i = .completion beats) ∨ i = .activeLineStart ∨
        i = .pclkRisingEdge)))) := by
  cases hm : i.moment? with
  | some m => exact (exec_frame_stops hm s).symm.imp id fun h => ⟨h.1, .inl h.2⟩
  | none =>
    by_cases hc : ∃ beats, i = .completion beats
    · obtain ⟨beats, rfl⟩ := hc
      cases hw : Instr.wf (.completion beats) with
      | false => exact .inl ⟨rfl, by simp [exec, execCompletion, hw]⟩
      | true =>
        refine .inr ⟨rfl, .inr ⟨fun r => ?_, .inl ⟨beats, rfl⟩⟩⟩
        simp only [exec, execCompletion, hw, if_true]
        split
        · simp
        · unfold State.arrive
          dsimp only; split
          · exact State.complete_ne_refused _ _ _
          · simp
    · have hwf := Instr_wf_of_no_frame hm fun beats h => hc ⟨beats, h⟩
      refine .inr ⟨hwf, ?_⟩
      cases hcmd : i.command? with
      | some pc => exact .inl (exec_command_next hcmd s)
      | none =>
        by_cases ha : i = .activeLineStart
        · subst ha
          refine .inr ⟨fun r => ?_, .inr (.inl rfl)⟩
          simp only [exec, execActiveLineStart]
          split
          · exact State.takeEvent_ne_refused _ s r
          · simp
        by_cases hp : i = .pclkRisingEdge
        · subst hp
          exact .inr ⟨execPclkRisingEdge_ne_refused s, .inr (.inr rfl)⟩
        · exact .inl (exec_event_next hcmd hm (fun beats h => hc ⟨beats, h⟩) ha hp s)

/-- Settles O2: the cases of what a step can answer. -/
theorem stopsAreNamed : Obligations.StopsAreNamed := by
  constructor
  · intro i s r
    obtain ⟨hw, e⟩ | ⟨hw, ⟨t, e⟩ | ⟨hr, -⟩⟩ := exec_stops i s
    · simp [hw, e, eq_comm]
    · simp [hw, e]
    · simp [hw, hr r]
  · intro i s f hf
    obtain ⟨-, e⟩ | ⟨-, ⟨t, e⟩ | ⟨-, hrow⟩⟩ := exec_stops i s
    · simp [e] at hf
    · simp [e] at hf
    · exact hrow

/-! ### The live table (R19) -/

/-- What is live of a table is the same in another: the list, the background, the free count and every open slot. -/
def Table.sameLive (t t' : Table) : Prop :=
  t'.zorder = t.zorder ∧ t'.background = t.background ∧ t'.free = t.free ∧
    ∀ ix : SlotIx, (t.body ix).isOpen = true ∨ (t'.body ix).isOpen = true → t'.slots[ix] = t.slots[ix]

theorem Table.sameLive_refl (t : Table) : t.sameLive t := ⟨rfl, rfl, rfl, fun _ _ => rfl⟩

theorem Table.sameLive_trans {t u v : Table} (h : t.sameLive u) (h' : u.sameLive v) : t.sameLive v := by
  obtain ⟨z, b, f, hs⟩ := h
  obtain ⟨z', b', f', hs'⟩ := h'
  refine ⟨z'.trans z, b'.trans b, f'.trans f, fun ix ho => ?_⟩
  have body_eq : ∀ {a c : Table}, a.slots[ix] = c.slots[ix] → a.body ix = c.body ix := fun e => congrArg Slot.body e
  obtain ho | ho := ho
  · have e := hs ix (.inl ho)
    exact (hs' ix (.inl (by rw [body_eq e]; exact ho))).trans e
  · have e := hs' ix (.inr ho)
    exact e.trans (hs ix (.inr (by rw [← body_eq e]; exact ho)))

/-- A slot that is not open taken for an OPEN (R3). -/
theorem Table.sameLive_reserve {t : Table} {ix : SlotIx} (h : (t.body ix).isFree = true) (p : Port) :
    t.sameLive (t.setBody ix (.reserved p)) := by
  refine ⟨rfl, rfl, rfl, fun j ho => ?_⟩
  by_cases hj : ix = j
  · subst hj
    rw [Table.body_setBody, if_pos rfl] at ho
    cases hb : t.body ix <;> simp [hb, SlotBody.isFree, SlotBody.isOpen] at h ho
  · simp only [Table.setBody]
    rw [getSlot_set, if_neg hj]

/-- Slots rewritten one by one, none of them open and none opened. -/
theorem Table.sameLive_tab {t : Table} {f : SlotIx → Slot}
    (h : ∀ ix, (∀ p, t.body ix ≠ .reserved p) → f ix = t.slots[ix])
    (hr : ∀ ix p, t.body ix = .reserved p → (f ix).body.isOpen = false) :
    t.sameLive { t with slots := tabSlots f } := by
  refine ⟨rfl, rfl, rfl, fun ix ho => ?_⟩
  rw [show ({ t with slots := tabSlots f } : Table).slots[ix] = f ix from tabSlots_get f ix]
  refine h ix fun p hp => ?_
  rw [hp, show ({ t with slots := tabSlots f } : Table).body ix = (f ix).body from
    congrArg Slot.body (tabSlots_get f ix), hr ix p hp] at ho
  simp [SlotBody.isOpen] at ho

theorem Table.sameLive_reservedQueued (t : Table) (p : Port) : t.sameLive (t.reservedQueued p) := by
  refine Table.sameLive_tab (fun ix h => ?_) fun ix q h => ?_
  · cases hb : t.body ix with
    | reserved q => exact absurd hb (h q)
    | _ => simp only [← hb]; rfl
  · simp only [h]; split <;> rfl

theorem Table.sameLive_releaseReserved (t : Table) (p : Port) : t.sameLive (t.releaseReserved p) := by
  refine Table.sameLive_tab (fun ix h => ?_) fun ix q h => ?_
  · cases hb : t.body ix with
    | reserved q => exact absurd hb (h q)
    | _ => simp only [← hb]; rfl
  · simp only [h]; split <;> rfl

/-- What a host command leaves of the live table, but for OUTPUT_STOP of Port A and a COMMIT in OFF. -/
theorem exec_command_sameLive {i : Instr} {p : Port} {code : Byte} {s t : State} (hi : i.command? = some (p, code))
    (hstop : i ≠ .outputStop .a) (hcommit : i = .commit p → s.raster.output ≠ .off) (h : exec i s = .next t) :
    s.table.sameLive t.table := by
  have key : ∀ {len : Nat} {body : CommandBody}, (∀ ps (u : State), u.raster.output = s.raster.output →
      u.table.sameLive (body ps u).2.table) → serve p code len body s = .next t → s.table.sameLive t.table := by
    intro len body hb h
    obtain rfl | ⟨c, -, -, ⟨r, -, rfl⟩ | ⟨-, rfl⟩ | ⟨-, rfl⟩⟩ := serve_cases h
    · exact Table.sameLive_refl _
    · rw [State.respond_table, State.takeHead_table]; exact Table.sameLive_refl _
    · rw [State.respond_table, State.takeHead_table]; exact Table.sameLive_refl _
    · rw [State.respond_table]
      simpa using hb c.params (s.takeHead p) (by simp)
  have same : ∀ {u v : State}, v.table = u.table → u.table.sameLive v.table := fun e => by
    rw [e]; exact Table.sameLive_refl _
  have staged : ∀ allowed e (u : State), u.table.sameLive (stage p allowed e u).2.table := fun allowed e u => by
    obtain ⟨c, -, e'⟩ | ⟨e', -, -, -, -, -, h⟩ := stage_cases p allowed e u
    · rw [e']; exact same rfl
    · rw [h]; exact same (by simp)
  have output : ∀ {act : State → ResultCode × State}, (p = .a → ∀ u : State, u.table.sameLive (act u).2.table) →
      ∀ ps (u : State), u.table.sameLive (outputCommand p act ps u).2.table := fun ha ps u => by
    cases p with
    | a => exact ha rfl u
    | b => exact same rfl
  cases i <;> simp only [Instr.command?, reduceCtorEq, Option.some.injEq, Prod.mk.injEq] at hi <;>
    obtain ⟨rfl, rfl⟩ := hi <;> simp only [exec] at h
  case openWindow p =>
    refine key (fun ps u _ => ?_) h
    obtain ⟨c, -, e⟩ | ⟨w, vis, pl, ix, -, -, -, -, hf, -, e⟩ := stageOpen_cases p ps u <;> rw [e]
    · exact same rfl
    · rw [State.appendEntry_table]
      exact Table.sameLive_reserve (by simpa using List.find?_some hf) p
  case commit p =>
    refine key (fun ps u ho => ?_) h
    unfold commitBody
    split
    · exact same rfl
    · simp only [State.acceptCommit, State.enqueue_raster, ho, if_neg (hcommit rfl)]
      simp only [State.enqueue, State.setStaging_table]
      exact Table.sameLive_reservedQueued _ _
  case abandon p =>
    refine key (fun ps u _ => ?_) h
    simp only [abandonBody, State.discardOpen, State.setStaging_table]
    exact Table.sameLive_releaseReserved _ _
  case queryWindow p => exact key (fun ps u _ => by unfold queryWindowBody; split <;> exact same rfl) h
  case queryState p => exact key (fun ps u _ => same rfl) h
  case takeNotices p =>
    refine key (fun ps u _ => ?_) h
    simp only [takeNoticesBody]
    split <;> exact same (by simp)
  case queryTiming p => exact key (fun ps u _ => same rfl) h
  case outputStart p =>
    refine key (fun ps u _ => output (fun _ u => ?_) ps u) h
    unfold startAct
    split <;> [split; skip] <;> exact same (by simp)
  case outputLive p => exact key (fun ps u _ => output (fun _ u => by unfold liveAct; split <;> exact same (by simp)) ps u) h
  case outputQuiet p =>
    exact key (fun ps u _ => output (fun _ u => by unfold quietAct; split <;> exact same (by simp)) ps u) h
  case outputStop p => exact key (fun ps u _ => output (fun hp => absurd (congrArg Instr.outputStop hp) hstop) ps u) h
  case setTiming p =>
    refine key (fun ps u _ => ?_) h
    unfold setTimingBody
    split <;> [skip; split] <;> exact same rfl
  case setFetchTimeout p =>
    refine key (fun ps u _ => ?_) h
    unfold setFetchTimeoutBody
    split <;> [skip; split] <;> exact same rfl
  case resetFetch p =>
    refine key (fun ps u _ => ?_) h
    unfold resetFetchBody
    split <;> exact same (by simp)
  all_goals exact key (fun ps u _ => staged _ _ u) h

/-- No raster event reaches the table. -/
theorem State.takeEvent_table {e : RasterEvent} {s t : State} (h : s.takeEvent e = .next t) : t.table = s.table := by
  cases e with
  | lineStart l =>
    rw [next_inj h]
    exact State.lineStartAct_keeps (P := fun x => x.table = s.table) (by simp) fun s t h => by simpa using h
  | activeLineStart l => rw [(State.drive_next h).2]; simp
  | _ => rw [next_inj h]; simp

theorem State.takeEvents_table {es : List RasterEvent} {s t : State} (h : State.takeEvents es s = .next t) :
    t.table = s.table := by
  induction es generalizing s with
  | nil => rw [next_inj h]
  | cons e es ih =>
    unfold State.takeEvents at h
    split at h
    · rename_i u hu; rw [ih h, State.takeEvent_table hu]
    · cases h
    · cases h

theorem execPclkRisingEdge_table {s t : State} (h : execPclkRisingEdge s = .next t) : t.table = s.table := by
  obtain ⟨-, rfl⟩ | ⟨u, -, hu, rfl⟩ := execPclkRisingEdge_cases h
  · rfl
  · rw [State.pinsDriven_table, State.reached_table, State.takeEvents_table hu]

/-- No completion reaches the table. -/
theorem execCompletion_table {beats : List Beat} {s t : State} (h : execCompletion beats s = .next t) :
    t.table = s.table := by
  obtain ⟨held, rfl⟩ | ⟨k, er, all, h'⟩ := execCompletion_cases h
  · rfl
  · obtain ⟨-, rfl⟩ | rfl | ⟨e, -, -, ⟨-, hd⟩ | ⟨-, rfl⟩⟩ := State.matchTag_next h'
    · simp
    · simp
    · obtain rfl | ⟨ix, seg, ld, -, -, -, -, rfl⟩ := State.deliver_next hd <;> simp
    · simp

/-- What every row but a host command leaves of the live table. -/
theorem exec_event_sameLive {i : Instr} {s t : State} (hi : i.command? = none) (htaken : i ≠ .frameTurnTaken)
    (hsusp : i ≠ .suspensionRequestTaken) (hreset : i ≠ .deviceReset) (h : exec i s = .next t) :
    s.table.sameLive t.table := by
  have same : ∀ {v : State}, v.table = s.table → s.table.sameLive v.table := fun e => by
    rw [e]; exact Table.sameLive_refl _
  cases hm : i.moment? with
  | some m => obtain ⟨p, l, u, rfl, rfl | ⟨rfl, -⟩⟩ := exec_frame hm h <;> exact same (by simp)
  | none =>
    cases i <;> simp only [Instr.command?, Instr.moment?, reduceCtorEq] at hi hm <;> simp only [exec] at h
    case deviceReset => exact absurd rfl hreset
    case unknownCommandCode p =>
      obtain rfl | ⟨c, r, -, -, rfl, -⟩ := execUnknownCommandCode_cases h <;> exact same (by simp)
    case frameTurn => obtain rfl | ⟨-, rfl⟩ := execFrameTurn_cases h <;> exact same (by simp)
    case frameTurnTaken => exact absurd rfl htaken
    case suspensionRequestTaken => exact absurd rfl hsusp
    case linkResetAbandon p =>
      obtain rfl | ⟨-, rfl⟩ := execLinkResetAbandon_cases h
      · exact same rfl
      · simp only [State.setLink_table, State.discardOpen, State.setStaging_table]
        exact Table.sameLive_releaseReserved _ _
    case lineStart =>
      obtain e | ⟨l, -, e⟩ := execLineStart_cases h <;> rw [e]
      · exact same rfl
      · exact same (State.takeEvent_table (e := .lineStart l) rfl)
    case tagTimeout k => obtain e | ⟨l, w, -, -, -, e⟩ := execTagTimeout_cases h <;> rw [e] <;> exact same (by simp)
    case activeLineStart => obtain rfl | ⟨l, -, rfl⟩ := execActiveLineStart_cases h <;> exact same (by simp)
    case activeLineEnd => obtain rfl | ⟨l, -, rfl⟩ := execActiveLineEnd_cases h <;> exact same (by simp)
    case activeEnd => obtain rfl | ⟨-, rfl⟩ := execActiveEnd_cases h <;> exact same (by simp)
    case fetchPick => obtain rfl | ⟨k, d, pick, -, -, -, -, rfl⟩ := execFetchPick_cases h <;> exact same (by simp)
    case requestAccept =>
      obtain ⟨-, rfl⟩ | ⟨o, -, ⟨-, rfl⟩ | ⟨-, rfl⟩⟩ := execRequestAccept_cases h <;> exact same (by simp)
    case completion beats => exact same (execCompletion_table h)
    case pclkRisingEdge => exact same (execPclkRisingEdge_table h)

/-- Settles O38: the rows it names, or a row that leaves the live table. -/
theorem liveTableChangesOnly : Obligations.LiveTableChangesOnly := by
  intro i s t h
  by_cases htaken : i = .frameTurnTaken
  · exact .inl htaken
  by_cases hstop : i = .outputStop .a
  · exact .inr (.inl hstop)
  by_cases hcommit : ∃ p, i = .commit p ∧ s.raster.output = .off
  · exact .inr (.inr (.inl hcommit))
  by_cases hsusp : i = .suspensionRequestTaken
  · exact .inr (.inr (.inr (.inl hsusp)))
  by_cases hreset : i = .deviceReset
  · exact .inr (.inr (.inr (.inr (.inl hreset))))
  refine .inr (.inr (.inr (.inr (.inr ?_))))
  cases hi : i.command? with
  | some pc => exact exec_command_sameLive (p := pc.1) (code := pc.2) hi hstop (fun e ho => hcommit ⟨_, e, ho⟩) h
  | none => exact exec_event_sameLive hi htaken hsusp hreset h

end Sys2Proof.Machine
end

section
/-! PROOF. The output state over every row (R76): which rows reach it, and what a PCLK edge makes of the events due. -/

namespace Sys2Proof.Machine

/-! ### The rows that take a host command -/

/-- What the row of a command does once the command is taken (R21); for every other row nothing. -/
def commandBody : Instr → CommandBody
  | .openWindow p => stageOpen p
  | .place p => stageNamed p 0x11
  | .source p => stageNamed p 0x12
  | .look p => stageNamed p 0x13
  | .showWindow p => stageNamed p 0x14
  | .hide p => stageNamed p 0x15
  | .restack p => stageNamed p 0x16
  | .pin p => stagePrimary p 0x17
  | .resume p => stageNamed p 0x18
  | .retire p => stageNamed p 0x19
  | .reclaim p => stagePrimary p 0x1A
  | .backdrop p => fun params => stage p (p == .a) (decodeBackdrop params)
  | .commit p => commitBody p
  | .abandon p => abandonBody p
  | .queryWindow p => queryWindowBody p
  | .queryState p => queryStateBody p
  | .takeNotices p => takeNoticesBody p
  | .queryTiming _ => queryTimingBody
  | .outputStart p => outputCommand p startAct
  | .outputLive p => outputCommand p liveAct
  | .outputQuiet p => outputCommand p quietAct
  | .outputStop p => outputCommand p stopAct
  | .setTiming p => setTimingBody p
  | .setFetchTimeout p => setFetchTimeoutBody p
  | .resetFetch p => resetFetchBody p
  | _ => fun _ s => (.bare .ok, s)

/-- The row of a command serves it with its own body, at the length its code has (10.3). -/
theorem exec_eq_serve {i : Instr} {p : Port} {code : Byte} (hi : i.command? = some (p, code)) :
    ∃ len, paramLength code = some len ∧ ∀ s, exec i s = serve p code len (commandBody i) s := by
  cases i <;> simp only [Instr.command?, reduceCtorEq, Option.some.injEq, Prod.mk.injEq] at hi <;>
    obtain ⟨rfl, rfl⟩ := hi <;> exact ⟨_, rfl, fun _ => rfl⟩

/-- What a property of the state asks of a row's body, of the taking and of the response, the row keeps. -/
theorem exec_command_keeps {P : State → Prop} {i : Instr} {p : Port} {code : Byte} {s t : State}
    (hi : i.command? = some (p, code)) (h : exec i s = .next t) (hs : P s) (ht : ∀ s, P s → P (s.takeHead p))
    (hb : ∀ ps s, P s → P (commandBody i ps s).2) (hr : ∀ s c r, P s → P (s.respond p c r)) : P t := by
  obtain ⟨len, -, he⟩ := exec_eq_serve hi
  exact serve_keeps hs ht hb hr ((he s).symm.trans h)

/-! ### The rows that reach the output state -/

theorem stage_raster (p : Port) (allowed : Bool) (e : Option Entry) (s : State) :
    (stage p allowed e s).2.raster = s.raster := by
  obtain ⟨c, -, h⟩ | ⟨e', -, -, -, -, -, h⟩ := stage_cases p allowed e s <;> simp [h]

/-- Of the commands only OUTPUT_START and OUTPUT_STOP from Port A reach the output state (R76, R79). -/
theorem commandBody_output {i : Instr} {pc : Port × Byte} (hi : i.command? = some pc) (h1 : i ≠ .outputStart .a)
    (h2 : i ≠ .outputStop .a) (ps : List Byte) (s : State) :
    (commandBody i ps s).2.raster.output = s.raster.output := by
  have output : ∀ {p : Port} {act : State → ResultCode × State},
      (p = .a → (act s).2.raster.output = s.raster.output) →
      (outputCommand p act ps s).2.raster.output = s.raster.output := fun {p _} ha => by
    cases p with
    | a => exact ha rfl
    | b => rfl
  cases i <;> simp only [Instr.command?, reduceCtorEq] at hi <;> simp only [commandBody]
  case openWindow p =>
    obtain ⟨c, -, h⟩ | ⟨w, vis, pl, ix, -, -, -, -, -, -, h⟩ := stageOpen_cases p ps s <;> simp [h]
  case commit p => unfold commitBody; split <;> [rfl; (simp only [State.acceptCommit]; split <;> simp)]
  case abandon p => simp [abandonBody]
  case queryWindow p => unfold queryWindowBody; split <;> rfl
  case queryState p => rfl
  case takeNotices p => simp only [takeNoticesBody]; split <;> simp
  case queryTiming p => rfl
  case outputStart p => exact output fun hp => absurd (congrArg Instr.outputStart hp) h1
  case outputLive p => exact output fun _ => by unfold liveAct; split <;> rfl
  case outputQuiet p => exact output fun _ => by unfold quietAct; split <;> rfl
  case outputStop p => exact output fun hp => absurd (congrArg Instr.outputStop hp) h2
  case setTiming p => unfold setTimingBody; split <;> [rfl; (split <;> rfl)]
  case setFetchTimeout p => unfold setFetchTimeoutBody; split <;> [rfl; (split <;> rfl)]
  case resetFetch p => unfold resetFetchBody; split <;> simp
  all_goals exact congrArg Raster.output (stage_raster _ _ _ s)

/-- OUTPUT_START leads from OFF to SYNC_ONLY or leaves the output state (R80). -/
theorem startAct_output (s : State) : (startAct s).2.raster.output = s.raster.output ∨
    (s.raster.output = .off ∧ (startAct s).2.raster.output = .syncOnly) := by
  unfold startAct
  split
  · split
    · exact .inr ⟨‹_›, by simp [State.startOutput, Raster.started]⟩
    · exact .inl rfl
  · exact .inl rfl

/-- OUTPUT_STOP leads to OFF (R83). -/
theorem stopAct_output (s : State) : (stopAct s).2.raster.output = .off := by
  unfold stopAct
  split
  · assumption
  · simp [State.stopOutput, State.enterOff, Raster.stopped]

/-- A host command that changes the output state is OUTPUT_START in OFF or OUTPUT_STOP, of Port A (R76, R79). -/
theorem exec_command_output {i : Instr} {pc : Port × Byte} {s t : State} (hi : i.command? = some pc)
    (h : exec i s = .next t) (hne : t.raster.output ≠ s.raster.output) :
    (i = .outputStart .a ∧ s.raster.output = .off ∧ t.raster.output = .syncOnly) ∨
      (i = .outputStop .a ∧ t.raster.output = .off) := by
  obtain ⟨p, code⟩ := pc
  by_cases h1 : i = .outputStart .a
  · refine .inl ⟨h1, ?_⟩
    subst h1
    refine (exec_command_keeps (P := fun x => x.raster.output = s.raster.output ∨
      (s.raster.output = .off ∧ x.raster.output = .syncOnly)) hi h (.inl rfl) (fun u hu => by simpa using hu)
      (fun ps u hu => ?_) (fun u c r hu => by simpa using hu)).resolve_left hne
    show (startAct u).2.raster.output = _ ∨ _ ∧ (startAct u).2.raster.output = _
    obtain e | ⟨ho, e⟩ := startAct_output u
    · rw [e]; exact hu
    · exact .inr ⟨hu.elim (fun e => e ▸ ho) fun e => e.1, e⟩
  by_cases h2 : i = .outputStop .a
  · refine .inr ⟨h2, ?_⟩
    subst h2
    refine (exec_command_keeps (P := fun x => x.raster.output = s.raster.output ∨ x.raster.output = .off) hi h
      (.inl rfl) (fun u hu => by simpa using hu) (fun ps u hu => .inr (stopAct_output u))
      (fun u c r hu => by simpa using hu)).resolve_left hne
  · exact absurd (exec_command_keeps (P := fun x => x.raster.output = s.raster.output) hi h rfl
      (fun u hu => by simpa using hu) (fun ps u hu => (commandBody_output hi h1 h2 ps u).trans hu)
      (fun u c r hu => by simpa using hu)) hne

/-! ### The events of a raster position -/

theorem State.lineStartAct_raster (s : State) : s.lineStartAct.raster = s.raster :=
  State.lineStartAct_keeps (P := fun x => x.raster = s.raster) (by simp) fun s t h => by simpa using h

@[simp] theorem State.tookEvent_raster (s : State) (e : RasterEvent) : (s.tookEvent e).raster = s.raster.took e := rfl

/-- Every event but the frame turn leaves the output state. -/
theorem State.takeEvent_output {e : RasterEvent} (he : e ≠ .frameTurn) {s t : State} (h : s.takeEvent e = .next t) :
    t.raster.output = s.raster.output := by
  cases e with
  | lineStart l => rw [next_inj h, State.lineStartAct_raster]; rfl
  | frameTurn => exact absurd rfl he
  | activeLineStart l => rw [(State.drive_next h).2, State.pinsDriven_raster]; rfl
  | activeLineEnd l => rw [next_inj h, State.activeLineEndAct_raster]; rfl
  | activeEnd =>
    rw [next_inj h]
    obtain e | e := (s.tookEvent .activeEnd).activeEndAct_raster <;> rw [e]
    · rfl
    · rw [State.requested_output]; rfl

theorem State.takeEvents_output {es : List RasterEvent} (he : RasterEvent.frameTurn ∉ es) {s t : State}
    (h : State.takeEvents es s = .next t) : t.raster.output = s.raster.output := by
  induction es generalizing s with
  | nil => rw [next_inj h]
  | cons e es ih =>
    unfold State.takeEvents at h
    obtain ⟨hne, hes⟩ := List.ne_and_not_mem_of_not_mem_cons he
    split at h
    · rename_i u hu; rw [ih hes h, State.takeEvent_output (Ne.symm hne) hu]
    · cases h
    · cases h

/-- What frame turns make of the output state and the pending target (R73, R76, R77, R78). -/
def Raster.turnsTo (r r' : Raster) : Prop :=
  (r'.output = r.output ∧ r'.target = r.target) ∨
  (r.output = .syncOnly ∧ r.target = .live ∧ r'.output = .live ∧ r'.settle = 2 ∧ r'.target = .none) ∨
  (r.output = .live ∧ r.target = .syncOnly ∧ r'.output = .syncOnly ∧ r'.target = .none)

theorem Raster.turnsTo_took {r r' : Raster} (h : r.turnsTo r') (e : RasterEvent) : r.turnsTo (r'.took e) := h

/-- A pending target stands only where its rule sets it (R78). -/
def Raster.targetLaw (r : Raster) : Prop :=
  (r.target = .live → r.output = .syncOnly) ∧ (r.target = .syncOnly → r.output = .live)

/-- One more frame turn: a target once met is cleared, so that no later turn changes the output again. -/
theorem Raster.turnsTo_turned {r r' : Raster} (law : r.targetLaw) (h : r.turnsTo r') : r.turnsTo r'.turned := by
  obtain ⟨hlive, hsync⟩ := law
  obtain ⟨ho, ht⟩ | ⟨ho, ht, ho', hs', ht'⟩ | ⟨ho, ht, ho', ht'⟩ := h
  · cases htr : r'.target with
    | none => exact .inl ⟨by simp [Raster.turned, htr, ho], by simp [Raster.turned, htr, ← ht]⟩
    | syncOnly => exact .inr (.inr ⟨hsync (ht ▸ htr), ht ▸ htr, by simp [Raster.turned, htr]⟩)
    | live =>
      by_cases hn : min (r'.settle + 1) 2 = 2
      · exact .inr (.inl ⟨hlive (ht ▸ htr), ht ▸ htr, by simp [Raster.turned, htr, hn]⟩)
      · exact .inl ⟨by simp [Raster.turned, htr, hn, ho], by simp [Raster.turned, htr, hn, ← ht]⟩
  · exact .inr (.inl ⟨ho, ht, by simp [Raster.turned, ht', ho'], by simp [Raster.turned, ht', hs'],
      by simp [Raster.turned, ht']⟩)
  · exact .inr (.inr ⟨ho, ht, by simp [Raster.turned, ht', ho'], by simp [Raster.turned, ht']⟩)

/-- Line starts and frame turns taken one after the other. -/
theorem State.takeEvents_turnsTo {es : List RasterEvent} {r : Raster} (law : r.targetLaw)
    (hes : ∀ e ∈ es, e = .frameTurn ∨ ∃ l, e = .lineStart l) {s t : State} (hs : r.turnsTo s.raster)
    (h : State.takeEvents es s = .next t) : r.turnsTo t.raster := by
  induction es generalizing s with
  | nil => rw [next_inj h]; exact hs
  | cons e es ih =>
    unfold State.takeEvents at h
    split at h
    · rename_i u hu
      refine ih (fun e' he' => hes e' (List.mem_cons_of_mem _ he')) ?_ h
      obtain rfl | ⟨l, rfl⟩ := hes e List.mem_cons_self
      · rw [next_inj hu]
        exact Raster.turnsTo_turned law (Raster.turnsTo_took hs _)
      · rw [next_inj hu, State.lineStartAct_raster]
        exact Raster.turnsTo_took hs _
    · cases h
    · cases h

/-- The events of a raster position (R72, R73): a line start and the frame turn where the line begins, and those of an
active line. -/
theorem Profile.mem_eventsAt {t : Profile} {l q : Nat} {e : RasterEvent} : e ∈ t.eventsAt l q ↔
    (q = 0 ∧ (e = .lineStart l ∨ (l = t.vActiveStart + t.vActiveHeight ∧ e = .frameTurn))) ∨
    ((t.vActiveStart ≤ l ∧ l < t.vActiveStart + t.vActiveHeight) ∧
      ((q = t.hActiveStart ∧ e = .activeLineStart (l - t.vActiveStart)) ∨
        (q = t.hActiveStart + t.hActiveWidth ∧ (e = .activeLineEnd (l - t.vActiveStart) ∨
          (l - t.vActiveStart + 1 = t.vActiveHeight ∧ e = .activeEnd))))) := by
  unfold Profile.eventsAt
  split_ifs <;> simp_all [inInterval]

/-- The frame turn's position is no active line's, so that its events are a line start and the turn (R72, R73). -/
theorem Profile.eventsAt_frameTurn {t : Profile} {l q : Nat} (h : RasterEvent.frameTurn ∈ t.eventsAt l q) :
    ∀ e ∈ t.eventsAt l q, e = .frameTurn ∨ ∃ l, e = .lineStart l := by
  have hl : l = t.vActiveStart + t.vActiveHeight := by
    rw [Profile.mem_eventsAt] at h
    obtain ⟨-, h | ⟨hl, -⟩⟩ | ⟨-, ⟨-, h⟩ | ⟨-, h | ⟨-, h⟩⟩⟩ := h
    · cases h
    · exact hl
    · cases h
    · cases h
    · cases h
  intro e he
  rw [Profile.mem_eventsAt] at he
  obtain ⟨-, rfl | ⟨-, rfl⟩⟩ | ⟨hin, -⟩ := he
  · exact .inr ⟨l, rfl⟩
  · exact .inl rfl
  · omega

theorem State.reached_output (s : State) : s.reached.raster.output = s.raster.output := by
  obtain ⟨u, rfl | rfl, e⟩ := s.reached_cases <;> rw [e]
  · rfl
  · exact State.requested_output s

theorem State.reached_settle (s : State) : s.reached.raster.settle = s.raster.settle := by
  obtain ⟨u, rfl | rfl, e⟩ := s.reached_cases <;> rw [e]
  · rfl
  · obtain ⟨target, e', -⟩ := State.requested_raster s
    show s.requested.raster.settle = _
    rw [e']

/-- A PCLK edge that changes the output state makes a frame turn that was due (R76, log 6). -/
theorem execPclkRisingEdge_output {s t : State} (law : RasterLaw s) (h : execPclkRisingEdge s = .next t)
    (hne : t.raster.output ≠ s.raster.output) : RasterEvent.frameTurn ∈ s.raster.due ∧
      ((s.raster.output = .syncOnly ∧ t.raster.output = .live ∧ s.raster.target = .live ∧ t.raster.settle = 2) ∨
        (s.raster.output = .live ∧ t.raster.output = .syncOnly ∧ s.raster.target = .syncOnly)) := by
  obtain ⟨-, hon, hlive, hsync, -⟩ := law
  obtain ⟨-, rfl⟩ | ⟨u, ho, hu, rfl⟩ := execPclkRisingEdge_cases h
  · exact absurd rfl hne
  rw [State.pinsDriven_raster, State.reached_output] at hne
  rw [State.pinsDriven_raster, State.reached_output, State.reached_settle]
  by_cases hf : RasterEvent.frameTurn ∈ s.raster.due
  · obtain ⟨-, -, -, hdue, -⟩ := hon ho
    have ht := State.takeEvents_turnsTo ⟨hlive, hsync⟩
      (fun e he => Profile.eventsAt_frameTurn (hdue _ hf) e (hdue e he)) (.inl ⟨rfl, rfl⟩) hu
    obtain ⟨e, -⟩ | ⟨a, b, c, d, -⟩ | ⟨a, b, c, -⟩ := ht
    · exact absurd e hne
    · exact ⟨hf, .inl ⟨a, c, b, d⟩⟩
    · exact ⟨hf, .inr ⟨a, c, b⟩⟩
  · exact absurd (State.takeEvents_output hf hu) hne

/-- The row FRAME_TURN changes the output state as R76's table says. -/
theorem execFrameTurn_output {s t : State} (law : RasterLaw s) (h : execFrameTurn s = .next t)
    (hne : t.raster.output ≠ s.raster.output) : RasterEvent.frameTurn ∈ s.raster.due ∧
      ((s.raster.output = .syncOnly ∧ t.raster.output = .live ∧ s.raster.target = .live ∧ t.raster.settle = 2) ∨
        (s.raster.output = .live ∧ t.raster.output = .syncOnly ∧ s.raster.target = .syncOnly)) := by
  obtain ⟨-, -, hlive, hsync, -⟩ := law
  obtain rfl | ⟨htake, rfl⟩ := execFrameTurn_cases h
  · exact absurd rfl hne
  have hf : RasterEvent.frameTurn ∈ s.raster.due := by
    revert htake
    cases hd : s.raster.due <;> simp [Raster.takeable, hd]
    tauto
  have ht : s.raster.turnsTo (s.raster.took .frameTurn).turned :=
    Raster.turnsTo_turned ⟨hlive, hsync⟩ (.inl ⟨rfl, rfl⟩)
  obtain ⟨e, -⟩ | ⟨a, b, c, d, -⟩ | ⟨a, b, c, -⟩ := ht
  · exact absurd e hne
  · exact ⟨hf, .inl ⟨a, c, b, d⟩⟩
  · exact ⟨hf, .inr ⟨a, c, b⟩⟩

/-- Every other row leaves the output state. -/
theorem exec_event_output {i : Instr} {s t : State} (hi : i.command? = none) (hreset : i ≠ .deviceReset)
    (hturn : i ≠ .frameTurn) (hedge : i ≠ .pclkRisingEdge) (h : exec i s = .next t) :
    t.raster.output = s.raster.output := by
  cases hm : i.moment? with
  | some m => obtain ⟨p, l, u, rfl, rfl | ⟨rfl, -⟩⟩ := exec_frame hm h <;> simp
  | none =>
    cases i <;> simp only [Instr.command?, Instr.moment?, reduceCtorEq] at hi hm <;> simp only [exec] at h
    case deviceReset => exact absurd rfl hreset
    case unknownCommandCode p => obtain e | ⟨c, r, -, -, e, -⟩ := execUnknownCommandCode_cases h <;> simp [e]
    case frameTurn => exact absurd rfl hturn
    case frameTurnTaken =>
      obtain e | ⟨turn, -, -, e⟩ := execFrameTurnTaken_cases h <;> rw [e]
      obtain ⟨-, e⟩ | ⟨-, e⟩ := State.takeTurn_cases s turn <;> simp [e]
    case suspensionRequestTaken =>
      obtain e | ⟨r, rs, -, -, e⟩ := execSuspensionRequestTaken_cases h <;> simp [e]
    case linkResetAbandon p => obtain e | ⟨-, e⟩ := execLinkResetAbandon_cases h <;> simp [e]
    case lineStart =>
      obtain e | ⟨l, -, e⟩ := execLineStart_cases h <;> rw [e]
      exact State.takeEvent_output (e := .lineStart l) (by simp) rfl
    case tagTimeout k => obtain e | ⟨l, w, -, -, -, e⟩ := execTagTimeout_cases h <;> simp [e]
    case activeLineStart =>
      obtain e | ⟨l, -, e⟩ := execActiveLineStart_cases h <;> rw [e]
      rw [State.pinsDriven_raster]; rfl
    case activeLineEnd => obtain e | ⟨l, -, e⟩ := execActiveLineEnd_cases h <;> simp [e, Raster.took]
    case activeEnd =>
      obtain e | ⟨-, e⟩ := execActiveEnd_cases h <;> rw [e]
      exact State.takeEvent_output (e := .activeEnd) (by simp) rfl
    case fetchPick => obtain e | ⟨k, d, pick, -, -, -, -, e⟩ := execFetchPick_cases h <;> simp [e]
    case requestAccept =>
      obtain ⟨-, e⟩ | ⟨o, -, ⟨-, e⟩ | ⟨-, e⟩⟩ := execRequestAccept_cases h <;> simp [e]
    case completion beats =>
      obtain ⟨held, e⟩ | ⟨k, er, all, h'⟩ := execCompletion_cases h
      · simp [e]
      · obtain ⟨-, e⟩ | e | ⟨w, -, -, ⟨-, hd⟩ | ⟨-, e⟩⟩ := State.matchTag_next h'
        · simp [e]
        · simp [e]
        · obtain e | ⟨ix, seg, ld, -, -, -, -, e⟩ := State.deliver_next hd <;> simp [e]
        · simp [e]
    case pclkRisingEdge => exact absurd rfl hedge

/-- Settles O37: by the row; of the rows that are no command only the frame turn, a PCLK edge and the reset are left. -/
theorem outputStateChangesOnly : Obligations.OutputStateChangesOnly := by
  intro i s t law h hne frameTurn
  cases hi : i.command? with
  | some pc =>
    obtain h | h := exec_command_output hi h hne
    · exact .inl h
    · exact .inr (.inr (.inr (.inl h)))
  | none =>
    by_cases hreset : i = .deviceReset
    · subst hreset
      exact .inr (.inr (.inr (.inr ⟨rfl, by rw [next_inj h]; rfl⟩)))
    by_cases hturn : i = .frameTurn
    · subst hturn
      obtain ⟨hf, h | h⟩ := execFrameTurn_output law h hne
      · exact .inr (.inl ⟨⟨hf, .inl rfl⟩, h⟩)
      · exact .inr (.inr (.inl ⟨⟨hf, .inl rfl⟩, h⟩))
    by_cases hedge : i = .pclkRisingEdge
    · subst hedge
      obtain ⟨hf, h | h⟩ := execPclkRisingEdge_output law h hne
      · exact .inr (.inl ⟨⟨hf, .inr rfl⟩, h⟩)
      · exact .inr (.inr (.inl ⟨⟨hf, .inr rfl⟩, h⟩))
    · exact absurd (exec_event_output hi hreset hturn hedge h) hne

end Sys2Proof.Machine
end

section
/-! PROOF. The rules of the operations on streams, tags and lanes: what a read of each returns after a write (R104, R118,
R125, R133). -/

namespace Sys2Proof.Machine

/-! ### A stream and its halves (R104) -/

section
variable (st : Stream) (i j : HalfId) (h : Half)

@[simp] theorem Stream.setHalf_cond : (st.setHalf i h).cond = st.cond := by cases i <;> rfl
@[simp] theorem Stream.setHalf_load : (st.setHalf i h).load = st.load := by cases i <;> rfl
@[simp] theorem Stream.setHalf_visible : (st.setHalf i h).visible = st.visible := by cases i <;> rfl
@[simp] theorem Stream.setHalf_starved : (st.setHalf i h).starved = st.starved := by cases i <;> rfl
@[simp] theorem Stream.setHalf_count : (st.setHalf i h).count = st.count := by cases i <;> rfl
@[simp] theorem Stream.setHalf_excused : (st.setHalf i h).excused = st.excused := by cases i <;> rfl
@[simp] theorem Stream.setHalf_loaded : (st.setHalf i h).loaded = st.loaded := by cases i <;> rfl
@[simp] theorem Stream.half_setHalf_same : (st.setHalf i h).half i = h := by cases i <;> rfl

theorem Stream.half_setHalf : (st.setHalf i h).half j = if i = j then h else st.half j := by
  cases i <;> cases j <;> rfl

@[simp] theorem Stream.setHalf_half : st.setHalf i (st.half i) = st := by cases i <;> rfl

end

theorem Stream.loaded_iff {st : Stream} : st.loaded = true ↔ st.cond ≠ .stopped := by
  simp [Stream.loaded]

theorem Stream.not_loaded_iff {st : Stream} : st.loaded = false ↔ st.cond = .stopped := by
  simp [Stream.loaded]

@[simp] theorem Stream.stopped_loaded (st : Stream) : st.stopped.loaded = false := rfl
@[simp] theorem Stream.stopped_half (st : Stream) (i : HalfId) : st.stopped.half i = Half.released := by cases i <;> rfl
@[simp] theorem Stream.stopped_load (st : Stream) : st.stopped.load = st.load := rfl
@[simp] theorem Stream.countCleared_loaded (st : Stream) : st.countCleared.loaded = st.loaded := rfl
@[simp] theorem Stream.countCleared_half (st : Stream) (i : HalfId) : st.countCleared.half i = st.half i := by
  cases i <;> rfl

theorem Half.fail_eq (h : Half) (r : Nat) : h.fail r = h ∨ (h.row = some r ∧ h.cond = .filling ∧
    h.fail r = { h with cond := .failed }) := by
  unfold Half.fail
  split
  · exact .inr ⟨(‹_ ∧ _›).1, (‹_ ∧ _›).2, rfl⟩
  · exact .inl rfl

/-! ### Tags (R125, R131) -/

theorem State.markTags_get (s : State) (which : TagEntry → Bool) (k : TagIx) :
    (s.markTags which).mem.tags[k] = (s.mem.tags[k]).mark which := tabTags_get _ k

theorem State.setTag_get (s : State) (t k : TagIx) (x : Tag) :
    (s.setTag t x).mem.tags[k] = if t = k then x else s.mem.tags[k] := getTag_set _ _ _ _

theorem State.ageTags_get (s : State) (k : TagIx) : s.ageTags.mem.tags[k] = (s.mem.tags[k]).aged := tabTags_get _ k

@[simp] theorem Tag.mark_isQuarantined (x : Tag) (which : TagEntry → Bool) :
    (x.mark which).isQuarantined = x.isQuarantined := by
  cases x with
  | waiting e => simp only [Tag.mark]; split <;> rfl
  | _ => rfl

theorem Tag.mark_waiting_iff {x : Tag} {which : TagEntry → Bool} {e' : TagEntry} : x.mark which = .waiting e' ↔
    ∃ e, x = .waiting e ∧ e' = if which e then { e with discard := true } else e := by
  cases x with
  | waiting e =>
    simp only [Tag.mark, Tag.waiting.injEq, exists_eq_left']
    split <;> simp [eq_comm]
  | _ => simp [Tag.mark]

/-! ### A half fails (R118, R119) -/

theorem State.failHalf_streams_get (s : State) (e : TagEntry) (ix : SlotIx) :
    (s.failHalf e).streams[ix] = if e.handle.ix? = some ix
      then (s.streams[ix]).setHalf e.half (((s.streams[ix]).half e.half).fail e.row) else s.streams[ix] := by
  unfold State.failHalf
  rw [State.markTags_streams]
  cases hix : e.handle.ix? with
  | none => simp
  | some jx =>
    rw [State.setStream_get]
    by_cases hj : jx = ix
    · subst hj; simp
    · simp [hj]

theorem State.failHalf_tags_get (s : State) (e : TagEntry) (k : TagIx) :
    (s.failHalf e).mem.tags[k] = (s.mem.tags[k]).mark fun e' => e'.sameRow e := by
  unfold State.failHalf
  rw [State.markTags_get]
  cases e.handle.ix? <;> rfl

/-- A half failed changes the tags of the memory read port and nothing else of it. -/
theorem State.failHalf_mem (s : State) (e : TagEntry) : (s.failHalf e).mem = { s.mem with
    tags := (s.failHalf e).mem.tags } := by
  unfold State.failHalf
  cases e.handle.ix? <;> rfl

/-- Of a stream a failed half changes only that half. -/
theorem State.failHalf_stream (s : State) (e : TagEntry) (ix : SlotIx) :
    ∃ h, (s.failHalf e).streams[ix] = (s.streams[ix]).setHalf e.half h := by
  rw [State.failHalf_streams_get]
  split
  · exact ⟨_, rfl⟩
  · exact ⟨_, (Stream.setHalf_half _ _).symm⟩

/-! ### A read timed out or in error (R118, R119, R133) -/

@[simp] theorem State.failTimedOut_streams (s : State) (e : TagEntry) :
    (s.failTimedOut e).streams = (s.failHalf e).streams := by
  unfold State.failTimedOut; split <;> simp

@[simp] theorem State.failTimedOut_mem (s : State) (e : TagEntry) : (s.failTimedOut e).mem = (s.failHalf e).mem := by
  unfold State.failTimedOut; split <;> simp

@[simp] theorem State.deliverError_streams (s : State) (e : TagEntry) :
    (s.deliverError e).streams = (s.failHalf e).streams := by
  unfold State.deliverError; split <;> simp

@[simp] theorem State.deliverError_mem (s : State) (e : TagEntry) : (s.deliverError e).mem = (s.failHalf e).mem := by
  unfold State.deliverError; split <;> simp

/-- All eight tags are QUARANTINED (R135). -/
def MemPort.allQuarantined (m : MemPort) : Prop := ∀ k : TagIx, (m.tags[k]).isQuarantined = true

theorem MemPort.all_iff (m : MemPort) :
    (allTags.all fun t => (m.tags[t]).isQuarantined) = true ↔ m.allQuarantined := by
  simp [MemPort.allQuarantined]

/-- The fetch state becomes STUCK exactly where all eight tags are QUARANTINED, and nothing else changes at the memory
read port (R135). -/
theorem State.checkStuck_cases (s : State) :
    (s.mem.allQuarantined ∧ s.checkStuck = ({ s with mem := { s.mem with fetchState := .stuck } } : State).postFetchStuck) ∨
      (¬ s.mem.allQuarantined ∧ s.checkStuck = s) := by
  unfold State.checkStuck
  by_cases h : s.mem.allQuarantined
  · exact .inl ⟨h, by rw [if_pos ((MemPort.all_iff _).2 h)]⟩
  · exact .inr ⟨h, by rw [if_neg fun e => h ((MemPort.all_iff _).1 e)]⟩

@[simp] theorem State.checkStuck_tags (s : State) : s.checkStuck.mem.tags = s.mem.tags := by
  obtain ⟨-, e⟩ | ⟨-, e⟩ := s.checkStuck_cases
  · rw [e, State.postFetchStuck_mem]
  · rw [e]

/-- What a timeout leaves of the streams: those it found, or those of the half failed. -/
theorem State.quarantine_streams (s : State) (t : TagIx) (e : TagEntry) : (s.quarantine t e).streams =
    if e.discard then s.streams else (s.failHalf e).streams := by
  unfold State.quarantine
  rw [State.checkStuck_streams]
  split
  · rfl
  · rw [State.failTimedOut_streams]
    unfold State.failHalf
    cases e.handle.ix? <;> rfl

/-- Of a stream a timeout changes at most one half. -/
theorem State.quarantine_stream (s : State) (t : TagIx) (e : TagEntry) (ix : SlotIx) :
    ∃ h, (s.quarantine t e).streams[ix] = (s.streams[ix]).setHalf e.half h := by
  rw [State.quarantine_streams]
  split
  · exact ⟨_, (Stream.setHalf_half _ _).symm⟩
  · exact s.failHalf_stream e ix

/-- What a timeout leaves of the tags: its own QUARANTINED, and of an unmarked one the half's other reads marked. -/
theorem State.quarantine_tags (s : State) (t : TagIx) (e : TagEntry) (k : TagIx) :
    (s.quarantine t e).mem.tags[k] = if t = k then .quarantined e
      else if e.discard then s.mem.tags[k] else (s.mem.tags[k]).mark fun e' => e'.sameRow e := by
  unfold State.quarantine
  rw [State.checkStuck_tags]
  by_cases hd : e.discard = true
  · rw [if_pos hd, State.setTag_get]; simp [hd]
  · rw [if_neg hd, State.failTimedOut_mem, State.failHalf_tags_get, State.setTag_get]
    by_cases hk : t = k
    · simp [hk, Tag.mark]
    · simp [hk, hd]

/-- A tag that times out at a line start is quarantined with its entry; any other tag waits (R133). -/
theorem State.timeoutTag_cases (s : State) (t : TagIx) :
    (∃ e, s.mem.tags[t] = .waiting e ∧ s.mem.timeout ≤ e.age ∧ s.timeoutTag t = s.quarantine t e) ∨
      ((∀ e, s.mem.tags[t] = .waiting e → ¬ s.mem.timeout ≤ e.age) ∧ s.timeoutTag t = s) := by
  unfold State.timeoutTag
  cases h : s.mem.tags[t] with
  | waiting e =>
    by_cases ha : s.mem.timeout ≤ e.age
    · exact .inl ⟨e, rfl, ha, by simp [ha]⟩
    · exact .inr ⟨fun e' he' => by cases he'; exact ha, by simp [ha]⟩
  | free => exact .inr ⟨by simp, rfl⟩
  | quarantined e => exact .inr ⟨by simp, rfl⟩

/-- Of a stream the timeouts of a line start change only halves. -/
theorem State.timeoutTag_stream (s : State) (t : TagIx) (ix : SlotIx) :
    (s.timeoutTag t).streams[ix] = s.streams[ix] ∨
      ∃ i h, (s.timeoutTag t).streams[ix] = (s.streams[ix]).setHalf i h := by
  obtain ⟨e, -, -, h⟩ | ⟨-, h⟩ := s.timeoutTag_cases t <;> rw [h]
  · obtain ⟨h, e'⟩ := s.quarantine_stream t e ix
    exact .inr ⟨_, _, e'⟩
  · exact .inl rfl

/-! ### A pick (R114) -/

theorem State.offer_streams_get (s : State) (t : TagIx) (k : Pick) (ix : SlotIx) : (s.offer t k).streams[ix] =
    if k.ix = ix then (s.streams[ix]).setHalf k.half { (s.streams[ix]).half k.half with
      requested := k.segment :: ((s.streams[ix]).half k.half).requested } else s.streams[ix] := by
  show (State.setStream _ k.ix _).streams[ix] = _
  rw [State.setStream_get]
  by_cases h : k.ix = ix
  · subst h; simp
  · simp [h, State.setTag]

theorem State.offer_tags_get (s : State) (t : TagIx) (k : Pick) (j : TagIx) : (s.offer t k).mem.tags[j] =
    if t = j then .waiting ⟨k.handle, k.half, k.row, k.segment, k.beats, false, 0, false⟩ else s.mem.tags[j] :=
  getTag_set _ _ _ _

/-! ### Lanes (R93) -/

theorem State.vacateLanes_get (s : State) (which : SlotIx → Bool) (i : Fin 6) : (s.vacateLanes which).lanes[i] =
    match s.lanes[i] with
    | some l => if allSlots.any (fun ix => l.ofSlot ix && which ix) then none else some l
    | none => none := tabLanes_get _ i

theorem State.fillLanes_get (s : State) (which : SlotIx → Bool) (i : Fin 6) : (s.fillLanes which).lanes[i] =
    (s.lanes[i]).map fun l =>
      if allSlots.any (fun ix => l.ofSlot ix && which ix) then { l with source := .fill } else l := tabLanes_get _ i

theorem Lane.ofSlot_iff {l : Lane} {ix : SlotIx} : l.ofSlot ix = true ↔ l.handle.ix? = some ix := by
  simp [Lane.ofSlot]

theorem TagEntry.ofSlot_iff {e : TagEntry} {ix : SlotIx} : e.ofSlot ix = true ↔ e.handle.ix? = some ix := by
  simp [TagEntry.ofSlot]

@[simp] theorem vacantLanes_get (i : Fin 6) : vacantLanes[i] = none := tabLanes_get _ i

end Sys2Proof.Machine
end

section
/-! PROOF. The laws of the raster and of OFF over every step (R68, R71, R72, R74, R75, R77, R78, R83, R89). -/

namespace Sys2Proof.Machine

/-- The laws of the raster and of OFF. -/
def State.rasterLaws (s : State) : Prop := RasterLaw s ∧ OffQuiet s

/-! ### What leaves the raster and the pins -/

/-- What is at rest in OFF stays so from one state to another: no batch comes to wait, no lane is taken, no stream
loaded. -/
def State.restsTo (s t : State) : Prop :=
  (s.commitQueue = [] → t.commitQueue = []) ∧ (∀ i : Fin 6, s.lanes[i] = none → t.lanes[i] = none) ∧
    ∀ ix : SlotIx, s.streams[ix].loaded = false → t.streams[ix].loaded = false

theorem State.restsTo_of_eq {s t : State} (hq : t.commitQueue = s.commitQueue) (hl : t.lanes = s.lanes)
    (hs : t.streams = s.streams) : s.restsTo t :=
  ⟨fun h => hq.trans h, fun i h => by rw [hl]; exact h, fun ix h => by rw [hs]; exact h⟩

theorem State.restsTo_of_loaded {s t : State} (hq : t.commitQueue = s.commitQueue) (hl : t.lanes = s.lanes)
    (hs : ∀ ix : SlotIx, t.streams[ix].loaded = s.streams[ix].loaded) : s.restsTo t :=
  ⟨fun h => hq.trans h, fun i h => by rw [hl]; exact h, fun ix h => (hs ix).trans h⟩

theorem State.restsTo_trans {s t u : State} (h : s.restsTo t) (h' : t.restsTo u) : s.restsTo u := by
  obtain ⟨h1, h2, h3⟩ := h
  obtain ⟨h1', h2', h3'⟩ := h'
  exact ⟨fun h => h1' (h1 h), fun i h => h2' i (h2 i h), fun ix h => h3' ix (h3 ix h)⟩

theorem rasterLaw_congr {s t : State} (hr : t.raster = s.raster) (hp : t.pins = s.pins) (h : RasterLaw s) :
    RasterLaw t := by
  simpa only [RasterLaw, hr, hp] using h

/-- What changes neither the raster nor the pins and leaves at rest what is at rest keeps both laws. -/
theorem State.rasterLaws_of_rests {s t : State} (hr : t.raster = s.raster) (hp : t.pins = s.pins)
    (hrest : s.restsTo t) (h : s.rasterLaws) : t.rasterLaws := by
  obtain ⟨law, quiet⟩ := h
  refine ⟨rasterLaw_congr hr hp law, fun ho => ?_⟩
  obtain ⟨hq, h1, h2, h3, h4, h5, hl, hs, hpins⟩ := quiet (hr ▸ ho)
  exact ⟨hrest.1 hq, hr ▸ h1, hr ▸ h2, hr ▸ h3, hr ▸ h4, hr ▸ h5, fun i => hrest.2.1 i (hl i),
    fun ix => hrest.2.2 ix (hs ix), by rw [hp, hr]; exact hpins⟩

/-- Out of OFF only the law of the raster speaks. -/
theorem State.rasterLaws_of_on {t : State} (ho : t.raster.output ≠ .off) (h : RasterLaw t) : t.rasterLaws :=
  ⟨h, fun e => absurd e ho⟩

/-! ### The law of the raster, part by part -/

/-- The events not yet taken are of the position reached, the counters lie inside the profile (R68, R71, R72). -/
def Raster.placed (r : Raster) : Prop :=
  r.profile.valid = true ∧ r.pixel < r.profile.hTotal ∧ r.line < r.profile.vTotal ∧
    ∀ e ∈ r.due, e ∈ r.profile.eventsAt r.line r.pixel

/-- HS, VS and DE stand at the levels of a raster position, and PD is 0 where DE is low (R74, R75). -/
def Pins.standAt (pins : Pins) (r : Raster) : Prop :=
  pins.hs = r.profile.hsAt r.pixel ∧ pins.vs = r.profile.vsAt r.line ∧
    pins.de = r.profile.activeAt r.line r.pixel ∧ (pins.de = false → pins.pd = 0)

/-- Out of OFF the law of the raster is the profile's, the position's, the pins' and the target's. -/
theorem rasterLaw_on {s : State} (ho : s.raster.output ≠ .off) : RasterLaw s ↔
    s.raster.placed ∧ s.pins.standAt s.raster ∧ s.raster.targetLaw ∧ s.raster.settle ≤ 2 := by
  constructor
  · rintro ⟨-, hon, hlive, hsync, hsettle⟩
    obtain ⟨hv, hq, hl, hd, hhs, hvs, hde, hpd⟩ := hon ho
    exact ⟨⟨hv, hq, hl, hd⟩, ⟨hhs, hvs, hde, hpd⟩, ⟨hlive, hsync⟩, hsettle⟩
  · rintro ⟨⟨hv, hq, hl, hd⟩, ⟨hhs, hvs, hde, hpd⟩, ⟨hlive, hsync⟩, hsettle⟩
    exact ⟨.inl hv, fun _ => ⟨hv, hq, hl, hd, hhs, hvs, hde, hpd⟩, hlive, hsync, hsettle⟩

/-- Events taken at a position leave the others of it. -/
theorem Raster.placed_took {r : Raster} (h : r.placed) (e : RasterEvent) : (r.took e).placed :=
  ⟨h.1, h.2.1, h.2.2.1, fun x hx => h.2.2.2 x (List.mem_of_mem_erase hx)⟩

/-- The frame turn moves the settle count, the target, the output and nothing else of the raster's position. -/
theorem Raster.turned_eq (r : Raster) : ∃ output target, r.turned =
    { r with settle := min (r.settle + 1) 2, target := target, output := output, linesBegun := 0 } := by
  unfold Raster.turned
  dsimp only
  split
  · exact ⟨_, _, rfl⟩
  · split <;> exact ⟨_, _, rfl⟩
  · exact ⟨_, _, rfl⟩

/-- The frame turn keeps the target's law, and the output is not OFF afterwards where it was not before (R73, R78). -/
theorem Raster.turned_targetLaw {r : Raster} (h : r.targetLaw) :
    r.turned.targetLaw ∧ (r.output ≠ .off → r.turned.output ≠ .off) := by
  obtain ⟨hlive, -⟩ := h
  cases ht : r.target with
  | none => simp [Raster.turned, Raster.targetLaw, ht]
  | syncOnly => simp [Raster.turned, Raster.targetLaw, ht]
  | live =>
    by_cases hn : min (r.settle + 1) 2 = 2
    · simp [Raster.turned, Raster.targetLaw, ht, hn]
    · simp [Raster.turned, Raster.targetLaw, ht, hn, hlive ht]

theorem Raster.placed_turned {r : Raster} (h : r.placed) : r.turned.placed := by
  obtain ⟨output, target, e⟩ := r.turned_eq
  rw [e]; exact h

theorem Pins.standAt_turned {pins : Pins} {r : Raster} (h : pins.standAt r) : pins.standAt r.turned := by
  obtain ⟨output, target, e⟩ := r.turned_eq
  rw [e]; exact h

/-! ### The pins driven (R74, R75) -/

@[simp] theorem State.atLineStart_raster (s : State) : s.atLineStart.raster = s.raster := by
  unfold State.atLineStart; split <;> rfl

/-- The pins driven stand at the levels of the position reached. -/
theorem State.pinsDriven_standAt (s : State) : s.pinsDriven.pins.standAt s.raster := by
  simp only [State.pinsDriven, State.positionPins, Pins.standAt, State.atLineStart_raster, true_and]
  intro h
  rw [h]; rfl

/-- The pins driven for a placed raster meet the law. -/
theorem State.pinsDriven_law {s : State} (ho : s.raster.output ≠ .off) (hp : s.raster.placed)
    (ht : s.raster.targetLaw) (hs : s.raster.settle ≤ 2) : s.pinsDriven.rasterLaws := by
  refine State.rasterLaws_of_on (by rwa [State.pinsDriven_raster]) ((rasterLaw_on (by rwa [State.pinsDriven_raster])).2 ?_)
  rw [State.pinsDriven_raster]
  exact ⟨hp, s.pinsDriven_standAt, ht, hs⟩

/-- A valid profile's totals are not 0 (R67, R68). -/
theorem Profile.totals_pos {t : Profile} (h : t.valid = true) : 0 < t.hTotal ∧ 0 < t.vTotal := by
  simp only [Profile.valid, Profile.inRange, Bool.and_eq_true, decide_eq_true_eq] at h
  omega

/-- The next position lies inside the profile, and the events emitted are its own (R71, R72). -/
theorem Raster.placed_advanced {r : Raster} (h : r.profile.valid = true) (hl : r.line < r.profile.vTotal) :
    r.advanced.placed := by
  obtain ⟨hh, hv⟩ := Profile.totals_pos h
  refine ⟨h, ?_, ?_, fun e he => he⟩
  · show (if decide (r.profile.hTotal ≤ r.pixel + 1) = true then 0 else r.pixel + 1) < r.profile.hTotal
    split <;> simp_all
  · show (if decide (r.profile.hTotal ≤ r.pixel + 1) = true then
      if r.profile.vTotal ≤ r.line + 1 then 0 else r.line + 1 else r.line) < r.profile.vTotal
    split
    · split <;> omega
    · exact hl

/-! ### A command taken before a request (R79, R84; log 31) -/

/-- A command that meets the raster generator sets a target only where its rule does, and none in OFF (R81, R82). -/
theorem State.targetAfter_law {s : State} (h : s.raster.targetLaw) (p : Port) (c : QueuedCommand) :
    ({ s.raster with target := s.targetAfter p c } : Raster).targetLaw ∧
      (s.raster.output = .off → s.targetAfter p c = s.raster.target) := by
  unfold State.targetAfter
  split
  · cases ho : s.raster.output <;> simp_all [Raster.targetLaw]
  · split
    · cases ho : s.raster.output <;> simp_all [Raster.targetLaw]
    · exact ⟨h, fun _ => rfl⟩

/-- What a request makes of the raster: at most the target moves, by its law, and not in OFF. -/
theorem State.requested_target {s : State} (h : s.raster.targetLaw) : ∃ target,
    s.requested.raster = { s.raster with target := target } ∧ s.requested.raster.targetLaw ∧
      (s.raster.output = .off → target = s.raster.target) := by
  obtain ⟨target, e, rfl | ⟨p, c, rfl⟩⟩ := s.requested_raster
  · exact ⟨_, e, e ▸ h, fun _ => rfl⟩
  · exact ⟨_, e, e ▸ (State.targetAfter_law h p c).1, (State.targetAfter_law h p c).2⟩

theorem State.requested_rests (s : State) : s.restsTo s.requested :=
  State.restsTo_of_eq (by simp) (by simp) (by simp)

/-- A command taken before a request keeps both laws. -/
theorem State.rasterLaws_requested {s : State} (h : s.rasterLaws) : s.requested.rasterLaws := by
  obtain ⟨law, quiet⟩ := h
  have hlaw : s.raster.targetLaw := ⟨law.2.2.1, law.2.2.2.1⟩
  obtain ⟨target, e, ht, hoff⟩ := State.requested_target hlaw
  by_cases ho : s.raster.output = .off
  · refine State.rasterLaws_of_rests ?_ (by simp) s.requested_rests ⟨law, quiet⟩
    rw [e, hoff ho]
  · obtain ⟨hp, hpins, -, hsettle⟩ := (rasterLaw_on ho).1 law
    have ho' : s.requested.raster.output ≠ .off := by rwa [State.requested_output]
    refine State.rasterLaws_of_on ho' ((rasterLaw_on ho').2 ⟨?_, ?_, ht, ?_⟩) <;> rw [e]
    · exact hp
    · rw [State.requested_pins]; exact hpins
    · exact hsettle

/-! ### The parts of an act -/

/-- Batches applied load no stream and take no lane (R46). -/
theorem Applied.rests {s t : State} {stops clears : SlotIx → Prop} (h : Applied s t stops clears) :
    (∀ i : Fin 6, s.lanes[i] = none → t.lanes[i] = none) ∧
      ∀ ix : SlotIx, s.streams[ix].loaded = false → t.streams[ix].loaded = false := by
  refine ⟨fun i hi => ?_, fun ix hx => ?_⟩
  · have := h.lanes i
    rw [hi] at this
    exact this
  · rw [← Bool.not_eq_true, h.loaded ix, hx]
    exact fun hc => Bool.noConfusion hc.1

theorem State.applyQueue_rests (s : State) : s.restsTo s.applyQueue.1 :=
  ⟨fun _ => by simp, s.applyQueue_applied.rests.1, s.applyQueue_applied.rests.2⟩

/-- Streams stopped are not loaded, and no lane is taken (R93, R108). -/
theorem State.stopStreams_rests (s : State) (which : SlotIx → Bool) : s.restsTo (s.stopStreams which) := by
  refine ⟨fun h => by simpa using h, fun i hi => ?_, fun ix hx => ?_⟩
  · have := s.stopStreams_lanes which i
    rw [hi] at this
    exact this
  · rw [State.stopStreams_streams, if_neg fun hc => Bool.noConfusion (hx.symm.trans hc.2)]
    exact hx

theorem State.streamsOff_loaded (s : State) (ix : SlotIx) : s.streamsOff.streams[ix].loaded = false := by
  rw [State.streamsOff_streams]
  split
  · rfl
  · exact eq_false_of_ne_true ‹_›

theorem State.failHalf_loaded (s : State) (e : TagEntry) (ix : SlotIx) :
    (s.failHalf e).streams[ix].loaded = s.streams[ix].loaded := by
  obtain ⟨h, e'⟩ := s.failHalf_stream e ix
  rw [e', Stream.setHalf_loaded]

theorem State.quarantine_rests (s : State) (t : TagIx) (e : TagEntry) : s.restsTo (s.quarantine t e) :=
  State.restsTo_of_loaded (by simp) (by simp) fun ix => by
    obtain ⟨h, e'⟩ := s.quarantine_stream t e ix
    rw [e', Stream.setHalf_loaded]

theorem State.suspend_rests (s : State) (h : Handle) : s.restsTo (s.suspend h) := by
  obtain e | ⟨ix, o, w, -, -, -, e⟩ := s.suspend_cases h <;> rw [e]
  · exact State.restsTo_of_eq rfl rfl rfl
  · exact State.restsTo_trans
      (State.stopStreams_rests { s with table := s.table.setBody ix (.opened o .suspended w) } fun i => i == ix)
      (State.restsTo_of_eq (State.postSuspended_commitQueue _ _ _ _) (State.postSuspended_lanes _ _ _ _)
        (State.postSuspended_streams _ _ _ _))

/-- RESET_FETCH loads no stream and fills no vacant lane (R93, R123). -/
theorem State.resetFetch_rests (s : State) : s.restsTo s.resetFetch := by
  refine ⟨fun h => by simpa using h, fun i hi => ?_, fun ix hx => ?_⟩
  · show (State.fillLanes _ _).lanes[i] = none
    rw [State.fillLanes_get]
    simp [hi]
  · show ((tabSlots fun ix => s.streams[ix].fetchReset)[ix]).loaded = false
    rw [Stream.not_loaded_iff] at hx
    rw [tabSlots_get, Stream.not_loaded_iff, Stream.fetchReset, hx]
    rfl

/-! ### Every act -/

/-- OUTPUT_STOP's state is at rest (R83). -/
theorem State.stopOutput_laws {s : State} (h : RasterLaw s) : s.stopOutput.rasterLaws := by
  have hr : s.stopOutput.raster = s.raster.stopped := by simp [State.stopOutput, State.enterOff]
  have hp : s.stopOutput.pins = s.raster.profile.offPins := by simp [State.stopOutput, State.enterOff]
  have hq : s.stopOutput.commitQueue = [] := by simp [State.stopOutput]
  have hl : ∀ i : Fin 6, s.stopOutput.lanes[i] = none := fun i => by
    have h2 := (State.applyQueue_rests s.enterOff).2.1 i (vacantLanes_get i)
    have h3 := (State.stopStreams_rests s.enterOff.applyQueue.1 fun _ => true).2.1 i h2
    rw [show s.stopOutput.lanes = s.enterOff.applyQueue.1.streamsOff.lanes by simp [State.stopOutput]]
    exact h3
  have hs : ∀ ix : SlotIx, s.stopOutput.streams[ix].loaded = false := fun ix => by
    rw [show s.stopOutput.streams = s.enterOff.applyQueue.1.streamsOff.streams by simp [State.stopOutput]]
    exact State.streamsOff_loaded _ ix
  refine ⟨⟨?_, fun ho => ?_, ?_, ?_, ?_⟩, fun _ => ⟨hq, ?_, ?_, ?_, ?_, ?_, hl, hs, ?_⟩⟩ <;>
    simp only [hr, hp, Raster.stopped] at *
  · exact h.1
  · exact absurd rfl ho
  · simp
  · simp
  · omega

/-- Every command keeps both laws. -/
theorem CommandAct.rasterLaws {p : Port} {u v : State} (h : CommandAct p u v) (hu : u.rasterLaws) : v.rasterLaws := by
  have same : ∀ {v : State}, v.raster = u.raster → v.pins = u.pins → u.restsTo v → v.rasterLaws :=
    fun hr hp hs => State.rasterLaws_of_rests hr hp hs hu
  have target : ∀ {tg : PendingTarget}, u.raster.output ≠ .off →
      ({ u.raster with target := tg } : Raster).targetLaw → (u.setTarget tg).rasterLaws := fun {tg} ho ht => by
    obtain ⟨hp, hpins, -, hs⟩ := (rasterLaw_on ho).1 hu.1
    have ho' : (u.setTarget tg).raster.output ≠ .off := ho
    exact State.rasterLaws_of_on ho' ((rasterLaw_on ho').2 ⟨hp, hpins, ht, hs⟩)
  cases h with
  | nothing => exact hu
  | staged e hd hl hr hn => exact same (by simp) (by simp) (State.restsTo_of_eq (by simp) (by simp) (by simp))
  | opened ix w vis pl hw hl hf =>
    exact same (by simp) (by simp) (State.restsTo_of_eq (by simp) (by simp) (by simp))
  | committed h =>
    simp only [State.acceptCommit]
    split
    · refine same (by simp) (by simp) ?_
      obtain ⟨hl, hs⟩ := (u.enqueue p).applyQueue_applied.rests
      exact ⟨fun _ => by simp, fun i hi => hl i (by simpa using hi), fun ix hx => hs ix (by simpa using hx)⟩
    · exact State.rasterLaws_of_on ‹_› (rasterLaw_congr (by simp) (by simp) hu.1)
  | abandoned => exact same (by simp) (by simp) (State.restsTo_of_eq (by simp) (by simp) (by simp))
  | noticesTaken => exact same (by simp) (by simp) (State.restsTo_of_eq (by simp) (by simp) (by simp))
  | started ho hv =>
    obtain ⟨hh, hvt⟩ := Profile.totals_pos hv
    refine State.rasterLaws_of_rests (s := ({ u with raster := u.raster.started } : State).pinsDriven) ?_ ?_ ?_ ?_
    · simp [State.startOutput]
    · simp [State.startOutput]
    · exact State.restsTo_of_eq (by simp [State.startOutput]) (by simp [State.startOutput]) (by simp [State.startOutput])
    · exact State.pinsDriven_law (by simp [Raster.started]) ⟨hv, hh, hvt, fun e he => he⟩
        (by simp [Raster.targetLaw, Raster.started]) (by simp [Raster.started])
  | liveAsked ho => exact target (by simp [ho]) (by simp [Raster.targetLaw, ho])
  | quietAsked ho => exact target (by simp [ho]) (by simp [Raster.targetLaw, ho])
  | targetCleared =>
    by_cases ho : u.raster.output = .off
    · have ht : u.raster.target = .none := (hu.2 ho).2.2.2.2.1
      rw [← ht, State.setTarget_self]
      exact hu
    · exact target ho (by simp [Raster.targetLaw])
  | stopped ho => exact State.stopOutput_laws hu.1
  | retimed prof ho hv hl =>
    obtain ⟨hq, h1, h2, h3, h4, h5, hlanes, hs, -⟩ := hu.2 ho
    obtain ⟨-, -, hlive, hsync, hsettle⟩ := hu.1
    exact ⟨⟨.inl hv, fun h => absurd ho h, hlive, hsync, hsettle⟩, fun _ => ⟨hq, h1, h2, h3, h4, h5, hlanes, hs, rfl⟩⟩
  | timeoutSet n h1 h2 => exact same rfl rfl (State.restsTo_of_eq rfl rfl rfl)
  | fetchReset => exact same (by simp) (by simp) u.resetFetch_rests

/-- In OFF no event stands emitted, so an event due is taken out of OFF. -/
theorem State.on_of_due {s : State} (h : OffQuiet s) {e : RasterEvent} (he : e ∈ s.raster.due) :
    s.raster.output ≠ .off := fun ho => by
  have : s.raster.due = [] := (h ho).2.2.2.1
  simp [this] at he

theorem State.mem_due_of_nextEvent {s : State} {e : RasterEvent} (h : s.nextEvent = some e) : e ∈ s.raster.due :=
  List.mem_of_mem_head? h

theorem Raster.mem_due_of_takeable {r : Raster} (h : r.takeable .frameTurn = true) : RasterEvent.frameTurn ∈ r.due := by
  simp only [Raster.takeable, Bool.or_eq_true, beq_iff_eq, Bool.and_eq_true, List.contains_iff_mem] at h
  obtain h | ⟨-, h⟩ := h
  · exact List.mem_of_mem_head? h
  · exact h

/-- An event of the position taken, and nothing of the raster but the event and the count of begun lines. -/
theorem State.rasterLaws_took {s t : State} (h : s.rasterLaws) {e : RasterEvent} (he : e ∈ s.raster.due) (n : Nat)
    (hr : t.raster = { s.raster.took e with linesBegun := n }) (hp : t.pins = s.pins) : t.rasterLaws := by
  have ho := State.on_of_due h.2 he
  obtain ⟨hplaced, hpins, ht, hs⟩ := (rasterLaw_on ho).1 h.1
  have ho' : t.raster.output ≠ .off := by rw [hr]; exact ho
  refine State.rasterLaws_of_on ho' ((rasterLaw_on ho').2 ?_)
  rw [hr, hp]
  exact ⟨Raster.placed_took hplaced e, hpins, ht, hs⟩

/-- Every act keeps both laws. -/
theorem Act.rasterLaws {s t : State} (h : Act s t) (hs : s.rasterLaws) : t.rasterLaws := by
  have same : ∀ {v : State}, v.raster = s.raster → v.pins = s.pins → s.restsTo v → v.rasterLaws :=
    fun hr hp hrest => State.rasterLaws_of_rests hr hp hrest hs
  cases h with
  | wait => exact hs
  | reset =>
    refine ⟨⟨.inr rfl, fun h => absurd rfl h, by simp [State.reset, Raster.reset], by simp [State.reset, Raster.reset],
      by simp [State.reset, Raster.reset]⟩, fun _ => ⟨rfl, rfl, rfl, rfl, rfl, rfl,
      (by decide : ∀ i : Fin 6, State.reset.lanes[i] = none),
      (by decide : ∀ ix : SlotIx, State.reset.streams[ix].loaded = false), rfl⟩⟩
  | frame hi h =>
    obtain ⟨p, l, u, rfl, rfl | ⟨rfl, -⟩⟩ := exec_frame hi h
    · exact same (by simp) (by simp) (State.restsTo_of_eq (by simp) (by simp) (by simp))
    · exact State.rasterLaws_of_rests (by simp) (by simp) (State.restsTo_of_eq (by simp) (by simp) (by simp))
        (State.rasterLaws_requested hs)
  | command p c r hc h =>
    have hu : (s.takeHead p).rasterLaws :=
      same (by simp) (by simp) (State.restsTo_of_eq (by simp) (by simp) (by simp))
    exact State.rasterLaws_of_rests (by simp) (by simp) (State.restsTo_of_eq (by simp) (by simp) (by simp))
      (h.rasterLaws hu)
  | frameTurn h =>
    have hf := Raster.mem_due_of_takeable h
    have ho := State.on_of_due hs.2 hf
    obtain ⟨hplaced, hpins, ht, -⟩ := (rasterLaw_on ho).1 hs.1
    obtain ⟨htl, hon⟩ := Raster.turned_targetLaw (r := s.raster.took .frameTurn) ht
    refine State.rasterLaws_of_on (hon ho) ((rasterLaw_on (hon ho)).2 ⟨?_, ?_, htl, ?_⟩)
    · exact Raster.placed_turned (Raster.placed_took hplaced _)
    · exact Pins.standAt_turned (r := s.raster.took .frameTurn) hpins
    · obtain ⟨o, tg, e⟩ := (s.raster.took .frameTurn).turned_eq
      show (s.raster.took .frameTurn).turned.settle ≤ 2
      rw [e]
      exact Nat.min_le_right _ _
  | turnTaken turn hg h =>
    obtain ⟨-, e⟩ | ⟨ho, e⟩ := State.takeTurn_cases s turn <;> rw [e]
    · exact same rfl rfl (State.restsTo_of_eq rfl rfl rfl)
    · exact State.rasterLaws_of_on (by simpa using ho) (rasterLaw_congr (by simp) (by simp) hs.1)
  | suspension r rs h =>
    exact same (by simp) (by simp) (State.restsTo_trans (State.restsTo_of_eq (by simp) (by simp) (by simp))
      (s.dropRequest.suspend_rests r))
  | abandon p hg => exact same (by simp) (by simp) (State.restsTo_of_eq (by simp) (by simp) (by simp))
  | lineStart l h =>
    refine State.rasterLaws_took hs (State.mem_due_of_nextEvent h) s.raster.linesBegun
      (State.lineStartAct_raster _) ?_
    exact State.lineStartAct_keeps (P := fun x => x.pins = s.pins) (by simp) fun s t h => by simpa using h
  | tagTimeout k e h ht => exact same (by simp) (by simp) (s.quarantine_rests k _)
  | activeLineStart l h =>
    have hd := State.mem_due_of_nextEvent h
    have ho := State.on_of_due hs.2 hd
    obtain ⟨hplaced, -, ht, hsettle⟩ := (rasterLaw_on ho).1 hs.1
    exact State.pinsDriven_law (s := (s.tookEvent _).activeLineStartAct l) ho (Raster.placed_took hplaced _) ht hsettle
  | activeLineEnd l h =>
    exact State.rasterLaws_took hs (State.mem_due_of_nextEvent h) s.raster.linesBegun (by simp; rfl) (by simp)
  | activeEnd h =>
    have took : (s.tookEvent .activeEnd).rasterLaws :=
      State.rasterLaws_took hs (State.mem_due_of_nextEvent h) s.raster.linesBegun rfl rfl
    have ho : s.raster.output ≠ .off := State.on_of_due hs.2 (State.mem_due_of_nextEvent h)
    obtain e | e := (s.tookEvent .activeEnd).activeEndAct_raster
    · exact State.rasterLaws_of_on (by rw [e]; exact ho) (rasterLaw_congr e (by simp) took.1)
    · exact State.rasterLaws_of_on (by rw [e, State.requested_output]; exact ho)
        (rasterLaw_congr e (by simp) (State.rasterLaws_requested took).1)
  | pick k d pick ho hc hk hb =>
    exact State.rasterLaws_of_on (by simp [ho]) (rasterLaw_congr (by simp) (by simp) hs.1)
  | delivered k e all he hd h =>
    obtain rfl | ⟨ix, seg, ld, -, -, -, -, rfl⟩ := State.deliver_next h
    · exact same (by simp) (by simp) (State.restsTo_of_eq (by simp) (by simp) (by simp))
    · refine same (by simp) (by simp) (State.restsTo_of_loaded (by simp) (by simp) fun jx => ?_)
      rw [State.setStream_get]
      split
      · next hj => subst hj; simp
      · simp
  | failed k e he hd =>
    refine same (by simp) (by simp) (State.restsTo_of_loaded (by simp) (by simp) fun jx => ?_)
    rw [State.deliverError_streams, State.failHalf_loaded]
    simp
  | edge ho hd hu =>
    rename_i u
    have law : u.raster.placed ∧ u.raster.targetLaw ∧ u.raster.settle ≤ 2 ∧ u.raster.output ≠ .off := by
      obtain rfl | rfl := hu
      · obtain ⟨hp, -, ht, hn⟩ := (rasterLaw_on ho).1 hs.1
        exact ⟨hp, ht, hn, ho⟩
      · have ho' : s.requested.raster.output ≠ .off := by rwa [State.requested_output]
        obtain ⟨hp, -, ht, hn⟩ := (rasterLaw_on ho').1 (State.rasterLaws_requested hs).1
        exact ⟨hp, ht, hn, ho'⟩
    obtain ⟨⟨hv, -, hl, -⟩, ht, hn, ho'⟩ := law
    exact State.pinsDriven_law (s := { u with raster := u.raster.advanced }) ho' (Raster.placed_advanced hv hl) ht hn
  | _ => exact same (by simp) (by simp) (State.restsTo_of_eq (by simp) (by simp) (by simp))

/-- Settles O55: every act keeps both laws. -/
theorem rasterLawsKept : Obligations.RasterLawsKept := fun _ _ hr ho h =>
  step_keeps (P := State.rasterLaws) (fun _ _ => Act.rasterLaws) (fun _ _ hs => hs) h ⟨hr, ho⟩

end Sys2Proof.Machine
end

section
/-! PROOF. The capacities and the ranges over every step (R23, R43, R45, R104, R121, R125, R132, R146, R148, R157). The
law is taken apart by what it speaks of: the ports, the batches, the fetch side, the suspension requests. -/

namespace Sys2Proof.Machine

/-! ### The ports: queues and notices (R146, R148, R157) -/

/-- Port A holds no RECLAIMED and Port B no SPURIOUS (R36, R136, R157). -/
def State.noticesOk (s : State) : Prop :=
  (∀ ix : SlotIx, s.linkA.notices.reclaimed[ix] = none) ∧ s.linkB.notices.spurious = false

/-- Only notices are posted from one state to the other, and none that a port never holds. -/
def State.postsTo (s t : State) : Prop :=
  (∀ q, ∃ n, t.link q = { s.link q with notices := n }) ∧ t.serving = s.serving ∧ (s.noticesOk → t.noticesOk)

theorem State.postsTo_of_eq {s t : State} (ha : t.linkA = s.linkA) (hb : t.linkB = s.linkB)
    (hs : t.serving = s.serving) : s.postsTo t := by
  refine ⟨fun q => ⟨(s.link q).notices, ?_⟩, hs, fun h => ?_⟩
  · cases q
    · exact ha
    · exact hb
  · simpa only [State.noticesOk, ha, hb] using h

theorem State.postsTo_trans {s t u : State} (h : s.postsTo t) (h' : t.postsTo u) : s.postsTo u := by
  obtain ⟨hl, hs, hn⟩ := h
  obtain ⟨hl', hs', hn'⟩ := h'
  refine ⟨fun q => ?_, hs'.trans hs, fun h => hn' (hn h)⟩
  obtain ⟨n, e⟩ := hl q
  obtain ⟨n', e'⟩ := hl' q
  exact ⟨n', by rw [e', e]⟩

/-- A posting that leaves Port A's RECLAIMED places and Port B's SPURIOUS place, or empties them. -/
theorem State.postsTo_post (s : State) (p : Port) {f : Notices → Notices}
    (ha : p = .a → ∀ n : Notices, (∀ ix : SlotIx, n.reclaimed[ix] = none) → ∀ ix : SlotIx, (f n).reclaimed[ix] = none)
    (hb : p = .b → ∀ n : Notices, n.spurious = false → (f n).spurious = false) : s.postsTo (s.post p f) := by
  refine ⟨fun q => ?_, State.post_serving _ _ _, fun ⟨h1, h2⟩ => ?_⟩
  · rw [State.post_link_if]
    split
    · exact ⟨_, rfl⟩
    · exact ⟨(s.link q).notices, rfl⟩
  · cases p with
    | a => exact ⟨ha rfl _ h1, h2⟩
    | b => exact ⟨h1, hb rfl _ h2⟩

theorem State.postsTo_postOutput (s : State) (o : OutputState) : s.postsTo (s.postOutput o) := by
  unfold State.postOutput
  refine State.postsTo_trans (State.postsTo_post s .a ?_ ?_) (State.postsTo_post _ .b ?_ ?_) <;> exact fun _ _ h => h

theorem State.postsTo_postFetchStuck (s : State) : s.postsTo s.postFetchStuck := by
  unfold State.postFetchStuck
  refine State.postsTo_trans (State.postsTo_post s .a ?_ ?_) (State.postsTo_post _ .b ?_ ?_) <;> exact fun _ _ h => h

theorem State.postsTo_postFetchFault (s : State) (p : Port) (h : Handle) (cause : FaultCause) :
    s.postsTo (s.postFetchFault p h cause) := by
  unfold State.postFetchFault
  split
  · exact State.postsTo_post s p (fun _ _ h => h) fun _ _ h => h
  · exact State.postsTo_of_eq rfl rfl rfl

theorem State.postsTo_checkStuck (s : State) : s.postsTo s.checkStuck := by
  obtain ⟨-, e⟩ | ⟨-, e⟩ := s.checkStuck_cases <;> rw [e]
  · exact State.postsTo_trans (State.postsTo_of_eq rfl rfl rfl) (State.postsTo_postFetchStuck _)
  · exact State.postsTo_of_eq rfl rfl rfl

theorem State.postsTo_failTimedOut (s : State) (e : TagEntry) : s.postsTo (s.failTimedOut e) := by
  have hf : s.postsTo (s.failHalf e) := State.postsTo_of_eq (by simp) (by simp) (by simp)
  unfold State.failTimedOut
  split
  · exact State.postsTo_trans hf (State.postsTo_postFetchFault _ _ _ _)
  · exact hf

theorem State.postsTo_deliverError (s : State) (e : TagEntry) : s.postsTo (s.deliverError e) := by
  have hf : s.postsTo (s.failHalf e) := State.postsTo_of_eq (by simp) (by simp) (by simp)
  unfold State.deliverError
  split
  · exact State.postsTo_trans hf (State.postsTo_postFetchFault _ _ _ _)
  · exact hf

theorem State.postsTo_quarantine (s : State) (t : TagIx) (e : TagEntry) : s.postsTo (s.quarantine t e) := by
  have hs : s.postsTo (s.setTag t (.quarantined e)) := State.postsTo_of_eq rfl rfl rfl
  unfold State.quarantine
  refine State.postsTo_trans ?_ (State.postsTo_checkStuck _)
  split
  · exact hs
  · exact State.postsTo_trans hs (State.postsTo_failTimedOut _ e)

theorem State.postsTo_timeoutTag (s : State) (t : TagIx) : s.postsTo (s.timeoutTag t) := by
  obtain ⟨e, -, -, h⟩ | ⟨-, h⟩ := s.timeoutTag_cases t <;> rw [h]
  · exact s.postsTo_quarantine t e
  · exact State.postsTo_of_eq rfl rfl rfl

theorem State.postsTo_lineStartAct (s : State) : s.postsTo s.lineStartAct :=
  State.lineStartAct_keeps (P := fun x => s.postsTo x) (State.postsTo_of_eq rfl rfl rfl)
    fun _ t h => State.postsTo_trans h (State.postsTo_timeoutTag _ t)

theorem State.postsTo_applyEntry (s : State) (e : Entry) : s.postsTo (s.applyEntry e) := by
  obtain ⟨ha, reclaimed, -, hb⟩ := s.applyEntry_links e
  refine ⟨fun q => ?_, by simp, fun ⟨h1, h2⟩ => ⟨by rw [ha]; exact h1, by rw [hb]; exact h2⟩⟩
  cases q
  · exact ⟨s.linkA.notices, ha⟩
  · exact ⟨_, hb⟩

theorem State.postsTo_applyQueue (s : State) : s.postsTo s.applyQueue.1 := by
  refine State.applyQueue_keeps (P := fun x => s.postsTo x) s (State.postsTo_of_eq rfl rfl rfl)
    (fun u e h => State.postsTo_trans h (u.postsTo_applyEntry e)) (fun u p tk h => ?_)
    fun u h => State.postsTo_trans h (State.postsTo_of_eq rfl rfl rfl)
  refine State.postsTo_trans (State.postsTo_trans (u := u.setStaging p { u.staging p with appliedTicket := tk }) h
    (State.postsTo_of_eq (State.setStaging_linkA _ _ _) (State.setStaging_linkB _ _ _)
      (State.setStaging_serving _ _ _))) ?_
  unfold State.postApplied
  refine State.postsTo_post _ p ?_ ?_ <;> exact fun _ _ h => h

theorem State.postsTo_stopOutput (s : State) : s.postsTo s.stopOutput := by
  have h1 : s.postsTo s.enterOff := State.postsTo_of_eq rfl rfl rfl
  have h2 := State.postsTo_trans h1 s.enterOff.postsTo_applyQueue
  have h3 : s.postsTo s.enterOff.applyQueue.1.streamsOff :=
    State.postsTo_trans h2 (State.postsTo_of_eq (by simp) (by simp) (by simp))
  exact State.postsTo_trans h3 (State.postsTo_postOutput _ _)

theorem State.postsTo_suspend (s : State) (h : Handle) : s.postsTo (s.suspend h) := by
  obtain e | ⟨ix, o, w, -, -, -, e⟩ := s.suspend_cases h <;> rw [e]
  · exact State.postsTo_of_eq rfl rfl rfl
  · have h1 : s.postsTo ({ s with table := s.table.setBody ix (.opened o .suspended w) } : State) :=
      State.postsTo_of_eq rfl rfl rfl
    have h2 := State.postsTo_trans h1 (State.postsTo_of_eq (State.stopStream_linkA _ ix) (State.stopStream_linkB _ ix)
      (State.stopStream_serving _ ix))
    refine State.postsTo_trans h2 (State.postsTo_post _ o ?_ ?_) <;> exact fun _ _ h => h

theorem State.postsTo_takeTurn (s : State) (turn : PendingTurn) : s.postsTo (s.takeTurn turn) := by
  obtain ⟨-, e⟩ | ⟨-, e⟩ := s.takeTurn_cases turn <;> rw [e]
  · exact State.postsTo_of_eq rfl rfl rfl
  · have h1 : s.postsTo ({ s with turn := none } : State) := State.postsTo_of_eq rfl rfl rfl
    have h2 := State.postsTo_trans h1 (State.postsTo_applyQueue _)
    refine State.postsTo_trans (State.postsTo_trans h2 ?_) (State.postsTo_of_eq (State.closeTurn_linkA _ _ _)
      (State.closeTurn_linkB _ _ _) (State.closeTurn_serving _ _ _))
    unfold State.postTurn
    split
    · exact State.postsTo_postOutput _ _
    · exact State.postsTo_of_eq rfl rfl rfl

/-- No command posts what a port never holds, or moves a queue, before its response is placed. -/
theorem CommandAct.postsTo {p : Port} {u v : State} (h : CommandAct p u v) : u.postsTo v := by
  have same : ∀ {v : State}, v.linkA = u.linkA → v.linkB = u.linkB → v.serving = u.serving → u.postsTo v :=
    State.postsTo_of_eq
  cases h with
  | committed h =>
    simp only [State.acceptCommit]
    have he : u.postsTo (u.enqueue p) := same (by simp) (by simp) (by simp)
    split
    · exact State.postsTo_trans he (State.postsTo_applyQueue _)
    · exact he
  | noticesTaken => exact State.postsTo_post u p (fun _ _ _ ix => by simp [Notices.empty]) fun _ _ _ => rfl
  | started ho hv =>
    refine State.postsTo_trans (t := ({ u with raster := u.raster.started } : State).pinsDriven) (same ?_ ?_ ?_)
      (State.postsTo_postOutput _ _) <;> simp
  | stopped ho => exact u.postsTo_stopOutput
  | _ => exact same (by simp) (by simp) (by simp)

/-! ### The link frames of a port -/

/-- What a moment of a link frame leaves of its port: a queue in its bounds, no response more, the notices it found or
none. -/
def LinkPort.follows (l l' : LinkPort) : Prop :=
  (l.commands.length ≤ 4 → l'.commands.length ≤ 4) ∧ l'.responses.length ≤ l.responses.length ∧
    (l'.notices = l.notices ∨ l'.notices = Notices.empty)

theorem LinkPort.follows_of_eq {l l' : LinkPort} (hc : l'.commands = l.commands) (hr : l'.responses = l.responses)
    (hn : l'.notices = l.notices) : l.follows l' := ⟨fun h => hc ▸ h, by rw [hr], .inl hn⟩

theorem LinkPort.endCommand_follows (l : LinkPort) (bytes : List Byte) : l.follows (l.endCommand bytes) := by
  unfold LinkPort.endCommand
  split
  · unfold LinkPort.queued
    split
    · exact LinkPort.follows_of_eq rfl rfl rfl
    · rename_i hq
      refine ⟨fun _ => ?_, Nat.le_refl _, .inl rfl⟩
      simp only [List.length_append, List.length_singleton]
      simp only [Config.queueCommands] at hq
      omega
  · exact LinkPort.follows_of_eq rfl rfl rfl

theorem LinkPort.endRead_follows (c : Capture) (bytes : List Byte) (l : LinkPort) :
    l.follows (LinkPort.endRead c bytes l) := by
  unfold LinkPort.endRead
  split
  · split
    · exact ⟨fun h => h, by simp, .inl rfl⟩
    · exact LinkPort.follows_of_eq rfl rfl rfl
  · exact LinkPort.follows_of_eq rfl rfl rfl

theorem LinkPort.endStatus_follows (c : Capture) (bytes : List Byte) (l : LinkPort) :
    l.follows (LinkPort.endStatus c bytes l) := by
  unfold LinkPort.endStatus
  split <;> exact LinkPort.follows_of_eq rfl rfl rfl

theorem LinkPort.endLinkReset_follows (l : LinkPort) (bytes : List Byte) : l.follows (l.endLinkReset bytes) := by
  unfold LinkPort.endLinkReset
  split
  · exact ⟨fun _ => by simp [LinkPort.resetLink], by simp [LinkPort.resetLink], .inr rfl⟩
  · exact LinkPort.follows_of_eq rfl rfl rfl

/-- A moment of a frame leaves its port as the end of its kind does. -/
theorem frameStep_follows {act : Capture → List Byte → LinkPort → LinkPort}
    (ha : ∀ c bytes l, LinkPort.follows l (act c bytes l)) (p : Port) (kind : Byte) (capture : LinkPort → Capture)
    (m : Moment) (s : State) : ∃ l, (s.link p).follows l ∧ frameStep p kind capture act m s = s.setLink p l := by
  have same : (s.link p).follows (s.link p) := LinkPort.follows_of_eq rfl rfl rfl
  cases m with
  | fall =>
    unfold frameStep State.csFall
    dsimp only
    split
    · exact ⟨_, same, (s.setLink_link p).symm⟩
    · refine ⟨_, ?_, rfl⟩
      unfold LinkPort.fall
      split <;> exact LinkPort.follows_of_eq rfl rfl rfl
  | byte0 =>
    refine ⟨_, ?_, rfl⟩
    unfold LinkPort.kindRead
    split <;> exact LinkPort.follows_of_eq rfl rfl rfl
  | rise bits =>
    refine ⟨_, ?_, rfl⟩
    unfold LinkPort.rise
    split
    · split
      · exact ha _ _ _
      · exact same
    · exact same

/-- A frame row leaves its port in its bounds, after a command taken before a link reset or not. -/
theorem exec_frame_follows {i : Instr} {m : Moment} {s t : State} (hi : i.moment? = some m) (h : exec i s = .next t) :
    ∃ p l u, (u = s ∨ u = s.requested) ∧ (u.link p).follows l ∧ t = u.setLink p l := by
  have step : ∀ {p kind capture act}, (∀ c bytes l, LinkPort.follows l (act c bytes l)) →
      t = frameStep p kind capture act m s →
      ∃ p l u, (u = s ∨ u = s.requested) ∧ (u.link p).follows l ∧ t = u.setLink p l := by
    intro p kind capture act ha h
    obtain ⟨l, hl, e⟩ := frameStep_follows ha p kind capture m s
    exact ⟨p, l, s, .inl rfl, hl, h.trans e⟩
  have same : ∀ c bytes (l : LinkPort), LinkPort.follows l ((fun _ _ l => l : Capture → List Byte → _ → _) c bytes l) :=
    fun _ _ _ => LinkPort.follows_of_eq rfl rfl rfl
  cases i <;> simp only [Instr.moment?, reduceCtorEq, Option.some.injEq] at hi <;> simp only [exec] at h <;> subst hi
  case emptyFrame p m =>
    unfold execEmptyFrame at h
    split at h
    · exact step (p := p) (kind := 0) (capture := fun _ => .nothing) same (next_inj h)
    · cases h
    · split at h
      · cases h
      · split at h
        · exact ⟨p, _, s, .inl rfl, by exact LinkPort.follows_of_eq rfl rfl rfl, next_inj h⟩
        · exact ⟨p, s.link p, s, .inl rfl, LinkPort.follows_of_eq rfl rfl rfl, by
            rw [next_inj h, State.setLink_link]⟩
  case commandFrame p m => exact step (fun _ bytes l => l.endCommand_follows bytes) (next_inj h)
  case read p m => exact step LinkPort.endRead_follows (next_inj h)
  case status p m => exact step LinkPort.endStatus_follows (next_inj h)
  case linkReset p m =>
    have hf : ∀ (c : Capture) (bytes : List Byte) (l : LinkPort), LinkPort.follows l (l.endLinkReset bytes) :=
      fun _ bytes l => l.endLinkReset_follows bytes
    unfold execLinkReset at h
    split at h
    · exact step hf (next_inj h)
    · exact step hf (next_inj h)
    · split at h
      · obtain ⟨l, hl, e⟩ := frameStep_follows hf p 0xF0 (fun _ => .nothing) (.rise _) s.requested
        exact ⟨p, l, _, .inr rfl, hl, (next_inj h).trans e⟩
      · exact step hf (next_inj h)
  case idleFrame p k m =>
    unfold execIdleFrame at h
    split at h
    · exact step same (next_inj h)
    · cases h
  case unknownFrameKind p k m =>
    unfold execUnknownFrameKind at h
    split at h
    · exact step (act := fun _ _ l => l.setFrameError) (fun _ _ _ => LinkPort.follows_of_eq rfl rfl rfl) (next_inj h)
    · cases h

/-! ### The ports' law -/

/-- The law of the ports: queues in their bounds, room for the response of a command in service, and no notice that a
port never holds. -/
def State.portsOk (s : State) : Prop :=
  (∀ p : Port, (s.link p).commands.length ≤ 4 ∧ (s.link p).responses.length ≤ 4) ∧
  (∀ x ∈ s.serving, (s.link x.port).responses.length < 4) ∧ s.noticesOk

theorem State.portsOk_of_posts {s t : State} (h : s.postsTo t) (hs : s.portsOk) : t.portsOk := by
  obtain ⟨hl, hsv, hn⟩ := h
  obtain ⟨h1, h2, h3⟩ := hs
  refine ⟨fun p => ?_, fun x hx => ?_, hn h3⟩
  · obtain ⟨n, e⟩ := hl p; rw [e]; exact h1 p
  · obtain ⟨n, e⟩ := hl x.port; rw [e]; exact h2 x (hsv ▸ hx)

/-- A port's part replaced by one that follows it. -/
theorem State.portsOk_setLink {s : State} (h : s.portsOk) {p : Port} {l : LinkPort} (hl : (s.link p).follows l) :
    (s.setLink p l).portsOk := by
  obtain ⟨h1, h2, h3, h4⟩ := h
  obtain ⟨hc, hr, hn⟩ := hl
  refine ⟨fun q => ?_, fun x hx => ?_, ?_⟩
  · by_cases hq : q = p
    · subst hq
      rw [State.link_setLink]
      exact ⟨hc (h1 q).1, Nat.le_trans hr (h1 q).2⟩
    · rw [State.link_setLink_ne _ _ hq]
      exact h1 q
  · rw [State.setLink_serving] at hx
    by_cases hq : x.port = p
    · rw [hq, State.link_setLink]
      exact Nat.lt_of_le_of_lt hr (hq ▸ h2 x hx)
    · rw [State.link_setLink_ne _ _ hq]
      exact h2 x hx
  · cases p with
    | a =>
      refine ⟨fun ix => ?_, h4⟩
      show l.notices.reclaimed[ix] = none
      obtain e | e := hn <;> rw [e]
      · exact h3 ix
      · simp [Notices.empty]
    | b =>
      refine ⟨h3, ?_⟩
      show l.notices.spurious = false
      obtain e | e := hn <;> rw [e]
      · exact h4
      · rfl

theorem State.noticesOk_of_notices {s t : State} (h : ∀ q, (t.link q).notices = (s.link q).notices)
    (hs : s.noticesOk) : t.noticesOk := by
  have ha : t.linkA.notices = s.linkA.notices := h .a
  have hb : t.linkB.notices = s.linkB.notices := h .b
  simpa only [State.noticesOk, ha, hb] using hs

/-- A command taken before a request has room for its response (R20 rule 4, R148). -/
theorem State.portsOk_requested {s : State} (h : s.portsOk) : s.requested.portsOk := by
  obtain ⟨h1, h2, h3⟩ := h
  refine ⟨fun q => ?_, fun x hx => ?_, State.noticesOk_of_notices (fun q => ?_) h3⟩
  · obtain ⟨cs, e, hcs⟩ := State.requested_link s q
    rw [e]
    exact ⟨Nat.le_trans hcs (h1 q).1, (h1 q).2⟩
  · obtain ⟨cs, e, -⟩ := State.requested_link s x.port
    rw [e]
    obtain e | e | ⟨p, c, hm, e⟩ := State.requested_cases s <;> rw [e] at hx
    · exact h2 x hx
    · exact h2 x hx
    · obtain ⟨-, -, -, -, -, -, hroom, -⟩ := hm
      obtain rfl : _ = x := Option.some.inj hx
      exact hroom
  · obtain ⟨cs, e, -⟩ := State.requested_link s q
    rw [e]

/-- A command taken: none is in service, and its port has room for its response. -/
theorem State.portsOk_takeHead {s : State} (h : s.portsOk) {p : Port} {c : QueuedCommand} (hc : s.servable p = some c) :
    (s.takeHead p).portsOk ∧ (s.takeHead p).serving = none ∧ ((s.takeHead p).link p).responses.length < 4 := by
  obtain ⟨h1, h2, h3⟩ := h
  have hsv : (s.takeHead p).serving = none := by
    unfold State.takeHead
    split
    · rfl
    · simpa using ‹_›
  have hlink : ∀ q, ((s.takeHead p).link q).commands.length ≤ (s.link q).commands.length ∧
      ((s.takeHead p).link q).responses = (s.link q).responses ∧
      ((s.takeHead p).link q).notices = (s.link q).notices := fun q => by
    obtain ⟨cs, e, rfl | ⟨-, rfl⟩⟩ := s.takeHead_link p q <;> rw [e]
    · exact ⟨Nat.le_refl _, rfl, rfl⟩
    · exact ⟨by simp, rfl, rfl⟩
  have hroom : (s.link p).responses.length < 4 := by
    obtain (hm | hm) | hm | ⟨r, hm⟩ := State.servable_iff.1 hc
    · exact hm.2.2.2.2.2.2.1
    · exact h2 _ hm.1.1
    · exact h2 _ hm.1.1
    · exact h2 _ hm.1
  refine ⟨⟨fun q => ?_, fun x hx => ?_, State.noticesOk_of_notices (fun q => (hlink q).2.2) h3⟩, hsv, ?_⟩
  · exact ⟨Nat.le_trans (hlink q).1 (h1 q).1, by rw [(hlink q).2.1]; exact (h1 q).2⟩
  · rw [hsv] at hx; cases hx
  · rw [(hlink p).2.1]; exact hroom

/-- A response placed where there is room for it (R148). -/
theorem State.portsOk_respond {s : State} (h : s.portsOk) (hsv : s.serving = none) {p : Port}
    (hroom : (s.link p).responses.length < 4) (c : QueuedCommand) (r : Reply) : (s.respond p c r).portsOk := by
  obtain ⟨h1, -, h3⟩ := h
  unfold State.respond
  split
  · exact ⟨h1, fun x hx => by simp [hsv] at hx, h3⟩
  · refine ⟨fun q => ?_, fun x hx => by simp [hsv] at hx, State.noticesOk_of_notices (fun q => ?_) h3⟩ <;>
      by_cases hq : q = p
    · subst hq
      rw [State.link_setLink]
      refine ⟨(h1 q).1, ?_⟩
      rw [List.length_append, List.length_singleton]
      exact hroom
    · rw [State.link_setLink_ne _ _ hq]; exact h1 q
    · subst hq; rw [State.link_setLink]
    · rw [State.link_setLink_ne _ _ hq]

theorem State.portsOk_reset : State.reset.portsOk :=
  ⟨fun p => by cases p <;> decide, fun x hx => by simp [State.reset] at hx, by decide, rfl⟩

/-- Every act keeps the law of the ports. -/
theorem Act.portsOk {s t : State} (h : Act s t) (hs : s.portsOk) : t.portsOk := by
  have posts : ∀ {v : State}, s.postsTo v → v.portsOk := fun hp => State.portsOk_of_posts hp hs
  have same : ∀ {v : State}, v.linkA = s.linkA → v.linkB = s.linkB → v.serving = s.serving → v.portsOk :=
    fun ha hb hv => posts (State.postsTo_of_eq ha hb hv)
  cases h with
  | reset =>
    exact State.portsOk_of_posts (s := State.reset) (State.postsTo_of_eq rfl rfl rfl) State.portsOk_reset
  | frame hi h =>
    obtain ⟨p, l, u, hu, hl, rfl⟩ := exec_frame_follows hi h
    obtain rfl | rfl := hu
    · exact State.portsOk_setLink hs hl
    · exact State.portsOk_setLink (State.portsOk_requested hs) hl
  | command p c r hc h =>
    obtain ⟨hok, hsv, hroom⟩ := State.portsOk_takeHead hs hc
    have hp := h.postsTo
    refine State.portsOk_respond (State.portsOk_of_posts hp hok) (hp.2.1.trans hsv) ?_ c r
    obtain ⟨n, e⟩ := hp.1 p
    rw [e]; exact hroom
  | turnTaken turn hg h => exact posts (s.postsTo_takeTurn turn)
  | suspension r rs h =>
    exact posts (State.postsTo_trans (State.postsTo_of_eq (by simp) (by simp) (by simp)) (s.dropRequest.postsTo_suspend r))
  | abandon p hg =>
    have hd : (s.discardOpen p).portsOk := same (by simp) (by simp) (by simp)
    exact State.portsOk_setLink hd (LinkPort.follows_of_eq (by simp) (by simp) (by simp))
  | lineStart l h =>
    have took : s.postsTo (s.tookEvent (.lineStart l)) := State.postsTo_of_eq rfl rfl rfl
    exact posts (State.postsTo_trans took (State.postsTo_lineStartAct _))
  | tagTimeout k e h ht => exact posts (s.postsTo_quarantine k _)
  | activeEnd h =>
    have hr : (s.tookEvent .activeEnd).requested.portsOk :=
      State.portsOk_requested (same rfl rfl rfl)
    unfold State.activeEndAct
    dsimp only
    split
    · exact same rfl rfl rfl
    · exact State.portsOk_of_posts (State.postsTo_of_eq rfl rfl rfl) hr
  | spurious =>
    exact posts (State.postsTo_trans (t := { s with mem := { s.mem with beats := [] } }) (State.postsTo_of_eq rfl rfl rfl)
      (State.postsTo_post _ .a (fun _ _ h => h) fun h => by cases h))
  | delivered k e all he hd h =>
    obtain rfl | ⟨ix, seg, ld, -, -, -, -, rfl⟩ := State.deliver_next h <;> exact same (by simp) (by simp) (by simp)
  | failed k e he hd =>
    exact posts (State.postsTo_trans (State.postsTo_of_eq (by simp) (by simp) (by simp)) (State.postsTo_deliverError _ e))
  | edge ho hd hu =>
    obtain rfl | rfl := hu
    · exact same (by simp) (by simp) (by simp)
    · exact State.portsOk_of_posts (State.postsTo_of_eq (by simp) (by simp) (by simp)) (State.portsOk_requested hs)
  | _ => exact same (by simp) (by simp) (by simp)

end Sys2Proof.Machine
end

section
/-! PROOF. The capacities and the ranges over every step, continued: the batches (R23, R43, R45), the fetch side (R104,
R125, R132), the suspension requests (R121), and the whole law. -/

namespace Sys2Proof.Machine

/-! ### The batches (R23, R43, R45) -/

/-- The bounds of the open batches and of the commit queue, and the tickets that are never 0. -/
def State.batchesOk (s : State) : Prop :=
  (∀ p : Port, (s.staging p).openBatch.length ≤ 16 ∧ s.queuedBatches p ≤ 2 ∧ (s.staging p).nextTicket ≠ 0) ∧
  s.commitQueue.length ≤ 4 ∧ ∀ b ∈ s.commitQueue, b.ticket ≠ 0

theorem State.batchesOk_of_eq {s t : State}
    (hg : ∀ p, (t.staging p).openBatch = (s.staging p).openBatch ∧ (t.staging p).nextTicket = (s.staging p).nextTicket)
    (hq : t.commitQueue = s.commitQueue) (h : s.batchesOk) : t.batchesOk := by
  obtain ⟨h1, h2, h3⟩ := h
  refine ⟨fun p => ?_, hq ▸ h2, hq ▸ h3⟩
  rw [(hg p).1, (hg p).2, State.queuedBatches, hq]
  exact h1 p

theorem State.batchesOk_same {s t : State} (hg : ∀ p, t.staging p = s.staging p) (hq : t.commitQueue = s.commitQueue)
    (h : s.batchesOk) : t.batchesOk :=
  State.batchesOk_of_eq (fun p => by rw [hg]; exact ⟨rfl, rfl⟩) hq h

/-- The commit queue applied is empty, and no open batch and no next ticket moves. -/
theorem State.batchesOk_applyQueue {s : State} (h : s.batchesOk) : s.applyQueue.1.batchesOk := by
  obtain ⟨h1, -, -⟩ := h
  refine ⟨fun p => ?_, by simp, by simp⟩
  obtain ⟨ho, hn⟩ := s.applyQueue_staging p
  rw [ho, hn, State.queuedBatches, State.applyQueue_commitQueue]
  exact ⟨(h1 p).1, by simp, (h1 p).2.2⟩

/-- A port's open batch replaced by one in its bound. -/
theorem State.batchesOk_setStaging {s : State} (h : s.batchesOk) (p : Port) {g : Staging} (ho : g.openBatch.length ≤ 16)
    (hn : g.nextTicket ≠ 0) : (s.setStaging p g).batchesOk := by
  obtain ⟨h1, h2, h3⟩ := h
  refine ⟨fun q => ?_, by rwa [State.setStaging_commitQueue], by rwa [State.setStaging_commitQueue]⟩
  rw [State.queuedBatches, State.setStaging_commitQueue]
  by_cases hq : q = p
  · subst hq; rw [State.staging_setStaging]; exact ⟨ho, (h1 q).2.1, hn⟩
  · rw [State.staging_setStaging_ne _ _ hq]; exact h1 q

theorem State.batchesOk_appendEntry {s : State} (h : s.batchesOk) {p : Port}
    (hl : (s.staging p).openBatch.length < 16) (e : Entry) : (s.appendEntry p e).batchesOk :=
  State.batchesOk_setStaging h p (by rw [List.length_append, List.length_singleton]; exact hl) (h.1 p).2.2

theorem State.batchesOk_discardOpen {s : State} (h : s.batchesOk) (p : Port) : (s.discardOpen p).batchesOk :=
  State.batchesOk_setStaging (s := { s with table := s.table.releaseReserved p }) h p (by simp) (h.1 p).2.2

/-- The ticket after a ticket is not 0 (R43). -/
theorem nextTicketOf_ne_zero (t : Byte) : nextTicketOf t ≠ 0 := by
  unfold nextTicketOf
  split
  · decide
  · intro h
    have : t = 255 := by
      have := congrArg (· - 1) h
      simpa using this
    exact absurd this ‹_›

/-- A COMMIT accepted finds room in the queue (R40). -/
theorem State.room_of_passes {s : State} {p : Port} (h : s.refusesCommit p = none) :
    s.commitQueue.length < 4 ∧ s.queuedBatches p < 2 := by
  unfold State.refusesCommit at h
  split at h
  · cases h
  next hn => simpa [State.queueFull, Config.queueBatches, Config.portBatches] using hn

/-- A batch queued where there is room (R40, R42, R43). -/
theorem State.batchesOk_enqueue {s : State} (h : s.batchesOk) {p : Port} (hc : s.refusesCommit p = none) :
    (s.enqueue p).batchesOk := by
  obtain ⟨hroom, hport⟩ := State.room_of_passes hc
  obtain ⟨h1, -, h3⟩ := h
  refine State.batchesOk_setStaging ⟨fun q => ?_, ?_, fun b hb => ?_⟩ p (by simp) (nextTicketOf_ne_zero _)
  · refine ⟨(h1 q).1, ?_, (h1 q).2.2⟩
    show ((s.commitQueue ++ [_]).filter _).length ≤ 2
    rw [List.filter_append, List.length_append]
    by_cases hq : p = q
    · subst hq
      have hone : ∀ b : Batch, ([b].filter (·.port == p)).length ≤ 1 := fun b => List.length_filter_le _ _
      have := hone ⟨p, (s.staging p).nextTicket, (s.staging p).openBatch⟩
      unfold State.queuedBatches at hport
      omega
    · have := (h1 q).2.1
      unfold State.queuedBatches at this
      simpa [hq] using this
  · show (s.commitQueue ++ [_]).length ≤ 4
    simpa using hroom
  · obtain hb | hb := List.mem_append.1 hb
    · exact h3 b hb
    · obtain rfl := List.mem_singleton.1 hb
      exact (h1 p).2.2

theorem CommandAct.batchesOk {p : Port} {u v : State} (h : CommandAct p u v) (hu : u.batchesOk) : v.batchesOk := by
  have same : ∀ {v : State}, (∀ p, v.staging p = u.staging p) → v.commitQueue = u.commitQueue → v.batchesOk :=
    fun hg hq => State.batchesOk_same hg hq hu
  cases h with
  | staged e hd hl hr hn => exact State.batchesOk_appendEntry hu hl e
  | opened ix w vis pl hw hl hf =>
    exact State.batchesOk_appendEntry (s := u.reserve p ix) hu hl _
  | committed h =>
    have he := State.batchesOk_enqueue hu h
    simp only [State.acceptCommit]
    split
    · exact State.batchesOk_applyQueue he
    · exact he
  | abandoned => exact State.batchesOk_discardOpen hu p
  | stopped ho =>
    have h1 : u.enterOff.applyQueue.1.batchesOk := State.batchesOk_applyQueue (s := u.enterOff) hu
    exact State.batchesOk_same (by simp [State.stopOutput]) (by simp [State.stopOutput]) h1
  | _ => exact same (by simp [State.staging]) (by simp)

theorem State.batchesOk_reset : State.reset.batchesOk :=
  ⟨fun p => by cases p <;> exact ⟨by decide, by decide, by decide⟩, by decide, fun b hb => by cases hb⟩

theorem Act.batchesOk {s t : State} (h : Act s t) (hs : s.batchesOk) : t.batchesOk := by
  have same : ∀ {v : State}, (∀ p, v.staging p = s.staging p) → v.commitQueue = s.commitQueue → v.batchesOk :=
    fun hg hq => State.batchesOk_same hg hq hs
  cases h with
  | reset => exact State.batchesOk_same (fun p => by cases p <;> rfl) rfl State.batchesOk_reset
  | frame hi h => obtain ⟨p, l, u, rfl, rfl | ⟨rfl, -⟩⟩ := exec_frame hi h <;> exact same (by simp) (by simp)
  | command p c r hc h =>
    exact State.batchesOk_same (by simp) (by simp) (h.batchesOk (same (by simp) (by simp)))
  | turnTaken turn hg h =>
    obtain ⟨-, e⟩ | ⟨-, e⟩ := s.takeTurn_cases turn <;> rw [e]
    · exact same (fun p => by cases p <;> rfl) rfl
    · have h1 : ({ s with turn := none } : State).batchesOk := same (fun p => by cases p <;> rfl) rfl
      exact State.batchesOk_same (by simp) (by simp) (State.batchesOk_applyQueue h1)
  | abandon p hg => exact State.batchesOk_same (by simp) (by simp) (State.batchesOk_discardOpen hs p)
  | lineStart l h =>
    have took : (s.tookEvent (.lineStart l)).ageTags.batchesOk := same (by simp) (by simp)
    exact State.lineStartAct_keeps (P := State.batchesOk) took fun u k hu =>
      State.batchesOk_same (by simp) (by simp) hu
  | delivered k e all he hd h =>
    obtain rfl | ⟨ix, seg, ld, -, -, -, -, rfl⟩ := State.deliver_next h <;>
      exact same (fun p => by cases p <;> rfl) rfl
  | edge ho hd hu => obtain rfl | rfl := hu <;> exact same (by simp [State.staging]) (by simp)
  | _ => exact same (by simp [State.staging]) (by simp)

/-! ### The fetch side (R104, R125, R132) -/

/-- A tag's age is in its range (R125, R133). -/
def Tag.ageOk : Tag → Prop
  | .free => True
  | .waiting e => e.age ≤ 63
  | .quarantined e => e.age ≤ 63

/-- The ranges of the starvation counts, of the ages and of the timeout. -/
def State.fetchOk (s : State) : Prop :=
  (∀ ix : SlotIx, s.streams[ix].count ≤ 15) ∧ (∀ k : TagIx, (s.mem.tags[k]).ageOk) ∧ 1 ≤ s.mem.timeout ∧
    s.mem.timeout ≤ 63

theorem Tag.ageOk_mark {x : Tag} (h : x.ageOk) (which : TagEntry → Bool) : (x.mark which).ageOk := by
  cases x with
  | waiting e => simp only [Tag.mark]; split <;> exact h
  | _ => exact h

theorem agedBy_le (n : Nat) : agedBy n ≤ 63 := Nat.min_le_right _ _

theorem Tag.ageOk_aged {x : Tag} (h : x.ageOk) : x.aged.ageOk := by
  cases x with
  | waiting e => exact agedBy_le _
  | _ => exact h

theorem State.fetchOk_of {s t : State} (h : s.fetchOk)
    (hc : ∀ ix : SlotIx, t.streams[ix].count ≤ s.streams[ix].count ∨ t.streams[ix].count ≤ 15)
    (ht : ∀ k : TagIx, (s.mem.tags[k]).ageOk → (t.mem.tags[k]).ageOk) (hm : t.mem.timeout = s.mem.timeout) :
    t.fetchOk :=
  ⟨fun ix => (hc ix).elim (fun e => Nat.le_trans e (h.1 ix)) id, fun k => ht k (h.2.1 k), hm ▸ h.2.2.1, hm ▸ h.2.2.2⟩

theorem State.fetchOk_of_eq {s t : State} (h : s.fetchOk) (hs : t.streams = s.streams) (hm : t.mem = s.mem) :
    t.fetchOk := by
  simpa only [State.fetchOk, hs, hm] using h

/-- Batches applied clear counts and mark tags (R46, R109, R131). -/
theorem Applied.fetchOk {s t : State} {stops clears : SlotIx → Prop} (h : Applied s t stops clears) (hs : s.fetchOk) :
    t.fetchOk := by
  refine State.fetchOk_of hs (fun ix => ?_) (fun k hk => ?_) (by rw [h.mem])
  · by_cases hc : clears ix
    · exact .inr (by rw [(h.count hc).1]; exact Nat.zero_le _)
    · exact .inl (by rw [h.kept ix hc])
  · have := h.tags k
    split at this
    · rename_i e he
      obtain ⟨d, e', -⟩ := this
      rw [he] at hk
      rw [e']; exact hk
    · rw [this]; exact hk

theorem State.fetchOk_applyQueue {s : State} (h : s.fetchOk) : s.applyQueue.1.fetchOk := s.applyQueue_applied.fetchOk h

/-- Streams stopped keep their counts, and reads in flight are marked (R108, R131). -/
theorem State.fetchOk_stopStreams {s : State} (h : s.fetchOk) (which : SlotIx → Bool) :
    (s.stopStreams which).fetchOk := by
  refine State.fetchOk_of h (fun ix => .inl ?_) (fun k hk => ?_) rfl
  · rw [State.stopStreams_streams]
    split <;> exact Nat.le_refl _
  · have := s.stopStreams_tags which k
    split at this
    · rename_i e he
      obtain ⟨d, e', -⟩ := this
      rw [he] at hk
      rw [e']; exact hk
    · rw [this]; exact hk

/-- Streams loaded keep their counts or start from 0 (R107). -/
theorem State.fetchOk_loadStreams {s : State} (h : s.fetchOk) (rs : List SlotIx) : (s.loadStreams rs).fetchOk := by
  refine State.fetchOk_of h (fun ix => .inl ?_) (fun k hk => ?_) rfl
  · rw [State.loadStreams_streams]
    split
    · simp only [Stream.restarted]
      split <;> [exact Nat.le_refl _; exact Nat.zero_le _]
    · split <;> exact Nat.le_refl _
  · have := s.loadStreams_tags rs k
    split at this
    · rename_i e he
      obtain ⟨d, e', -⟩ := this
      rw [he] at hk
      rw [e']; exact hk
    · rw [this]; exact hk

theorem State.fetchOk_failHalf {s : State} (h : s.fetchOk) (e : TagEntry) : (s.failHalf e).fetchOk := by
  refine State.fetchOk_of h (fun ix => .inl ?_) (fun k hk => ?_) (by rw [State.failHalf_mem])
  · obtain ⟨x, e'⟩ := s.failHalf_stream e ix
    rw [e', Stream.setHalf_count]
  · rw [State.failHalf_tags_get]
    exact Tag.ageOk_mark hk _

theorem State.checkStuck_timeout (s : State) : s.checkStuck.mem.timeout = s.mem.timeout := by
  obtain ⟨-, e⟩ | ⟨-, e⟩ := s.checkStuck_cases
  · rw [e, State.postFetchStuck_mem]
  · rw [e]

theorem State.quarantine_timeout (s : State) (t : TagIx) (e : TagEntry) :
    (s.quarantine t e).mem.timeout = s.mem.timeout := by
  unfold State.quarantine
  rw [State.checkStuck_timeout]
  split
  · rfl
  · rw [State.failTimedOut_mem, State.failHalf_mem]; rfl

theorem State.fetchOk_quarantine {s : State} (h : s.fetchOk) (t : TagIx) {e : TagEntry} (he : e.age ≤ 63) :
    (s.quarantine t e).fetchOk := by
  refine State.fetchOk_of h (fun ix => .inl ?_) (fun k hk => ?_) (State.quarantine_timeout s t e)
  · obtain ⟨x, e'⟩ := s.quarantine_stream t e ix
    rw [e', Stream.setHalf_count]
  · rw [State.quarantine_tags]
    split
    · exact he
    · split
      · exact hk
      · exact Tag.ageOk_mark hk _

theorem State.fetchOk_timeoutTag {s : State} (h : s.fetchOk) (t : TagIx) : (s.timeoutTag t).fetchOk := by
  obtain ⟨e, he, -, e'⟩ | ⟨-, e'⟩ := s.timeoutTag_cases t <;> rw [e']
  · exact State.fetchOk_quarantine h t (by have := h.2.1 t; rw [he] at this; exact this)
  · exact h

theorem State.fetchOk_setTag {s : State} (h : s.fetchOk) (t : TagIx) {x : Tag} (hx : x.ageOk) : (s.setTag t x).fetchOk :=
  State.fetchOk_of h (fun _ => .inl (Nat.le_refl _))
    (fun k hk => by rw [State.setTag_get]; split <;> [exact hx; exact hk]) rfl

theorem State.fetchOk_freeTag {s : State} (h : s.fetchOk) (t : TagIx) : (s.freeTag t).fetchOk :=
  State.fetchOk_of (State.fetchOk_setTag h t (x := .free) trivial) (fun _ => .inl (Nat.le_refl _)) (fun _ hk => hk) rfl

/-- A half of a stream replaced keeps the stream's count. -/
theorem State.fetchOk_setHalf {s : State} (h : s.fetchOk) (ix : SlotIx) (i : HalfId) (x : Half) :
    (s.setStream ix (s.streams[ix].setHalf i x)).fetchOk := by
  refine State.fetchOk_of h (fun jx => .inl ?_) (fun _ hk => hk) rfl
  rw [State.setStream_get]
  split
  · next hj => subst hj; rw [Stream.setHalf_count]
  · exact Nat.le_refl _

theorem Stream.lineEnded_count (st : Stream) (l : Nat) : (st.lineEnded l).count = st.count := by
  unfold Stream.lineEnded
  split
  · split <;> rw [Stream.setHalf_count]
  · rfl

theorem Stream.examined_count (st : Stream) (l : Nat) : (st.examined l).count = st.count := by
  unfold Stream.examined
  split
  · split <;> rfl
  · rfl

theorem Stream.frameEnded_count (st : Stream) : (st.frameEnded).count ≤ st.count ∨ (st.frameEnded).count ≤ 15 := by
  unfold Stream.frameEnded
  split
  · dsimp only
    split
    · exact .inl (Nat.le_refl _)
    · split
      · exact .inr (Nat.min_le_right _ _)
      · exact .inr (Nat.zero_le _)
  · exact .inl (Nat.le_refl _)

theorem CommandAct.fetchOk {p : Port} {u v : State} (h : CommandAct p u v) (hu : u.fetchOk) : v.fetchOk := by
  have same : ∀ {v : State}, v.streams = u.streams → v.mem = u.mem → v.fetchOk := State.fetchOk_of_eq hu
  cases h with
  | committed h =>
    have he : (u.enqueue p).fetchOk := same (by simp) (by simp)
    simp only [State.acceptCommit]
    split
    · exact State.fetchOk_applyQueue he
    · exact he
  | stopped ho =>
    have h1 : u.enterOff.applyQueue.1.streamsOff.fetchOk :=
      State.fetchOk_stopStreams (State.fetchOk_applyQueue (s := u.enterOff) hu) fun _ => true
    exact State.fetchOk_of_eq h1 (by simp [State.stopOutput]) (by simp [State.stopOutput])
  | timeoutSet n h1 h2 => exact ⟨hu.1, hu.2.1, h1, h2⟩
  | fetchReset =>
    refine State.fetchOk_of hu (fun ix => .inl ?_) (fun k _ => ?_) rfl
    · show ((tabSlots fun ix => u.streams[ix].fetchReset)[ix]).count ≤ _
      rw [tabSlots_get]
      exact Nat.le_refl _
    · show ((tabTags fun _ => Tag.free)[k]).ageOk
      rw [tabTags_get]
      trivial
  | _ => exact same (by simp) (by simp)

theorem State.fetchOk_reset : State.reset.fetchOk :=
  ⟨by decide, fun k => by rw [show State.reset.mem.tags[k] = .free by revert k; decide]; trivial, by decide, by decide⟩

theorem Act.fetchOk {s t : State} (h : Act s t) (hs : s.fetchOk) : t.fetchOk := by
  have same : ∀ {v : State}, v.streams = s.streams → v.mem = s.mem → v.fetchOk := State.fetchOk_of_eq hs
  have free : ∀ k, (({ s with mem := { s.mem with beats := [] } } : State).freeTag k).fetchOk :=
    fun k => State.fetchOk_freeTag (s := { s with mem := { s.mem with beats := [] } }) hs k
  cases h with
  | reset => exact State.fetchOk_reset
  | frame hi h => obtain ⟨p, l, u, rfl, rfl | ⟨rfl, -⟩⟩ := exec_frame hi h <;> exact same (by simp) (by simp)
  | command p c r hc h =>
    exact State.fetchOk_of_eq (h.fetchOk (same (by simp) (by simp))) (by simp) (by simp)
  | turnTaken turn hg h =>
    obtain ⟨-, e⟩ | ⟨-, e⟩ := s.takeTurn_cases turn <;> rw [e]
    · exact hs
    · have h1 := State.fetchOk_applyQueue (s := { s with turn := none }) hs
      have h2 := State.fetchOk_of_eq h1 (State.postTurn_streams _ turn) (State.postTurn_mem _ turn)
      unfold State.closeTurn
      split
      · exact State.fetchOk_loadStreams h2 _
      · exact State.fetchOk_stopStreams h2 _
  | suspension r rs h =>
    obtain e | ⟨ix, o, w, -, -, -, e⟩ := s.dropRequest.suspend_cases r <;> rw [e]
    · exact hs
    · refine State.fetchOk_of_eq (State.fetchOk_stopStreams (s := { s.dropRequest with table := _ }) hs _)
        (State.postSuspended_streams _ _ _ _) (State.postSuspended_mem _ _ _ _)
  | lineStart l h =>
    have aged : (s.tookEvent (.lineStart l)).ageTags.fetchOk :=
      State.fetchOk_of hs (fun _ => .inl (Nat.le_refl _))
        (fun k hk => by rw [State.ageTags_get]; exact Tag.ageOk_aged hk) rfl
    exact State.lineStartAct_keeps (P := State.fetchOk) aged fun u k hu => State.fetchOk_timeoutTag hu k
  | tagTimeout k e h ht => exact State.fetchOk_quarantine hs k (agedBy_le e.age)
  | activeLineStart l h =>
    refine State.fetchOk_of hs (fun ix => .inl ?_) (fun _ hk => hk) rfl
    show ((tabSlots fun ix => s.streams[ix].examined l)[ix]).count ≤ _
    rw [tabSlots_get, Stream.examined_count]
  | activeLineEnd l h =>
    refine State.fetchOk_of hs (fun ix => .inl ?_) (fun k hk => ?_) rfl
    · show ((tabSlots fun ix => s.streams[ix].lineEnded l)[ix]).count ≤ _
      rw [tabSlots_get, Stream.lineEnded_count]
    · rw [show ((s.tookEvent (.activeLineEnd l)).activeLineEndAct l).mem.tags[k] = _ from State.markTags_get _ _ k]
      exact Tag.ageOk_mark hk _
  | activeEnd h =>
    refine State.fetchOk_of hs (fun ix => ?_) (fun k hk => by rw [State.activeEndAct_mem]; exact hk)
      (by rw [State.activeEndAct_mem]; rfl)
    have he : (s.tookEvent .activeEnd).activeEndAct.streams[ix] = s.streams[ix].frameEnded := tabSlots_get _ ix
    rw [he]
    exact Stream.frameEnded_count _
  | pick k d pick ho hc hk hb =>
    refine State.fetchOk_of hs (fun ix => .inl ?_) (fun j hj => ?_) rfl
    · rw [State.offer_streams_get]
      split
      · rw [Stream.setHalf_count]
      · exact Nat.le_refl _
    · rw [State.offer_tags_get]
      split
      · exact Nat.zero_le _
      · exact hj
  | acceptTag o h =>
    refine State.fetchOk_setTag (s := { s with mem := { s.mem with channel := none } }) hs o.tag ?_
    have := hs.2.1 o.tag
    revert this
    cases s.mem.tags[o.tag] <;> exact fun h => h
  | freed k => exact free k
  | delivered k e all he hd h =>
    obtain rfl | ⟨ix, seg, ld, -, -, -, -, rfl⟩ := State.deliver_next h
    · exact free k
    · exact State.fetchOk_of_eq (State.fetchOk_setHalf (free k) ix _ _) rfl rfl
  | failed k e he hd =>
    exact State.fetchOk_of_eq (State.fetchOk_failHalf (free k) e) (State.deliverError_streams _ _)
      (State.deliverError_mem _ _)
  | accept => exact hs
  | beats held => exact hs
  | spurious =>
    exact State.fetchOk_of_eq (s := { s with mem := { s.mem with beats := [] } }) hs (State.postSpurious_streams _)
      (State.postSpurious_mem _)
  | edge ho hd hu => obtain rfl | rfl := hu <;> exact same (by simp) (by simp)
  | _ => exact same (by simp) (by simp)

/-! ### The suspension requests (R121) -/

/-- The list holds one request for a slot. -/
def State.requestsOk (s : State) : Prop := (s.suspensions.map Handle.slot).Nodup

theorem addRequest_nodup {list : List Handle} (h : (list.map Handle.slot).Nodup) (g : Handle) :
    ((addRequest list g).map Handle.slot).Nodup := by
  unfold addRequest
  split
  · exact h
  · rename_i hn
    have hg : g.slot ∉ list.map Handle.slot := by
      rintro hm
      obtain ⟨a, ha, hs⟩ := List.mem_map.1 hm
      exact hn (List.any_eq_true.2 ⟨a, ha, by simp [hs]⟩)
    rw [List.map_append]
    exact List.nodup_append.2 ⟨h, by simp, fun a ha b hb => by
      obtain rfl : b = g.slot := by simpa using hb
      exact fun e => hg (e ▸ ha)⟩

theorem addRequests_nodup (gs : List Handle) {list : List Handle} (h : (list.map Handle.slot).Nodup) :
    ((gs.foldl addRequest list).map Handle.slot).Nodup := by
  induction gs generalizing list with
  | nil => exact h
  | cons g gs ih => exact ih (addRequest_nodup h g)

theorem CommandAct.suspensions {p : Port} {u v : State} (h : CommandAct p u v) : v.suspensions = u.suspensions := by
  cases h with
  | committed h => simp only [State.acceptCommit]; split <;> simp
  | stopped ho => simp [State.stopOutput]
  | _ => simp

theorem Act.requestsOk {s t : State} (h : Act s t) (hs : s.requestsOk) : t.requestsOk := by
  have same : ∀ {v : State}, v.suspensions = s.suspensions → v.requestsOk := fun e => by
    simpa only [State.requestsOk, e] using hs
  cases h with
  | reset => exact List.nodup_nil
  | frame hi h => obtain ⟨p, l, u, rfl, rfl | ⟨rfl, -⟩⟩ := exec_frame hi h <;> exact same (by simp)
  | command p c r hc h => exact same (by rw [State.respond_suspensions, h.suspensions, State.takeHead_suspensions])
  | turnTaken turn hg h => obtain ⟨-, e⟩ | ⟨-, e⟩ := s.takeTurn_cases turn <;> rw [e] <;> exact same (by simp)
  | suspension r rs h =>
    rw [State.requestsOk, State.suspend_suspensions]
    exact List.Nodup.sublist (List.Sublist.map _ (List.tail_sublist _)) hs
  | lineStart l h =>
    exact same (State.lineStartAct_keeps (P := fun x => x.suspensions = s.suspensions) (by simp)
      fun s t h => by simpa using h)
  | activeEnd h => exact addRequests_nodup _ hs
  | delivered k e all he hd h =>
    obtain rfl | ⟨ix, seg, ld, -, -, -, -, rfl⟩ := State.deliver_next h <;> exact same (by simp)
  | edge ho hd hu => obtain rfl | rfl := hu <;> exact same (by simp)
  | _ => exact same (by simp)

/-! ### The whole law -/

/-- The capacities and the ranges are the laws of the ports, the batches, the fetch side and the requests. -/
theorem capacitiesRanges_iff (s : State) :
    (Capacities s ∧ Ranges s) ↔ s.portsOk ∧ s.batchesOk ∧ s.fetchOk ∧ s.requestsOk := by
  have hage : ∀ x : Tag, x.ageOk ↔ match x with
      | .free => True
      | .waiting e => e.age ≤ 63
      | .quarantined e => e.age ≤ 63 := fun x => by cases x <;> rfl
  constructor
  · rintro ⟨⟨h1, h2, h3, h4⟩, h5, h6, h7, h8, h9, h10, h11, h12⟩
    exact ⟨⟨fun p => ⟨(h1 p).1, (h1 p).2.1⟩, h2, h11, h12⟩,
      ⟨fun p => ⟨(h1 p).2.2.1, (h1 p).2.2.2, h5 p⟩, h3, h6⟩, ⟨h7, fun k => (hage _).2 (h8 k), h9, h10⟩, h4⟩
  · rintro ⟨⟨h1, h2, h11, h12⟩, ⟨h1', h3, h6⟩, ⟨h7, h8, h9, h10⟩, h4⟩
    exact ⟨⟨fun p => ⟨(h1 p).1, (h1 p).2, (h1' p).1, (h1' p).2.1⟩, h2, h3, h4⟩, fun p => (h1' p).2.2, h6, h7,
      fun k => (hage _).1 (h8 k), h9, h10, h11, h12⟩

/-- Settles O56: every act keeps each of the four laws. -/
theorem capacitiesAndRangesKept : Obligations.CapacitiesAndRangesKept := by
  intro s t hc hr h
  rw [capacitiesRanges_iff]
  refine step_keeps (P := fun s => s.portsOk ∧ s.batchesOk ∧ s.fetchOk ∧ s.requestsOk) ?_ (fun _ _ hs => hs) h
    ((capacitiesRanges_iff s).1 ⟨hc, hr⟩)
  exact fun _ _ ha ⟨h1, h2, h3, h4⟩ => ⟨ha.portsOk h1, ha.batchesOk h2, ha.fetchOk h3, ha.requestsOk h4⟩

end Sys2Proof.Machine
end

section
/-! PROOF. The laws of the reads in flight and of STUCK over every step (R117, R118, R125, R131, R135). -/

namespace Sys2Proof.Machine

/-! ### The read a tag awaits for a half -/

/-- What a read asks for: the entry without its age and without its accepted field. -/
def TagEntry.request (e : TagEntry) : TagEntry := { e with age := 0, accepted := false }

/-- The request a tag awaits for a half of a slot's stream: that of an unmarked WAITING entry for it. -/
def Tag.read (x : Tag) (ix : SlotIx) (i : HalfId) : Option TagEntry :=
  match x with
  | .waiting e => if e.discard = false ∧ e.handle.ix? = some ix ∧ e.half = i then some e.request else none
  | .quarantined _ => none
  | .free => none

@[simp] theorem Tag.read_free (ix : SlotIx) (i : HalfId) : Tag.free.read ix i = none := rfl
@[simp] theorem Tag.read_quarantined (e : TagEntry) (ix : SlotIx) (i : HalfId) :
    (Tag.quarantined e).read ix i = none := rfl

theorem Tag.read_waiting (e : TagEntry) (ix : SlotIx) (i : HalfId) : (Tag.waiting e).read ix i =
    if e.discard = false ∧ e.handle.ix? = some ix ∧ e.half = i then some e.request else none := rfl

@[simp] theorem Tag.read_aged (x : Tag) (ix : SlotIx) (i : HalfId) : x.aged.read ix i = x.read ix i := by
  cases x <;> rfl

@[simp] theorem Tag.read_acceptedNow (x : Tag) (ix : SlotIx) (i : HalfId) : x.acceptedNow.read ix i = x.read ix i := by
  cases x <;> rfl

/-- From one tag to another the discard mark is set where `P` says so, and nothing else changes. -/
def Tag.marked (x y : Tag) (P : TagEntry → Prop) : Prop :=
  match x with
  | .waiting e => ∃ d, y = .waiting { e with discard := d } ∧ (d = true ↔ e.discard = true ∨ P e)
  | .free => y = .free
  | .quarantined e => y = .quarantined e

theorem Tag.marked_mark (x : Tag) (which : TagEntry → Bool) : x.marked (x.mark which) fun e => which e = true := by
  cases x with
  | waiting e =>
    by_cases h : which e = true
    · exact ⟨true, by rw [Tag.mark, if_pos h], by simp [h]⟩
    · exact ⟨e.discard, by rw [Tag.mark, if_neg h], by simp [h]⟩
  | _ => rfl

/-- Tags marked by a read of the state's own shape of the rule are marked. -/
theorem Tag.marked_of {x y : Tag} {P : TagEntry → Prop} (h : match x with
    | .waiting e => ∃ d, y = .waiting { e with discard := d } ∧ (d = true ↔ e.discard = true ∨ P e)
    | x => y = x) : x.marked y P := by
  cases x <;> exact h

/-- A read whose tag is marked is awaited no more. -/
theorem Tag.read_of_marked {x y : Tag} {P : TagEntry → Prop} (h : x.marked y P) {ix : SlotIx} {i : HalfId}
    (hP : ∀ q, x.read ix i = some q → ∀ e : TagEntry, e.request = q → P e) : y.read ix i = none := by
  cases x with
  | waiting e =>
    obtain ⟨d, rfl, hd⟩ := h
    rw [Tag.read_waiting] at hP
    rw [Tag.read_waiting, if_neg]
    rintro ⟨h1, h2, h3⟩
    dsimp only at h1 h2 h3
    have hd' : ¬ (e.discard = true ∨ P e) := fun h => by rw [hd.2 h] at h1; cases h1
    have he : e.discard = false := by simpa using fun h => hd' (.inl h)
    rw [if_pos ⟨he, h2, h3⟩] at hP
    exact hd' (.inr (hP _ rfl e rfl))
  | free => rw [show y = .free from h]; rfl
  | quarantined e => rw [show y = .quarantined e from h]; rfl

/-- A read whose tag is not marked is awaited as before. -/
theorem Tag.read_of_unmarked {x y : Tag} {P : TagEntry → Prop} (h : x.marked y P) {ix : SlotIx} {i : HalfId}
    (hP : ∀ e : TagEntry, e.handle.ix? = some ix → e.half = i → ¬ P e) : y.read ix i = x.read ix i := by
  cases x with
  | waiting e =>
    obtain ⟨d, rfl, hd⟩ := h
    rw [Tag.read_waiting, Tag.read_waiting]
    by_cases hi : e.handle.ix? = some ix ∧ e.half = i
    · have : d = e.discard := Bool.eq_iff_iff.2 (hd.trans (or_iff_left (hP e hi.1 hi.2)))
      subst this
      rfl
    · rw [if_neg fun h => hi h.2, if_neg fun h => hi h.2]
  | free => rw [show y = .free from h]
  | quarantined e => rw [show y = .quarantined e from h]

/-- The fields of a read awaited for a half. -/
theorem Tag.read_fields {x : Tag} {ix : SlotIx} {i : HalfId} {q : TagEntry} (h : x.read ix i = some q) :
    q.handle.ix? = some ix ∧ q.half = i := by
  cases x with
  | waiting e =>
    rw [Tag.read_waiting] at h
    split at h
    · next hc => cases h; exact hc.2
    · cases h
  | _ => cases h

/-! ### The reads awaited for a half, and the half's law by them -/

/-- The reads awaited for a half of a slot's stream, in tag order. -/
def State.reads (s : State) (ix : SlotIx) (i : HalfId) : List TagEntry :=
  allTags.filterMap fun k => (s.mem.tags[k]).read ix i

theorem State.mem_reads {s : State} {ix : SlotIx} {i : HalfId} {q : TagEntry} :
    q ∈ s.reads ix i ↔ ∃ k : TagIx, (s.mem.tags[k]).read ix i = some q := by
  simp [State.reads, -Fin.getElem_fin]

/-- The reads are the unmarked WAITING tags of the half, without their ages. -/
theorem State.reads_eq (s : State) (ix : SlotIx) (i : HalfId) :
    s.reads ix i = (s.liveTags ix i).map TagEntry.request := by
  unfold State.reads State.liveTags
  generalize allTags = l
  induction l with
  | nil => rfl
  | cons k l ih =>
    rw [List.filterMap_cons, List.filterMap_cons, ih]
    cases s.mem.tags[k] with
    | waiting e =>
      rw [Tag.read_waiting]
      cases hd : e.discard
      · by_cases hi : e.handle.ix? = some ix ∧ e.half = i
        · simp [Tag.live?, hd, hi, TagEntry.ofSlot, -Fin.getElem_fin]
        · have : ¬ (e.ofSlot ix && e.half == i) = true := by simpa [TagEntry.ofSlot] using hi
          simp [Tag.live?, hd, hi, this, -Fin.getElem_fin]
      · simp [Tag.live?, hd, -Fin.getElem_fin]
    | free => rfl
    | quarantined e => rfl

/-- A load held by a stream names the stream's own slot. -/
def Stream.ownLoad (st : Stream) (ix : SlotIx) : Prop := ∀ ld, st.load = some ld → ld.handle.ix? = some ix

/-- A read finds its half FILLING its row, in a stream loaded with its handle, for a segment requested. -/
def Stream.awaits (st : Stream) (i : HalfId) (q : TagEntry) : Prop :=
  (st.half i).cond = .filling ∧ (st.half i).row = some q.row ∧ st.loaded = true ∧
    st.load.map StreamLoad.handle = some q.handle ∧ q.segment ∈ (st.half i).requested

/-- The requested segments of a FILLING half: distinct, inside the half, as many as filled and awaited. -/
def Stream.counts (st : Stream) (i : HalfId) (awaited : Nat) : Prop :=
  (st.half i).cond = .filling → (st.half i).requested.Nodup ∧
    (∀ seg ∈ (st.half i).requested, ∃ ld, st.load = some ld ∧ seg < ld.segments) ∧
    (st.half i).requested.length = (st.half i).filled + awaited

/-- The law of a half by the reads awaited for it. -/
theorem State.halfLaw_iff (s : State) (ix : SlotIx) (i : HalfId) : s.halfLaw ix i ↔
    s.streams[ix].ownLoad ix ∧ (∀ q ∈ s.reads ix i, s.streams[ix].awaits i q) ∧
      s.streams[ix].counts i (s.reads ix i).length := by
  rw [State.reads_eq, List.length_map]
  refine and_congr_right fun _ => and_congr_left fun _ => ?_
  simp only [List.mem_map]
  constructor
  · rintro h q ⟨e, he, rfl⟩; exact h e he
  · exact fun h e he => h e.request ⟨e, he, rfl⟩

/-! ### What keeps a half's law -/

/-- A half that is left as it was, with the reads awaited for it. -/
theorem State.halfLaw_same {s t : State} {ix : SlotIx} {i : HalfId} (h : s.halfLaw ix i)
    (hl : t.streams[ix].load = s.streams[ix].load) (hc : t.streams[ix].loaded = s.streams[ix].loaded)
    (hh : t.streams[ix].half i = s.streams[ix].half i)
    (hr : ∀ k : TagIx, (t.mem.tags[k]).read ix i = (s.mem.tags[k]).read ix i) : t.halfLaw ix i := by
  have he : t.reads ix i = s.reads ix i := by
    unfold State.reads; exact congrArg (allTags.filterMap ·) (funext hr)
  rw [State.halfLaw_iff] at h ⊢
  unfold Stream.ownLoad Stream.awaits Stream.counts at *
  rw [he, hl, hc, hh]
  exact h

/-- A half for which no read is awaited: not FILLING, or with nothing requested yet. -/
theorem State.halfLaw_quiet {t : State} {ix : SlotIx} {i : HalfId} (hl : t.streams[ix].ownLoad ix)
    (hh : (t.streams[ix].half i).cond = .filling →
      (t.streams[ix].half i).requested = [] ∧ (t.streams[ix].half i).filled = 0)
    (hr : ∀ k : TagIx, (t.mem.tags[k]).read ix i = none) : t.halfLaw ix i := by
  have he : t.reads ix i = [] := List.filterMap_eq_nil_iff.2 fun k _ => hr k
  rw [State.halfLaw_iff, he]
  refine ⟨hl, by simp, fun hc => ?_⟩
  obtain ⟨h1, h2⟩ := hh hc
  rw [h1, h2]
  simp

theorem FetchLaw.ownLoad {s : State} (h : FetchLaw s) (ix : SlotIx) : s.streams[ix].ownLoad ix := (h ix .a).1

/-- A read in flight meets its half (R117). -/
theorem FetchLaw.awaits {s : State} (h : FetchLaw s) {k : TagIx} {ix : SlotIx} {i : HalfId} {q : TagEntry}
    (hk : (s.mem.tags[k]).read ix i = some q) : s.streams[ix].awaits i q :=
  ((s.halfLaw_iff ix i).1 (h ix i)).2.1 q (State.mem_reads.2 ⟨k, hk⟩)

/-- The law is about the streams' loads and halves and about the reads in flight. -/
theorem FetchLaw.of_eq {s t : State} (h : FetchLaw s) (hl : ∀ ix : SlotIx, t.streams[ix].load = s.streams[ix].load)
    (hc : ∀ ix : SlotIx, t.streams[ix].loaded = s.streams[ix].loaded)
    (hh : ∀ (ix : SlotIx) i, t.streams[ix].half i = s.streams[ix].half i)
    (hr : ∀ (k : TagIx) ix i, (t.mem.tags[k]).read ix i = (s.mem.tags[k]).read ix i) : FetchLaw t :=
  fun ix i => State.halfLaw_same (h ix i) (hl ix) (hc ix) (hh ix i) fun k => hr k ix i

theorem FetchLaw.same {s t : State} (h : FetchLaw s) (hs : t.streams = s.streams) (hm : t.mem.tags = s.mem.tags) :
    FetchLaw t := h.of_eq (by simp [hs]) (by simp [hs]) (by simp [hs]) (by simp [hm])

/-! ### Stops, loads and the act of a turn -/

theorem Half.released_quiet : Half.released.cond = .filling →
    Half.released.requested = [] ∧ Half.released.filled = 0 := by decide

/-- Streams stopped lose the reads awaited for them (R108, R131). -/
theorem FetchLaw.stopStreams {s : State} (h : FetchLaw s) (which : SlotIx → Bool) : FetchLaw (s.stopStreams which) := by
  intro ix i
  have hst := s.stopStreams_streams which ix
  have hm := fun k => Tag.marked_of (s.stopStreams_tags which k)
  by_cases hix : which ix = true ∧ s.streams[ix].loaded = true
  · rw [if_pos hix] at hst
    refine State.halfLaw_quiet (by rw [hst]; exact h.ownLoad ix) (by rw [hst, Stream.stopped_half]; exact
      Half.released_quiet) fun k => Tag.read_of_marked (hm k) fun q hq e he => ⟨ix, ?_, hix⟩
    rw [← (Tag.read_fields hq).1, ← he]; rfl
  · rw [if_neg hix] at hst
    refine State.halfLaw_same (h ix i) (by rw [hst]) (by rw [hst]) (by rw [hst]) fun k =>
      Tag.read_of_unmarked (hm k) ?_
    rintro e he - ⟨jx, hj, hjx⟩
    obtain rfl : ix = jx := Option.some.inj (he.symm.trans hj)
    exact hix hjx

/-- The commit queue applied stops streams and clears counts (R47, R109). -/
theorem FetchLaw.applyQueue {s : State} (h : FetchLaw s) : FetchLaw s.applyQueue.1 := by
  have ha := s.applyQueue_applied
  intro ix i
  have hm := fun k => Tag.marked_of (ha.tags k)
  by_cases hix : s.table.happens (s.commitQueue.flatMap Batch.entries) (fun u e => u.stops e ix) ∧
      s.streams[ix].loaded = true
  · have hst := (ha.cleared ix (ha.stopsClear ix hix.1)).1 hix
    refine State.halfLaw_quiet (by rw [hst]; exact h.ownLoad ix)
      (by rw [hst, Stream.countCleared_half, Stream.stopped_half]; exact Half.released_quiet) fun k =>
        Tag.read_of_marked (hm k) fun q hq e he => ⟨ix, ?_, hix⟩
    rw [← (Tag.read_fields hq).1, ← he]; rfl
  · have hst : s.applyQueue.1.streams[ix] = s.streams[ix].countCleared ∨ s.applyQueue.1.streams[ix] = s.streams[ix] :=
      (em _).imp (fun hc => (ha.cleared ix hc).2 hix) (fun hc => ha.kept ix hc)
    refine State.halfLaw_same (h ix i) (ha.load ix) (by obtain e | e := hst <;> rw [e]; rfl)
      (by obtain e | e := hst <;> rw [e]; exact Stream.countCleared_half _ _) fun k => Tag.read_of_unmarked (hm k) ?_
    rintro e he - ⟨jx, hj, hjx⟩
    obtain rfl : ix = jx := Option.some.inj (he.symm.trans hj)
    exact hix hjx

/-- The load of a SHOWN slot names the slot. -/
theorem Table.loadFor_ix {t : Table} {ix : SlotIx} {ld : StreamLoad} (h : t.loadFor ix = some ld) :
    ld.handle = handleOf ix (t.gen ix) := by
  unfold Table.loadFor at h
  split at h
  · cases h; rfl
  · cases h

theorem Half.assign_quiet (x : Half) (o : Option Nat) : (x.assign o).requested = [] ∧ (x.assign o).filled = 0 :=
  ⟨(x.assign_fields o).2.2.1, (x.assign_fields o).2.1⟩

/-- A stream restarted has nothing requested (R106). -/
theorem Stream.restarted_quiet (st : Stream) (ld : StreamLoad) (rs : Bool) (p a b : Nat) (i : HalfId) :
    ((st.restarted ld rs p a b).half i).requested = [] ∧ ((st.restarted ld rs p a b).half i).filled = 0 := by
  cases i <;> exact Half.assign_quiet _ _

/-- The loads of a frame turn (R106, R108, R131). -/
theorem FetchLaw.loadStreams {s : State} (h : FetchLaw s) (rs : List SlotIx) : FetchLaw (s.loadStreams rs) := by
  intro ix i
  have hst := s.loadStreams_streams rs ix
  have hm := fun k => Tag.marked_of (s.loadStreams_tags rs k)
  by_cases hix : (s.table.loadFor ix).isSome = true ∨ s.streams[ix].loaded = true
  · have hr : ∀ k : TagIx, ((s.loadStreams rs).mem.tags[k]).read ix i = none := fun k =>
      Tag.read_of_marked (hm k) fun q hq e he => ⟨ix, by rw [← (Tag.read_fields hq).1, ← he]; rfl, hix⟩
    cases hl : s.table.loadFor ix with
    | some ld =>
      rw [hl] at hst
      refine State.halfLaw_quiet ?_ (fun _ => by rw [hst]; exact Stream.restarted_quiet _ _ _ _ _ _ _) hr
      rw [hst]
      intro ld' he
      obtain rfl : ld = ld' := Option.some.inj he
      rw [Table.loadFor_ix hl, handleOf_ix]
    | none =>
      have hld : s.streams[ix].loaded = true := hix.resolve_left (by simp [hl])
      simp only [hl] at hst
      rw [if_pos hld] at hst
      exact State.halfLaw_quiet (by rw [hst]; exact h.ownLoad ix)
        (by rw [hst, Stream.stopped_half]; exact Half.released_quiet) hr
  · have hl : s.table.loadFor ix = none := by simpa using fun h => hix (.inl h)
    simp only [hl] at hst
    rw [if_neg fun h => hix (.inr h)] at hst
    refine State.halfLaw_same (h ix i) (by rw [hst]) (by rw [hst]) (by rw [hst]) fun k =>
      Tag.read_of_unmarked (hm k) ?_
    rintro e he - ⟨jx, hj, hjx⟩
    obtain rfl : ix = jx := Option.some.inj (he.symm.trans hj)
    exact hix hjx

/-! ### A half fails, a tag times out, a row ends -/

/-- A half FILLING its row that fails. -/
theorem Half.fail_of {h : Half} {r : Nat} (hr : h.row = some r) (hc : h.cond = .filling) :
    h.fail r = { h with cond := .failed } := if_pos ⟨hr, hc⟩

/-- The half of an unmarked read fails, and the read leaves its tag: no read is awaited for the half any more (R118,
R119, R131). -/
theorem FetchLaw.failed {s t : State} (h : FetchLaw s) {k : TagIx} {e₀ e : TagEntry} (hk : s.mem.tags[k] = .waiting e₀)
    (hd : e₀.discard = false) (he : e₀.request = e.request) (hst : t.streams = (s.failHalf e).streams)
    (ht : ∀ j : TagIx, t.mem.tags[j] = (s.mem.tags[j]).mark (·.sameRow e) ∨
      k = j ∧ ∀ ix i, (t.mem.tags[j]).read ix i = none) : FetchLaw t := by
  have hh : e₀.handle = e.handle ∧ e₀.half = e.half := ⟨show e₀.request.handle = e.request.handle by rw [he], show e₀.request.half = e.request.half by rw [he]⟩
  have hread : ∀ ix i, (s.mem.tags[k]).read ix i =
      if e.handle.ix? = some ix ∧ e.half = i then some e.request else none := by
    intro ix i
    rw [hk, Tag.read_waiting, hh.1, hh.2, he]
    simp [hd]
  intro ix i
  have hs := s.failHalf_streams_get e ix
  rw [← hst] at hs
  by_cases hix : e.handle.ix? = some ix ∧ e.half = i
  · obtain ⟨h1, rfl⟩ := hix
    have hq : (s.mem.tags[k]).read ix e.half = some e.request := by rw [hread, if_pos ⟨h1, rfl⟩]
    obtain ⟨hc, hr, -⟩ := h.awaits hq
    change _ = some e.row at hr
    rw [if_pos h1, Half.fail_of hr hc] at hs
    refine State.halfLaw_quiet (by rw [hs]; intro ld; rw [Stream.setHalf_load]; exact h.ownLoad ix ld)
      (by rw [hs, Stream.half_setHalf_same]; exact fun h => by cases h) fun j => ?_
    obtain e' | ⟨-, e'⟩ := ht j
    · rw [e']
      refine Tag.read_of_marked (Tag.marked_mark _ _) fun q hq' e₁ h₁ => ?_
      obtain ⟨-, hr', -⟩ := h.awaits hq'
      obtain ⟨hi, hi'⟩ := Tag.read_fields hq'
      have hrow : q.row = e.row := Option.some.inj (hr'.symm.trans hr)
      subst h₁
      simp only [TagEntry.sameRow, Bool.and_eq_true, beq_iff_eq]
      exact ⟨⟨hi.trans h1.symm, hi'⟩, hrow⟩
    · exact e' ix e.half
  · refine State.halfLaw_same (h ix i) ?_ ?_ ?_ fun j => ?_
    · rw [hs]; split <;> simp
    · rw [hs]; split <;> simp
    · rw [hs]
      split
      · next h1 => rw [Stream.half_setHalf, if_neg fun h2 => hix ⟨h1, h2⟩]
      · rfl
    · obtain e' | ⟨rfl, e'⟩ := ht j
      · rw [e']
        refine Tag.read_of_unmarked (Tag.marked_mark _ _) fun e₁ h1 h2 => ?_
        simp only [TagEntry.sameRow, Bool.and_eq_true, beq_iff_eq]
        rintro ⟨⟨h3, h4⟩, -⟩
        exact hix ⟨h3.symm.trans h1, h4.symm.trans h2⟩
      · rw [e', hread, if_neg hix]

/-- A read leaves its tag, and it was awaited no more. -/
theorem FetchLaw.gone {s t : State} (h : FetchLaw s) (hst : t.streams = s.streams) {k : TagIx}
    (hk : ∀ ix i, (s.mem.tags[k]).read ix i = none)
    (ht : ∀ j : TagIx, t.mem.tags[j] = s.mem.tags[j] ∨ k = j ∧ ∀ ix i, (t.mem.tags[j]).read ix i = none) : FetchLaw t :=
  h.of_eq (by simp [hst]) (by simp [hst]) (by simp [hst]) fun j ix i => by
    obtain e | ⟨rfl, e⟩ := ht j
    · rw [e]
    · rw [e, hk]

/-- A tag times out (R133). -/
theorem FetchLaw.quarantine {s : State} (h : FetchLaw s) {k : TagIx} {e₀ e : TagEntry}
    (hk : s.mem.tags[k] = .waiting e₀) (hd : e₀.discard = e.discard) (he : e₀.request = e.request) :
    FetchLaw (s.quarantine k e) := by
  have hs := s.quarantine_streams k e
  by_cases hm : e.discard = true
  · rw [if_pos hm] at hs
    refine h.gone (k := k) hs (fun ix i => ?_) fun j => ?_
    · rw [hk, Tag.read_waiting, hd, hm]; rfl
    · rw [State.quarantine_tags, if_pos hm]
      split
      · exact .inr ⟨‹_›, fun _ _ => rfl⟩
      · exact .inl rfl
  · rw [if_neg hm] at hs
    refine h.failed hk (by rw [hd]; simpa using hm) he hs fun j => ?_
    rw [State.quarantine_tags, if_neg hm]
    split
    · exact .inr ⟨‹_›, fun _ _ => rfl⟩
    · exact .inl rfl

theorem FetchLaw.timeoutTag {s : State} (h : FetchLaw s) (k : TagIx) : FetchLaw (s.timeoutTag k) := by
  obtain ⟨e, he, -, e'⟩ | ⟨-, e'⟩ := s.timeoutTag_cases k <;> rw [e']
  · exact h.quarantine he rfl rfl
  · exact h

theorem FetchLaw.ageTags {s : State} (h : FetchLaw s) : FetchLaw s.ageTags :=
  h.of_eq (fun _ => rfl) (fun _ => rfl) (fun _ _ => rfl) fun k ix i => by rw [State.ageTags_get, Tag.read_aged]

/-- A half that holds a row is one of the stream's halves with that row. -/
theorem Stream.holding_row {st : Stream} {r : Nat} {i : HalfId} (h : st.holding r = some i) :
    (st.half i).row = some r := by
  unfold Stream.holding at h
  split at h
  · cases h; assumption
  · split at h
    · cases h; assumption
    · cases h

theorem Stream.releasedHalf_row {st : Stream} {l r : Nat} {i : HalfId} (h : st.releasedHalf l = some (i, r)) :
    (st.half i).row = some r := by
  unfold Stream.releasedHalf at h
  split at h
  · obtain ⟨j, hj, he⟩ := Option.map_eq_some_iff.1 h
    cases he
    exact Stream.holding_row hj
  · cases h

/-- Of a stream the end of a line changes at most the half it releases, which takes a row afresh or is emptied. -/
theorem Stream.lineEnded_cases (st : Stream) (l : Nat) :
    (st.releasedHalf l = none ∧ st.lineEnded l = st) ∨ ∃ i r o, st.releasedHalf l = some (i, r) ∧
      st.lineEnded l = st.setHalf i ((st.half i).assign o) := by
  unfold Stream.lineEnded
  split
  · next i r h =>
    split
    · exact .inr ⟨i, r, some (r + 2), h, rfl⟩
    · exact .inr ⟨i, r, none, h, rfl⟩
  · next h => exact .inl ⟨h, rfl⟩

theorem State.activeLineEndAct_get (s : State) (l : Nat) (ix : SlotIx) :
    (s.activeLineEndAct l).streams[ix] = s.streams[ix].lineEnded l := tabSlots_get _ ix

theorem State.activeLineEndAct_tags (s : State) (l : Nat) (k : TagIx) :
    (s.activeLineEndAct l).mem.tags[k] = (s.mem.tags[k]).mark (s.releasesTag l) := State.markTags_get _ _ k

/-- The end of an active line releases halves and marks their reads (R112, R131). -/
theorem FetchLaw.activeLineEnd {s : State} (h : FetchLaw s) (l : Nat) : FetchLaw (s.activeLineEndAct l) := by
  intro ix i
  have hs := s.activeLineEndAct_get l ix
  have hm := fun k => s.activeLineEndAct_tags l k ▸ Tag.marked_mark (s.mem.tags[k]) (s.releasesTag l)
  obtain ⟨hn, e⟩ | ⟨j, r, o, hj, e⟩ := s.streams[ix].lineEnded_cases l <;> rw [e] at hs
  · refine State.halfLaw_same (h ix i) (by rw [hs]) (by rw [hs]) (by rw [hs]) fun k =>
      Tag.read_of_unmarked (hm k) fun e he _ => ?_
    simp only [State.releasesTag, he, hn]
    simp
  · by_cases hij : j = i
    · subst hij
      refine State.halfLaw_quiet (by rw [hs]; intro ld; rw [Stream.setHalf_load]; exact h.ownLoad ix ld)
        (fun _ => by rw [hs, Stream.half_setHalf_same]; exact Half.assign_quiet _ _) fun k =>
          Tag.read_of_marked (hm k) fun q hq e he => ?_
      obtain ⟨-, hr, -⟩ := h.awaits hq
      obtain ⟨hi, hi'⟩ := Tag.read_fields hq
      have hrow : q.row = r := Option.some.inj (hr.symm.trans (Stream.releasedHalf_row hj))
      subst he
      have hi₁ : e.handle.ix? = some ix := hi
      have hi₂ : e.half = j := hi'
      have hi₃ : e.row = r := hrow
      simp only [State.releasesTag, hi₁, hj, hi₂, hi₃]
      simp
    · refine State.halfLaw_same (h ix i) (by rw [hs, Stream.setHalf_load]) (by rw [hs, Stream.setHalf_loaded])
        (by rw [hs, Stream.half_setHalf, if_neg hij]) fun k => Tag.read_of_unmarked (hm k) fun e he he' => ?_
      simp only [State.releasesTag, he, hj, he']
      simp [hij]

end Sys2Proof.Machine
end

section
/-! PROOF. The fetch arbiter's pick (R113 to R116), and the laws of the reads in flight over every step, continued. -/

namespace Sys2Proof.Machine

/-! ### The candidate picked (R116) -/

/-- Of a best candidate and a new one the new one is taken exactly where its line is earlier. -/
theorem earlier_some (b n : Int × Pick) : earlier (some b) (some n) = if n.1 < b.1 then some n else some b := rfl

/-- The earliest of the candidates of a list of halves in slot order: the first of those with the earliest line. -/
theorem foldl_earlier (c : SlotIx × HalfId → Option (Int × Pick)) (l : List (SlotIx × HalfId))
    (hl : l.Pairwise (·.1 ≤ ·.1)) :
    (l.foldl (fun best x => earlier best (c x)) none = none ∧ ∀ x ∈ l, c x = none) ∨
      ∃ b, l.foldl (fun best x => earlier best (c x)) none = some b ∧ ∃ x ∈ l, c x = some b ∧
        ∀ y ∈ l, ∀ b', c y = some b' → b.1 < b'.1 ∨ b.1 = b'.1 ∧ x.1 ≤ y.1 := by
  induction l using List.reverseRecOn with
  | nil => simp
  | append_singleton l x ih =>
    obtain ⟨hl, -, hx⟩ := List.pairwise_append.1 hl
    have hmem : ∀ {P : SlotIx × HalfId → Prop}, (∀ y ∈ l ++ [x], P y) ↔ (∀ y ∈ l, P y) ∧ P x := by
      simp [or_imp, forall_and]
    rw [List.foldl_append, List.foldl_cons, List.foldl_nil]
    obtain ⟨hb, hnone⟩ | ⟨b, hb, z, hz, hzb, hmin⟩ := ih hl <;> rw [hb]
    · cases hc : c x with
      | none => exact .inl ⟨rfl, hmem.2 ⟨hnone, hc⟩⟩
      | some n =>
        refine .inr ⟨n, rfl, x, by simp, hc, hmem.2 ⟨fun y hy b' h => ?_, fun b' h => ?_⟩⟩
        · rw [hnone y hy] at h; cases h
        · rw [hc] at h; cases h; exact .inr ⟨rfl, le_refl _⟩
    · have hz' : z ∈ l ++ [x] := List.mem_append_left _ hz
      cases hc : c x with
      | none =>
        refine .inr ⟨b, rfl, z, hz', hzb, hmem.2 ⟨hmin, fun b' h => ?_⟩⟩
        rw [hc] at h; cases h
      | some n =>
        rw [earlier_some]
        split
        · next hlt =>
          refine .inr ⟨n, rfl, x, by simp, hc, hmem.2 ⟨fun y hy b' h => .inl ?_, fun b' h => ?_⟩⟩
          · obtain h | h := hmin y hy b' h
            · exact lt_trans hlt h
            · exact h.1 ▸ hlt
          · rw [hc] at h; cases h; exact .inr ⟨rfl, le_refl _⟩
        · next hlt =>
          refine .inr ⟨b, rfl, z, hz', hzb, hmem.2 ⟨hmin, fun b' h => ?_⟩⟩
          rw [hc] at h; cases h
          obtain h | h := lt_or_eq_of_le (not_lt.1 hlt)
          · exact .inl h
          · exact .inr ⟨h, hx z hz x (by simp)⟩

/-- The halves of all streams in slot order. -/
def allHalves : List (SlotIx × HalfId) := allSlots.flatMap fun ix => [(ix, .a), (ix, .b)]

theorem mem_allHalves (x : SlotIx × HalfId) : x ∈ allHalves := by
  obtain ⟨ix, i⟩ := x
  cases i <;> simp [allHalves]

theorem State.bestCandidate_eq (s : State) :
    s.bestCandidate = allHalves.foldl (fun best x => earlier best (s.candidate x.1 x.2)) none := by
  unfold allHalves
  rw [List.foldl_flatMap]
  rfl

/-- What the pick is: a candidate of the earliest line, and on that line of the lowest slot; none where no half has
one. -/
theorem State.bestCandidate_cases (s : State) :
    (s.bestCandidate = none ∧ ∀ ix i, s.candidate ix i = none) ∨
      ∃ b ix i, s.bestCandidate = some b ∧ s.candidate ix i = some b ∧
        ∀ jx j b', s.candidate jx j = some b' → b.1 < b'.1 ∨ b.1 = b'.1 ∧ ix ≤ jx := by
  rw [s.bestCandidate_eq]
  obtain ⟨hb, h⟩ | ⟨b, hb, x, -, hx, hmin⟩ := foldl_earlier (fun x => s.candidate x.1 x.2) allHalves (by decide)
  · exact .inl ⟨hb, fun ix i => h (ix, i) (mem_allHalves _)⟩
  · exact .inr ⟨b, x.1, x.2, hb, hx, fun jx j b' hb' => hmin (jx, j) (mem_allHalves _) b' hb'⟩

/-- The lowest segment of a half not yet requested (R116 rule 3). -/
theorem Half.nextSegment_iff (h : Half) (n seg : Nat) : h.nextSegment n = some seg ↔
    (seg < n ∧ seg ∉ h.requested) ∧ ∀ q, q < n → q ∉ h.requested → seg ≤ q := by
  unfold Half.nextSegment
  rw [List.find?_range_eq_some]
  simp only [List.contains_eq_mem, decide_eq_false_iff_not, List.mem_range, Bool.not_eq_eq_eq_not,
    Bool.not_true, Bool.not_false, decide_eq_true_eq]
  constructor
  · rintro ⟨h1, h2, h3⟩
    exact ⟨⟨h2, h1⟩, fun q hq hr => not_lt.1 fun hlt => hr (by simpa using h3 q hlt)⟩
  · rintro ⟨⟨h1, h2⟩, h3⟩
    exact ⟨h2, h1, fun q hq => by by_contra hr; exact absurd (h3 q (by omega) (by simpa using hr)) (by omega)⟩

/-- The pick of a candidate half: its lowest unrequested segment (R113, R116). -/
theorem State.candidate_iff {s : State} {ix : SlotIx} {i : HalfId} {b : Int × Pick} : s.candidate ix i = some b ↔
    ∃ ld r seg, (s.streams[ix].load = some ld ∧ (s.streams[ix].half i).row = some r ∧ s.streams[ix].cond = .running ∧
        (s.streams[ix].half i).cond = .filling ∧ (s.raster.linesBegun : Int) ≤ ld.y + (r : Int)) ∧
      (s.streams[ix].half i).nextSegment ld.segments = some seg ∧
      b = (ld.y + (r : Int), ⟨ix, i, r, seg, ld.handle, segmentAddress ld r seg, segmentBeats ld seg⟩) := by
  unfold State.candidate
  dsimp only
  constructor
  · intro h
    split at h
    · next ld r hl hr =>
      split at h
      · next hc =>
        obtain ⟨seg, h1, rfl⟩ := Option.map_eq_some_iff.1 h
        exact ⟨ld, r, seg, ⟨hl, hr, hc⟩, h1, rfl⟩
      · cases h
    · cases h
  · rintro ⟨ld, r, seg, ⟨h1, h2, h3⟩, h4, rfl⟩
    rw [h1, h2]
    dsimp only
    rw [if_pos h3, h4]
    rfl

/-- The lowest-numbered FREE tag (R114). -/
theorem State.lowestFreeTag_iff {s : State} {k : TagIx} : s.lowestFreeTag = some k ↔
    s.mem.tags[k] = .free ∧ ∀ j : TagIx, j < k → s.mem.tags[j] ≠ .free := by
  have hfree : ∀ x : Tag, x.isFree = true ↔ x = .free := fun x => by cases x <;> simp [Tag.isFree]
  have hpw : allTags.Pairwise (· < ·) := by decide
  unfold State.lowestFreeTag
  rw [List.find?_eq_some_iff_append]
  constructor
  · rintro ⟨h1, l, r, hl, h2⟩
    refine ⟨(hfree _).1 h1, fun j hj hjf => ?_⟩
    have hm : j ∈ l ++ k :: r := hl ▸ mem_allTags j
    rw [hl, List.pairwise_append] at hpw
    obtain ⟨-, hkr, hlk⟩ := hpw
    obtain hm | hm := List.mem_append.1 hm
    · have := h2 j hm
      rw [(hfree _).2 hjf] at this
      cases this
    · obtain rfl | hm := List.mem_cons.1 hm
      · exact lt_irrefl _ hj
      · exact lt_asymm hj ((List.pairwise_cons.1 hkr).1 j hm)
  · rintro ⟨h1, h2⟩
    obtain ⟨l, r, hl⟩ := List.append_of_mem (mem_allTags k)
    refine ⟨(hfree _).2 h1, l, r, hl, fun j hj => ?_⟩
    rw [hl, List.pairwise_append] at hpw
    have hlt := hpw.2.2 j hj k (by simp)
    cases hf : (s.mem.tags[j]).isFree with
    | true => exact absurd ((hfree _).1 hf) (h2 j hlt)
    | false => rfl

/-! ### A tag's read comes or goes -/

/-- A tag that gains or loses a read: of two tag vectors that differ at one tag, one has that tag's read more. -/
theorem State.reads_perm {s t : State} {ix : SlotIx} {i : HalfId} {k : TagIx} {q : TagEntry}
    (hs : (s.mem.tags[k]).read ix i = some q) (ht : (t.mem.tags[k]).read ix i = none)
    (h : ∀ j : TagIx, k ≠ j → t.mem.tags[j] = s.mem.tags[j]) : (s.reads ix i).Perm (q :: t.reads ix i) := by
  have hp : allTags.Perm (k :: allTags.erase k) := List.perm_cons_erase (mem_allTags k)
  have hn : k ∉ allTags.erase k := allTags_nodup.not_mem_erase
  have he : (allTags.erase k).filterMap (fun j => (s.mem.tags[j]).read ix i) =
      (allTags.erase k).filterMap fun j => (t.mem.tags[j]).read ix i :=
    List.filterMap_congr fun j hj => by rw [h j fun e => hn (e ▸ hj)]
  have h1 : (k :: allTags.erase k).filterMap (fun j => (s.mem.tags[j]).read ix i) =
      q :: (k :: allTags.erase k).filterMap fun j => (t.mem.tags[j]).read ix i := by
    rw [List.filterMap_cons, List.filterMap_cons, hs, ht, he]
  exact (hp.filterMap _).trans (h1 ▸ (hp.symm.filterMap _).cons q)

/-- A pick offered: one more segment requested, one more read awaited (R114). -/
theorem FetchLaw.offer {s : State} (h : FetchLaw s) {k : TagIx} {d : Int} {p : Pick} (hk : s.mem.tags[k] = .free)
    {jx : SlotIx} {j : HalfId} (hc : s.candidate jx j = some (d, p)) : FetchLaw (s.offer k p) := by
  obtain ⟨ld, r, seg, ⟨hl, hr, hrun, hf, -⟩, hseg, he⟩ := State.candidate_iff.1 hc
  obtain ⟨⟨hlt, hnew⟩, -⟩ := (Half.nextSegment_iff _ _ _).1 hseg
  cases he
  intro ix i
  have hs := s.offer_streams_get k ⟨jx, j, r, seg, ld.handle, segmentAddress ld r seg, segmentBeats ld seg⟩ ix
  have ht := s.offer_tags_get k ⟨jx, j, r, seg, ld.handle, segmentAddress ld r seg, segmentBeats ld seg⟩
  have hown := h.ownLoad jx ld hl
  generalize s.offer k ⟨jx, j, r, seg, ld.handle, segmentAddress ld r seg, segmentBeats ld seg⟩ = t at hs ht ⊢
  have htk := ht k
  rw [if_pos rfl] at htk
  dsimp only at hs htk
  by_cases hix : jx = ix ∧ j = i
  · obtain ⟨rfl, rfl⟩ := hix
    rw [if_pos rfl] at hs
    have hperm : (t.reads jx j).Perm (_ :: s.reads jx j) := State.reads_perm (k := k)
      (by rw [htk, Tag.read_waiting, if_pos ⟨rfl, hown, rfl⟩]) (by rw [hk]; rfl) fun m hm => by
        rw [ht, if_neg hm]
    obtain ⟨ho, haw, hcount⟩ := (s.halfLaw_iff jx j).1 (h jx j)
    obtain ⟨hnd, hin, hlen⟩ := hcount hf
    rw [State.halfLaw_iff, hs]
    refine ⟨fun ld' hl' => ho ld' (by rwa [Stream.setHalf_load] at hl'), fun q hq => ?_, fun _ => ?_⟩
    · unfold Stream.awaits
      rw [Stream.half_setHalf_same, Stream.setHalf_loaded, Stream.setHalf_load]
      obtain rfl | hq := List.mem_cons.1 (hperm.mem_iff.1 hq)
      · exact ⟨hf, hr, by rw [Stream.loaded_iff, hrun]; decide, by rw [hl]; rfl, List.mem_cons_self⟩
      · obtain ⟨h1, h2, h3, h4, h5⟩ := haw q hq
        exact ⟨h1, h2, h3, h4, List.mem_cons_of_mem _ h5⟩
    · rw [Stream.half_setHalf_same, Stream.setHalf_load, hperm.length_eq]
      refine ⟨List.nodup_cons.2 ⟨hnew, hnd⟩, fun x hx => ?_, by simp only [List.length_cons]; omega⟩
      obtain rfl | hx := List.mem_cons.1 hx
      · exact ⟨ld, hl, hlt⟩
      · exact hin x hx
  · refine State.halfLaw_same (h ix i) ?_ ?_ ?_ fun m => ?_
    · rw [hs]; split <;> simp
    · rw [hs]; split <;> simp
    · rw [hs]
      split
      · next h1 => rw [Stream.half_setHalf, if_neg fun h2 => hix ⟨h1, h2⟩]
      · rfl
    · by_cases hm : k = m
      · subst hm
        rw [htk, hk, Tag.read_waiting, if_neg]
        · rfl
        · rintro ⟨-, h1, h2⟩
          exact hix ⟨Option.some.inj (hown.symm.trans h1), h2⟩
      · rw [ht, if_neg hm]

end Sys2Proof.Machine
end

section
/-! PROOF. The laws of the reads in flight and of STUCK over every step, continued: completions, the laws of every row, and
the whole step (R117, R129 to R131, R135). -/

namespace Sys2Proof.Machine

/-! ### A completion (R117, R118, R129 to R131) -/

theorem State.freeTag_get (s : State) (t k : TagIx) :
    (s.freeTag t).mem.tags[k] = if t = k then .free else s.mem.tags[k] := getTag_set _ _ _ _

/-- Data delivered for a tag whose read was awaited: one segment more filled, one read fewer awaited; the last one
makes the half READY, and then none is awaited (R117). -/
theorem FetchLaw.delivered {s t : State} (h : FetchLaw s) {k : TagIx} {e : TagEntry} {beats : List Beat}
    (hk : s.mem.tags[k] = .waiting e) (hd : e.discard = false) (ht : (s.freeTag k).deliver e beats = .next t) :
    FetchLaw t := by
  have hread : ∀ ix i, (s.mem.tags[k]).read ix i =
      if e.handle.ix? = some ix ∧ e.half = i then some e.request else none := by
    intro ix i
    rw [hk, Tag.read_waiting]
    simp [hd]
  have htag := s.freeTag_get k
  unfold State.deliver at ht
  split at ht
  · next hn =>
    rw [next_inj ht]
    exact h.gone (k := k) rfl (fun ix i => by rw [hread, hn]; simp) fun j => by
      rw [htag]; split
      · exact .inr ⟨‹_›, fun _ _ => rfl⟩
      · exact .inl rfl
  · next jx hjx =>
    have hq : (s.mem.tags[k]).read jx e.half = some e.request := by rw [hread, if_pos ⟨hjx, rfl⟩]
    obtain ⟨hc, hr, -⟩ := h.awaits hq
    have hf : ((s.freeTag k).streams[jx].half e.half).fills e.row = true := by
      simp only [Half.fills, Bool.and_eq_true, beq_iff_eq]; exact ⟨hr, hc⟩
    dsimp only at ht
    rw [if_pos hf] at ht
    split at ht
    case h_2 => cases ht
    case h_1 place ld hpl hl =>
    split at ht
    case isFalse => cases ht
    rw [next_inj ht]
    clear ht hf hpl
    change s.streams[jx].load = some ld at hl
    obtain ⟨ho, haw, hcount⟩ := (s.halfLaw_iff jx e.half).1 (h jx e.half)
    obtain ⟨hnd, hin, hlen⟩ := hcount hc
    intro ix i
    generalize hu : State.setStream _ _ _ = u
    have hs : u.streams[ix] = if jx = ix then s.streams[jx].setHalf e.half
        ((s.streams[jx].half e.half).filledOne ld.segments) else s.streams[ix] := by
      rw [← hu]; exact State.setStream_get _ _ _ _
    have hut : ∀ m : TagIx, u.mem.tags[m] = if k = m then .free else s.mem.tags[m] := fun m => by
      rw [← hu]; exact htag m
    have hutk := hut k
    rw [if_pos rfl] at hutk
    by_cases hix : jx = ix ∧ e.half = i
    · obtain ⟨rfl, rfl⟩ := hix
      rw [if_pos rfl] at hs
      have hperm : (s.reads jx e.half).Perm (e.request :: u.reads jx e.half) :=
        State.reads_perm hq (by rw [hutk]; rfl) fun m hm => by rw [hut, if_neg hm]
      have hle : (s.streams[jx].half e.half).requested.length ≤ ld.segments := by
        have hsub : (s.streams[jx].half e.half).requested ⊆ List.range ld.segments := fun x hx => by
          obtain ⟨ld', h1, h2⟩ := hin x hx
          rw [hl] at h1; cases h1
          exact List.mem_range.2 h2
        simpa using (List.subperm_of_subset hnd hsub).length_le
      rw [hperm.length_eq, List.length_cons] at hlen
      rw [State.halfLaw_iff, hs]
      refine ⟨fun ld' hl' => ho ld' (by rwa [Stream.setHalf_load] at hl'), fun q hq => ?_, fun _ => ?_⟩
      · unfold Stream.awaits
        rw [Stream.half_setHalf_same, Stream.setHalf_loaded, Stream.setHalf_load]
        obtain ⟨-, h2, h3, h4, h5⟩ := haw q (hperm.mem_iff.2 (List.mem_cons_of_mem _ hq))
        have hpos : 0 < (u.reads jx e.half).length := List.length_pos_of_mem hq
        exact ⟨if_neg (by omega), h2, h3, h4, h5⟩
      · rw [Stream.half_setHalf_same, Stream.setHalf_load]
        exact ⟨hnd, hin, by simp only [Half.filledOne]; omega⟩
    · refine State.halfLaw_same (h ix i) ?_ ?_ ?_ fun m => ?_
      · rw [hs]; split
        · next e => subst e; simp
        · rfl
      · rw [hs]; split
        · next e => subst e; simp
        · rfl
      · rw [hs]
        split
        · next h1 => subst h1; rw [Stream.half_setHalf, if_neg fun h2 => hix ⟨rfl, h2⟩]
        · rfl
      · by_cases hm : k = m
        · subst hm
          rw [hutk, hread, if_neg]
          · rfl
          · rintro ⟨h1, h2⟩
            exact hix ⟨Option.some.inj (hjx.symm.trans h1), h2⟩
        · rw [hut, if_neg hm]

/-- A completion matched with its tag (R129, R130). -/
theorem FetchLaw.matchTag {s t : State} (h : FetchLaw s) {k : TagIx} {error : Bool} {beats : List Beat}
    (ht : s.matchTag k error beats = .next t) : FetchLaw t := by
  have htag := s.freeTag_get k
  have hgone : (∀ ix i, (s.mem.tags[k]).read ix i = none) → FetchLaw (s.freeTag k) := fun hn =>
    h.gone (k := k) rfl hn fun j => by
      rw [htag]; split
      · exact .inr ⟨‹_›, fun _ _ => rfl⟩
      · exact .inl rfl
  unfold State.matchTag at ht
  split at ht
  · rw [next_inj ht]; exact h.same (State.postSpurious_streams _) (by rw [State.postSpurious_mem])
  · next e he => rw [next_inj ht]; exact hgone fun ix i => by rw [he]; rfl
  · next e he =>
    split at ht
    · next hd => rw [next_inj ht]; exact hgone fun ix i => by rw [he, Tag.read_waiting, hd]; rfl
    · next hd =>
      have hd : e.discard = false := by simpa using hd
      split at ht
      · exact h.delivered he hd ht
      · rw [next_inj ht]
        refine h.failed he hd rfl (t := (s.freeTag k).deliverError e) ?_ fun j => ?_
        · rw [State.deliverError_streams]
          unfold State.failHalf
          cases e.handle.ix? <;> rfl
        · rw [State.deliverError_mem, State.failHalf_tags_get, htag]
          split
          · exact .inr ⟨‹_›, fun _ _ => rfl⟩
          · exact .inl rfl

/-! ### The law of STUCK (R135) -/

/-- The fetch state is STUCK exactly while all eight tags are QUARANTINED. -/
theorem stuckLaw_iff (s : State) : StuckLaw s ↔ (s.mem.fetchState = .stuck ↔ s.mem.allQuarantined) := Iff.rfl

theorem StuckLaw.of_eq {s t : State} (h : StuckLaw s) (hf : t.mem.fetchState = s.mem.fetchState)
    (ht : ∀ k : TagIx, (t.mem.tags[k]).isQuarantined = (s.mem.tags[k]).isQuarantined) : StuckLaw t := by
  rw [stuckLaw_iff] at h ⊢
  unfold MemPort.allQuarantined at *
  simp only [ht, hf]
  exact h

theorem StuckLaw.same {s t : State} (h : StuckLaw s) (hm : t.mem = s.mem) : StuckLaw t := by
  rw [stuckLaw_iff] at h ⊢; rwa [hm]

/-- Tags marked leave the law. -/
theorem Tag.marked_isQuarantined {x y : Tag} {P : TagEntry → Prop} (h : x.marked y P) :
    y.isQuarantined = x.isQuarantined := by
  cases x with
  | waiting e => obtain ⟨d, rfl, -⟩ := h; rfl
  | free => rw [show y = .free from h]
  | quarantined e => rw [show y = .quarantined e from h]

/-- A part with a tag that is not QUARANTINED is RUNNING. -/
theorem StuckLaw.of_running {t : State} {k : TagIx} (hf : t.mem.fetchState = .running)
    (hk : (t.mem.tags[k]).isQuarantined = false) : StuckLaw t := by
  rw [stuckLaw_iff, hf]
  exact ⟨fun h => (nomatch h), fun h => by rw [h k] at hk; cases hk⟩

/-- A part with a tag that is not QUARANTINED was RUNNING. -/
theorem StuckLaw.running {s : State} (h : StuckLaw s) {k : TagIx} (hk : (s.mem.tags[k]).isQuarantined = false) :
    s.mem.fetchState = .running := by
  rw [stuckLaw_iff] at h
  cases hf : s.mem.fetchState with
  | running => rfl
  | stuck => rw [h.1 hf k] at hk; cases hk

/-- The check for STUCK makes the law of a part that was RUNNING. -/
theorem StuckLaw.checkStuck {s : State} (hf : s.mem.fetchState = .running) : StuckLaw s.checkStuck := by
  rw [stuckLaw_iff]
  obtain ⟨ha, e⟩ | ⟨ha, e⟩ := s.checkStuck_cases <;> rw [e]
  · rw [State.postFetchStuck_mem]
    exact ⟨fun _ => ha, fun _ => rfl⟩
  · rw [hf]
    exact ⟨fun h => (nomatch h), fun h => absurd h ha⟩

theorem StuckLaw.quarantine {s : State} (h : StuckLaw s) {k : TagIx} {e₀ : TagEntry} (e : TagEntry)
    (hk : s.mem.tags[k] = .waiting e₀) : StuckLaw (s.quarantine k e) := by
  have hf := h.running (k := k) (by rw [hk]; rfl)
  unfold State.quarantine
  refine StuckLaw.checkStuck ?_
  split
  · exact hf
  · rw [State.failTimedOut_mem, State.failHalf_mem]; exact hf

theorem StuckLaw.timeoutTag {s : State} (h : StuckLaw s) (k : TagIx) : StuckLaw (s.timeoutTag k) := by
  obtain ⟨e, he, -, e'⟩ | ⟨-, e'⟩ := s.timeoutTag_cases k <;> rw [e']
  · exact h.quarantine e he
  · exact h

theorem StuckLaw.ageTags {s : State} (h : StuckLaw s) : StuckLaw s.ageTags :=
  h.of_eq rfl fun k => by rw [State.ageTags_get]; cases s.mem.tags[k] <;> rfl

theorem StuckLaw.stopStreams {s : State} (h : StuckLaw s) (which : SlotIx → Bool) : StuckLaw (s.stopStreams which) :=
  h.of_eq rfl fun k => Tag.marked_isQuarantined (Tag.marked_of (s.stopStreams_tags which k))

theorem StuckLaw.loadStreams {s : State} (h : StuckLaw s) (rs : List SlotIx) : StuckLaw (s.loadStreams rs) :=
  h.of_eq rfl fun k => Tag.marked_isQuarantined (Tag.marked_of (s.loadStreams_tags rs k))

theorem StuckLaw.applyQueue {s : State} (h : StuckLaw s) : StuckLaw s.applyQueue.1 :=
  h.of_eq (by rw [s.applyQueue_applied.mem]) fun k => Tag.marked_isQuarantined (Tag.marked_of (s.applyQueue_applied.tags k))

theorem StuckLaw.matchTag {s t : State} (h : StuckLaw s) {k : TagIx} {error : Bool} {beats : List Beat}
    (ht : s.matchTag k error beats = .next t) : StuckLaw t := by
  have hfree : ((s.freeTag k).mem.tags[k]).isQuarantined = false := by rw [State.freeTag_get, if_pos rfl]; rfl
  have hf : StuckLaw (s.freeTag k) := StuckLaw.of_running (k := k) rfl hfree
  obtain ⟨-, e⟩ | e | ⟨e, -, -, ⟨-, hd⟩ | ⟨-, e'⟩⟩ := State.matchTag_next ht
  · rw [e]; exact h.same (State.postSpurious_mem _)
  · rw [e]; exact hf
  · obtain e' | ⟨ix, seg, ld, -, -, -, -, e'⟩ := State.deliver_next hd <;> rw [e']
    · exact hf
    · exact hf.same rfl
  · rw [e']
    refine hf.of_eq (by rw [State.deliverError_mem, State.failHalf_mem]) fun j => ?_
    rw [State.deliverError_mem, State.failHalf_tags_get, Tag.mark_isQuarantined]

/-! ### The whole step -/

/-- The two laws together. -/
def State.fetchLaws (s : State) : Prop := FetchLaw s ∧ StuckLaw s

theorem State.fetchLaws_same {s t : State} (h : s.fetchLaws) (hs : t.streams = s.streams) (hm : t.mem = s.mem) :
    t.fetchLaws := ⟨h.1.same hs (by rw [hm]), h.2.same hm⟩

theorem State.fetchLaws_lineStart {s : State} (h : s.fetchLaws) : s.lineStartAct.fetchLaws :=
  State.lineStartAct_keeps (P := State.fetchLaws) ⟨h.1.ageTags, h.2.ageTags⟩ fun _ k hu => ⟨hu.1.timeoutTag k, hu.2.timeoutTag k⟩

theorem State.fetchLaws_reset : State.reset.fetchLaws := by
  have hst : ∀ ix : SlotIx, State.reset.streams[ix].load = none ∧ State.reset.streams[ix].halfA.cond = .empty ∧
    State.reset.streams[ix].halfB.cond = .empty := by decide
  have htag : ∀ k : TagIx, State.reset.mem.tags[k] = .free := by decide
  refine ⟨fun ix i => State.halfLaw_quiet (fun ld h => ?_) (fun h => ?_) fun k => by rw [htag]; rfl,
    StuckLaw.of_running (k := 0) rfl (by rw [htag]; rfl)⟩
  · rw [(hst ix).1] at h; cases h
  · have : (State.reset.streams[ix].half i).cond = .empty := by
      cases i
      · exact (hst ix).2.1
      · exact (hst ix).2.2
    rw [this] at h
    cases h

theorem Stream.fetchReset_half (st : Stream) (i : HalfId) : st.fetchReset.half i = (st.half i).emptied := by
  cases i <;> rfl

/-- RESET_FETCH frees every tag and empties every half (R123, R137). -/
theorem State.fetchLaws_resetFetch {s : State} (h : s.fetchLaws) : s.resetFetch.fetchLaws := by
  have htag : ∀ k : TagIx, s.resetFetch.mem.tags[k] = .free := fun k => tabTags_get _ k
  have hst : ∀ ix : SlotIx, s.resetFetch.streams[ix] = s.streams[ix].fetchReset := fun ix => tabSlots_get _ ix
  refine ⟨fun ix i => State.halfLaw_quiet ?_ ?_ fun k => by rw [htag]; rfl,
    StuckLaw.of_running (k := 0) rfl (by rw [htag]; rfl)⟩
  · rw [hst]; exact h.1.ownLoad ix
  · rw [hst, Stream.fetchReset_half]; exact fun h => by cases h

theorem CommandAct.fetchLaws {p : Port} {u v : State} (h : CommandAct p u v) (hu : u.fetchLaws) : v.fetchLaws := by
  have same : ∀ {v : State}, v.streams = u.streams → v.mem = u.mem → v.fetchLaws := State.fetchLaws_same hu
  cases h with
  | committed h =>
    have he : (u.enqueue p).fetchLaws := same (by simp) (by simp)
    simp only [State.acceptCommit]
    split
    · exact ⟨he.1.applyQueue, he.2.applyQueue⟩
    · exact he
  | stopped ho =>
    have h0 : u.enterOff.fetchLaws := hu
    have h1 : u.enterOff.applyQueue.1.streamsOff.fetchLaws :=
      ⟨h0.1.applyQueue.stopStreams _, h0.2.applyQueue.stopStreams _⟩
    exact State.fetchLaws_same h1 (by simp [State.stopOutput]) (by simp [State.stopOutput])
  | timeoutSet n h1 h2 => exact ⟨hu.1.same rfl rfl, hu.2.of_eq rfl fun _ => rfl⟩
  | fetchReset => exact State.fetchLaws_resetFetch hu
  | _ => exact same (by simp) (by simp)

theorem Stream.examined_fields (st : Stream) (l : Nat) : (st.examined l).load = st.load ∧
    (st.examined l).cond = st.cond ∧ ∀ i, (st.examined l).half i = st.half i := by
  unfold Stream.examined
  split
  · split <;> exact ⟨rfl, rfl, fun i => by cases i <;> rfl⟩
  · exact ⟨rfl, rfl, fun _ => rfl⟩

theorem Stream.frameEnded_fields (st : Stream) : st.frameEnded.load = st.load ∧
    st.frameEnded.cond = st.cond ∧ ∀ i, st.frameEnded.half i = st.half i := by
  unfold Stream.frameEnded
  split
  · exact ⟨rfl, rfl, fun i => by cases i <;> rfl⟩
  · exact ⟨rfl, rfl, fun _ => rfl⟩

/-- Streams whose loads, conditions and halves stand keep the laws. -/
theorem State.fetchLaws_of_fields {s t : State} (h : s.fetchLaws) (hm : t.mem = s.mem)
    (hs : ∀ ix : SlotIx, t.streams[ix].load = s.streams[ix].load ∧ t.streams[ix].cond = s.streams[ix].cond ∧
      ∀ i, t.streams[ix].half i = s.streams[ix].half i) : t.fetchLaws :=
  ⟨h.1.of_eq (fun ix => (hs ix).1) (fun ix => by unfold Stream.loaded; rw [(hs ix).2.1]) (fun ix => (hs ix).2.2)
    (by simp [hm]), h.2.same hm⟩

theorem State.fetchLaws_activeLineStart {s : State} (h : s.fetchLaws) (l : Nat) :
    ((s.activeLineStartAct l).pinsDriven).fetchLaws := by
  refine State.fetchLaws_of_fields h rfl fun ix => ?_
  rw [show ((s.activeLineStartAct l).pinsDriven).streams[ix] = _ from tabSlots_get _ ix]
  exact Stream.examined_fields _ l

theorem State.fetchLaws_activeLineEnd {s : State} (h : s.fetchLaws) (l : Nat) : (s.activeLineEndAct l).fetchLaws :=
  ⟨h.1.activeLineEnd l, h.2.of_eq rfl fun k => by rw [State.activeLineEndAct_tags, Tag.mark_isQuarantined]⟩

theorem State.fetchLaws_activeEnd {s : State} (h : s.fetchLaws) : s.activeEndAct.fetchLaws := by
  refine State.fetchLaws_of_fields h (State.activeEndAct_mem _) fun ix => ?_
  rw [show s.activeEndAct.streams[ix] = _ from tabSlots_get _ ix]
  exact Stream.frameEnded_fields _

theorem State.fetchLaws_takeTurn {s : State} (h : s.fetchLaws) (turn : PendingTurn) : (s.takeTurn turn).fetchLaws := by
  obtain ⟨-, e⟩ | ⟨-, e⟩ := s.takeTurn_cases turn <;> rw [e]
  · exact State.fetchLaws_same h rfl rfl
  · have h0 : ({ s with turn := none } : State).fetchLaws := h
    have h1 : ({ s with turn := none } : State).applyQueue.1.fetchLaws := ⟨h0.1.applyQueue, h0.2.applyQueue⟩
    have h2 := State.fetchLaws_same h1 (State.postTurn_streams _ turn) (State.postTurn_mem _ turn)
    unfold State.closeTurn
    split
    · exact ⟨h2.1.loadStreams _, h2.2.loadStreams _⟩
    · exact ⟨h2.1.stopStreams _, h2.2.stopStreams _⟩

theorem State.fetchLaws_suspend {s : State} (h : s.fetchLaws) (r : Handle) : (s.suspend r).fetchLaws := by
  obtain e | ⟨ix, o, w, -, -, -, e⟩ := s.suspend_cases r <;> rw [e]
  · exact h
  · have h0 : ({ s with table := s.table.setBody ix (.opened o .suspended w) } : State).fetchLaws := h
    exact State.fetchLaws_same ⟨h0.1.stopStreams _, h0.2.stopStreams _⟩ (State.postSuspended_streams _ _ _ _)
      (State.postSuspended_mem _ _ _ _)

/-- An event taken, by its row or at a clock edge. -/
theorem State.takeEvent_fetchLaws {e : RasterEvent} {s t : State} (h : s.takeEvent e = .next t) (hs : s.fetchLaws) :
    t.fetchLaws := by
  have took : (s.tookEvent e).fetchLaws := State.fetchLaws_same hs rfl rfl
  cases e with
  | lineStart l => rw [next_inj h]; exact State.fetchLaws_lineStart took
  | frameTurn => rw [next_inj h]; exact State.fetchLaws_same took (by simp) (by simp)
  | activeLineStart l => rw [(State.drive_next h).2]; exact State.fetchLaws_activeLineStart took l
  | activeLineEnd l => rw [next_inj h]; exact State.fetchLaws_activeLineEnd took l
  | activeEnd => rw [next_inj h]; exact State.fetchLaws_activeEnd took

theorem State.takeEvents_fetchLaws {es : List RasterEvent} {s t : State} (h : State.takeEvents es s = .next t)
    (hs : s.fetchLaws) : t.fetchLaws := by
  induction es generalizing s with
  | nil => rw [next_inj h]; exact hs
  | cons e es ih =>
    unfold State.takeEvents at h
    split at h
    · exact ih h (State.takeEvent_fetchLaws ‹_› hs)
    · cases h
    · cases h

/-- The rows that take no command and are no frame. A completion is looked at by its tag, for the laws keep only where
the read that leaves its tag is one that its half no longer awaits, or awaits and gets. -/
theorem exec_event_fetchLaws {i : Instr} {s t : State} (hi : i.command? = none) (hm : i.moment? = none)
    (h : exec i s = .next t) (hs : s.fetchLaws) : t.fetchLaws := by
  have same : ∀ {v : State}, v.streams = s.streams → v.mem = s.mem → v.fetchLaws := State.fetchLaws_same hs
  have took : ∀ e, (s.tookEvent e).fetchLaws := fun _ => same rfl rfl
  have unbeaten : ∀ held, ({ s with mem := { s.mem with beats := held } } : State).fetchLaws := fun _ =>
    ⟨hs.1.same rfl rfl, hs.2.of_eq rfl fun _ => rfl⟩
  cases i <;> simp only [Instr.command?, Instr.moment?, reduceCtorEq] at hi hm <;> simp only [exec] at h
  case deviceReset => rw [next_inj h]; exact State.fetchLaws_same State.fetchLaws_reset rfl rfl
  case unknownCommandCode p =>
    obtain e | ⟨c, r, -, -, e, -⟩ := execUnknownCommandCode_cases h <;> rw [e]
    · exact hs
    · exact same (by simp) (by simp)
  case frameTurn => obtain e | ⟨-, e⟩ := execFrameTurn_cases h <;> rw [e]; exacts [hs, same rfl rfl]
  case frameTurnTaken =>
    obtain e | ⟨turn, -, -, e⟩ := execFrameTurnTaken_cases h <;> rw [e]
    exacts [hs, State.fetchLaws_takeTurn hs turn]
  case suspensionRequestTaken =>
    obtain e | ⟨r, rs, -, -, e⟩ := execSuspensionRequestTaken_cases h <;> rw [e]
    exacts [hs, State.fetchLaws_suspend (s := s.dropRequest) (same rfl rfl) r]
  case linkResetAbandon p =>
    obtain e | ⟨-, e⟩ := execLinkResetAbandon_cases h <;> rw [e]
    exacts [hs, same (by simp) (by simp)]
  case lineStart =>
    obtain e | ⟨l, -, e⟩ := execLineStart_cases h <;> rw [e]
    exacts [hs, State.fetchLaws_lineStart (took _)]
  case tagTimeout k =>
    obtain e | ⟨l, w, -, hk, -, e⟩ := execTagTimeout_cases h <;> rw [e]
    exacts [hs, ⟨hs.1.quarantine hk rfl rfl, hs.2.quarantine _ hk⟩]
  case activeLineStart =>
    obtain e | ⟨l, -, e⟩ := execActiveLineStart_cases h <;> rw [e]
    exacts [hs, State.fetchLaws_activeLineStart (took _) l]
  case activeLineEnd =>
    obtain e | ⟨l, -, e⟩ := execActiveLineEnd_cases h <;> rw [e]
    exacts [hs, State.fetchLaws_activeLineEnd (took _) l]
  case activeEnd =>
    obtain e | ⟨-, e⟩ := execActiveEnd_cases h <;> rw [e]
    exacts [hs, State.fetchLaws_activeEnd (took _)]
  case fetchPick =>
    obtain e | ⟨k, d, pick, -, -, hk, hb, e⟩ := execFetchPick_cases h <;> rw [e]
    · exact hs
    · have hfree := (State.lowestFreeTag_iff.1 hk).1
      obtain ⟨hn, -⟩ | ⟨b, ix, i, hb', hc, -⟩ := s.bestCandidate_cases
      · rw [hn] at hb; cases hb
      · obtain rfl := Option.some.inj (hb.symm.trans hb')
        exact ⟨hs.1.offer hfree hc, hs.2.of_eq rfl fun j => by
          rw [State.offer_tags_get]; split
          · next e => subst e; rw [hfree]; rfl
          · rfl⟩
  case requestAccept =>
    obtain ⟨-, e⟩ | ⟨o, -, ⟨-, e⟩ | ⟨-, e⟩⟩ := execRequestAccept_cases h <;> rw [e]
    · exact hs
    · exact ⟨hs.1.same rfl rfl, hs.2.of_eq rfl fun _ => rfl⟩
    · refine ⟨hs.1.of_eq (fun _ => rfl) (fun _ => rfl) (fun _ _ => rfl) fun k ix i => ?_, hs.2.of_eq rfl fun k => ?_⟩
      · rw [State.setTag_get]; split
        · next e => subst e; exact Tag.read_acceptedNow _ _ _
        · rfl
      · rw [State.setTag_get]; split
        · next e => subst e; cases s.mem.tags[o.tag] <;> rfl
        · rfl
  case completion =>
    obtain ⟨held, e⟩ | ⟨k, error, all, hmatch⟩ := execCompletion_cases h
    · rw [e]; exact unbeaten held
    · exact ⟨(unbeaten []).1.matchTag hmatch, (unbeaten []).2.matchTag hmatch⟩
  case pclkRisingEdge =>
    obtain ⟨-, e⟩ | ⟨u, -, hu, e⟩ := execPclkRisingEdge_cases h <;> rw [e]
    · exact hs
    · obtain ⟨v, hv, e⟩ := u.reached_cases
      rw [e]
      have hut := State.takeEvents_fetchLaws hu hs
      obtain rfl | rfl := hv
      · exact State.fetchLaws_same hut rfl rfl
      · exact State.fetchLaws_same hut (by simp) (by simp)

theorem exec_fetchLaws {i : Instr} {s t : State} (h : exec i s = .next t) (hs : s.fetchLaws) : t.fetchLaws := by
  cases hm : i.moment? with
  | some m =>
    obtain ⟨p, l, u, rfl, rfl | ⟨rfl, -⟩⟩ := exec_frame hm h <;> exact State.fetchLaws_same hs (by simp) (by simp)
  | none =>
    cases hi : i.command? with
    | none => exact exec_event_fetchLaws hi hm h hs
    | some pc =>
      obtain e | ⟨c, v, r, -, -, ha, e⟩ := exec_command (p := pc.1) (code := pc.2) hi h <;> rw [e]
      · exact hs
      · have hv := ha.fetchLaws (State.fetchLaws_same hs (State.takeHead_streams _ _) (State.takeHead_mem _ _))
        exact State.fetchLaws_same hv (State.respond_streams _ _ _ _) (State.respond_mem _ _ _ _)

/-- Settles O57: every row keeps both laws, and a step is a row on the rest of the queue. -/
theorem fetchLawsKept : Obligations.FetchLawsKept := by
  intro s t h1 h2 h
  have hs : s.fetchLaws := ⟨h1, h2⟩
  cases hp : s.pending with
  | nil => rw [stepRunsFront.2 s hp] at h; rw [next_inj h]; exact hs
  | cons c rest =>
    have hstep := stepRunsFront.1 c rest s
    rw [← hp] at hstep
    exact exec_fetchLaws (hstep.symm.trans h) (State.fetchLaws_same hs rfl rfl)

end Sys2Proof.Machine
end

section
/-! PROOF. What an entry does to one slot, in the table and in a view, and the table's free segment count: the slot an
entry names goes its own way, whatever the others hold (R6, R19, R26 to R37, R57). -/

namespace Sys2Proof.Machine

/-! ### The slot an entry names (R6, R26 to R36) -/

/-- What a change makes of a slot's state and record. -/
def SlotBody.changed : SlotBody → Change → SlotBody
  | .queued o, .create w vis _ => .opened o vis.openState w
  | .opened o st w, .place g => .opened o st { w with geometry := g }
  | .opened o st w, .source src => .opened o st { w with source := src }
  | .opened o st w, .look l => .opened o st { w with look := l }
  | .opened o .hidden w, .unhide => .opened o .shown w
  | .opened o .shown w, .hide => .opened o .hidden w
  | .opened o .suspended w, .hide => .opened o .hidden w
  | .opened o .suspended w, .resume => .opened o .shown w
  | .opened o st w, .pin on => .opened o st { w with pinned := on }
  | .opened _ _ _, .retire => .free
  | .opened _ _ _, .reclaim => .free
  | b, _ => b

/-- A change makes of its slot what `changed` says, and leaves the others. -/
theorem Table.body_applyChange (t : Table) (ix j : SlotIx) (c : Change) :
    (t.applyChange ix c).body j = if ix = j then (t.body ix).changed c else t.body j := by
  have hj : ix ≠ j → (t.applyChange ix c).body j = t.body j := fun h => by
    unfold Table.body; rw [Table.applyChange_slots_ne t c h]
  by_cases h : ix = j
  · subst h
    rw [if_pos rfl]
    cases hb : t.body ix with
    | opened o st w =>
      cases c with
      | pin on =>
        have e : t.applyChange ix (.pin on) = t.pin ix o st w on := by simp [Table.applyChange, hb]
        by_cases hp : w.pinned = on
        · rw [e, Table.pin_of_eq hp, hb, ← hp]
          rfl
        · rw [e, (Table.pin_of_ne hp t ix o st).2.2, if_pos rfl]
          rfl
      | _ => cases st <;> simp [Table.applyChange, hb, SlotBody.changed, Table.body_rewrite, Table.body_restack,
          Table.body_retire]
    | queued o => cases c <;> simp [Table.applyChange, hb, SlotBody.changed, Table.body_create]
    | _ => cases c <;> simp [Table.applyChange, hb, SlotBody.changed]
  · rw [if_neg h, hj h]

/-- RETIRE and RECLAIM advance the generation of an open slot; nothing else does (R9). -/
theorem Table.gen_applyChange_eq (t : Table) (ix j : SlotIx) (c : Change) : (t.applyChange ix c).gen j =
    if ix = j ∧ c.frees = true ∧ (t.body ix).isOpen = true then t.gen j + 1 else t.gen j := by
  cases hf : c.frees with
  | false => rw [Table.gen_applyChange _ _ _ hf, if_neg (by simp)]
  | true =>
    have hc : c = .retire ∨ c = .reclaim := by cases c <;> simp_all [Change.frees]
    cases hb : t.body ix with
    | opened o st w =>
      have : t.applyChange ix c = t.retire ix st w := by
        obtain rfl | rfl := hc <;> simp [Table.applyChange, hb]
      rw [this, show (t.retire ix st w).gen j = _ from Table.gen_release t ix j]
      simp [SlotBody.isOpen]
    | _ =>
      have : t.applyChange ix c = t := by obtain rfl | rfl := hc <;> simp [Table.applyChange, hb]
      rw [this]
      simp [SlotBody.isOpen]

theorem Table.slots_eq (t : Table) (ix : SlotIx) : t.slots[ix] = ⟨t.gen ix, t.body ix⟩ := rfl

/-- A slot is its generation and its body. -/
theorem Table.slots_ext {t u : Table} {ix : SlotIx} (hg : t.gen ix = u.gen ix) (hb : t.body ix = u.body ix) :
    t.slots[ix] = u.slots[ix] := by rw [Table.slots_eq, hg, hb, ← Table.slots_eq]

/-- A change of a window slot's entry: the handle names the slot. -/
theorem Table.applyEntry_window (t : Table) {h : Handle} {ix : SlotIx} (hx : h.ix? = some ix) (c : Change) :
    t.applyEntry (.window h c) = t.applyChange ix c := by simp [Table.applyEntry, hx]

/-! ### Who holds a slot -/

/-- The owner of a QUEUED or open slot. -/
def SlotBody.holder? : SlotBody → Option Port
  | .queued o => some o
  | .opened o _ _ => some o
  | _ => none

/-- A slot that is changed keeps its holder or becomes FREE. -/
theorem SlotBody.holder_changed (b : SlotBody) (c : Change) : (b.changed c).holder? = b.holder? ∨ b.changed c = .free := by
  cases b with
  | opened o st w => cases c <;> cases st <;> simp [SlotBody.changed, SlotBody.holder?]
  | queued o => cases c <;> simp [SlotBody.changed, SlotBody.holder?]
  | _ => exact .inl rfl

/-- A slot that no port holds is not changed. -/
theorem SlotBody.changed_of_unheld {b : SlotBody} (h : b.holder? = none) (c : Change) : b.changed c = b := by
  cases b <;> first | (cases h; done) | (cases c <;> rfl)

/-- A slot is QUEUED after a change only where it was. -/
theorem SlotBody.changed_queued {b : SlotBody} {c : Change} {o : Port} (h : b.changed c = .queued o) : b = .queued o := by
  cases b with
  | opened o' st w => cases c <;> cases st <;> cases h
  | queued o' => cases c <;> first | (cases h; done) | exact h
  | _ => cases c <;> cases h

/-! ### An entry in a view, at one slot (R19) -/

/-- The change an entry makes at a slot of a view, where it acts on that slot. -/
def View.changeAt (v : View) (e : Entry) (ix : SlotIx) : Option Change :=
  match e with
  | .window h c => if v.acted h = some ix then some c else none
  | .backdrop _ => none

theorem View.changeAt_some {v : View} {e : Entry} {ix : SlotIx} {c : Change} : v.changeAt e ix = some c ↔
    ∃ h, e = .window h c ∧ h.ix? = some ix ∧ v.table.gen ix = h.gen ∧ ix ∉ v.retiring := by
  cases e with
  | backdrop colour => simp [View.changeAt]
  | window h c' =>
    simp only [View.changeAt, Option.ite_none_right_eq_some, Option.some.injEq, View.acted_some, Entry.window.injEq]
    constructor
    · rintro ⟨ha, rfl⟩; exact ⟨h, ⟨rfl, rfl⟩, ha⟩
    · rintro ⟨h', ⟨rfl, rfl⟩, ha⟩; exact ⟨ha, rfl⟩

/-- In a view RETIRE and RECLAIM leave the slot's body; every other change does to it what it does to the table. -/
theorem View.body_apply (v : View) (e : Entry) (ix : SlotIx) : (v.apply e).table.body ix =
    match v.changeAt e ix with
    | some c => if c.frees then v.table.body ix else (v.table.body ix).changed c
    | none => v.table.body ix := by
  cases e with
  | backdrop colour => rfl
  | window h c =>
    cases ha : v.acted h with
    | none => simp [View.apply, View.changeAt, ha]
    | some jx =>
      have hx := (View.acted_some.1 ha).1
      have hr : (v.retire jx).table.body ix = v.table.body ix := by unfold View.retire; split <;> rfl
      by_cases hj : jx = ix
      · subst hj
        cases c <;> simp [View.apply, View.changeAt, ha, Change.frees, hr, Table.applyEntry_window _ hx,
          Table.body_applyChange]
      · cases c <;> simp [View.apply, View.changeAt, ha, hr, hj, Table.applyEntry_window _ hx,
          Table.body_applyChange]

/-- In a view RETIRE and RECLAIM make an open window pending retirement. -/
theorem View.retiring_apply (v : View) (e : Entry) (ix : SlotIx) : ix ∈ (v.apply e).retiring ↔
    ix ∈ v.retiring ∨ ∃ c, v.changeAt e ix = some c ∧ c.frees = true ∧ (v.table.body ix).isOpen = true := by
  cases e with
  | backdrop colour => simp [View.apply, View.changeAt]
  | window h c =>
    cases ha : v.acted h with
    | none => simp [View.apply, View.changeAt, ha]
    | some jx =>
      have hr : ix ∈ (v.retire jx).retiring ↔ ix ∈ v.retiring ∨ (jx = ix ∧ (v.table.body ix).isOpen = true) := by
        unfold View.retire
        by_cases ho : (v.table.body jx).isOpen = true
        · rw [if_pos ho, List.mem_cons]
          constructor
          · rintro (rfl | h)
            · exact .inr ⟨rfl, ho⟩
            · exact .inl h
          · rintro (h | ⟨rfl, -⟩)
            · exact .inr h
            · exact .inl rfl
        · rw [if_neg ho]
          exact ⟨.inl, fun h => h.elim id fun ⟨e, h⟩ => absurd (e ▸ h) ho⟩
      cases c <;> simp [View.apply, View.changeAt, ha, Change.frees, hr]

/-- An entry that names a slot. -/
def Entry.names (e : Entry) (ix : SlotIx) : Prop := ∃ h c, e = .window h c ∧ h.ix? = some ix

theorem View.changeAt_of_unnamed (v : View) {e : Entry} {ix : SlotIx} (h : ¬ e.names ix) : v.changeAt e ix = none := by
  cases hc : v.changeAt e ix with
  | none => rfl
  | some c =>
    obtain ⟨hd, he, hx, -⟩ := View.changeAt_some.1 hc
    exact absurd ⟨hd, c, he, hx⟩ h

/-! ### What the admission checks see of a slot (R54) -/

/-- Two bodies the admission checks cannot tell apart, now or after any change: the same, or one window SHOWN in one and
SUSPENDED in the other. -/
def SlotBody.alike (b b' : SlotBody) : Prop :=
  b = b' ∨ ∃ o w st st', b = .opened o st w ∧ b' = .opened o st' w ∧ st ≠ .hidden ∧ st' ≠ .hidden

theorem SlotBody.alike_changed {b b' : SlotBody} (h : b.alike b') (c : Change) : (b.changed c).alike (b'.changed c) := by
  obtain rfl | ⟨o, w, st, st', rfl, rfl, h1, h2⟩ := h
  · exact .inl rfl
  · have both : ∀ w', SlotBody.alike (.opened o st w') (.opened o st' w') := fun w' =>
      .inr ⟨o, w', st, st', rfl, rfl, h1, h2⟩
    cases c with
    | place g => exact both _
    | source src => exact both _
    | look l => exact both _
    | pin on => exact both _
    | hide => cases st <;> cases st' <;> first | exact absurd rfl h1 | exact absurd rfl h2 | exact .inl rfl
    | resume => cases st <;> cases st' <;> first | exact absurd rfl h1 | exact absurd rfl h2 | exact .inl rfl
    | retire => exact .inl rfl
    | reclaim => exact .inl rfl
    | _ => cases st <;> cases st' <;> first | exact absurd rfl h1 | exact absurd rfl h2 | exact both w

theorem SlotBody.alike_counted {b b' : SlotBody} (h : b.alike b') : b.counted = b'.counted := by
  obtain rfl | ⟨o, w, st, st', rfl, rfl, h1, h2⟩ := h
  · rfl
  · cases st <;> cases st' <;> first | exact absurd rfl h1 | exact absurd rfl h2 | rfl

theorem SlotBody.alike_isOpen {b b' : SlotBody} (h : b.alike b') : b.isOpen = b'.isOpen := by
  obtain rfl | ⟨o, w, st, st', rfl, rfl, -, -⟩ := h <;> rfl

/-- Two views that the admission checks cannot tell apart at a slot. -/
def View.alikeAt (v u : View) (ix : SlotIx) : Prop :=
  v.table.gen ix = u.table.gen ix ∧ (ix ∈ v.retiring ↔ ix ∈ u.retiring) ∧ (v.table.body ix).alike (u.table.body ix)

theorem View.alikeAt_apply {v u : View} {ix : SlotIx} (h : v.alikeAt u ix) (e : Entry) :
    (v.apply e).alikeAt (u.apply e) ix := by
  obtain ⟨hg, hr, hb⟩ := h
  have hc : v.changeAt e ix = u.changeAt e ix := by
    refine Option.ext fun c => ?_
    simp only [View.changeAt_some, hg, hr]
  refine ⟨by rw [View.apply_gen, View.apply_gen, hg], ?_, ?_⟩
  · rw [View.retiring_apply, View.retiring_apply, hc, hr, SlotBody.alike_isOpen hb]
  · rw [View.body_apply, View.body_apply, hc]
    cases u.changeAt e ix with
    | none => exact hb
    | some c =>
      dsimp only
      split
      · exact hb
      · exact SlotBody.alike_changed hb c

theorem View.alikeAt_applyAll {v u : View} {ix : SlotIx} (h : v.alikeAt u ix) (es : List Entry) :
    (v.applyAll es).alikeAt (u.applyAll es) ix := by
  unfold View.applyAll
  induction es generalizing v u with
  | nil => exact h
  | cons e es ih => exact ih (View.alikeAt_apply h e)

/-- Entries that do not name a slot leave it in a view. -/
theorem View.alikeAt_of_unnamed (v : View) {ix : SlotIx} {es : List Entry} (h : ∀ e ∈ es, ¬ e.names ix) :
    (v.applyAll es).alikeAt v ix := by
  refine View.applyAll_keeps (P := fun u => u.alikeAt v ix) es ⟨rfl, Iff.rfl, .inl rfl⟩ fun u e he hu => ?_
  obtain ⟨hg, hr, hb⟩ := hu
  have hc := u.changeAt_of_unnamed (h e he)
  refine ⟨by rw [View.apply_gen, hg], ?_, ?_⟩
  · rw [View.retiring_apply, hc]; simpa using hr
  · rw [View.body_apply, hc]; exact hb

theorem View.countedAt_alike {v u : View} {ix : SlotIx} (h : v.alikeAt u ix) : v.countedAt ix = u.countedAt ix := by
  obtain ⟨-, hr, hb⟩ := h
  have hr' : v.isRetiring ix = u.isRetiring ix := by
    rw [Bool.eq_iff_iff]; simpa [View.isRetiring] using hr
  unfold View.countedAt
  rw [hr', SlotBody.alike_counted hb]

/-- What the view of a queue counts at a slot that the queue does not name is what the table counts there. -/
theorem View.countedAt_of_unnamed (t : Table) {ix : SlotIx} {es : List Entry} (h : ∀ e ∈ es, ¬ e.names ix) :
    (View.applyAll ⟨t, []⟩ es).countedAt ix = (t.body ix).counted :=
  (View.countedAt_alike (View.alikeAt_of_unnamed ⟨t, []⟩ h)).trans rfl

/-- The windows counted are those counted at the slots. -/
theorem View.countedWindows_congr {v u : View} (h : ∀ ix, v.countedAt ix = u.countedAt ix) :
    v.countedWindows = u.countedWindows := by
  unfold View.countedWindows; rw [funext h]

end Sys2Proof.Machine
end

section
/-! PROOF. The laws of admission over every operation on the table, the batches and the queue (R12, R45, R55 to R58,
R64). -/

namespace Sys2Proof.Machine

/-! ### The segments free (R57, R58) -/

/-- The segments held are the needs of the windows counted. -/
theorem held_sum_counted (f : SlotIx → SlotBody) (l : List SlotIx) :
    (l.map fun ix => (f ix).held).sum = ((l.filterMap fun ix => (f ix).counted).map Window.need).sum := by
  induction l with
  | nil => rfl
  | cons x l ih =>
    rw [List.map_cons, List.sum_cons, ih, List.filterMap_cons]
    cases f x with
    | opened o st w => cases st <;> simp [SlotBody.held, SlotBody.counted, Window.held]
    | _ => simp [SlotBody.held, SlotBody.counted]

theorem Table.countedAt_live (t : Table) (ix : SlotIx) : View.countedAt ⟨t, []⟩ ix = (t.body ix).counted := rfl

theorem Table.heldSum_eq (t : Table) : t.heldSum = ((View.countedWindows ⟨t, []⟩).map Window.need).sum :=
  held_sum_counted t.body allSlots

/-- The live view is the view up to no batch. -/
theorem State.queueView_zero (s : State) : s.queueView 0 = ⟨s.table, []⟩ := rfl

/-- The segments free are between none and all of them. -/
theorem LimitsLaw.free_bounds {s : State} (hl : LimitsLaw s) (hb : SegmentBalance s) :
    0 ≤ s.table.free ∧ s.table.free ≤ 384 := by
  have h := (hl 0 (Nat.zero_le _)).2
  rw [State.queueView_zero, View.storeOver, ← Table.heldSum_eq] at h
  have hb : s.table.free + (s.table.heldSum : Int) = 384 := hb
  omega

/-! ### Every entry of the queue names a slot of its port (R24, R45) -/

/-- The law of the queued entries, by the holder of the slot that an entry names. -/
theorem queuedEntriesLaw_iff (s : State) : QueuedEntriesLaw s ↔ ∀ b ∈ s.commitQueue, ∀ e ∈ b.entries,
    e.permitted b.port = true ∧ ∀ h c, e = .window h c → ∃ ix o, h = handleOf ix (s.table.gen ix) ∧
      (s.table.body ix).holder? = some o ∧ (o = b.port ∨ c = .reclaim) := by
  have key : ∀ (ix : SlotIx) (o : Port), (s.table.body ix = .queued o ∨ ∃ st w, s.table.body ix = .opened o st w) ↔
      (s.table.body ix).holder? = some o := by
    intro ix o
    cases s.table.body ix <;> simp [SlotBody.holder?]
  unfold QueuedEntriesLaw
  simp only [key]

/-- An entry of the queue that names a slot: its handle is current, and a port holds the slot. -/
theorem QueuedEntriesLaw.named {s : State} (h : QueuedEntriesLaw s) {e : Entry}
    (he : e ∈ s.commitQueue.flatMap Batch.entries) : ∃ p, e.permitted p = true ∧ ∀ hd c ix, e = .window hd c →
      hd.ix? = some ix → hd = handleOf ix (s.table.gen ix) ∧
        ∃ o, (s.table.body ix).holder? = some o ∧ (o = p ∨ c = .reclaim) := by
  obtain ⟨b, hb, he⟩ := List.mem_flatMap.1 he
  obtain ⟨hp, hw⟩ := (queuedEntriesLaw_iff s).1 h b hb e he
  refine ⟨b.port, hp, fun hd c ix hh hx => ?_⟩
  obtain ⟨jx, o, hj, ho, hor⟩ := hw hd c hh
  obtain rfl : jx = ix := by rw [hj, handleOf_ix] at hx; exact Option.some.inj hx
  exact ⟨hj, o, ho, hor⟩

/-- The queue names no slot that no port holds. -/
theorem QueuedEntriesLaw.unnamed {s : State} (h : QueuedEntriesLaw s) {ix : SlotIx}
    (hf : (s.table.body ix).holder? = none) : ∀ e ∈ s.commitQueue.flatMap Batch.entries, ¬ e.names ix := by
  rintro e he ⟨hd, c, hh, hx⟩
  obtain ⟨p, -, hw⟩ := h.named he
  obtain ⟨-, o, ho, -⟩ := hw hd c ix hh hx
  rw [hf] at ho
  cases ho

/-- The law of the queued entries is kept where the slots held keep generation and holder. -/
theorem QueuedEntriesLaw.congr {s t : State} (h : QueuedEntriesLaw s) (hq : t.commitQueue = s.commitQueue)
    (ht : ∀ ix o, (s.table.body ix).holder? = some o →
      t.table.gen ix = s.table.gen ix ∧ (t.table.body ix).holder? = some o) : QueuedEntriesLaw t := by
  rw [queuedEntriesLaw_iff] at h ⊢
  rw [hq]
  intro b hb e he
  obtain ⟨hp, hw⟩ := h b hb e he
  refine ⟨hp, fun hd c hh => ?_⟩
  obtain ⟨ix, o, h1, h2, h3⟩ := hw hd c hh
  obtain ⟨g, b⟩ := ht ix o h2
  exact ⟨ix, o, by rw [g]; exact h1, b, h3⟩

/-! ### The limits (R45, R55, R56) -/

theorem State.queueView_eq (s : State) (k : Nat) :
    s.queueView k = View.applyAll ⟨s.table, []⟩ ((s.commitQueue.take k).flatMap Batch.entries) :=
  View.applyBatches_eq _ _

theorem mem_entries_of_take {q : List Batch} {k : Nat} {e : Entry} (h : e ∈ (q.take k).flatMap Batch.entries) :
    e ∈ q.flatMap Batch.entries := by
  obtain ⟨b, hb, he⟩ := List.mem_flatMap.1 h
  exact List.mem_flatMap.2 ⟨b, List.mem_of_mem_take hb, he⟩

/-- A slot of the table changed so that no queued batch can tell: to an alike body of the same generation, or, where no
batch names the slot, to a body that counts for as much. -/
def State.admitsAs (s : State) (t : Table) (ix : SlotIx) : Prop :=
  (t.gen ix = s.table.gen ix ∧ (t.body ix).alike (s.table.body ix)) ∨
    ((s.table.body ix).holder? = none ∧ (t.body ix).counted = (s.table.body ix).counted)

/-- Where every slot is changed in such a way the view up to each batch counts the same windows. -/
theorem State.countedWindows_admitsAs {s : State} (hq : QueuedEntriesLaw s) {t : Table} (h : ∀ ix, s.admitsAs t ix)
    (k : Nat) : (View.applyAll ⟨t, []⟩ ((s.commitQueue.take k).flatMap Batch.entries)).countedWindows =
      (s.queueView k).countedWindows := by
  rw [State.queueView_eq]
  refine View.countedWindows_congr fun ix => ?_
  obtain ⟨hg, hb⟩ | ⟨hf, hc⟩ := h ix
  · exact View.countedAt_alike (View.alikeAt_applyAll (v := ⟨t, []⟩) (u := ⟨s.table, []⟩) ⟨hg, Iff.rfl, hb⟩ _)
  · have hn : ∀ e ∈ (s.commitQueue.take k).flatMap Batch.entries, ¬ e.names ix := fun e he =>
      hq.unnamed hf e (mem_entries_of_take he)
    rw [View.countedAt_of_unnamed t hn, View.countedAt_of_unnamed s.table hn, hc]

theorem View.lanesOver_congr {v u : View} (h : v.countedWindows = u.countedWindows) (prof : Profile) :
    v.lanesOver prof ↔ u.lanesOver prof := by unfold View.lanesOver; rw [h]

theorem View.storeOver_congr {v u : View} (h : v.countedWindows = u.countedWindows) :
    v.storeOver ↔ u.storeOver := by unfold View.storeOver; rw [h]

/-- The limits are kept where the queue stands and the table is changed so that no batch can tell. -/
theorem LimitsLaw.congr {s t : State} (h : LimitsLaw s) (hs : QueuedEntriesLaw s) (hq : t.commitQueue = s.commitQueue)
    (hp : t.raster.profile = s.raster.profile) (ht : ∀ ix, s.admitsAs t.table ix) : LimitsLaw t := by
  intro k hk
  rw [hq] at hk
  have hc : (t.queueView k).countedWindows = (s.queueView k).countedWindows := by
    rw [State.queueView_eq, hq, State.countedWindows_admitsAs hs ht]
  rw [View.lanesOver_congr hc, View.storeOver_congr hc, hp]
  exact h k hk

/-! ### The reservations (R5, R12) -/

theorem openedBy_append (es fs : List Entry) : openedBy (es ++ fs) = openedBy es ++ openedBy fs :=
  List.filterMap_append

theorem mem_openedBy {h : Handle} {es : List Entry} :
    h ∈ openedBy es ↔ ∃ w vis pl, Entry.window h (.create w vis pl) ∈ es := by
  unfold openedBy
  rw [List.mem_filterMap]
  constructor
  · rintro ⟨e, he, hh⟩
    split at hh
    · cases hh; exact ⟨_, _, _, he⟩
    · cases hh
  · rintro ⟨w, vis, pl, he⟩
    exact ⟨_, he, rfl⟩

theorem mem_openedBy_queue {h : Handle} {q : List Batch} :
    h ∈ openedBy (q.flatMap Batch.entries) ↔ ∃ b ∈ q, h ∈ openedBy b.entries := by
  simp only [mem_openedBy, List.mem_flatMap]
  constructor
  · rintro ⟨w, vis, pl, b, hb, he⟩; exact ⟨b, hb, w, vis, pl, he⟩
  · rintro ⟨b, hb, w, vis, pl, he⟩; exact ⟨w, vis, pl, b, hb, he⟩

/-- The law of reservations is about what the batches open and about the slots RESERVED and QUEUED. -/
theorem ReservationLaw.congr {s t : State} (h : ReservationLaw s)
    (ho : ∀ p, openedBy (t.staging p).openBatch = openedBy (s.staging p).openBatch) (hq : t.commitQueue = s.commitQueue)
    (hb : ∀ ix p, (t.table.body ix = .reserved p ↔ s.table.body ix = .reserved p) ∧
      (t.table.body ix = .queued p ↔ s.table.body ix = .queued p))
    (hg : ∀ ix p, s.table.body ix = .reserved p ∨ s.table.body ix = .queued p → t.table.gen ix = s.table.gen ix) :
    ReservationLaw t := by
  obtain ⟨h1, h2, h3, h4⟩ := h
  refine ⟨fun p => ⟨by rw [ho]; exact (h1 p).1, fun hd hh => ?_⟩, by rw [hq]; exact h2, fun b hbm hd hh => ?_,
    fun ix p => ⟨fun hr => ?_, fun hr => ?_⟩⟩
  · rw [ho] at hh
    obtain ⟨ix, e, hr⟩ := (h1 p).2 hd hh
    exact ⟨ix, by rw [hg ix p (.inl hr)]; exact e, (hb ix p).1.2 hr⟩
  · rw [hq] at hbm
    obtain ⟨ix, e, hr⟩ := h3 b hbm hd hh
    exact ⟨ix, by rw [hg ix _ (.inr hr)]; exact e, (hb ix _).2.2 hr⟩
  · have hr := (hb ix p).1.1 hr
    rw [ho, hg ix p (.inl hr)]
    exact (h4 ix p).1 hr
  · have hr := (hb ix p).2.1 hr
    rw [hq, hg ix p (.inr hr)]
    exact (h4 ix p).2 hr

/-! ### Only a window of Port A is pinned (R12) -/

/-- A window that is pinned is Port A's. -/
def SlotBody.pinnedOk (b : SlotBody) : Prop := ∀ o st w, b = .opened o st w → w.pinned = true → o = .a

/-- A change keeps the law where the port that made it may, and holds the slot or reclaims it. -/
theorem SlotBody.pinnedOk_changed {b : SlotBody} (h : b.pinnedOk) {hd : Handle} {c : Change} {p : Port}
    (hp : (Entry.window hd c).permitted p = true) (ho : ∀ o, b.holder? = some o → o = p ∨ c = .reclaim) :
    (b.changed c).pinnedOk := by
  have free : SlotBody.free.pinnedOk := fun _ _ _ e => by cases e
  cases b with
  | opened o st w =>
    have keep : ∀ st' w', (w'.pinned = true → w.pinned = true) → SlotBody.pinnedOk (.opened o st' w') := by
      intro st' w' hw o' st'' w'' e
      cases e
      exact fun hp => h o st w rfl (hw hp)
    have own := ho o rfl
    cases c with
    | place g => exact keep st _ id
    | source src => exact keep st _ id
    | look l => exact keep st _ id
    | pin on =>
      intro o' st' w' e _
      cases e
      obtain rfl := own.resolve_right (by simp)
      simpa [Entry.permitted] using hp
    | retire => exact free
    | reclaim => exact free
    | _ => cases st <;> exact keep _ w id
  | queued o =>
    cases c with
    | create w vis pl =>
      intro o' st' w' e hw
      cases e
      obtain rfl := (ho o rfl).resolve_right (by simp)
      simpa [Entry.permitted, hw] using hp
    | _ => exact h
  | _ => rw [SlotBody.changed_of_unheld rfl]; exact h

end Sys2Proof.Machine
end

section
/-! PROOF. The laws of admission over every step, continued: a slot reserved, a batch queued, discarded or applied, and
the whole step (R12, R38 to R49, R55 to R58, R64). -/

namespace Sys2Proof.Machine

/-- The laws of admission that are about the batches and the limits. -/
structure State.admits (s : State) : Prop where
  limits : LimitsLaw s
  reserved : ReservationLaw s
  queued : QueuedEntriesLaw s
  pinned : ∀ ix, (s.table.body ix).pinnedOk

theorem admissionLaw_iff (s : State) : AdmissionLaw s ↔ SegmentBalance s ∧ s.admits := by
  constructor
  · rintro ⟨h1, -, -, h2, h3, h4, h5⟩
    exact ⟨h1, h2, h3, h4, h5⟩
  · rintro ⟨h1, h2, h3, h4, h5⟩
    exact ⟨h1, (h2.free_bounds h1).1, (h2.free_bounds h1).2, h2, h3, h4, h5⟩

/-- The laws where table, batches, queue and profile stand. -/
theorem State.admits.same {s t : State} (h : s.admits) (ht : t.table = s.table)
    (ho : ∀ p, (t.staging p).openBatch = (s.staging p).openBatch) (hq : t.commitQueue = s.commitQueue)
    (hp : t.raster.profile = s.raster.profile) : t.admits where
  limits := h.limits.congr h.queued hq hp fun ix => .inl ⟨by rw [ht], .inl (by rw [ht])⟩
  reserved := h.reserved.congr (fun p => by rw [ho]) hq (fun ix p => by rw [ht]; exact ⟨Iff.rfl, Iff.rfl⟩)
    fun ix p _ => by rw [ht]
  queued := h.queued.congr hq fun ix o hh => by rw [ht]; exact ⟨rfl, hh⟩
  pinned := by rw [ht]; exact h.pinned

/-! ### Entries staged, and a slot reserved (R5, R24, R25) -/

theorem State.appendEntry_openBatch (s : State) (p q : Port) (e : Entry) : ((s.appendEntry p e).staging q).openBatch =
    if q = p then (s.staging q).openBatch ++ [e] else (s.staging q).openBatch := by
  unfold State.appendEntry
  by_cases h : q = p
  · subst h; rw [State.staging_setStaging, if_pos rfl]
  · rw [State.staging_setStaging_ne _ _ h, if_neg h]

/-- An entry that opens no window, staged. -/
theorem State.admits.appendEntry {s : State} (h : s.admits) (p : Port) {e : Entry} (he : openedBy [e] = []) :
    (s.appendEntry p e).admits where
  limits := h.limits.congr h.queued (by simp) (by simp) fun ix => .inl ⟨by simp, .inl (by simp)⟩
  reserved := h.reserved.congr (fun q => by
    rw [State.appendEntry_openBatch]
    split
    · rw [openedBy_append, he, List.append_nil]
    · rfl) (by simp) (fun ix p => by simp) fun ix p _ => by simp
  queued := h.queued.congr (by simp) fun ix o hh => by simpa using hh
  pinned := by simpa using h.pinned

/-- OPEN accepted: the slot, FREE before, is RESERVED and named in the port's open batch (R25). -/
theorem State.admits.opened {s : State} (h : s.admits) {p : Port} {ix : SlotIx} (hf : s.table.body ix = .free)
    (w : Window) (vis : Visibility) (pl : Placement) :
    ((s.reserve p ix).appendEntry p (.window (handleOf ix (s.table.gen ix)) (.create w vis pl))).admits := by
  generalize ht : (s.reserve p ix).appendEntry p (.window (handleOf ix (s.table.gen ix)) (.create w vis pl)) = t
  have htab : t.table = s.table.setBody ix (.reserved p) := by rw [← ht, State.appendEntry_table]; rfl
  have hbody : ∀ jx, t.table.body jx = if ix = jx then .reserved p else s.table.body jx := fun jx => by
    rw [htab, Table.body_setBody]
  have hgen : ∀ jx, t.table.gen jx = s.table.gen jx := fun jx => by rw [htab, Table.gen_setBody]
  have hq : t.commitQueue = s.commitQueue := by rw [← ht]; simp
  have hprof : t.raster.profile = s.raster.profile := by rw [← ht]; simp
  have hopen : ∀ q, openedBy (t.staging q).openBatch =
      if q = p then openedBy (s.staging q).openBatch ++ [handleOf ix (s.table.gen ix)]
      else openedBy (s.staging q).openBatch := fun q => by
    rw [← ht, State.appendEntry_openBatch, State.reserve_staging]
    split
    · rw [openedBy_append]; rfl
    · rfl
  have hne : ∀ {jx b}, s.table.body jx = b → b ≠ .free → t.table.body jx = b := fun {jx b} hb hn => by
    rw [hbody, if_neg, hb]
    rintro rfl
    exact hn (hb.symm.trans hf)
  obtain ⟨h1, h2, h3, h4⟩ := h.reserved
  refine ⟨h.limits.congr h.queued hq hprof fun jx => ?_, ⟨fun q => ⟨?_, fun hd hh => ?_⟩, by rw [hq]; exact h2,
    fun b hb hd hh => ?_, fun jx q => ⟨fun hr => ?_, fun hr => ?_⟩⟩, h.queued.congr hq fun jx o hh => ?_, fun jx => ?_⟩
  · by_cases hj : ix = jx
    · subst hj
      exact .inr ⟨by rw [hf]; rfl, by rw [hbody, if_pos rfl, hf]; rfl⟩
    · exact .inl ⟨hgen jx, .inl (by rw [hbody, if_neg hj])⟩
  · rw [hopen]
    split
    · next hqp =>
      refine List.nodup_append.2 ⟨(h1 q).1, by simp, fun a ha b hb => ?_⟩
      obtain rfl : b = _ := by simpa using hb
      rintro rfl
      obtain ⟨jx, he, hr⟩ := (h1 q).2 _ ha
      obtain rfl : ix = jx := by simpa using congrArg Handle.ix? he
      rw [hf] at hr; cases hr
    · exact (h1 q).1
  · have old : hd ∈ openedBy (s.staging q).openBatch →
        ∃ jx, hd = handleOf jx (t.table.gen jx) ∧ t.table.body jx = .reserved q := fun hm => by
      obtain ⟨jx, he, hr⟩ := (h1 q).2 hd hm
      exact ⟨jx, by rw [hgen]; exact he, hne hr (by simp)⟩
    rw [hopen] at hh
    split at hh
    · next hqp =>
      obtain hh | hh := List.mem_append.1 hh
      · exact old hh
      · refine ⟨ix, by rw [hgen]; simpa using hh, ?_⟩
        rw [hbody, if_pos rfl, hqp]
    · exact old hh
  · rw [hq] at hb
    obtain ⟨jx, he, hr⟩ := h3 b hb hd hh
    exact ⟨jx, by rw [hgen]; exact he, hne hr (by simp)⟩
  · rw [hgen, hopen]
    rw [hbody] at hr
    split at hr
    · next hj => subst hj; cases hr; simp
    · have := (h4 jx q).1 hr
      split
      · exact List.mem_append_left _ this
      · exact this
  · rw [hgen, hq]
    rw [hbody] at hr
    split at hr
    · cases hr
    · exact (h4 jx q).2 hr
  · have hj : ix ≠ jx := by rintro rfl; rw [hf] at hh; cases hh
    exact ⟨hgen jx, by rw [hbody, if_neg hj]; exact hh⟩
  · rw [hbody]
    split
    · exact fun _ _ _ e => by cases e
    · exact h.pinned jx

/-! ### The open batch discarded (R38, R39) -/

theorem State.discardOpen_table' (s : State) (p : Port) : (s.discardOpen p).table = s.table.releaseReserved p := by
  unfold State.discardOpen; rw [State.setStaging_table]

theorem State.discardOpen_openBatch (s : State) (p q : Port) : ((s.discardOpen p).staging q).openBatch =
    if q = p then [] else (s.staging q).openBatch := by
  unfold State.discardOpen
  by_cases h : q = p
  · subst h; rw [State.staging_setStaging, if_pos rfl]
  · rw [State.staging_setStaging_ne _ _ h, if_neg h]; rfl

theorem State.admits.discardOpen {s : State} (h : s.admits) (p : Port) : (s.discardOpen p).admits := by
  generalize ht : s.discardOpen p = t
  have hbody : ∀ jx, t.table.body jx = if s.table.body jx = .reserved p then .free else s.table.body jx := fun jx => by
    rw [← ht, State.discardOpen_table', Table.body_releaseReserved]
  have hgen : ∀ jx, s.table.body jx ≠ .reserved p → t.table.gen jx = s.table.gen jx := fun jx hj => by
    rw [← ht, State.discardOpen_table', Table.gen_releaseReserved, if_neg hj]
  have hq : t.commitQueue = s.commitQueue := by rw [← ht]; simp
  have hopen : ∀ q, (t.staging q).openBatch = if q = p then [] else (s.staging q).openBatch := fun q => by
    rw [← ht, State.discardOpen_openBatch]
  have hne : ∀ {jx b}, s.table.body jx = b → b ≠ .reserved p → t.table.body jx = b := fun {jx b} hb hn => by
    rw [hbody, hb, if_neg hn]
  have hback : ∀ {jx b}, t.table.body jx = b → b ≠ .free → s.table.body jx = b ∧ b ≠ .reserved p := fun {jx b} hb hn => by
    rw [hbody] at hb
    split at hb
    · exact absurd hb.symm hn
    · next hr => exact ⟨hb, hb ▸ hr⟩
  obtain ⟨h1, h2, h3, h4⟩ := h.reserved
  refine ⟨h.limits.congr h.queued hq (by rw [← ht]; simp) fun jx => ?_, ⟨fun q => ?_, by rw [hq]; exact h2,
    fun b hb hd hh => ?_, fun jx q => ⟨fun hr => ?_, fun hr => ?_⟩⟩, h.queued.congr hq fun jx o hh => ?_, fun jx => ?_⟩
  · by_cases hr : s.table.body jx = .reserved p
    · exact .inr ⟨by rw [hr]; rfl, by rw [hbody, if_pos hr, hr]; rfl⟩
    · exact .inl ⟨hgen jx hr, .inl (by rw [hbody, if_neg hr])⟩
  · rw [hopen]
    split
    · exact ⟨List.nodup_nil, fun _ hh => by cases hh⟩
    · next hqp =>
      refine ⟨(h1 q).1, fun hd hh => ?_⟩
      obtain ⟨jx, he, hr⟩ := (h1 q).2 hd hh
      have hr' : SlotBody.reserved q ≠ .reserved p := fun e => hqp (by cases e; rfl)
      exact ⟨jx, by rw [hgen jx (hr ▸ hr')]; exact he, hne hr hr'⟩
  · rw [hq] at hb
    obtain ⟨jx, he, hr⟩ := h3 b hb hd hh
    exact ⟨jx, by rw [hgen jx (by rw [hr]; simp)]; exact he, hne hr (by simp)⟩
  · obtain ⟨hr, hn⟩ := hback hr (by simp)
    rw [hgen jx (hr ▸ hn), hopen, if_neg fun e => hn (by rw [e])]
    exact (h4 jx q).1 hr
  · obtain ⟨hr, hn⟩ := hback hr (by simp)
    rw [hgen jx (hr ▸ hn), hq]
    exact (h4 jx q).2 hr
  · have hr : s.table.body jx ≠ .reserved p := fun e => by rw [e] at hh; cases hh
    exact ⟨hgen jx hr, by rw [hbody, if_neg hr]; exact hh⟩
  · rw [hbody]
    split
    · exact fun _ _ _ e => by cases e
    · exact h.pinned jx

/-! ### A batch queued (R40 to R43) -/

theorem State.enqueue_table' (s : State) (p : Port) : (s.enqueue p).table = s.table.reservedQueued p := by
  unfold State.enqueue; rw [State.setStaging_table]; rfl

theorem State.enqueue_queue (s : State) (p : Port) : (s.enqueue p).commitQueue =
    s.commitQueue ++ [⟨p, (s.staging p).nextTicket, (s.staging p).openBatch⟩] := by
  unfold State.enqueue; rw [State.setStaging_commitQueue]

theorem State.enqueue_openBatch (s : State) (p q : Port) : ((s.enqueue p).staging q).openBatch =
    if q = p then [] else (s.staging q).openBatch := by
  unfold State.enqueue
  by_cases h : q = p
  · subst h; rw [State.staging_setStaging, if_pos rfl]
  · rw [State.staging_setStaging_ne _ _ h, if_neg h]; rfl

/-- Revalidation passes where every entry passes, against the view with the entries before it applied (R41). -/
theorem View.revalidate_none {p : Port} {es : List Entry} {v : View} {k : Nat} : View.revalidate p v k es = none ↔
    ∀ before e after, es = before ++ e :: after → (v.applyAll before).refusesAgain p e = none := by
  induction es generalizing v k with
  | nil => simp [View.revalidate]
  | cons e es ih =>
    unfold View.revalidate
    constructor
    · intro h before e' after he
      split at h
      · cases h
      · next hr =>
        cases before with
        | nil => cases he; exact hr
        | cons b bs => cases he; exact ih.1 h bs e' after rfl
    · intro h
      have h0 : v.refusesAgain p e = none := h [] e es rfl
      rw [h0]
      exact ih.2 fun before e' after he => h (e :: before) e' after (by rw [he]; rfl)

/-- The peak lane count is within the lanes where no active line is covered by more. -/
theorem peakLanes_le {ws : List Window} {height n : Nat} :
    peakLanes ws height ≤ n ↔ ∀ l, l < height → laneCount ws height l ≤ n := by
  have key : ∀ (ls : List Nat) (m : Nat), ls.foldl (fun m l => max m (laneCount ws height l)) m ≤ n ↔
      m ≤ n ∧ ∀ l ∈ ls, laneCount ws height l ≤ n := by
    intro ls
    induction ls with
    | nil => simp
    | cons x ls ih => intro m; rw [List.foldl_cons, ih]; simp [and_assoc]
  rw [peakLanes, key]
  simp

/-- The lanes of a view are exceeded where its peak lane count under the profile in force is more than six. -/
theorem View.lanesOver_iff (v : View) (prof : Profile) :
    v.lanesOver prof ↔ 6 < peakLanes v.countedWindows prof.activeHeight := by
  rw [← not_le, peakLanes_le]
  unfold View.lanesOver laneCount Window.covers Profile.activeHeight
  cases prof.valid with
  | false => simp
  | true =>
    simp only [if_true, true_and, not_forall, not_le]
    refine exists_congr fun l => ?_
    constructor
    · rintro ⟨h1, h2⟩
      refine ⟨h1, lt_of_lt_of_eq h2 (congrArg List.length (List.filter_congr fun w _ => ?_))⟩
      simp [h1]
    · rintro ⟨h1, h2⟩
      refine ⟨h1, lt_of_lt_of_eq h2 (congrArg List.length (List.filter_congr fun w _ => ?_))⟩
      simp [h1]

/-- The admission check passes exactly where neither limit is exceeded (R55, R56, R60). -/
theorem View.overLimits_none {v : View} {prof : Profile} :
    v.overLimits prof = none ↔ ¬ v.lanesOver prof ∧ ¬ v.storeOver := by
  rw [View.lanesOver_iff]
  unfold View.overLimits View.storeOver
  have h1 : Config.lanes = 6 := rfl
  have h2 : Config.storeSegments = 384 := rfl
  rw [h1, h2, segmentSum]
  split
  · simp [*]
  · split <;> simp [*]

/-- In a view a slot keeps its holder. -/
theorem View.holder_apply (v : View) (e : Entry) (ix : SlotIx) :
    ((v.apply e).table.body ix).holder? = (v.table.body ix).holder? := by
  have keep : ∀ (b : SlotBody) (c : Change), c.frees = false → (b.changed c).holder? = b.holder? := by
    intro b c hf
    obtain h | h := b.holder_changed c
    · exact h
    · cases b with
      | opened o st w => cases c <;> first | (cases hf; done) | (cases st <;> cases h)
      | queued o => cases c <;> cases h
      | _ => rw [SlotBody.changed_of_unheld rfl]
  rw [View.body_apply]
  split
  · split
    · rfl
    · next hf => exact keep _ _ (by simpa using hf)
  · rfl

theorem View.applyAll_fixed (v : View) (es : List Entry) (ix : SlotIx) :
    (v.applyAll es).table.gen ix = v.table.gen ix ∧ ((v.applyAll es).table.body ix).holder? = (v.table.body ix).holder? :=
  View.applyAll_keeps (P := fun u => u.table.gen ix = v.table.gen ix ∧ (u.table.body ix).holder? = (v.table.body ix).holder?)
    es ⟨rfl, rfl⟩ fun u e _ hu => ⟨by rw [View.apply_gen, hu.1], by rw [View.holder_apply, hu.2]⟩

/-- An entry that a view accepts from a port and that opens no window names an open window of the port by its handle,
or is RECLAIM's. -/
theorem View.named_of_refuses {v : View} {p : Port} {h : Handle} {c : Change} (hr : v.refuses p (.window h c) = none)
    (hc : ∀ w vis pl, c ≠ .create w vis pl) : ∃ ix o st w, h.ix? = some ix ∧ v.table.gen ix = h.gen ∧
      v.table.body ix = .opened o st w ∧ (o = p ∨ c = .reclaim) := by
  have hr : (match v.resolve h with
    | .error code => some code
    | .ok ix => v.refusesWindow p ix c) = none := by
    cases c with
    | create w vis pl => exact absurd rfl (hc w vis pl)
    | _ => exact hr
  cases hres : v.resolve h with
  | error code => rw [hres] at hr; cases hr
  | ok ix =>
    rw [hres] at hr
    dsimp only at hr
    unfold View.resolve at hres
    split at hres
    · cases hres
    · next jx hx =>
      split at hres
      · next o st w hb =>
        split at hres
        · next hg =>
          cases hres
          refine ⟨ix, o, st, w, hx, hg, hb, ?_⟩
          unfold View.refusesWindow at hr
          rw [hb] at hr
          dsimp only at hr
          split at hr
          · cases hr
          · split at hr
            · cases hr
            · next hown =>
              by_cases ho : o = p
              · exact .inl ho
              · right
                have : c.ownerExempt = true := by simpa using fun h => hown ⟨ho, h⟩
                cases c <;> first | rfl | cases this
        · cases hres
      · cases hres

end Sys2Proof.Machine
end

section
/-! PROOF. The laws of admission over every step, continued: the queue joined and applied, and the whole step (R40 to R49,
R55 to R64). -/

namespace Sys2Proof.Machine

/-! ### A batch queued (R40 to R43), continued -/

/-- What an accepted COMMIT has passed (R40 to R42). -/
theorem State.refusesCommit_none {s : State} {p : Port} : s.refusesCommit p = none ↔ s.queueFull p = false ∧
    View.revalidate p (s.projection p) 0 (s.staging p).openBatch = none ∧
    (s.portView p).overLimits s.raster.profile = none := by
  unfold State.refusesCommit
  split
  · simp [*]
  · split
    · simp [*]
    · split <;> simp [*]

/-- The projection up to the batch that COMMIT queues is the port's view. -/
theorem State.queueView_enqueue (s : State) (p : Port) :
    (s.enqueue p).queueView (s.commitQueue.length + 1) = s.portView p := by
  unfold State.queueView State.portView State.projection Machine.projection View.applyBatches
  rw [State.enqueue_queue, State.enqueue_table', List.take_of_length_le (by simp), List.foldl_append]
  rfl

/-- The slots RESERVED to the port stand QUEUED after its COMMIT, and no other slot is touched (R42). -/
theorem State.admits.enqueue {s : State} (h : s.admits) {p : Port} (hc : s.refusesCommit p = none) :
    (s.enqueue p).admits := by
  obtain ⟨-, hval, hlim⟩ := State.refusesCommit_none.1 hc
  have hval := View.revalidate_none.1 hval
  have hlast := s.queueView_enqueue p
  have hprof : (s.enqueue p).raster.profile = s.raster.profile := by rw [State.enqueue_raster]
  have hbody : ∀ jx, (s.enqueue p).table.body jx = if s.table.body jx = .reserved p then .queued p else s.table.body jx :=
    fun jx => by rw [State.enqueue_table', Table.body_reservedQueued]
  have hgen : ∀ jx, (s.enqueue p).table.gen jx = s.table.gen jx := fun jx => by
    rw [State.enqueue_table', Table.gen_reservedQueued]
  have hq := s.enqueue_queue p
  have hopen := s.enqueue_openBatch p
  have hsame : ∀ ix, s.admitsAs (s.enqueue p).table ix := fun jx => by
    by_cases hr : s.table.body jx = .reserved p
    · exact .inr ⟨by rw [hr]; rfl, by rw [hbody, if_pos hr, hr]; rfl⟩
    · exact .inl ⟨hgen jx, .inl (by rw [hbody, if_neg hr])⟩
  generalize s.enqueue p = t at hlast hprof hbody hgen hq hopen hsame ⊢
  have hne : ∀ {jx b}, s.table.body jx = b → b ≠ .reserved p → t.table.body jx = b := fun {jx b} hb hn => by
    rw [hbody, hb, if_neg hn]
  have hmine : ∀ {jx}, s.table.body jx = .reserved p → t.table.body jx = .queued p := fun {jx} hb => by
    rw [hbody, if_pos hb]
  have hheld : ∀ {jx o}, (s.table.body jx).holder? = some o → (t.table.body jx).holder? = some o := fun {jx o} hb => by
    rw [hbody, if_neg (fun e => by rw [e] at hb; cases hb)]; exact hb
  obtain ⟨h1, h2, h3, h4⟩ := h.reserved
  refine ⟨fun k hk => ?_, ⟨fun q => ?_, ?_, fun b hb hd hh => ?_, fun jx q => ⟨fun hr => ?_, fun hr => ?_⟩⟩, ?_, fun jx => ?_⟩
  case refine_1 =>
    rw [hq, List.length_append, List.length_singleton] at hk
    by_cases hk' : k ≤ s.commitQueue.length
    · have hcount : (t.queueView k).countedWindows = (s.queueView k).countedWindows := by
        rw [State.queueView_eq, hq, List.take_append_of_le_length hk', State.countedWindows_admitsAs h.queued hsame]
      rw [View.lanesOver_congr hcount, View.storeOver_congr hcount, hprof]
      exact h.limits k hk'
    · obtain rfl : k = s.commitQueue.length + 1 := by omega
      rw [hlast, hprof]
      exact View.overLimits_none.1 hlim
  case refine_2 =>
    rw [hopen]
    split
    · exact ⟨List.nodup_nil, fun _ hh => by cases hh⟩
    · next hqp =>
      refine ⟨(h1 q).1, fun hd hh => ?_⟩
      obtain ⟨jx, he, hr⟩ := (h1 q).2 hd hh
      exact ⟨jx, by rw [hgen]; exact he, hne hr fun e => hqp (by cases e; rfl)⟩
  case refine_3 =>
    rw [hq, List.flatMap_append, openedBy_append]
    refine List.nodup_append.2 ⟨h2, by simpa using (h1 p).1, ?_⟩
    rintro a ha b hb rfl
    obtain ⟨bt, hbt, ha⟩ := mem_openedBy_queue.1 ha
    obtain ⟨ix, he, hx⟩ := h3 bt hbt a ha
    obtain ⟨jx, he', hx'⟩ := (h1 p).2 a (by simpa using hb)
    obtain rfl : ix = jx := by simpa using congrArg Handle.ix? (he.symm.trans he')
    rw [hx] at hx'
    cases hx'
  case refine_4 =>
    rw [hq] at hb
    obtain hb | hb := List.mem_append.1 hb
    · obtain ⟨jx, he, hr⟩ := h3 b hb hd hh
      exact ⟨jx, by rw [hgen]; exact he, hne hr (by simp)⟩
    · obtain rfl := List.mem_singleton.1 hb
      obtain ⟨jx, he, hr⟩ := (h1 p).2 hd hh
      exact ⟨jx, by rw [hgen]; exact he, hmine hr⟩
  case refine_5 =>
    rw [hbody] at hr
    split at hr
    · cases hr
    · next hn =>
      rw [hgen, hopen, if_neg fun e => hn (by rw [hr, e])]
      exact (h4 jx q).1 hr
  case refine_6 =>
    rw [hgen, hq]
    rw [hbody] at hr
    split at hr
    · next hres =>
      cases hr
      exact ⟨_, List.mem_append_right _ (List.mem_singleton_self _), rfl, (h4 jx p).1 hres⟩
    · obtain ⟨b, hb, hbp, hm⟩ := (h4 jx q).2 hr
      exact ⟨b, List.mem_append_left _ hb, hbp, hm⟩
  case refine_7 =>
    rw [queuedEntriesLaw_iff, hq]
    intro b hb e he
    obtain hb | hb := List.mem_append.1 hb
    · obtain ⟨hp, hw⟩ := (queuedEntriesLaw_iff s).1 h.queued b hb e he
      refine ⟨hp, fun hd c hh => ?_⟩
      obtain ⟨ix, o, g1, g2, g3⟩ := hw hd c hh
      exact ⟨ix, o, by rw [hgen]; exact g1, hheld g2, g3⟩
    · obtain rfl := List.mem_singleton.1 hb
      dsimp only at he ⊢
      obtain ⟨before, after, hsplit⟩ := List.append_of_mem he
      have hpass := hval before e after hsplit
      unfold View.refusesAgain at hpass
      split at hpass
      · cases hpass
      next hperm =>
      split at hpass
      · cases hpass
      refine ⟨by simpa using hperm, fun hd c hh => ?_⟩
      subst hh
      by_cases hcreate : ∃ w vis pl, c = .create w vis pl
      · obtain ⟨w, vis, pl, rfl⟩ := hcreate
        obtain ⟨jx, he', hr⟩ := (h1 p).2 hd (mem_openedBy.2 ⟨w, vis, pl, he⟩)
        exact ⟨jx, p, by rw [hgen]; exact he', by rw [hmine hr]; rfl, .inl rfl⟩
      · obtain ⟨ix, o, st, w, hx, hg, hb, ho⟩ := View.named_of_refuses hpass fun w vis pl e => hcreate ⟨w, vis, pl, e⟩
        have hfix := View.applyAll_fixed ⟨s.table.reservedQueued p, []⟩
          (s.commitQueue.flatMap Batch.entries ++ before) ix
        have hview : View.applyAll ⟨s.table.reservedQueued p, []⟩ (s.commitQueue.flatMap Batch.entries ++ before) =
            (s.projection p).applyAll before := by
          unfold State.projection Machine.projection
          rw [View.applyBatches_eq]
          unfold View.applyAll
          rw [List.foldl_append]
        rw [hview, hb, hg] at hfix
        refine ⟨ix, o, ?_, ?_, ho⟩
        · rw [hgen, ← Table.gen_reservedQueued s.table p ix, ← hfix.1]
          exact handle_of_ix hx
        · rw [hbody, ← Table.body_reservedQueued, ← hfix.2]
          rfl
  case refine_8 =>
    rw [hbody]
    split
    · exact fun _ _ _ e => by cases e
    · exact h.pinned jx

/-! ### The queue applied (R47 to R49) -/

/-- The table after entries are applied to it. -/
def Table.applyEntries (t : Table) (es : List Entry) : Table := es.foldl Table.applyEntry t

@[simp] theorem Table.applyEntries_nil (t : Table) : t.applyEntries [] = t := rfl
@[simp] theorem Table.applyEntries_cons (t : Table) (e : Entry) (es : List Entry) :
    t.applyEntries (e :: es) = (t.applyEntry e).applyEntries es := rfl

theorem State.applyQueue_entries (s : State) :
    s.applyQueue.1.table = s.table.applyEntries (s.commitQueue.flatMap Batch.entries) := s.applyQueue_foldl

/-- What an entry does to a slot: the change it makes where it names the slot. -/
theorem Table.body_applyEntry (t : Table) (e : Entry) (ix : SlotIx) :
    (t.applyEntry e).body ix = t.body ix ∧ ¬ e.names ix ∨
      ∃ h c, e = .window h c ∧ h.ix? = some ix ∧ (t.applyEntry e).body ix = (t.body ix).changed c := by
  cases e with
  | backdrop colour => exact .inl ⟨rfl, fun ⟨_, _, h, _⟩ => by cases h⟩
  | window h c =>
    cases hx : h.ix? with
    | none =>
      refine .inl ⟨by simp [Table.applyEntry, hx], ?_⟩
      rintro ⟨h', c', e, hx'⟩
      cases e
      rw [hx] at hx'
      cases hx'
    | some jx =>
      rw [Table.applyEntry_window t hx, Table.body_applyChange]
      by_cases hj : jx = ix
      · subst hj
        exact .inr ⟨h, c, rfl, hx, if_pos rfl⟩
      · refine .inl ⟨if_neg hj, ?_⟩
        rintro ⟨h', c', e, hx'⟩
        cases e
        exact hj (Option.some.inj (hx.symm.trans hx'))

theorem Table.gen_applyEntry (t : Table) (e : Entry) (ix : SlotIx) (hn : (t.body ix).isOpen = false) :
    (t.applyEntry e).gen ix = t.gen ix := by
  cases e with
  | backdrop colour => rfl
  | window h c =>
    cases hx : h.ix? with
    | none => simp [Table.applyEntry, hx]
    | some jx =>
      rw [Table.applyEntry_window t hx, Table.gen_applyChange_eq, if_neg]
      rintro ⟨rfl, -, ho⟩
      rw [hn] at ho
      cases ho

/-- A slot that no port holds is left by every entry. -/
theorem Table.applyEntries_unheld {t : Table} {ix : SlotIx} (h : (t.body ix).holder? = none) (es : List Entry) :
    (t.applyEntries es).body ix = t.body ix ∧ (t.applyEntries es).gen ix = t.gen ix := by
  induction es generalizing t with
  | nil => exact ⟨rfl, rfl⟩
  | cons e es ih =>
    have hb : (t.applyEntry e).body ix = t.body ix := by
      obtain ⟨hb, -⟩ | ⟨_, _, -, -, hb⟩ := t.body_applyEntry e ix
      · exact hb
      · rw [hb, SlotBody.changed_of_unheld h]
    have hg := t.gen_applyEntry e ix (by cases hbx : t.body ix <;> simp_all [SlotBody.holder?, SlotBody.isOpen])
    obtain ⟨h1, h2⟩ := ih (t := t.applyEntry e) (by rw [hb]; exact h)
    exact ⟨h1.trans hb, h2.trans hg⟩

/-- A slot keeps its holder under entries or becomes FREE. -/
theorem Table.applyEntries_holder (t : Table) (ix : SlotIx) (es : List Entry) :
    ((t.applyEntries es).body ix).holder? = (t.body ix).holder? ∨ (t.applyEntries es).body ix = .free := by
  induction es generalizing t with
  | nil => exact .inl rfl
  | cons e es ih =>
    have hb : ((t.applyEntry e).body ix).holder? = (t.body ix).holder? ∨ (t.applyEntry e).body ix = .free := by
      obtain ⟨hb, -⟩ | ⟨_, c, -, -, hb⟩ := t.body_applyEntry e ix
      · exact .inl (by rw [hb])
      · rw [hb]; exact SlotBody.holder_changed _ c
    obtain hb | hb := hb
    · rw [Table.applyEntries_cons, ← hb]; exact ih _
    · right
      rw [Table.applyEntries_cons, (Table.applyEntries_unheld (by rw [hb]; rfl) es).1, hb]

/-- A slot QUEUED after entries was QUEUED before them, and no OPEN entry names it. -/
theorem Table.applyEntries_queued {t : Table} {ix : SlotIx} {es : List Entry} {o : Port}
    (h : (t.applyEntries es).body ix = .queued o) :
    t.body ix = .queued o ∧ ∀ hd ∈ openedBy es, hd.ix? ≠ some ix := by
  induction es generalizing t with
  | nil => exact ⟨h, fun _ hh => by cases hh⟩
  | cons e es ih =>
    obtain ⟨hb, hes⟩ := ih h
    obtain ⟨he, hn⟩ | ⟨hd, c, rfl, hx, he⟩ := t.body_applyEntry e ix
    · refine ⟨he ▸ hb, fun hd hh => ?_⟩
      rw [show e :: es = [e] ++ es from rfl, openedBy_append] at hh
      obtain hh | hh := List.mem_append.1 hh
      · obtain ⟨w, vis, pl, hm⟩ := mem_openedBy.1 hh
        exact fun hx => hn ⟨hd, _, (List.mem_singleton.1 hm).symm, hx⟩
      · exact hes hd hh
    · rw [he] at hb
      have hq := SlotBody.changed_queued hb
      refine ⟨hq, fun hd' hh => ?_⟩
      rw [show Entry.window hd c :: es = [Entry.window hd c] ++ es from rfl, openedBy_append] at hh
      obtain hh | hh := List.mem_append.1 hh
      · obtain ⟨w, vis, pl, hm⟩ := mem_openedBy.1 hh
        cases List.mem_singleton.1 hm
        rw [hq] at hb
        cases hb
      · exact hes hd' hh

/-- The windows stay in their sections' law under entries whose ports may make them. -/
theorem Table.applyEntries_pinned {t : Table} {ix : SlotIx} {es : List Entry} (h : (t.body ix).pinnedOk)
    (he : ∀ e ∈ es, ∃ p, e.permitted p = true ∧ ∀ hd c, e = .window hd c → hd.ix? = some ix →
      ∀ o, (t.body ix).holder? = some o → o = p ∨ c = .reclaim) : ((t.applyEntries es).body ix).pinnedOk := by
  induction es generalizing t with
  | nil => exact h
  | cons e es ih =>
    refine ih ?_ fun e' he' => ?_
    · obtain ⟨hb, -⟩ | ⟨hd, c, rfl, hx, hb⟩ := t.body_applyEntry e ix
      · rw [hb]; exact h
      · obtain ⟨p, hp, hw⟩ := he _ List.mem_cons_self
        rw [hb]
        exact SlotBody.pinnedOk_changed h hp (hw hd c rfl hx)
    · obtain ⟨p, hp, hw⟩ := he e' (List.mem_cons_of_mem _ he')
      refine ⟨p, hp, fun hd c hh hx o ho => ?_⟩
      obtain hk | hk := t.applyEntries_holder ix [e]
      · exact hw hd c hh hx o (by rw [← hk]; exact ho)
      · rw [show (t.applyEntry e).body ix = .free from hk] at ho
        cases ho

/-- The table the queue is applied to counts, at every slot, what the view up to the last batch counts. -/
theorem State.countedWindows_applyQueue {s : State} (h : QueuedEntriesLaw s) :
    (View.countedWindows ⟨s.applyQueue.1.table, []⟩) = (s.queueView s.commitQueue.length).countedWindows := by
  refine View.countedWindows_congr fun ix => ?_
  rw [Table.countedAt_live, State.applyQueue_entries, State.queueView_eq, List.take_length]
  have hf := View.follows_applyAll (ix := ix) (s.commitQueue.flatMap Batch.entries) (v := ⟨s.table, []⟩) (t := s.table)
    (.inl ⟨by simp, rfl⟩) fun hd c he hx => by
      obtain ⟨p, -, hw⟩ := h.named he
      have hg := congrArg Handle.gen (hw hd c ix rfl hx).1
      rw [handleOf_gen] at hg
      exact hg
  have hbody : ∀ {u : Table} {x : Slot}, u.slots[ix] = x → u.body ix = x.body := fun h => by
    unfold Table.body; rw [h]
  obtain ⟨hr, hs⟩ | ⟨hr, -, hs⟩ := hf
  · unfold View.countedAt View.isRetiring
    rw [if_neg (by simpa using hr)]
    exact congrArg SlotBody.counted (hbody hs).symm
  · unfold View.countedAt View.isRetiring
    rw [if_pos (by simpa using hr)]
    exact congrArg SlotBody.counted (hbody hs)

theorem State.admits.applyQueue {s : State} (h : s.admits) : s.applyQueue.1.admits := by
  have htab := s.applyQueue_entries
  have hcount := State.countedWindows_applyQueue h.queued
  have hq := s.applyQueue_commitQueue
  have hopen := fun p => (s.applyQueue_staging p).1
  have hprof : s.applyQueue.1.raster.profile = s.raster.profile := by rw [State.applyQueue_raster]
  generalize s.applyQueue.1 = t at htab hcount hq hopen hprof ⊢
  have hback : ∀ {ix p}, t.table.body ix = .reserved p → s.table.body ix = .reserved p := fun {ix p} hr => by
    rw [htab] at hr
    cases hh : (s.table.body ix).holder? with
    | none => rw [← (Table.applyEntries_unheld hh _).1]; exact hr
    | some o =>
      obtain hk | hk := Table.applyEntries_holder s.table ix (s.commitQueue.flatMap Batch.entries)
      · rw [hr, hh] at hk; cases hk
      · rw [hr] at hk; cases hk
  have hkeep : ∀ {ix p}, s.table.body ix = .reserved p →
      t.table.body ix = .reserved p ∧ t.table.gen ix = s.table.gen ix := fun {ix p} hr => by
    rw [htab]
    have := Table.applyEntries_unheld (t := s.table) (ix := ix) (by rw [hr]; rfl) (s.commitQueue.flatMap Batch.entries)
    exact ⟨this.1.trans hr, this.2⟩
  obtain ⟨h1, h2, h3, h4⟩ := h.reserved
  refine ⟨fun k hk => ?_, ⟨fun p => ⟨by rw [hopen]; exact (h1 p).1, fun hd hh => ?_⟩, by rw [hq]; exact List.nodup_nil,
    fun b hb => (by rw [hq] at hb; cases hb), fun ix p => ⟨fun hr => ?_, fun hr => ?_⟩⟩,
    fun b hb => (by rw [hq] at hb; cases hb), fun ix => ?_⟩
  · obtain rfl : k = 0 := by rw [hq] at hk; exact Nat.le_zero.1 hk
    rw [State.queueView_zero, View.lanesOver_congr hcount, View.storeOver_congr hcount, hprof]
    exact h.limits _ (le_refl _)
  · rw [hopen] at hh
    obtain ⟨ix, he, hr⟩ := (h1 p).2 hd hh
    exact ⟨ix, by rw [(hkeep hr).2]; exact he, (hkeep hr).1⟩
  · have hr := hback hr
    rw [hopen, (hkeep hr).2]
    exact (h4 ix p).1 hr
  · rw [htab] at hr
    obtain ⟨hb, hn⟩ := Table.applyEntries_queued hr
    obtain ⟨b, hbq, -, hm⟩ := (h4 ix p).2 hb
    exact absurd (handleOf_ix _ _) (hn _ (mem_openedBy_queue.2 ⟨b, hbq, hm⟩))
  · rw [htab]
    refine Table.applyEntries_pinned (h.pinned ix) fun e he => ?_
    obtain ⟨p, hp, hw⟩ := h.queued.named he
    refine ⟨p, hp, fun hd c hh hx o ho => ?_⟩
    obtain ⟨-, o', ho', hor⟩ := hw hd c ix hh hx
    obtain rfl : o' = o := Option.some.inj (ho'.symm.trans ho)
    exact hor

/-! ### The whole step -/

theorem State.admits.retimed {u : State} (h : u.admits) (hq : u.commitQueue = []) {prof : Profile}
    (hl : peakLanes u.liveView.countedWindows prof.activeHeight ≤ 6) (pins : Pins) :
    ({ u with raster := { u.raster with profile := prof }, pins := pins } : State).admits := by
  refine ⟨fun k hk => ?_, h.reserved, h.queued, h.pinned⟩
  change k ≤ u.commitQueue.length at hk
  rw [hq] at hk
  obtain rfl : k = 0 := Nat.le_zero.1 hk
  exact ⟨fun h => absurd ((View.lanesOver_iff _ _).1 h) (not_lt.2 hl), (h.limits 0 (Nat.zero_le _)).2⟩

/-- A suspension turns a SHOWN window SUSPENDED, which counts for as much (R121). -/
theorem State.admits.suspended {s t : State} (h : s.admits) {ix : SlotIx} {o : Port} {w : Window}
    (hb : s.table.body ix = .opened o .shown w) (ht : t.table = s.table.setBody ix (.opened o .suspended w))
    (ho : ∀ p, t.staging p = s.staging p) (hq : t.commitQueue = s.commitQueue) (hp : t.raster = s.raster) :
    t.admits := by
  have hbody : ∀ jx, t.table.body jx = if ix = jx then .opened o .suspended w else s.table.body jx := fun jx => by
    rw [ht, Table.body_setBody]
  have hgen : ∀ jx, t.table.gen jx = s.table.gen jx := fun jx => by rw [ht, Table.gen_setBody]
  refine ⟨h.limits.congr h.queued hq (by rw [hp]) fun jx => .inl ⟨hgen jx, ?_⟩,
    h.reserved.congr (fun p => by rw [ho]) hq (fun jx p => ?_) fun jx p _ => hgen jx,
    h.queued.congr hq fun jx o' hh => ⟨hgen jx, ?_⟩, fun jx => ?_⟩ <;> rw [hbody] <;> split
  · next e => subst e; exact .inr ⟨o, w, .suspended, .shown, rfl, hb, by simp, by simp⟩
  · exact .inl rfl
  · next e => subst e; rw [hb]; simp
  · exact ⟨Iff.rfl, Iff.rfl⟩
  · next e => subst e; rw [hb] at hh; exact hh
  · exact hh
  · next e => subst e; intro o' st' w' e hw; cases e; exact h.pinned ix o .shown w hb hw
  · exact h.pinned jx

theorem State.admits_reset : State.reset.admits := by
  have hb : ∀ ix : SlotIx, State.reset.table.body ix = .free := by decide
  have ho : ∀ p, (State.reset.staging p).openBatch = [] := by intro p; cases p <;> rfl
  have hc : (View.countedWindows ⟨State.reset.table, []⟩) = [] := by decide
  refine ⟨fun k hk => ?_, ⟨fun p => ⟨by rw [ho]; exact List.nodup_nil, fun h hh => ?_⟩, List.nodup_nil,
    fun b hb => (by cases hb), fun ix p => ⟨fun h => ?_, fun h => ?_⟩⟩, fun b hb => (by cases hb), fun ix => ?_⟩
  · obtain rfl : k = 0 := Nat.le_zero.1 hk
    rw [State.queueView_zero, View.lanesOver, View.storeOver, hc]
    simp
  · rw [ho] at hh; cases hh
  · rw [hb] at h; cases h
  · rw [hb] at h; cases h
  · rw [hb]; exact fun _ _ _ e => by cases e

end Sys2Proof.Machine
end

section
/-! PROOF. What is at rest in OFF, over every act; and the laws of admission over every step, concluded (R45, R49, R83). -/

namespace Sys2Proof.Machine

/-! ### What is at rest in OFF (R45, R83, R89) -/

/-- In OFF no batch waits, every lane is vacant and no stream is loaded. -/
def State.offRests (s : State) : Prop := s.raster.output = .off →
  s.commitQueue = [] ∧ (∀ i : Fin 6, s.lanes[i] = none) ∧ ∀ ix : SlotIx, s.streams[ix].loaded = false

theorem OffQuiet.rests {s : State} (h : OffQuiet s) : s.offRests := fun ho => by
  obtain ⟨hq, -, -, -, -, -, hl, hs, -⟩ := h ho
  exact ⟨hq, hl, hs⟩

/-- An act that does not enter OFF, and leaves at rest what is at rest. -/
theorem State.offRests_of {s t : State} (h : s.offRests)
    (hr : t.raster.output = .off → s.raster.output = .off ∧ s.restsTo t) : t.offRests := fun ho => by
  obtain ⟨ho', h1, h2, h3⟩ := hr ho
  obtain ⟨hq, hl, hs⟩ := h ho'
  exact ⟨h1 hq, fun i => h2 i (hl i), fun ix => h3 ix (hs ix)⟩

theorem State.offRests_same {s t : State} (h : s.offRests) (ho : t.raster.output = s.raster.output)
    (hr : s.restsTo t) : t.offRests := State.offRests_of h fun e => ⟨ho ▸ e, hr⟩

/-- OUTPUT_STOP brings everything to rest (R83). -/
theorem State.stopOutput_rests (s : State) : s.stopOutput.offRests := fun _ => by
  refine ⟨by simp [State.stopOutput], fun i => ?_, fun ix => ?_⟩
  · have h2 := (State.applyQueue_rests s.enterOff).2.1 i (vacantLanes_get i)
    have h3 := (State.stopStreams_rests s.enterOff.applyQueue.1 fun _ => true).2.1 i h2
    rw [show s.stopOutput.lanes = s.enterOff.applyQueue.1.streamsOff.lanes by simp [State.stopOutput]]
    exact h3
  · rw [show s.stopOutput.streams = s.enterOff.applyQueue.1.streamsOff.streams by simp [State.stopOutput]]
    exact State.streamsOff_loaded _ ix

theorem CommandAct.offRests {p : Port} {u v : State} (h : CommandAct p u v) (hu : u.offRests) : v.offRests := by
  have same : ∀ {v : State}, v.raster.output = u.raster.output → u.restsTo v → v.offRests :=
    fun ho hr => State.offRests_same hu ho hr
  cases h with
  | committed h =>
    simp only [State.acceptCommit]
    split
    · refine same (by simp) ?_
      obtain ⟨hl, hs⟩ := (u.enqueue p).applyQueue_applied.rests
      exact ⟨fun _ => by simp, fun i hi => hl i (by simpa using hi), fun ix hx => hs ix (by simpa using hx)⟩
    · next ho => exact fun e => absurd e ho
  | started ho hv =>
    have hon : u.startOutput.raster.output = .syncOnly := by simp [State.startOutput, Raster.started]
    exact fun e => by rw [hon] at e; cases e
  | stopped ho => exact u.stopOutput_rests
  | liveAsked ho => exact same rfl (State.restsTo_of_eq rfl rfl rfl)
  | quietAsked ho => exact same rfl (State.restsTo_of_eq rfl rfl rfl)
  | targetCleared => exact same rfl (State.restsTo_of_eq rfl rfl rfl)
  | retimed prof ho hv hl => exact same rfl (State.restsTo_of_eq rfl rfl rfl)
  | timeoutSet n h1 h2 => exact same rfl (State.restsTo_of_eq rfl rfl rfl)
  | fetchReset => exact same (by simp) u.resetFetch_rests
  | _ => exact same (by simp) (State.restsTo_of_eq (by simp) (by simp) (by simp))

/-- A frame turn enters SYNC_ONLY or LIVE, or keeps the output state. -/
theorem Raster.turned_off {r : Raster} (h : r.turned.output = .off) : r.output = .off := by
  unfold Raster.turned at h
  dsimp only at h
  split at h
  · cases h
  · split at h
    · cases h
    · exact h
  · exact h

theorem Act.offRests {s t : State} (h : Act s t) (hs : s.offRests) : t.offRests := by
  have same : ∀ {v : State}, v.raster.output = s.raster.output → s.restsTo v → v.offRests :=
    fun ho hr => State.offRests_same hs ho hr
  cases h with
  | reset => exact fun _ => ⟨rfl, (by decide : ∀ i : Fin 6, State.reset.lanes[i] = none),
      (by decide : ∀ ix : SlotIx, State.reset.streams[ix].loaded = false)⟩
  | frame hi h =>
    obtain ⟨p, l, u, rfl, rfl | ⟨rfl, -⟩⟩ := exec_frame hi h <;>
      exact same (by simp) (State.restsTo_of_eq (by simp) (by simp) (by simp))
  | command p c r hc h =>
    have hu : (s.takeHead p).offRests := same (by simp) (State.restsTo_of_eq (by simp) (by simp) (by simp))
    exact State.offRests_same (h.offRests hu) (by simp) (State.restsTo_of_eq (by simp) (by simp) (by simp))
  | frameTurn h =>
    exact State.offRests_of hs fun e => ⟨Raster.turned_off (r := s.raster.took .frameTurn) e,
      State.restsTo_of_eq rfl rfl rfl⟩
  | turnTaken turn hg h =>
    obtain ⟨-, e⟩ | ⟨ho, e⟩ := State.takeTurn_cases s turn <;> rw [e]
    · exact same rfl (State.restsTo_of_eq rfl rfl rfl)
    · exact fun e => absurd (by simpa using e) ho
  | suspension r rs h =>
    exact same (by simp) (State.restsTo_trans (State.restsTo_of_eq (by simp) (by simp) (by simp))
      (s.dropRequest.suspend_rests r))
  | lineStart l h =>
    have h1 : (s.tookEvent (.lineStart l)).ageTags.offRests := same rfl (State.restsTo_of_eq rfl rfl rfl)
    refine State.lineStartAct_keeps (P := State.offRests) h1 fun u k hu => ?_
    obtain ⟨e, -, -, h⟩ | ⟨-, h⟩ := u.timeoutTag_cases k <;> rw [h]
    · exact State.offRests_same hu (by simp) (u.quarantine_rests k e)
    · exact hu
  | tagTimeout k e h ht => exact same (by simp) (s.quarantine_rests k _)
  | activeLineStart l h =>
    refine State.offRests_of hs fun ho => ⟨ho, fun hq => hq, fun i _ => ?_, fun ix hx => ?_⟩
    · have hoff : s.raster.output = .off := ho
      show (if s.raster.output = .live then _ else vacantLanes)[i] = none
      rw [if_neg (by rw [hoff]; decide), vacantLanes_get]
    · show ((tabSlots fun ix => s.streams[ix].examined l)[ix]).loaded = false
      rw [tabSlots_get, Stream.loaded, (Stream.examined_fields _ l).2.1]
      exact hx
  | activeLineEnd l h =>
    refine same rfl (State.restsTo_of_loaded rfl rfl fun ix => ?_)
    rw [State.activeLineEndAct_get]
    obtain ⟨-, e⟩ | ⟨i, r, o, -, e⟩ := ((s.tookEvent (.activeLineEnd l)).streams[ix]).lineEnded_cases l <;> rw [e]
    · rfl
    · rw [Stream.setHalf_loaded]; rfl
  | activeEnd h =>
    refine same ?_ (State.restsTo_of_loaded (by simp) (by simp) fun ix => ?_)
    · obtain e | e := (s.tookEvent .activeEnd).activeEndAct_raster <;> rw [e]
      · rfl
      · rw [State.requested_output]; rfl
    · rw [show (s.tookEvent .activeEnd).activeEndAct.streams[ix] = _ from tabSlots_get _ ix]
      unfold Stream.loaded
      rw [(Stream.frameEnded_fields _).2.1]
      rfl
  | pick k d pick ho hc hk hb => exact fun e => absurd (by simpa using e) (by rw [ho]; decide : s.raster.output ≠ .off)
  | delivered k e all he hd h =>
    obtain rfl | ⟨ix, seg, ld, -, -, -, -, rfl⟩ := State.deliver_next h
    · exact same rfl (State.restsTo_of_eq rfl rfl rfl)
    · refine same rfl (State.restsTo_of_loaded rfl rfl fun jx => ?_)
      rw [State.setStream_get]
      split
      · next hj => subst hj; rw [Stream.setHalf_loaded]; rfl
      · rfl
  | failed k e he hd =>
    refine same (by simp) (State.restsTo_of_loaded (by simp) (by simp) fun jx => ?_)
    rw [State.deliverError_streams, State.failHalf_loaded]
    rfl
  | edge ho hd hu =>
    obtain rfl | rfl := hu
    · exact fun e => absurd e ho
    · exact fun e => absurd (by rw [← State.requested_output]; exact e) ho
  | _ => exact same (by simp) (State.restsTo_of_eq (by simp) (by simp) (by simp))

/-! ### The laws of admission over every act -/

theorem CommandAct.admits {p : Port} {u v : State} (h : CommandAct p u v) (hu : u.admits) (hoff : u.offRests) :
    v.admits := by
  have same : ∀ {v : State}, v.table = u.table → (∀ p, v.staging p = u.staging p) → v.commitQueue = u.commitQueue →
      v.raster.profile = u.raster.profile → v.admits := fun ht ho hq hp => hu.same ht (fun p => by rw [ho]) hq hp
  cases h with
  | nothing => exact hu
  | staged e hd hl hr hn => exact hu.appendEntry p hn
  | opened ix w vis pl hw hl hf =>
    refine hu.opened ?_ w vis pl
    have := List.find?_some hf
    cases hb : u.table.body ix <;> simp_all [SlotBody.isFree]
  | committed h =>
    have he := hu.enqueue h
    simp only [State.acceptCommit]
    split
    · exact he.applyQueue
    · exact he
  | abandoned => exact hu.discardOpen p
  | stopped ho =>
    have h1 : u.enterOff.admits := hu.same rfl (fun p => by simp) rfl rfl
    exact h1.applyQueue.same (by simp [State.stopOutput]) (fun p => by simp [State.stopOutput])
      (by simp [State.stopOutput]) (by simp [State.stopOutput])
  | retimed prof ho hv hl => exact hu.retimed (hoff ho).1 hl _
  | timeoutSet n h1 h2 => exact same rfl (fun p => by cases p <;> rfl) rfl rfl
  | started ho hv => exact same (by simp) (fun p => by simp) (by simp) rfl
  | liveAsked ho => exact same rfl (fun p => by cases p <;> rfl) rfl rfl
  | quietAsked ho => exact same rfl (fun p => by cases p <;> rfl) rfl rfl
  | targetCleared => exact same rfl (fun p => by cases p <;> rfl) rfl rfl
  | _ => exact same (by simp) (fun p => by simp) (by simp) (by simp)

theorem Raster.turned_profile (r : Raster) : r.turned.profile = r.profile := by
  obtain ⟨o, t, e⟩ := r.turned_eq
  rw [e]

theorem State.requested_same_profile (s : State) : s.requested.raster.profile = s.raster.profile := by
  obtain ⟨target, e, -⟩ := s.requested_raster
  rw [e]

theorem Act.admits {s t : State} (h : Act s t) (hs : s.admits) (hoff : s.offRests) : t.admits := by
  have same : ∀ {v : State}, v.table = s.table → (∀ p, v.staging p = s.staging p) → v.commitQueue = s.commitQueue →
      v.raster.profile = s.raster.profile → v.admits := fun ht ho hq hp => hs.same ht (fun p => by rw [ho]) hq hp
  have fixed : ∀ {v : State}, v.table = s.table → v.stagingA = s.stagingA → v.stagingB = s.stagingB →
      v.commitQueue = s.commitQueue → v.raster.profile = s.raster.profile → v.admits := fun ht ha hb hq hp =>
    same ht (fun p => by cases p <;> assumption) hq hp
  cases h with
  | reset => exact State.admits_reset.same rfl (fun p => by cases p <;> rfl) rfl rfl
  | frame hi h => obtain ⟨p, l, u, rfl, rfl | ⟨rfl, -⟩⟩ := exec_frame hi h <;> exact same (by simp) (by simp) (by simp) (by simp)
  | command p c r hc h =>
    have h1 : (s.takeHead p).admits := same (by simp) (by simp) (by simp) (by simp)
    have h2 : (s.takeHead p).offRests :=
      State.offRests_same hoff (by simp) (State.restsTo_of_eq (by simp) (by simp) (by simp))
    exact (h.admits h1 h2).same (by simp) (by simp) (by simp) (by simp)
  | frameTurn h => exact fixed rfl rfl rfl rfl (Raster.turned_profile _)
  | turnTaken turn hg h =>
    obtain ⟨-, e⟩ | ⟨-, e⟩ := s.takeTurn_cases turn <;> rw [e]
    · exact fixed rfl rfl rfl rfl rfl
    · have h1 : ({ s with turn := none } : State).admits := fixed rfl rfl rfl rfl rfl
      exact h1.applyQueue.same (by simp) (by simp) (by simp) (by simp)
  | suspension r rs h =>
    obtain e | ⟨ix, o, w, -, hb, -, e⟩ := s.dropRequest.suspend_cases r
    · rw [e]; exact fixed rfl rfl rfl rfl rfl
    · exact hs.suspended (ix := ix) (o := o) (w := w) hb (by rw [e]; simp) (by simp) (by simp) (by simp)
  | abandon p hg => exact (hs.discardOpen p).same (by simp) (by simp) (by simp) (by simp)
  | lineStart l h =>
    have took : (s.tookEvent (.lineStart l)).ageTags.admits := fixed rfl rfl rfl rfl rfl
    exact State.lineStartAct_keeps (P := State.admits) took fun u k hu =>
      hu.same (by simp) (by simp) (by simp) (by simp)
  | activeEnd h =>
    refine same (by simp) (by simp) (by simp) ?_
    obtain e | e := (s.tookEvent .activeEnd).activeEndAct_raster <;> rw [e]
    · rfl
    · rw [State.requested_same_profile]; rfl
  | delivered k e all he hd h =>
    obtain rfl | ⟨ix, seg, ld, -, -, -, -, rfl⟩ := State.deliver_next h <;> exact fixed rfl rfl rfl rfl rfl
  | edge ho hd hu =>
    obtain rfl | rfl := hu
    · exact fixed rfl rfl rfl rfl rfl
    · exact fixed (by simp) (by simp) (by simp) (by simp) (State.requested_same_profile s)
  | activeLineStart l h => exact fixed rfl rfl rfl rfl rfl
  | activeLineEnd l h => exact fixed rfl rfl rfl rfl rfl
  | _ => exact fixed (by simp) (by simp) (by simp) (by simp) (by simp)

/-- Settles O58: every act keeps the laws, with what is at rest in OFF; the segment balance is O54's. -/
theorem admissionLawsKept : Obligations.AdmissionLawsKept := by
  intro s t hs hoff h
  obtain ⟨hb, ha⟩ := (admissionLaw_iff s).1 hs
  have key := step_keeps (P := fun s => s.table.balanced ∧ s.admits ∧ s.offRests) (fun _ _ act ⟨h1, h2, h3⟩ =>
    ⟨act.balanced h1, act.admits h2 h3, act.offRests h3⟩)
    (fun _ _ ⟨h1, h2, h3⟩ => ⟨h1, h2.same rfl (fun p => by cases p <;> rfl) rfl rfl, h3⟩) h
    ⟨(segmentBalance_iff s).1 hb, ha, OffQuiet.rests hoff⟩
  exact (admissionLaw_iff t).2 ⟨(segmentBalance_iff t).2 key.1, key.2.1⟩

end Sys2Proof.Machine
end

section
/-! PROOF. The law of placement over every operation on the streams, the lanes and the tags (R47, R65, R91, R104, R106,
R113). -/

namespace Sys2Proof.Machine

/-! ### The law, clause by clause -/

/-- A stream's loads and places: the load of its slot's SHOWN window, and two places inside the store. -/
def State.loadPlaced (s : State) (ix : SlotIx) : Prop :=
  s.streams[ix].loaded = true → ∃ ld, s.streams[ix].load = some ld ∧ s.table.loadFor ix = some ld ∧
    ∀ i : HalfId, ∃ a, (s.streams[ix].half i).place = some a ∧ a + ld.segments ≤ 384

/-- No segment of a half of a loaded stream is another half's. -/
def State.apart (s : State) : Prop :=
  ∀ (ix jx : SlotIx) (i j : HalfId) (ld ld' : StreamLoad) (a b : Nat), (ix, i) ≠ (jx, j) →
    s.streams[ix].loaded = true → s.streams[jx].loaded = true → s.streams[ix].load = some ld →
    s.streams[jx].load = some ld' → (s.streams[ix].half i).place = some a → (s.streams[jx].half j).place = some b →
    a + ld.segments ≤ b ∨ b + ld'.segments ≤ a

/-- The halves of a stream that is not loaded are EMPTY. -/
def Stream.emptyUnloaded (st : Stream) : Prop := st.loaded = false → ∀ i, (st.half i).cond = .empty

/-- A lane reads a half of its window's loaded stream, in columns of the window. -/
def State.laneReads (s : State) (l : Lane) : Prop :=
  ∃ (ix : SlotIx) (ld : StreamLoad), l.handle.ix? = some ix ∧ s.streams[ix].loaded = true ∧
    s.streams[ix].load = some ld ∧ l.format = ld.format ∧
    ∀ a b : Nat, l.span = some (a, b) → l.x ≤ (a : Int) ∧ (b : Int) < l.x + (ld.width : Int)

/-- A WAITING tag's read is of at most sixteen beats. -/
def Tag.beatsOk (x : Tag) : Prop := ∀ e, x = .waiting e → e.beats ≤ 16

/-- The law of placement, with its clauses named. -/
structure State.placement (s : State) : Prop where
  loads : ∀ ix, s.loadPlaced ix
  apart : s.apart
  empty : ∀ ix : SlotIx, s.streams[ix].emptyUnloaded
  lanes : ∀ (n : Fin 6) (l : Lane) (i : HalfId), s.lanes[n] = some l → l.source = .half i → s.laneReads l
  beats : ∀ k : TagIx, (s.mem.tags[k]).beatsOk

theorem placementLaw_iff (s : State) : PlacementLaw s ↔ s.placement := by
  constructor
  · rintro ⟨h1, h2, h3, h4, h5⟩
    exact ⟨h1, h2, fun ix h i => h3 ix i h, h4, h5⟩
  · rintro ⟨h1, h2, h3, h4, h5⟩
    exact ⟨h1, h2, fun ix i h => h3 ix h i, h4, h5⟩

/-! ### What keeps the places -/

/-- A stream keeps its load, whether it is loaded, and its places; a half EMPTY in a stream not loaded stays so. -/
structure Stream.keepsPlaces (st st' : Stream) : Prop where
  loaded : st'.loaded = st.loaded
  load : st'.load = st.load
  place : ∀ i, (st'.half i).place = (st.half i).place
  empty : st.emptyUnloaded → st'.emptyUnloaded

theorem Stream.keepsPlaces_refl (st : Stream) : st.keepsPlaces st := ⟨rfl, rfl, fun _ => rfl, id⟩

/-- One half changed in its place, and EMPTY if it was EMPTY in a stream not loaded. -/
theorem Stream.keepsPlaces_setHalf (st : Stream) (i : HalfId) {h : Half} (hp : h.place = (st.half i).place)
    (he : st.loaded = false → (st.half i).cond = .empty → h.cond = .empty) : st.keepsPlaces (st.setHalf i h) where
  loaded := Stream.setHalf_loaded _ _ _
  load := Stream.setHalf_load _ _ _
  place j := by
    rw [Stream.half_setHalf]
    split
    · next e => rw [hp, e]
    · rfl
  empty hk hl j := by
    rw [Stream.setHalf_loaded] at hl
    rw [Stream.half_setHalf]
    split
    · exact he hl (hk hl i)
    · exact hk hl j

/-- Halves and load as they were. -/
theorem Stream.keepsPlaces_of_fields {st st' : Stream} (hl : st'.load = st.load) (hc : st'.cond = st.cond)
    (hh : ∀ i, st'.half i = st.half i) : st.keepsPlaces st' := by
  have hld : st'.loaded = st.loaded := by unfold Stream.loaded; rw [hc]
  exact ⟨hld, hl, fun i => by rw [hh], fun he h i => by rw [hh]; exact he (hld ▸ h) i⟩

theorem Half.fail_places (h : Half) (r : Nat) : (h.fail r).place = h.place ∧ (h.cond = .empty → (h.fail r).cond = .empty) := by
  obtain e | ⟨-, hc, e⟩ := h.fail_eq r <;> rw [e]
  · exact ⟨rfl, id⟩
  · exact ⟨rfl, fun h => by rw [hc] at h; cases h⟩

theorem Stream.keepsPlaces_lineEnded (st : Stream) (l : Nat) : st.keepsPlaces (st.lineEnded l) := by
  obtain ⟨-, e⟩ | ⟨i, r, o, hr, e⟩ := st.lineEnded_cases l <;> rw [e]
  · exact st.keepsPlaces_refl
  · refine st.keepsPlaces_setHalf i (Half.assign_fields _ _).2.2.2.2 fun hl _ => ?_
    have hon : st.rowOn l = none := by
      unfold Stream.rowOn
      split
      · simp [hl]
      · rfl
    unfold Stream.releasedHalf at hr
    rw [hon] at hr
    cases hr

theorem Stream.keepsPlaces_fetchReset (st : Stream) : st.keepsPlaces st.fetchReset where
  loaded := by
    unfold Stream.loaded Stream.fetchReset
    dsimp only
    split
    · next h => rw [h]; rfl
    · rfl
  load := rfl
  place i := by rw [Stream.fetchReset_half]; rfl
  empty _ _ i := by rw [Stream.fetchReset_half]; rfl

theorem Stream.keepsPlaces_trans {st st' st'' : Stream} (h : st.keepsPlaces st') (h' : st'.keepsPlaces st'') :
    st.keepsPlaces st'' :=
  ⟨h'.loaded.trans h.loaded, h'.load.trans h.load, fun i => (h'.place i).trans (h.place i), fun e => h'.empty (h.empty e)⟩

/-- A stream that is not loaded, with its halves EMPTY. -/
def Stream.parked (st : Stream) : Prop := st.loaded = false ∧ ∀ i, (st.half i).cond = .empty

theorem Stream.stopped_parked (st : Stream) : st.stopped.parked := ⟨rfl, fun i => by rw [Stream.stopped_half]; rfl⟩

theorem Stream.countCleared_keeps (st : Stream) : st.keepsPlaces st.countCleared :=
  Stream.keepsPlaces_of_fields rfl rfl fun i => Stream.countCleared_half st i

theorem Stream.parked_of_keeps {st st' : Stream} (h : st.keepsPlaces st') (hp : st.parked) : st'.parked :=
  have hl : st'.loaded = false := h.loaded.trans hp.1
  ⟨hl, h.empty (fun _ => hp.2) hl⟩

/-- From `s` to `t` every stream keeps its places or is parked. -/
def State.keepsStreams (s t : State) : Prop :=
  ∀ ix : SlotIx, s.streams[ix].keepsPlaces t.streams[ix] ∨ t.streams[ix].parked

theorem State.keepsStreams_of_eq {s t : State} (h : t.streams = s.streams) : s.keepsStreams t := fun ix => by
  rw [h]; exact .inl (Stream.keepsPlaces_refl _)

/-- A lane that reads a half is one that did, and its stream stands. -/
def State.keepsLanes (s t : State) : Prop := ∀ (n : Fin 6) (l : Lane) (i : HalfId), t.lanes[n] = some l →
  l.source = .half i → s.lanes[n] = some l ∧ ∀ ix : SlotIx, l.handle.ix? = some ix → s.streams[ix].loaded = true →
    t.streams[ix].loaded = true ∧ t.streams[ix].load = s.streams[ix].load

/-- Lanes that stand, and streams of which none is stopped. -/
theorem State.keepsLanes_of {s t : State} (hl : t.lanes = s.lanes)
    (hs : ∀ ix : SlotIx, s.streams[ix].keepsPlaces t.streams[ix]) : s.keepsLanes t := fun n l i hn _ =>
  ⟨by rw [← hl]; exact hn, fun ix _ h => ⟨(hs ix).loaded.trans h, (hs ix).load⟩⟩

/-- What keeps the law: streams kept or parked, the loads of the table, lanes, reads in bounds. -/
theorem State.placement.of {s t : State} (h : s.placement) (hs : s.keepsStreams t)
    (ht : ∀ ix : SlotIx, t.streams[ix].loaded = true → t.table.loadFor ix = s.table.loadFor ix) (hl : s.keepsLanes t)
    (hb : ∀ k : TagIx, (t.mem.tags[k]).beatsOk) : t.placement := by
  have kept : ∀ {ix : SlotIx}, t.streams[ix].loaded = true → s.streams[ix].keepsPlaces t.streams[ix] := fun {ix} hld =>
    (hs ix).resolve_right fun hp => by rw [hp.1] at hld; cases hld
  refine ⟨fun ix hld => ?_, fun ix jx i j ld ld' a b hne h1 h2 h3 h4 h5 h6 => ?_, fun ix => ?_, fun n l i hn hi => ?_, hb⟩
  · have k := kept hld
    obtain ⟨ld, h1, h2, h3⟩ := h.loads ix (k.loaded ▸ hld)
    refine ⟨ld, k.load.trans h1, (ht ix hld).trans h2, fun i => ?_⟩
    obtain ⟨a, ha, hle⟩ := h3 i
    exact ⟨a, (k.place i).trans ha, hle⟩
  · have k := kept h1
    have k' := kept h2
    exact h.apart ix jx i j ld ld' a b hne (k.loaded ▸ h1) (k'.loaded ▸ h2) (k.load ▸ h3) (k'.load ▸ h4)
      (k.place i ▸ h5) (k'.place j ▸ h6)
  · obtain k | hp := hs ix
    · exact k.empty (h.empty ix)
    · exact fun _ => hp.2
  · obtain ⟨hn', hkeep⟩ := hl n l i hn hi
    obtain ⟨ix, ld, h1, h2, h3, h4⟩ := h.lanes n l i hn' hi
    obtain ⟨h5, h6⟩ := hkeep ix h1 h2
    exact ⟨ix, ld, h1, h5, h6.trans h3, h4⟩

/-- Streams, lanes and tags as they were, on a table with the same loads. -/
theorem State.placement.same {s t : State} (h : s.placement) (hs : t.streams = s.streams) (hl : t.lanes = s.lanes)
    (hm : t.mem.tags = s.mem.tags) (ht : ∀ ix, t.table.loadFor ix = s.table.loadFor ix) : t.placement :=
  h.of (State.keepsStreams_of_eq hs) (fun ix _ => ht ix)
    (State.keepsLanes_of hl fun ix => by rw [hs]; exact Stream.keepsPlaces_refl _) fun k => by rw [hm]; exact h.beats k

/-! ### Tags (R113) -/

theorem Tag.beatsOk_free : Tag.free.beatsOk := fun _ h => by cases h
theorem Tag.beatsOk_quarantined (e : TagEntry) : (Tag.quarantined e).beatsOk := fun _ h => by cases h
theorem Tag.beatsOk_waiting {e : TagEntry} (h : e.beats ≤ 16) : (Tag.waiting e).beatsOk := fun e' he => by
  cases he; exact h

theorem Tag.beatsOk_marked {x y : Tag} {P : TagEntry → Prop} (hm : x.marked y P) (h : x.beatsOk) : y.beatsOk := by
  cases x with
  | waiting e => obtain ⟨d, rfl, -⟩ := hm; exact Tag.beatsOk_waiting (h e rfl)
  | free => rw [show y = .free from hm]; exact h
  | quarantined e => rw [show y = .quarantined e from hm]; exact h

theorem Tag.beatsOk_aged {x : Tag} (h : x.beatsOk) : x.aged.beatsOk := by
  cases x with
  | waiting e => exact Tag.beatsOk_waiting (h e rfl)
  | _ => exact h

theorem Tag.beatsOk_acceptedNow {x : Tag} (h : x.beatsOk) : x.acceptedNow.beatsOk := by
  cases x with
  | waiting e => exact Tag.beatsOk_waiting (h e rfl)
  | free => exact Tag.beatsOk_free
  | quarantined e => exact Tag.beatsOk_quarantined _

theorem segmentBeats_le (ld : StreamLoad) (seg : Nat) : segmentBeats ld seg ≤ 16 := by
  unfold segmentBeats
  have : min Config.segmentBytes (lineBytesRounded ld.format ld.width - seg * Config.segmentBytes) ≤ 256 :=
    Nat.min_le_left _ _
  omega

/-! ### Stops, and the queue applied -/

theorem State.keepsStreams_stop (s : State) (which : SlotIx → Bool) : s.keepsStreams (s.stopStreams which) := fun ix => by
  rw [State.stopStreams_streams]
  split
  · exact .inr (Stream.stopped_parked _)
  · exact .inl (Stream.keepsPlaces_refl _)

/-- A lane that a stop leaves is of a slot it does not stop. -/
theorem State.keepsLanes_stop (s : State) (which : SlotIx → Bool) : s.keepsLanes (s.stopStreams which) := by
  intro n l i hn hi
  have h : (s.stopStreams which).lanes[n] = match s.lanes[n] with
      | some l => if allSlots.any (fun ix => l.ofSlot ix && which ix) then none else some l
      | none => none := State.vacateLanes_get _ which n
  rw [hn] at h
  split at h
  · next l' hl' =>
    split at h
    · cases h
    · next hany =>
      cases h
      refine ⟨hl', fun ix hx hld => ?_⟩
      have hw : which ix = false := by
        cases hwx : which ix with
        | false => rfl
        | true => exact absurd (List.any_eq_true.2 ⟨ix, mem_allSlots ix, by rw [hwx, Lane.ofSlot_iff.2 hx]; rfl⟩) hany
      rw [State.stopStreams_streams, if_neg (by simp [hw])]
      exact ⟨hld, rfl⟩
  · cases h

theorem State.placement.stopStreams {s : State} (h : s.placement) (which : SlotIx → Bool)
    {t : State} (hs : t.streams = (s.stopStreams which).streams) (hl : t.lanes = (s.stopStreams which).lanes)
    (hm : t.mem.tags = (s.stopStreams which).mem.tags)
    (ht : ∀ ix : SlotIx, t.streams[ix].loaded = true → t.table.loadFor ix = s.table.loadFor ix) : t.placement := by
  refine h.of (fun ix => ?_) ht (fun n l i hn hi => ?_) fun k => ?_
  · rw [hs]; exact s.keepsStreams_stop which ix
  · rw [hl] at hn
    obtain ⟨h1, h2⟩ := s.keepsLanes_stop which n l i hn hi
    exact ⟨h1, fun ix hx hld => by rw [hs]; exact h2 ix hx hld⟩
  · rw [hm]; exact Tag.beatsOk_marked (Tag.marked_of (s.stopStreams_tags which k)) (h.beats k)

/-- What is left of the law while a queue is applied, before the turn is closed: the table's loads have moved on. -/
structure State.unsettled (s : State) : Prop where
  empty : ∀ ix : SlotIx, s.streams[ix].emptyUnloaded
  lanes : ∀ (n : Fin 6) (l : Lane) (i : HalfId), s.lanes[n] = some l → l.source = .half i → s.laneReads l
  beats : ∀ k : TagIx, (s.mem.tags[k]).beatsOk

theorem State.placement.unsettled {s : State} (h : s.placement) : s.unsettled := ⟨h.empty, h.lanes, h.beats⟩

theorem State.unsettled.same {s t : State} (h : s.unsettled) (hs : t.streams = s.streams) (hl : t.lanes = s.lanes)
    (hm : t.mem.tags = s.mem.tags) : t.unsettled :=
  ⟨by rw [hs]; exact h.empty, fun n l i hn hi => by
    obtain ⟨ix, ld, h1, h2, h3, h4⟩ := h.lanes n l i (hl ▸ hn) hi
    exact ⟨ix, ld, h1, by rw [hs]; exact h2, by rw [hs]; exact h3, h4⟩, by rw [hm]; exact h.beats⟩

theorem State.unsettled.applyQueue {s : State} (h : s.unsettled) : s.applyQueue.1.unsettled := by
  have ha := s.applyQueue_applied
  refine ⟨fun ix => ?_, fun n l i hn hi => ?_, fun k => Tag.beatsOk_marked (Tag.marked_of (ha.tags k)) (h.beats k)⟩
  · by_cases hc : s.table.happens (s.commitQueue.flatMap Batch.entries) (fun u e => u.clears e ix)
    · by_cases hst : s.table.happens (s.commitQueue.flatMap Batch.entries) (fun u e => u.stops e ix) ∧
        s.streams[ix].loaded = true
      · rw [(ha.cleared ix hc).1 hst]
        exact fun _ i => by rw [Stream.countCleared_half, Stream.stopped_half]; rfl
      · rw [(ha.cleared ix hc).2 hst]
        exact (Stream.countCleared_keeps _).empty (h.empty ix)
    · rw [ha.kept ix hc]; exact h.empty ix
  · have hlane := ha.lanes n
    cases hs : s.lanes[n] with
    | none =>
      rw [hs] at hlane
      rw [show s.applyQueue.1.lanes[n] = none from hlane] at hn
      cases hn
    | some l' =>
      rw [hs] at hlane
      obtain ⟨hvac, hkeep⟩ := hlane
      by_cases hst : ∃ ix, l'.handle.ix? = some ix ∧
          s.table.happens (s.commitQueue.flatMap Batch.entries) fun u e => u.stops e ix
      · rw [hvac hst] at hn; cases hn
      · rw [hkeep fun ix hx hst' => hst ⟨ix, hx, hst'⟩] at hn
        obtain rfl := Option.some.inj hn
        obtain ⟨ix, ld, h1, h2, h3, h4⟩ := h.lanes n l' i hs hi
        exact ⟨ix, ld, h1, (ha.loaded ix).2 ⟨h2, fun hst' => hst ⟨ix, h1, hst'⟩⟩, (ha.load ix).trans h3, h4⟩

/-- A part with no stream loaded and no lane that reads keeps the law on any table. -/
theorem State.unsettled.placement {s : State} (h : s.unsettled) (hn : ∀ ix : SlotIx, s.streams[ix].loaded = false) :
    s.placement where
  loads ix hl := by rw [hn] at hl; cases hl
  apart ix jx i j ld ld' a b _ hl := by rw [hn] at hl; cases hl
  empty := h.empty
  lanes := h.lanes
  beats := h.beats

theorem State.unsettled.stopStreams {s : State} (h : s.unsettled) (which : SlotIx → Bool) :
    (s.stopStreams which).unsettled := by
  refine ⟨fun ix => ?_, fun n l i hn hi => ?_, fun k =>
    Tag.beatsOk_marked (Tag.marked_of (s.stopStreams_tags which k)) (h.beats k)⟩
  · obtain k | hp := s.keepsStreams_stop which ix
    · exact k.empty (h.empty ix)
    · exact fun _ => hp.2
  · obtain ⟨h1, h2⟩ := s.keepsLanes_stop which n l i hn hi
    obtain ⟨ix, ld, g1, g2, g3, g4⟩ := h.lanes n l i h1 hi
    obtain ⟨k1, k2⟩ := h2 ix g1 g2
    exact ⟨ix, ld, g1, k1, k2.trans g3, g4⟩

end Sys2Proof.Machine
end

section
/-! PROOF. The law of placement over every step, continued: the loads of a frame turn, the lanes of a line, and the whole
step (R47, R65, R90 to R92, R106). -/

namespace Sys2Proof.Machine

/-! ### The places of the loads (R56, R106) -/

/-- Two places for every SHOWN window come to no more than the segments held. -/
theorem Table.loadSum_le (t : Table) : (allSlots.map fun j => match t.loadFor j with
    | some ld => 2 * ld.segments
    | none => 0).sum ≤ t.heldSum := by
  unfold Table.heldSum
  refine List.sum_le_sum fun j _ => ?_
  unfold Table.loadFor
  cases t.body j with
  | opened o st w => cases st <;> simp [SlotBody.held, Window.held, Window.need, StreamLoad.segments]
  | _ => simp [SlotBody.held]

/-- Both halves of a load lie in the segments held (R56, R106 step 3). -/
theorem Table.placeOf_le (t : Table) {ix : SlotIx} {ld : StreamLoad} (hl : t.loadFor ix = some ld) :
    t.placeOf ix + 2 * ld.segments ≤ t.heldSum := by
  refine le_trans ?_ t.loadSum_le
  unfold Table.placeOf
  have := sum_filter_le (fun j => match t.loadFor j with | some ld => 2 * ld.segments | none => 0)
    (fun j => decide (j < ix)) (fun _ => true) (fun _ _ => rfl) ix rfl (by simp) allSlots
  rw [if_pos (mem_allSlots ix), List.filter_true] at this
  simp only [hl] at this
  exact this

/-- The first segment of a half of a stream placed at `p` with `n` segments per half: half B lies after half A. -/
def HalfId.placeFrom (i : HalfId) (p n : Nat) : Nat :=
  match i with
  | .a => p
  | .b => p + n

theorem HalfId.placeFrom_bounds (i : HalfId) (p n : Nat) : p ≤ i.placeFrom p n ∧ i.placeFrom p n + n ≤ p + 2 * n := by
  cases i <;> simp only [HalfId.placeFrom] <;> omega

/-- The half of a stream restarted has its place from the load's (R106 step 3). -/
theorem Stream.restarted_place (st : Stream) (ld : StreamLoad) (rs : Bool) (p a b : Nat) (i : HalfId) :
    ((st.restarted ld rs p a b).half i).place = some (i.placeFrom p ld.segments) := by
  cases i with
  | a => exact (Half.assign_fields ⟨none, .empty, 0, [], some p⟩ _).2.2.2.2
  | b => exact (Half.assign_fields ⟨none, .empty, 0, [], some (p + ld.segments)⟩ _).2.2.2.2

theorem State.unsettled.loadStreams {s : State} (h : s.unsettled) (hs : ¬ 384 < s.table.heldSum) (rs : List SlotIx) :
    (s.loadStreams rs).placement := by
  have hst := s.loadStreams_streams rs
  have htab : (s.loadStreams rs).table = s.table := rfl
  have htags := fun k => Tag.beatsOk_marked (Tag.marked_of (s.loadStreams_tags rs k)) (h.beats k)
  have hlane : ∀ n : Fin 6, (s.loadStreams rs).lanes[n] =
      ((s.stopStreams fun ix => !(s.table.loadFor ix).isSome).lanes[n]).map fun l =>
        if allSlots.any (fun ix => l.ofSlot ix && (s.table.loadFor ix).isSome) then { l with source := .fill } else l :=
    fun n => tabLanes_get _ n
  generalize s.loadStreams rs = t at hst htab htags hlane ⊢
  have hload : ∀ {ix : SlotIx}, t.streams[ix].loaded = true → ∃ ld, s.table.loadFor ix = some ld ∧
      t.streams[ix].load = some ld ∧ ∀ i, (t.streams[ix].half i).place =
        some (i.placeFrom (s.table.placeOf ix) ld.segments) := by
    intro ix hl
    have e := hst ix
    cases hf : s.table.loadFor ix with
    | some ld =>
      rw [hf] at e
      refine ⟨ld, rfl, by rw [e]; rfl, fun i => ?_⟩
      rw [e]
      exact Stream.restarted_place _ _ _ _ _ _ i
    | none =>
      simp only [hf] at e
      rw [e] at hl
      split at hl
      · cases hl
      · next hn => exact absurd hl hn
  refine ⟨fun ix hl => ?_, fun ix jx i j ld ld' a b hne h1 h2 h3 h4 h5 h6 => ?_, fun ix => ?_, fun n l i hn hi => ?_,
    htags⟩
  · obtain ⟨ld, g1, g2, g3⟩ := hload hl
    refine ⟨ld, g2, htab ▸ g1, fun i => ⟨_, g3 i, ?_⟩⟩
    have := s.table.placeOf_le g1
    have := (i.placeFrom_bounds (s.table.placeOf ix) ld.segments).2
    omega
  · obtain ⟨ld₁, g1, g2, g3⟩ := hload h1
    obtain ⟨ld₂, k1, k2, k3⟩ := hload h2
    obtain rfl : ld₁ = ld := Option.some.inj (g2.symm.trans h3)
    obtain rfl : ld₂ = ld' := Option.some.inj (k2.symm.trans h4)
    have ha := Option.some.inj ((g3 i).symm.trans h5)
    have hb := Option.some.inj ((k3 j).symm.trans h6)
    have hi := i.placeFrom_bounds (s.table.placeOf ix) ld₁.segments
    have hj := j.placeFrom_bounds (s.table.placeOf jx) ld₂.segments
    obtain hlt | heq | hlt := lt_trichotomy ix jx
    · have := s.table.placeOf_lt ix jx hlt g1
      omega
    · subst heq
      obtain rfl : ld₁ = ld₂ := Option.some.inj (g1.symm.trans k1)
      cases i <;> cases j <;> simp only [HalfId.placeFrom, ne_eq, not_true_eq_false] at ha hb hne <;> omega
    · have := s.table.placeOf_lt jx ix hlt k1
      omega
  · have e := hst ix
    cases hf : s.table.loadFor ix with
    | some ld =>
      rw [hf] at e
      rw [e]
      exact fun hl => by cases hl
    | none =>
      simp only [hf] at e
      rw [e]
      split
      · exact fun _ => (Stream.stopped_parked _).2
      · exact h.empty ix
  · have hlane := hlane n
    rw [hn] at hlane
    obtain ⟨l', hl', he⟩ := Option.map_eq_some_iff.1 hlane.symm
    split at he
    · rw [← he] at hi; cases hi
    · next hany =>
      subst he
      obtain ⟨g1, g2⟩ := s.keepsLanes_stop _ n l' i hl' hi
      obtain ⟨ix, ld, k1, k2, -⟩ := h.lanes n l' i g1 hi
      obtain ⟨m1, -⟩ := g2 ix k1 k2
      refine absurd (List.any_eq_true.2 ⟨ix, mem_allSlots ix, ?_⟩) hany
      rw [Lane.ofSlot_iff.2 k1, Bool.true_and]
      cases hf : (s.table.loadFor ix).isSome with
      | true => rfl
      | false =>
        rw [State.stopStreams_streams, if_pos ⟨by rw [hf]; rfl, k2⟩] at m1
        cases m1

/-! ### The lanes of a line (R90 to R92) -/

/-- A row drawn from a half of a stream: the half is READY. -/
theorem Stream.readyHalf_ready {st : Stream} {r : Nat} {i : HalfId} (h : st.readyHalf r = some i) :
    (st.half i).cond = .ready ∧ (st.half i).row = some r := by
  unfold Stream.readyHalf at h
  split at h
  · next j hj =>
    split at h
    · next hc => cases h; exact ⟨hc, Stream.holding_row hj⟩
    · cases h
  · cases h

/-- The covered span lies in the window's columns and in the active pixels (R91). -/
theorem coveredSpan_some {x : Int} {w width a b : Nat} (h : coveredSpan x w width = some (a, b)) :
    x ≤ (a : Int) ∧ (b : Int) < x + (w : Int) ∧ b < width ∧ a ≤ b := by
  unfold coveredSpan at h
  dsimp only at h
  split at h
  · cases h
    omega
  · cases h

theorem State.placement.laneFor {s : State} (h : s.placement) {l : Nat} {ix : SlotIx} {lane : Lane} {i : HalfId}
    (hl : s.laneFor l ix = some lane) (hi : lane.source = .half i) : s.laneReads lane := by
  unfold State.laneFor at hl
  split at hl
  · next o w hb =>
    dsimp only at hl
    split at hl
    · cases hl
      unfold State.rowSource at hi
      dsimp only at hi
      split at hi
      · next hc =>
        simp only [Bool.and_eq_true, beq_iff_eq] at hc
        obtain ⟨hld, hhandle⟩ := hc
        obtain ⟨ld, h1, h2, -⟩ := h.loads ix hld
        have hw : ld.format = w.source.format ∧ ld.width = w.geometry.width := by
          unfold Table.loadFor at h2
          rw [hb] at h2
          cases h2
          exact ⟨rfl, rfl⟩
        refine ⟨ix, ld, handleOf_ix _ _, hld, h1, hw.1.symm, fun a b hab => ?_⟩
        obtain ⟨g1, g2, -, -⟩ := coveredSpan_some hab
        rw [hw.2]
        exact ⟨g1, g2⟩
      · cases hi
    · cases hl
  · cases hl

/-- The lanes an active-line start fills keep the law (R91, R92). -/
theorem State.placement.withLine {s : State} (h : s.placement) (l : Nat) : (s.withLine l).placement := by
  refine ⟨h.loads, h.apart, h.empty, fun n lane i hn hi => ?_, h.beats⟩
  have hlane : (s.withLine l).lanes[n] = (if s.raster.output = .live then s.filledLanes l else vacantLanes)[n] := rfl
  rw [hn] at hlane
  split at hlane
  · rw [show (s.filledLanes l)[n] = _ from tabLanes_get _ n] at hlane
    obtain ⟨ix, -, hix⟩ := List.mem_filterMap.1 (List.mem_of_getElem? hlane.symm)
    exact h.laneFor hix hi
  · rw [vacantLanes_get] at hlane
    cases hlane

/-! ### The events of a position -/

theorem State.placement.activeLineStart {s : State} (h : s.placement) (l : Nat) : (s.activeLineStartAct l).placement := by
  have key : ∀ ix : SlotIx, (s.withLine l).streams[ix].keepsPlaces (s.activeLineStartAct l).streams[ix] := fun ix => by
    rw [show (s.activeLineStartAct l).streams[ix] = _ from tabSlots_get _ ix]
    obtain ⟨h1, h2, h3⟩ := Stream.examined_fields s.streams[ix] l
    exact Stream.keepsPlaces_of_fields h1 h2 h3
  exact (h.withLine l).of (fun ix => .inl (key ix)) (fun _ _ => rfl) (State.keepsLanes_of rfl key) h.beats

theorem State.placement.activeLineEnd {s : State} (h : s.placement) (l : Nat) : (s.activeLineEndAct l).placement := by
  have key : ∀ ix : SlotIx, s.streams[ix].keepsPlaces (s.activeLineEndAct l).streams[ix] := fun ix => by
    rw [State.activeLineEndAct_get]; exact Stream.keepsPlaces_lineEnded _ l
  refine h.of (fun ix => .inl (key ix)) (fun _ _ => rfl) (State.keepsLanes_of rfl key) fun k => ?_
  rw [State.activeLineEndAct_tags]
  exact Tag.beatsOk_marked (Tag.marked_mark _ _) (h.beats k)

theorem State.placement.activeEnd {s : State} (h : s.placement) : s.activeEndAct.placement := by
  have key : ∀ ix : SlotIx, s.streams[ix].keepsPlaces s.activeEndAct.streams[ix] := fun ix => by
    rw [show s.activeEndAct.streams[ix] = _ from tabSlots_get _ ix]
    obtain ⟨h1, h2, h3⟩ := Stream.frameEnded_fields s.streams[ix]
    exact Stream.keepsPlaces_of_fields h1 h2 h3
  refine h.of (fun ix => .inl (key ix)) (fun ix _ => by rw [State.activeEndAct_table])
    (State.keepsLanes_of (by simp) key) fun k => ?_
  rw [State.activeEndAct_mem]
  exact h.beats k

/-- A half that fails, with its reads marked. -/
theorem State.placement.failHalf {s t : State} (h : s.placement) (e : TagEntry) (hs : t.streams = (s.failHalf e).streams)
    (hl : t.lanes = s.lanes) (ht : t.table = s.table) (hb : ∀ k : TagIx, (t.mem.tags[k]).beatsOk) : t.placement := by
  have key : ∀ ix : SlotIx, s.streams[ix].keepsPlaces t.streams[ix] := fun ix => by
    rw [hs, State.failHalf_streams_get]
    split
    · obtain ⟨h1, h2⟩ := (s.streams[ix].half e.half).fail_places e.row
      exact Stream.keepsPlaces_setHalf _ _ h1 fun _ => h2
    · exact Stream.keepsPlaces_refl _
  exact h.of (fun ix => .inl (key ix)) (fun ix _ => by rw [ht]) (State.keepsLanes_of hl key) hb

theorem State.placement.quarantine {s : State} (h : s.placement) (k : TagIx) (e : TagEntry) :
    (s.quarantine k e).placement := by
  have hb : ∀ j : TagIx, ((s.quarantine k e).mem.tags[j]).beatsOk := fun j => by
    rw [State.quarantine_tags]
    split
    · exact Tag.beatsOk_quarantined _
    · split
      · exact h.beats j
      · exact Tag.beatsOk_marked (Tag.marked_mark _ _) (h.beats j)
  have hs := s.quarantine_streams k e
  split at hs
  · exact h.of (State.keepsStreams_of_eq hs) (fun ix _ => by simp) (State.keepsLanes_of (by simp) fun ix => by
      rw [hs]; exact Stream.keepsPlaces_refl _) hb
  · exact h.failHalf e hs (by simp) (by simp) hb

theorem State.placement.lineStart {s : State} (h : s.placement) : s.lineStartAct.placement := by
  have aged : s.ageTags.placement := h.of (State.keepsStreams_of_eq rfl) (fun _ _ => rfl)
    (State.keepsLanes_of rfl fun _ => Stream.keepsPlaces_refl _) fun k => by
      rw [State.ageTags_get]; exact Tag.beatsOk_aged (h.beats k)
  refine State.lineStartAct_keeps (P := State.placement) aged fun u k hu => ?_
  obtain ⟨e, -, -, h⟩ | ⟨-, h⟩ := u.timeoutTag_cases k <;> rw [h]
  · exact hu.quarantine k e
  · exact hu

theorem State.takeEvent_placement {e : RasterEvent} {s t : State} (h : s.takeEvent e = .next t) (hs : s.placement) :
    t.placement := by
  have took : (s.tookEvent e).placement := hs.same rfl rfl rfl fun _ => rfl
  cases e with
  | lineStart l => rw [next_inj h]; exact took.lineStart
  | frameTurn => rw [next_inj h]; exact took.same rfl rfl rfl fun _ => rfl
  | activeLineStart l =>
    rw [(State.drive_next h).2]
    exact (took.activeLineStart l).same rfl rfl rfl fun _ => rfl
  | activeLineEnd l => rw [next_inj h]; exact took.activeLineEnd l
  | activeEnd => rw [next_inj h]; exact took.activeEnd

theorem State.takeEvents_placement {es : List RasterEvent} {s t : State} (h : State.takeEvents es s = .next t)
    (hs : s.placement) : t.placement := by
  induction es generalizing s with
  | nil => rw [next_inj h]; exact hs
  | cons e es ih =>
    unfold State.takeEvents at h
    split at h
    · exact ih h (State.takeEvent_placement ‹_› hs)
    · cases h
    · cases h

end Sys2Proof.Machine
end

section
/-! PROOF. The line store is never left: the law of placement over every step, and what it bounds (R65, R94, R106, R117). -/

namespace Sys2Proof.Machine

/-! ### The acts that reach the streams, the lanes or the table -/

/-- Tables that hold the same windows, under the same generations where one is open, load the same. -/
theorem Table.loadFor_congr {t u : Table} {ix : SlotIx} (hb : t.body ix = u.body ix)
    (hg : (u.body ix).isOpen = true → t.gen ix = u.gen ix) : t.loadFor ix = u.loadFor ix := by
  unfold Table.loadFor
  rw [hb]
  split
  · next h => rw [hg (by rw [h]; rfl)]
  · rfl

theorem Table.loadFor_none {t : Table} {ix : SlotIx} (h : (t.body ix).isOpen = false) : t.loadFor ix = none := by
  unfold Table.loadFor
  split
  · next h' => rw [h'] at h; cases h
  · rfl

theorem Table.loadFor_reserve {t : Table} {ix : SlotIx} (hf : t.body ix = .free) (p : Port) (jx : SlotIx) :
    (t.setBody ix (.reserved p)).loadFor jx = t.loadFor jx := by
  by_cases h : ix = jx
  · subst h
    rw [Table.loadFor_none (by rw [Table.body_setBody, if_pos rfl]; rfl), Table.loadFor_none (by rw [hf]; rfl)]
  · exact Table.loadFor_congr (by rw [Table.body_setBody, if_neg h]) fun _ => Table.gen_setBody _ _ _ _

theorem Table.loadFor_reservedQueued (t : Table) (p : Port) (jx : SlotIx) :
    (t.reservedQueued p).loadFor jx = t.loadFor jx := by
  by_cases h : t.body jx = .reserved p
  · rw [Table.loadFor_none (by rw [Table.body_reservedQueued, if_pos h]; rfl), Table.loadFor_none (by rw [h]; rfl)]
  · exact Table.loadFor_congr (by rw [Table.body_reservedQueued, if_neg h]) fun _ => Table.gen_reservedQueued _ _ _

theorem Table.loadFor_releaseReserved (t : Table) (p : Port) (jx : SlotIx) :
    (t.releaseReserved p).loadFor jx = t.loadFor jx := by
  by_cases h : t.body jx = .reserved p
  · rw [Table.loadFor_none (by rw [Table.body_releaseReserved, if_pos h]; rfl), Table.loadFor_none (by rw [h]; rfl)]
  · exact Table.loadFor_congr (by rw [Table.body_releaseReserved, if_neg h]) fun _ => by
      rw [Table.gen_releaseReserved, if_neg h]

theorem State.placement.discardOpen {s : State} (h : s.placement) (p : Port) : (s.discardOpen p).placement :=
  h.same (by simp) (by simp) (by simp) fun ix => by rw [State.discardOpen_table', Table.loadFor_releaseReserved]

/-- RESET_FETCH empties the halves in their places (R123). -/
theorem State.placement.resetFetch {s : State} (h : s.placement) : s.resetFetch.placement := by
  have hst : ∀ ix : SlotIx, s.resetFetch.streams[ix] = s.streams[ix].fetchReset := fun ix => tabSlots_get _ ix
  refine h.of (fun ix => .inl (by rw [hst]; exact Stream.keepsPlaces_fetchReset _)) (fun _ _ => rfl)
    (fun n l i hn hi => ?_) fun k => by
      rw [show s.resetFetch.mem.tags[k] = .free from tabTags_get _ k]; exact Tag.beatsOk_free
  have hlane : s.resetFetch.lanes[n] = (s.lanes[n]).map fun l =>
      if allSlots.any (fun ix => l.ofSlot ix && true) then { l with source := .fill } else l := tabLanes_get _ n
  rw [hn] at hlane
  obtain ⟨l', hl', he⟩ := Option.map_eq_some_iff.1 hlane.symm
  split at he
  · rw [← he] at hi; cases hi
  · next hany =>
    subst he
    obtain ⟨ix, ld, h1, -⟩ := h.lanes n l' i hl' hi
    exact absurd (List.any_eq_true.2 ⟨ix, mem_allSlots ix, by rw [Lane.ofSlot_iff.2 h1]; rfl⟩) hany

theorem State.unsettled.streamsOff {s t : State} (h : s.unsettled) (hs : t.streams = s.streamsOff.streams)
    (hl : t.lanes = s.streamsOff.lanes) (hm : t.mem.tags = s.streamsOff.mem.tags) : t.placement :=
  ((h.stopStreams fun _ => true).same hs hl hm).placement fun ix => by rw [hs]; exact State.streamsOff_loaded s ix

theorem CommandAct.placement {p : Port} {u v : State} (h : CommandAct p u v) (hu : u.placement) (hoff : u.offRests) :
    v.placement := by
  have same : ∀ {v : State}, v.streams = u.streams → v.lanes = u.lanes → v.mem.tags = u.mem.tags →
      (∀ ix, v.table.loadFor ix = u.table.loadFor ix) → v.placement := fun hs hl hm ht => hu.same hs hl hm ht
  have fixed : ∀ {v : State}, v.streams = u.streams → v.lanes = u.lanes → v.mem = u.mem → v.table = u.table →
      v.placement := fun hs hl hm ht => same hs hl (by rw [hm]) fun ix => by rw [ht]
  cases h with
  | nothing => exact hu
  | opened ix w vis pl hw hl hf =>
    refine same (by simp) (by simp) (by simp) fun jx => ?_
    rw [State.appendEntry_table]
    refine Table.loadFor_reserve ?_ p jx
    have := List.find?_some hf
    cases hb : u.table.body ix <;> simp_all [SlotBody.isFree]
  | committed h =>
    have he : (u.enqueue p).placement := same (by simp) (by simp) (by simp) fun jx => by
      rw [State.enqueue_table', Table.loadFor_reservedQueued]
    simp only [State.acceptCommit]
    split
    · next ho =>
      have hr := hoff (by simpa using ho)
      refine he.unsettled.applyQueue.placement fun ix => ?_
      exact (u.enqueue p).applyQueue_applied.rests.2 ix (by simpa using hr.2.2 ix)
    · exact he
  | abandoned => exact hu.discardOpen p
  | stopped ho =>
    have hvac : ∀ n : Fin 6, u.enterOff.lanes[n] = none := fun n => vacantLanes_get n
    have h1 : u.enterOff.unsettled := ⟨hu.empty, fun n l i hn _ => (by rw [hvac n] at hn; cases hn), hu.beats⟩
    exact h1.applyQueue.streamsOff (by simp [State.stopOutput]) (by simp [State.stopOutput])
      (by simp [State.stopOutput])
  | fetchReset => exact hu.resetFetch
  | timeoutSet n h1 h2 => exact same rfl rfl rfl fun _ => rfl
  | retimed prof ho hv hl => exact same rfl rfl rfl fun _ => rfl
  | started ho hv => exact fixed (by simp) (by simp) (by simp) (by simp)
  | _ => exact fixed (by simp) (by simp) (by simp) (by simp)

theorem State.placement_reset : State.reset.placement := by
  have hl : ∀ ix : SlotIx, State.reset.streams[ix].loaded = false := by decide
  refine State.unsettled.placement ⟨fun ix _ i => ?_, fun n l i hn _ => ?_, fun k => ?_⟩ hl
  · revert ix; cases i <;> decide
  · rw [(by decide : ∀ i : Fin 6, State.reset.lanes[i] = none) n] at hn; cases hn
  · rw [(by decide : ∀ k : TagIx, State.reset.mem.tags[k] = .free) k]; exact Tag.beatsOk_free

/-! ### Every act -/

/-- A part that admits holds no more segments than there are (R56). -/
theorem State.admits.held {s : State} (h : s.admits) : ¬ 384 < s.table.heldSum := by
  have := (h.limits 0 (Nat.zero_le _)).2
  rwa [State.queueView_zero, View.storeOver, ← Table.heldSum_eq] at this

theorem State.placement.takeTurn {s : State} (h : s.placement) (ha : s.admits) (turn : PendingTurn) :
    (s.takeTurn turn).placement := by
  obtain ⟨-, e⟩ | ⟨-, e⟩ := s.takeTurn_cases turn <;> rw [e]
  · exact h.same rfl rfl rfl fun _ => rfl
  · have ha0 : ({ s with turn := none } : State).admits := ha.same rfl (fun p => by cases p <;> rfl) rfl rfl
    have hu0 : ({ s with turn := none } : State).unsettled := ⟨h.empty, h.lanes, h.beats⟩
    have hheld := ha0.applyQueue.held
    have hu1 := hu0.applyQueue.same (State.postTurn_streams _ turn) (State.postTurn_lanes _ turn)
      (by rw [State.postTurn_mem])
    rw [← State.postTurn_table _ turn] at hheld
    unfold State.closeTurn
    split
    · exact hu1.loadStreams hheld _
    · exact hu1.streamsOff rfl rfl rfl

theorem State.placement.suspend {s : State} (h : s.placement) (r : Handle) : (s.suspend r).placement := by
  obtain e | ⟨ix, o, w, -, hb, -, e⟩ := s.suspend_cases r <;> rw [e]
  · exact h
  · generalize hu : ({ s with table := s.table.setBody ix (.opened o .suspended w) } : State).stopStream ix = u
    have hs : u.streams = (s.stopStream ix).streams := by rw [← hu]; rfl
    have hl : u.lanes = (s.stopStream ix).lanes := by rw [← hu]; rfl
    have hm : u.mem = (s.stopStream ix).mem := by rw [← hu]; rfl
    have ht : u.table = s.table.setBody ix (.opened o .suspended w) := by rw [← hu]; rfl
    refine h.stopStreams (fun jx => jx == ix) ((State.postSuspended_streams _ _ _ _).trans hs)
      ((State.postSuspended_lanes _ _ _ _).trans hl) (by rw [State.postSuspended_mem, hm]; rfl) fun jx hjx => ?_
    rw [State.postSuspended_streams, hs, State.stopStream, State.stopStreams_streams] at hjx
    rw [State.postSuspended_table, ht]
    have hne : ix ≠ jx := by
      rintro rfl
      split at hjx
      · cases hjx
      · next hn => exact hn ⟨beq_self_eq_true ix, hjx⟩
    exact Table.loadFor_congr (by rw [Table.body_setBody, if_neg hne]) fun _ => Table.gen_setBody _ _ _ _

/-- A tag that becomes FREE, and beats held (R129). -/
theorem State.placement.freeTag {s : State} (h : s.placement) (k : TagIx) : (s.freeTag k).placement :=
  h.of (State.keepsStreams_of_eq rfl) (fun _ _ => rfl) (State.keepsLanes_of rfl fun _ => Stream.keepsPlaces_refl _)
    fun j => by
      rw [State.freeTag_get]
      split
      · exact Tag.beatsOk_free
      · exact h.beats j

theorem State.placement.deliver {s t : State} (h : s.placement) {e : TagEntry} {beats : List Beat}
    (hd : s.deliver e beats = .next t) : t.placement := by
  obtain rfl | ⟨ix, seg, ld, -, hf, -, -, rfl⟩ := State.deliver_next hd
  · exact h
  · generalize hu : ({ s with store := _ } : State) = u
    have hs : u.streams = s.streams := by rw [← hu]
    have hu' : u.placement := h.same hs (by rw [← hu]) (by rw [← hu]) (by rw [← hu]; exact fun _ => rfl)
    have hfill : (s.streams[ix].half e.half).cond = .filling := by
      simp only [Half.fills, Bool.and_eq_true, beq_iff_eq] at hf
      exact hf.2
    have key : ∀ jx : SlotIx, u.streams[jx].keepsPlaces (u.setStream ix (s.streams[ix].setHalf e.half
        ((s.streams[ix].half e.half).filledOne ld.segments))).streams[jx] := fun jx => by
      rw [State.setStream_get, hs]
      split
      · next hj =>
        subst hj
        exact Stream.keepsPlaces_setHalf _ _ rfl fun _ he => by rw [hfill] at he; cases he
      · exact Stream.keepsPlaces_refl _
    exact hu'.of (fun jx => .inl (key jx)) (fun _ _ => rfl) (State.keepsLanes_of rfl key) hu'.beats

theorem State.placement.offer {s : State} (h : s.placement) (k : TagIx) {d : Int} {p : Pick}
    (hb : s.bestCandidate = some (d, p)) : (s.offer k p).placement := by
  have hbeats : p.beats ≤ 16 := by
    obtain ⟨hn, -⟩ | ⟨b, ix, i, hb', hc, -⟩ := s.bestCandidate_cases
    · rw [hn] at hb; cases hb
    · obtain rfl := Option.some.inj (hb.symm.trans hb')
      obtain ⟨ld, r, seg, -, -, he⟩ := State.candidate_iff.1 hc
      cases he
      exact segmentBeats_le _ _
  have key : ∀ jx : SlotIx, s.streams[jx].keepsPlaces (s.offer k p).streams[jx] := fun jx => by
    rw [State.offer_streams_get]
    split
    · exact Stream.keepsPlaces_setHalf _ _ rfl fun _ he => he
    · exact Stream.keepsPlaces_refl _
  refine h.of (fun jx => .inl (key jx)) (fun _ _ => by rw [State.offer_table])
    (State.keepsLanes_of (State.offer_lanes _ _ _) key) fun j => ?_
  rw [State.offer_tags_get]
  split
  · exact Tag.beatsOk_waiting hbeats
  · exact h.beats j

theorem Act.placement {s t : State} (h : Act s t) (hs : s.placement) (ha : s.admits) (hoff : s.offRests) :
    t.placement := by
  have fixed : ∀ {v : State}, v.streams = s.streams → v.lanes = s.lanes → v.mem.tags = s.mem.tags → v.table = s.table →
      v.placement := fun hs' hl hm ht => hs.same hs' hl hm fun ix => by rw [ht]
  have unbeaten : ({ s with mem := { s.mem with beats := [] } } : State).placement := fixed rfl rfl rfl rfl
  cases h with
  | wait => exact hs
  | reset => exact State.placement_reset.same rfl rfl rfl fun _ => rfl
  | frame hi h => obtain ⟨p, l, u, rfl, rfl | ⟨rfl, -⟩⟩ := exec_frame hi h <;> exact fixed (by simp) (by simp) (by simp) (by simp)
  | command p c r hc h =>
    have h1 : (s.takeHead p).placement := fixed (by simp) (by simp) (by simp) (by simp)
    have h2 : (s.takeHead p).offRests :=
      State.offRests_same hoff (by simp) (State.restsTo_of_eq (by simp) (by simp) (by simp))
    exact (h.placement h1 h2).same (by simp) (by simp) (by simp) (by simp)
  | frameTurn h => exact fixed rfl rfl rfl rfl
  | turnTaken turn hg h => exact hs.takeTurn ha turn
  | suspension r rs h => exact State.placement.suspend (s := s.dropRequest) (fixed rfl rfl rfl rfl) r
  | abandon p hg => exact (hs.discardOpen p).same (by simp) (by simp) (by simp) (by simp)
  | lineStart l h => exact State.placement.lineStart (s := s.tookEvent (.lineStart l)) (fixed rfl rfl rfl rfl)
  | tagTimeout k e h ht => exact hs.quarantine k _
  | activeLineStart l h =>
    have h1 := State.placement.activeLineStart (s := s.tookEvent (.activeLineStart l)) (fixed rfl rfl rfl rfl) l
    exact h1.same rfl rfl rfl fun _ => rfl
  | activeLineEnd l h => exact State.placement.activeLineEnd (s := s.tookEvent (.activeLineEnd l)) (fixed rfl rfl rfl rfl) l
  | activeEnd h => exact State.placement.activeEnd (s := s.tookEvent .activeEnd) (fixed rfl rfl rfl rfl)
  | pick k d pick ho hc hk hb => exact hs.offer k hb
  | accept => exact fixed rfl rfl rfl rfl
  | acceptTag o h =>
    refine hs.of (State.keepsStreams_of_eq rfl) (fun _ _ => rfl)
      (State.keepsLanes_of rfl fun _ => Stream.keepsPlaces_refl _) fun k => ?_
    rw [State.setTag_get]
    split
    · exact Tag.beatsOk_acceptedNow (hs.beats o.tag)
    · exact hs.beats k
  | beats held => exact fixed rfl rfl rfl rfl
  | spurious =>
    exact unbeaten.same (State.postSpurious_streams _) (State.postSpurious_lanes _) (by rw [State.postSpurious_mem])
      fun ix => by rw [State.postSpurious_table]
  | freed k => exact unbeaten.freeTag k
  | delivered k e all he hd h => exact (unbeaten.freeTag k).deliver h
  | failed k e he hd =>
    refine (unbeaten.freeTag k).failHalf e (State.deliverError_streams _ _) (by simp) (by simp) fun j => ?_
    rw [State.deliverError_mem, State.failHalf_tags_get]
    exact Tag.beatsOk_marked (Tag.marked_mark _ _) ((unbeaten.freeTag k).beats j)
  | edge ho hd hu => obtain rfl | rfl := hu <;> exact fixed (by simp) (by simp) (by simp) (by simp)

/-! ### What the law bounds (R65, R94, R117) -/

/-- A line of a load's pixels lies in its segments (R13). -/
theorem StreamLoad.line_le (ld : StreamLoad) : ld.width * ld.format.bytesPerPixel ≤ ld.segments * 256 := by
  unfold StreamLoad.segments segmentsPerHalf lineBytes
  omega

/-- Every READY row lies in the store. -/
theorem State.placement.rows {s : State} (h : s.placement) : RowsInStore s := by
  intro ix i hr
  have hld : s.streams[ix].loaded = true := by
    cases hl : s.streams[ix].loaded with
    | true => rfl
    | false => rw [h.empty ix hl i] at hr; cases hr
  obtain ⟨ld, -, h2, h3⟩ := h.loads ix hld
  obtain ⟨a, ha, hle⟩ := h3 i
  have hline := ld.line_le
  unfold Table.loadFor at h2
  split at h2
  · next o w hb =>
    cases h2
    exact ⟨a, o, .shown, w, ha, hb, by dsimp only at hline; omega⟩
  · cases h2

/-- Every pixel of a lane lies in the store. -/
theorem State.placement.pixels {s : State} (h : s.placement) (x : Nat) : s.lanesInStore x = true := by
  unfold State.lanesInStore
  rw [List.all_eq_true]
  intro lane hlane
  obtain ⟨n, hn, rfl⟩ := List.getElem_of_mem hlane
  have hn6 : n < 6 := by simpa using hn
  have hget : s.lanes.toList[n] = s.lanes[(⟨n, hn6⟩ : Fin 6)] := by simp
  rw [hget]
  cases hl : s.lanes[(⟨n, hn6⟩ : Fin 6)] with
  | none => rfl
  | some l =>
    dsimp only
    cases haddr : s.laneAddress l x with
    | none => rfl
    | some a =>
      unfold State.laneAddress at haddr
      split at haddr
      · next a' b' i hspan hsrc =>
        split at haddr
        · next hx =>
          obtain ⟨ix, ld, h1, h2, h3, h4, h5⟩ := h.lanes ⟨n, hn6⟩ l i hl hsrc
          obtain ⟨ld', g1, -, g3⟩ := h.loads ix h2
          obtain rfl : ld = ld' := Option.some.inj (h3.symm.trans g1)
          obtain ⟨place, hp, hle⟩ := g3 i
          obtain ⟨hlo, hhi⟩ := h5 a' b' hspan
          have hhalf : s.laneHalf l i = some (s.streams[ix].half i) := by unfold State.laneHalf; rw [h1]; rfl
          rw [hhalf] at haddr
          have ha : a = some (storeAddress place (((x : Int) - l.x).toNat * l.format.bytesPerPixel)) := by
            cases haddr
            show Half.pixelAddress _ _ _ = _
            unfold Half.pixelAddress
            rw [hp]
            rfl
          subst ha
          have hline := ld.line_le
          have hpx : (((x : Int) - l.x).toNat + 1) * ld.format.bytesPerPixel ≤ ld.width * ld.format.bytesPerPixel :=
            Nat.mul_le_mul_right _ (by omega)
          have hstore : storeBytes = 384 * 256 := rfl
          have haddr : ∀ k, storeAddress place k = place * 256 + k := fun _ => rfl
          dsimp only
          rw [decide_eq_true_eq, h4, haddr, hstore]
          rw [Nat.add_mul, one_mul] at hpx
          omega
        · cases haddr
      · cases haddr

/-! ### No step faults (log 14) -/

/-- The pixel of a position is not outside the store. -/
theorem State.placement.drive {s : State} (h : s.placement) (f : Fault) : s.drive ≠ .fault f := by
  have hat : s.atLineStart.placement := by
    unfold State.atLineStart
    split
    · exact h.withLine _
    · exact h
  unfold State.drive
  rw [if_neg]
  · simp
  · unfold State.pixelFault
    simp [hat.pixels]

theorem State.placement.takeEvent {s : State} (h : s.placement) (e : RasterEvent) (f : Fault) : s.takeEvent e ≠ .fault f := by
  cases e with
  | activeLineStart l =>
    have took : (s.tookEvent (.activeLineStart l)).placement := h.same rfl rfl rfl fun _ => rfl
    exact (took.activeLineStart l).drive f
  | _ => exact fun e => by cases e

theorem State.placement.takeEvents {s : State} (h : s.placement) (es : List RasterEvent) (f : Fault) :
    State.takeEvents es s ≠ .fault f := by
  induction es generalizing s with
  | nil => exact fun e => by cases e
  | cons e es ih =>
    unfold State.takeEvents
    split
    · exact ih (State.takeEvent_placement ‹_› h)
    · next g hg => exact absurd hg (h.takeEvent e g)
    · exact fun e => by cases e

theorem beatBytes_length (d : BitVec 128) : (beatBytes d).length = 16 := by simp [beatBytes]

/-- Sixteen bytes a beat (R169). -/
theorem dataBytes_length (beats : List Beat) : (dataBytes beats).length = 16 * beats.length := by
  induction beats with
  | nil => rfl
  | cons b bs ih =>
    have : dataBytes (b :: bs) = beatBytes b.data ++ dataBytes bs := rfl
    rw [this, List.length_append, beatBytes_length, ih, List.length_cons]
    omega

/-- Data for a read that its half awaits is written inside the half's segments (R113, R117). -/
theorem State.placement.deliverIn {s : State} (h : s.placement) (hf : FetchLaw s) {k : TagIx} {e : TagEntry}
    (hk : s.mem.tags[k] = .waiting e) (hd : e.discard = false) {beats : List Beat} (hb : beats.length = e.beats)
    (f : Fault) : (s.freeTag k).deliver e beats ≠ .fault f := by
  unfold State.deliver
  split
  · exact fun e => by cases e
  · next ix hix =>
    have hq : (s.mem.tags[k]).read ix e.half = some e.request := by
      rw [hk, Tag.read_waiting, if_pos ⟨hd, hix, rfl⟩]
    obtain ⟨hc, -, hld, -, hseg⟩ := hf.awaits hq
    obtain ⟨-, -, hcount⟩ := (s.halfLaw_iff ix e.half).1 (hf ix e.half)
    obtain ⟨ld', hl', hlt⟩ := (hcount hc).2.1 _ hseg
    obtain ⟨ld, hl, -, hplace⟩ := h.loads ix hld
    obtain rfl : ld' = ld := Option.some.inj (hl'.symm.trans hl)
    obtain ⟨place, hp, hle⟩ := hplace e.half
    have hbeats := h.beats k e hk
    have hst : (s.freeTag k).streams = s.streams := rfl
    dsimp only
    rw [hst, hp, hl]
    dsimp only
    change e.segment < ld'.segments at hlt
    have hin : storeAddress (place + e.segment) 0 + (dataBytes beats).length ≤ storeBytes := by
      have h1 : ∀ k, storeAddress (place + e.segment) k = (place + e.segment) * 256 + k := fun _ => rfl
      have h2 : storeBytes = 384 * 256 := rfl
      rw [dataBytes_length, hb, h1, h2]
      omega
    rw [if_pos hin]
    split <;> exact fun e => by cases e

theorem State.placement.matchTag {s : State} (h : s.placement) (hf : FetchLaw s) (k : TagIx) (error : Bool)
    (beats : List Beat) (f : Fault) : s.matchTag k error beats ≠ .fault f := by
  unfold State.matchTag
  split
  · exact fun e => by cases e
  · exact fun e => by cases e
  · next e he =>
    split
    · exact fun e => by cases e
    · next hd =>
      split
      · next hok =>
        simp only [TagEntry.takesOk, Bool.and_eq_true, beq_iff_eq] at hok
        exact h.deliverIn hf he (by simpa using hd) hok.1.2 f
      · exact fun e => by cases e

theorem State.placement.completion {s : State} (h : s.placement) (hf : FetchLaw s) (beats : List Beat) (f : Fault) :
    execCompletion beats s ≠ .fault f := by
  unfold execCompletion
  split
  · split
    · exact fun e => by cases e
    · unfold State.arrive
      dsimp only
      split
      · have h' : ({ s with mem := { s.mem with beats := [] } } : State).placement := h.same rfl rfl rfl fun _ => rfl
        unfold State.complete
        split
        · exact fun e => by cases e
        · split
          · exact h'.matchTag (hf.same rfl rfl) _ _ _ f
          · exact fun e => by cases e
      · exact fun e => by cases e
  · exact fun e => by cases e

/-- Settles O59: every act keeps the law, with the laws of admission and what is at rest in OFF; the rows that touch the
store stay inside it. -/
theorem lineStoreNeverLeft : Obligations.LineStoreNeverLeft := by
  refine ⟨fun s t ha hoff hp h => ?_, fun s hp => ?_, fun s i f hp hf => ?_⟩
  · obtain ⟨-, ha⟩ := (admissionLaw_iff s).1 ha
    have key := step_keeps (P := fun s => s.placement ∧ s.admits ∧ s.offRests) (fun _ _ act ⟨h1, h2, h3⟩ =>
      ⟨act.placement h1 h2 h3, act.admits h2 h3, act.offRests h3⟩)
      (fun _ _ ⟨h1, h2, h3⟩ => ⟨h1.same rfl rfl rfl fun _ => rfl, h2.same rfl (fun p => by cases p <;> rfl) rfl rfl, h3⟩) h
      ⟨(placementLaw_iff s).1 hp, ha, OffQuiet.rests hoff⟩
    exact (placementLaw_iff t).2 key.1
  · have hp := (placementLaw_iff s).1 hp
    exact ⟨hp.rows, hp.pixels⟩
  · have hp := (placementLaw_iff s).1 hp
    intro hx
    obtain ⟨beats, rfl⟩ | rfl | rfl := stopsAreNamed.2 i s f hx
    · exact hp.completion hf beats f hx
    · simp only [exec, execActiveLineStart] at hx
      split at hx
      · exact hp.takeEvent _ f hx
      · cases hx
    · simp only [exec, execPclkRisingEdge] at hx
      split at hx
      · cases hx
      · split at hx
        · next u hu =>
          refine State.placement.drive ?_ f hx
          obtain ⟨v, hv, e⟩ := u.reached_cases
          have hup := State.takeEvents_placement hu hp
          rw [e]
          obtain rfl | rfl := hv
          · exact hup.same rfl rfl rfl fun _ => rfl
          · exact hup.same (by simp) (by simp) (by simp) (by simp)
        · next g hg => exact hp.takeEvents _ g hg
        · cases hx

end Sys2Proof.Machine
end

section
/-! PROOF. The part right after device reset, and the commands that are answered from the state or change one register of
it (R79, R81, R82, R132, R152, R159, R160). -/

namespace Sys2Proof.Machine

/-! ### Device reset (R1, R77) -/

theorem State.rasterLaws_reset : State.reset.rasterLaws :=
  ⟨⟨.inr rfl, fun h => absurd rfl h, by simp [State.reset, Raster.reset], by simp [State.reset, Raster.reset],
    by simp [State.reset, Raster.reset]⟩, fun _ => ⟨rfl, rfl, rfl, rfl, rfl, rfl,
    (by decide : ∀ i : Fin 6, State.reset.lanes[i] = none),
    (by decide : ∀ ix : SlotIx, State.reset.streams[ix].loaded = false), rfl⟩⟩

/-- Settles O60: each law holds of the reset state. -/
theorem resetMeetsTheLaws : Obligations.ResetMeetsTheLaws := by
  have hbal : SegmentBalance State.reset := by
    show State.reset.table.free + (State.reset.table.heldSum : Int) = 384
    decide
  have hord : State.reset.table.ordered :=
    ⟨by simp [State.reset, Table.reset], by decide, by simp [State.reset, Table.reset, Table.layered]⟩
  obtain ⟨hcap, hran⟩ := (capacitiesRanges_iff State.reset).2
    ⟨State.portsOk_reset, State.batchesOk_reset, State.fetchOk_reset, List.nodup_nil⟩
  obtain ⟨hraster, hoff⟩ := State.rasterLaws_reset
  obtain ⟨hfetch, hstuck⟩ := State.fetchLaws_reset
  exact ⟨rfl, hbal, (zOrderLaw_iff _).2 hord, hraster, hoff, hcap, hran, hfetch, hstuck,
    (admissionLaw_iff _).2 ⟨hbal, State.admits_reset⟩, (placementLaw_iff _).2 State.placement_reset⟩

/-! ### A command answered (R146, R147) -/

/-- The row of a command that may be taken now carries out its body on the command's parameters and places the
response. -/
theorem exec_of_canTake {i : Instr} {p : Port} {c : QueuedCommand} {s : State} (h : s.canTake p c)
    (hi : i.command? = some (p, c.code)) (hlen : paramLength c.code = some c.params.length) :
    exec i s = .next ((commandBody i c.params (s.takeHead p)).2.respond p c (commandBody i c.params (s.takeHead p)).1) := by
  obtain ⟨len, hl, he⟩ := exec_eq_serve hi
  rw [he, serve_of_servable (.inl h) (Option.some.inj (hlen.symm.trans hl))]

/-- A command answered with nothing else changed. -/
theorem exec_replies {i : Instr} {p : Port} {c : QueuedCommand} {s : State} (h : s.canTake p c)
    (hi : i.command? = some (p, c.code)) (hlen : paramLength c.code = some c.params.length) {code : ResultCode}
    {data : List Byte} (hb : commandBody i c.params (s.takeHead p) = (⟨code, data⟩, s.takeHead p)) :
    exec i s = .next (s.answered p c code data) := by
  rw [exec_of_canTake h hi hlen, hb, State.respond_answered h]

/-- A command answered that leaves its port in no abandon. -/
theorem exec_places {i : Instr} {p : Port} {c : QueuedCommand} {s u : State} (h : s.canTake p c)
    (hi : i.command? = some (p, c.code)) (hlen : paramLength c.code = some c.params.length) {code : ResultCode}
    {data : List Byte} (hb : commandBody i c.params (s.takeHead p) = (⟨code, data⟩, u))
    (hu : (u.link p).abandonPending = ((s.takeHead p).link p).abandonPending) :
    exec i s = .next (u.placed p c code data) := by
  rw [exec_of_canTake h hi hlen, hb, State.respond_of_clear _ _ (by
    rw [hu, State.takeHead_abandonPending]; exact State.canTake_clear h)]

/-! ### Queries and notices (R159, R160, R168) -/

/-- Settles O29: the block is read from the state the command is taken in. -/
theorem queryStateBlock : Obligations.QueryStateBlock := by
  intro p c s h hcode hparams
  refine exec_replies h (i := .queryState p) (by rw [hcode]; rfl) (by rw [hcode, hparams]; rfl) ?_
  have hfree : s.table.freeSlots = (allSlots.filter fun ix => decide (s.table.body ix = .free)).length := by
    unfold Table.freeSlots
    refine congrArg List.length (List.filter_congr fun ix _ => ?_)
    cases s.table.body ix <;> simp [SlotBody.isFree]
  have hstuck : s.mem.fetchState.byte = if s.mem.fetchState = .stuck then 0x01 else 0x00 := by
    cases s.mem.fetchState <;> rfl
  simp only [commandBody, queryStateBody, State.stateBlock, State.takeHead_raster, State.takeHead_staging,
    State.takeHead_table, State.takeHead_mem, State.queuedBatches, State.takeHead_commitQueue, State.takeHead_stagingA,
    State.takeHead_stagingB, hfree, hstuck]
  simp [byteOfNat, bytes16]

/-- The notices a slot may have one of are fifteen at most, and two bytes each. -/
theorem filterMap_allSlots_bounds {f : SlotIx → Option (List Byte)} (hf : ∀ ix, ∀ e ∈ f ix, e.length = 2) :
    (allSlots.filterMap f).length ≤ 15 ∧ ∀ e ∈ allSlots.filterMap f, e.length = 2 := by
  refine ⟨le_trans (List.length_filterMap_le _ _) (by decide), fun e he => ?_⟩
  obtain ⟨ix, -, hix⟩ := List.mem_filterMap.1 he
  exact hf ix e hix

/-- Entries of two bytes each. -/
theorem length_flatten_pairs {es : List (List Byte)} (h : ∀ e ∈ es, e.length = 2) : es.flatten.length = 2 * es.length := by
  rw [List.length_flatten, List.map_eq_replicate_iff.2 h, List.sum_replicate, smul_eq_mul, mul_comm]

theorem Notices.isEmpty_empty : Notices.empty.isEmpty = true := by decide

/-- The notices of a slot's window, by its generation. -/
theorem slotNotices_bounds (code : Byte) (gens : Vector (Option Nibble) 15) :
    (slotNotices code gens).length ≤ 15 ∧ ∀ e ∈ slotNotices code gens, e.length = 2 :=
  filterMap_allSlots_bounds fun ix e he => by
    obtain ⟨g, -, rfl⟩ := Option.map_eq_some_iff.1 he
    rfl

theorem slotNotices_none {code : Byte} {gens : Vector (Option Nibble) 15} (h : ∀ ix : SlotIx, gens[ix] = none) :
    slotNotices code gens = [] :=
  List.filterMap_eq_nil_iff.2 fun ix _ => by rw [h ix]; rfl

/-- The entries of a set: two bytes each, and 48 at most where one of the kinds a slot has is missing or the slots' kinds
are all there and SPURIOUS is not. -/
theorem Notices.entries_bounds (n : Notices) (h : (∀ ix : SlotIx, n.reclaimed[ix] = none) ∨ n.spurious = false) :
    n.entries.length ≤ 48 ∧ n.entries.flatten.length = 2 * n.entries.length := by
  obtain ⟨hs, hs2⟩ := slotNotices_bounds 0x05 n.suspended
  obtain ⟨hr, hr2⟩ := slotNotices_bounds 0x06 n.reclaimed
  obtain ⟨hf, hf2⟩ := filterMap_allSlots_bounds (f := fun ix => (n.fetchFault[ix]).map fun f => [f.2.code, (handleOf ix f.1).byte])
    fun ix e he => by
      obtain ⟨g, -, rfl⟩ := Option.map_eq_some_iff.1 he
      rfl
  have hkinds : (slotNotices 0x06 n.reclaimed).length + (if n.spurious then 1 else 0) ≤ 15 := by
    obtain h | h := h
    · rw [slotNotices_none h]
      split <;> simp
    · simpa [h] using hr
  constructor
  · unfold Notices.entries
    generalize slotNotices 0x05 n.suspended = es, slotNotices 0x06 n.reclaimed = er,
      (allSlots.filterMap fun ix => (n.fetchFault[ix]).map fun f => [f.2.code, (handleOf ix f.1).byte]) = ef at *
    simp only [List.length_append]
    have hst : (if n.fetchStuck then [[0x03, 0x00]] else ([] : List (List Byte))).length ≤ 1 := by split <;> simp
    have hsp : (if n.spurious then [[0x04, 0x00]] else ([] : List (List Byte))).length = if n.spurious then 1 else 0 := by
      split <;> simp
    cases n.applied <;> cases n.output <;> simp only [List.length_cons, List.length_nil] <;> omega
  · refine length_flatten_pairs fun e he => ?_
    simp only [Notices.entries, List.mem_append, or_assoc] at he
    obtain he | he | he | he | he | he | he := he
    · cases ha : n.applied <;> simp_all
    · cases ho : n.output <;> simp_all
    · split at he <;> simp_all
    · split at he <;> simp_all
    · exact hs2 e he
    · exact hr2 e he
    · exact hf2 e he

theorem State.post_placed (s : State) (p : Port) (f : Notices → Notices) (c : QueuedCommand) (code : ResultCode)
    (data : List Byte) : (s.post p f).placed p c code data = (s.placed p c code data).post p f := by
  cases p <;> rfl

theorem State.post_link (s : State) (p : Port) (f : Notices → Notices) :
    (s.post p f).link p = { s.link p with notices := f (s.link p).notices } := by
  cases p <;> rfl

/-- Settles O30: the set is answered in its order and emptied. -/
theorem noticesTaken : Obligations.NoticesTaken := by
  intro p c s h hcode hparams n perSlot entries t
  have hentries : n.entries = entries := by
    simp only [Notices.entries, entries, perSlot, slotNotices]
    congr 1
    · congr 1
      congr 1
      congr 1
      congr 1
      congr 1
      · cases n.applied <;> rfl
      · cases n.output <;> rfl
    · refine List.filterMap_congr fun ix _ => ?_
      cases n.fetchFault[ix] with
      | none => rfl
      | some f =>
        obtain ⟨g, cause⟩ := f
        cases cause <;> rfl
  have htaken : ((s.takeHead p).link p).notices = n := by
    obtain ⟨cs, hl, -⟩ := State.takeHead_link s p p
    rw [hl]
  have hclear : ((s.takeHead p).link p).abandonPending = false := by
    rw [State.takeHead_abandonPending]
    exact State.canTake_clear h
  have hbody : commandBody (.takeNotices p) c.params (s.takeHead p) =
      (⟨.ok, BitVec.ofNat 8 entries.length :: entries.flatten⟩, (s.takeHead p).post p fun _ => Notices.empty) := by
    simp only [commandBody, takeNoticesBody, htaken, hclear, hentries, byteOfNat, pow_zero, Nat.div_one, Bool.false_eq_true,
      ↓reduceIte]
  refine ⟨?_, ?_, fun hran => ?_⟩
  · rw [exec_places h (by rw [hcode]; rfl) (by rw [hcode, hparams]; rfl) hbody (by rw [State.post_link]),
      State.post_placed, State.takeHead_eq]
    rfl
  · rw [State.post_link]
    exact Notices.isEmpty_empty
  · obtain ⟨-, -, -, -, -, -, hreclaimed, hspurious⟩ := hran
    rw [← hentries]
    refine n.entries_bounds ?_
    cases p with
    | a => exact .inl hreclaimed
    | b => exact .inr hspurious

/-! ### The output commands (R81, R82) -/

/-- A row whose body changes the raster alone. -/
theorem exec_places_raster {i : Instr} {p : Port} {c : QueuedCommand} {s : State} (h : s.canTake p c)
    (hi : i.command? = some (p, c.code)) (hlen : paramLength c.code = some c.params.length) {code : ResultCode}
    {data : List Byte} {r : Raster}
    (hb : commandBody i c.params (s.takeHead p) = (⟨code, data⟩, { s.takeHead p with raster := r })) :
    exec i s = .next { s.answered p c code data with raster := r } := by
  rw [exec_places h hi hlen hb (by cases p <;> rfl), State.takeHead_eq]
  cases p <;> rfl

/-- Settles O33: the tables of R81 and R82, by the output state. -/
theorem outputTargets : Obligations.OutputTargets := by
  intro c s h hparams left wrong
  refine ⟨fun hcode => ?_, fun hcode => ?_⟩
  · have hi : Instr.command? (.outputLive .a) = some (.a, c.code) := by rw [hcode]; rfl
    have hlen : paramLength c.code = some c.params.length := by rw [hcode, hparams]; rfl
    cases ho : s.raster.output with
    | off => exact exec_replies h hi hlen (by
        simp [commandBody, outputCommand, liveAct, State.outputReply, State.takeHead_raster, ho])
    | syncOnly => exact exec_places_raster h hi hlen (by
        simp [commandBody, outputCommand, liveAct, State.outputReply, State.setTarget, State.takeHead_raster, ho])
    | live => exact exec_places_raster h hi hlen (by
        simp [commandBody, outputCommand, liveAct, State.outputReply, State.setTarget, State.takeHead_raster, ho])
  · have hi : Instr.command? (.outputQuiet .a) = some (.a, c.code) := by rw [hcode]; rfl
    have hlen : paramLength c.code = some c.params.length := by rw [hcode, hparams]; rfl
    cases ho : s.raster.output with
    | off => exact exec_replies h hi hlen (by
        simp [commandBody, outputCommand, quietAct, State.outputReply, State.takeHead_raster, ho])
    | syncOnly => exact exec_places_raster h hi hlen (by
        simp [commandBody, outputCommand, quietAct, State.outputReply, State.setTarget, State.takeHead_raster, ho])
    | live => exact exec_places_raster h hi hlen (by
        simp [commandBody, outputCommand, quietAct, State.outputReply, State.setTarget, State.takeHead_raster, ho])

end Sys2Proof.Machine
end

section
/-! PROOF. Device reset and the state it holds (R1, R77), the frame turn reached (R73), and what an entry does to the
table (R6, R26 to R37, R57). -/

namespace Sys2Proof.Machine

/-! ### The part held in reset (R129, R141) -/

/-- The reset state while RST_N is asserted: the steps waiting and the free values drawn are all that it may hold. -/
def State.held (q : List Instr) (n : Nat) : State := { State.reset with pending := q, rstAsserted := true, choices := n }

/-- With no frame in progress in reset, none begins, and no other moment is one of a frame. -/
theorem frameStep_held {p : Port} {s : State} (hr : s.rstAsserted = true) (hf : (s.link p).frame = none) (kind : Byte)
    (capture : LinkPort → Capture) (act : Capture → List Byte → LinkPort → LinkPort) (m : Moment) :
    frameStep p kind capture act m s = s := by
  cases m with
  | fall => simp [frameStep, State.csFall, hr]
  | byte0 => simp [frameStep, LinkPort.kindRead, hf]
  | rise bits => simp [frameStep, LinkPort.rise, hf]

theorem State.held_frame (q : List Instr) (n : Nat) (p : Port) : ((State.held q n).link p).frame = none := by
  cases p <;> rfl

theorem State.held_servable (q : List Instr) (n : Nat) (p : Port) : (State.held q n).servable p = none := by
  cases p <;> rfl

/-- In reset a row of a link frame changes nothing. -/
theorem frameStep_reset (q : List Instr) (n : Nat) (p : Port) (kind : Byte) (capture : LinkPort → Capture)
    (act : Capture → List Byte → LinkPort → LinkPort) (m : Moment) :
    frameStep p kind capture act m (State.held q n) = State.held q n :=
  frameStep_held rfl (State.held_frame q n p) kind capture act m

/-- In reset nothing but the release of RST_N changes the part. -/
theorem exec_held {i : Instr} (q : List Instr) (n : Nat) (hwf : i.wf = true) (hi : i ≠ .deviceReset) :
    exec i (State.held q n) = .next (State.held q n) := by
  cases hc : i.command? with
  | some x =>
    obtain ⟨p, code⟩ := x
    obtain ⟨len, -, he⟩ := exec_eq_serve hc
    rw [he, serve, State.held_servable]
  | none =>
    cases i with
    | deviceReset => exact absurd rfl hi
    | emptyFrame p m =>
      cases m with
      | fall => rfl
      | byte0 => cases hwf
      | rise bits =>
        have hlen : ¬ 8 ≤ bits.length := by simpa [Instr.wf] using hwf
        simp only [exec, execEmptyFrame, if_neg hlen, State.held_frame]
    | commandFrame p m => exact congrArg _ (frameStep_reset ..)
    | read p m => exact congrArg _ (frameStep_reset ..)
    | status p m => exact congrArg _ (frameStep_reset ..)
    | linkReset p m =>
      have hstep : (State.held q n).linkResetStep p m = State.held q n := frameStep_reset ..
      cases m with
      | rise bits =>
        simp only [exec, execLinkReset, hstep]
        rw [if_neg fun h => Bool.noConfusion (h.1.symm.trans h.2)]
      | fall => exact congrArg _ hstep
      | byte0 => exact congrArg _ hstep
    | idleFrame p kind m =>
      simp only [exec, execIdleFrame, if_pos hwf]
      exact congrArg _ (frameStep_reset ..)
    | unknownFrameKind p kind m =>
      simp only [exec, execUnknownFrameKind, if_pos hwf]
      exact congrArg _ (frameStep_reset ..)
    | unknownCommandCode p => simp only [exec, execUnknownCommandCode, State.held_servable]
    | completion beats =>
      simp only [exec, execCompletion, if_pos hwf]
      rfl
    | linkResetAbandon p => cases p <;> rfl
    | tagTimeout k => rfl
    | _ => first | rfl | cases hc

/-- Settles O3: the reset state field by field. -/
theorem deviceResetValues : Obligations.DeviceResetValues := by
  have hslots : ∀ ix : SlotIx, State.reset.table.slots[ix] = ⟨0, .free⟩ := by decide
  have hlanes : ∀ i : Fin 6, State.reset.lanes[i] = none := by decide
  have htags : ∀ k : TagIx, State.reset.mem.tags[k] = .free := by decide
  have hstreams : ∀ ix : SlotIx, State.reset.streams[ix] = Stream.reset := by decide
  refine ⟨fun s held i h hr hwf hi => ?_, fun s => ⟨_, rfl, rfl, rfl, hslots, rfl, rfl, rfl, rfl, rfl, rfl, rfl, ?_,
    rfl, rfl, rfl, rfl, rfl, rfl, rfl, rfl, rfl, hlanes, fun ix => ?_, rfl, htags, rfl, rfl, rfl, rfl, rfl⟩⟩
  · have he : held = State.held s.pending s.choices := by
      obtain rfl : { State.reset with pending := s.pending, rstAsserted := !s.rstAsserted, choices := s.choices } = held :=
        Host.Outcome.next.inj h
      simp only at hr
      rw [hr]
      rfl
    rw [he]
    exact exec_held _ _ hwf hi
  · intro p
    cases p <;> exact ⟨rfl, rfl, rfl, rfl, rfl, rfl, rfl, rfl, rfl, rfl, fun n => rfl⟩
  · rw [show ({ State.reset with pending := s.pending, rstAsserted := !s.rstAsserted, choices := s.choices } : State).streams[ix]
      = Stream.reset from hstreams ix]
    exact ⟨rfl, rfl, rfl, rfl, fun i => by cases i <;> exact ⟨rfl, rfl, rfl, rfl⟩⟩

/-! ### The frame turn reached (R73) -/

/-- Steps 1 and 2 of R73 as the table of the pending target. -/
theorem Raster.turned_took (r : Raster) : (r.took .frameTurn).turned = { r with
    settle := min (r.settle + 1) 2
    output := if r.target = .syncOnly then .syncOnly
      else if r.target = .live ∧ min (r.settle + 1) 2 = 2 then .live else r.output
    target := if r.target = .live ∧ min (r.settle + 1) 2 ≠ 2 then .live else .none
    linesBegun := 0
    due := r.due.erase .frameTurn } := by
  cases ht : r.target with
  | none => simp [Raster.turned, Raster.took, ht]
  | syncOnly => simp [Raster.turned, Raster.took, ht]
  | live => by_cases hn : min (r.settle + 1) 2 = 2 <;> simp [Raster.turned, Raster.took, ht, hn]

/-- Settles O40: the pending target by cases. -/
theorem frameTurnReached : Obligations.FrameTurnReached := by
  intro s n output target
  constructor
  · intro h
    have ht : s.raster.takeable .frameTurn = true := by simp [Raster.takeable, h]
    simp only [exec, execFrameTurn, ht, ↓reduceIte, State.takeEvent, State.signalTurn, State.tookEvent]
    have hr : (s.raster.took .frameTurn).turned = { s.raster with
        settle := n, output := output, target := target, linesBegun := 0, due := s.raster.due.erase .frameTurn } :=
      Raster.turned_took s.raster
    have hc : (output != s.raster.output || match s.turn with
        | some t => t.changed
        | none => false) = decide (output ≠ s.raster.output ∨ ∃ old, s.turn = some old ∧ old.changed = true) := by
      cases hs : s.turn <;> by_cases ho : output = s.raster.output <;> simp [bne, ho]
    rw [hr]
    exact congrArg _ (congrArg (fun c => { s with
      raster := { s.raster with
        settle := n, output := output, target := target, linesBegun := 0, due := s.raster.due.erase .frameTurn }
      turn := some ⟨output, c, s.suspensions.length⟩ }) hc)
  · intro h
    have ht : s.raster.takeable .frameTurn = false := by
      rw [Bool.eq_false_iff]
      exact fun hf => h (Raster.mem_due_of_takeable hf)
    simp only [exec, execFrameTurn, ht, Bool.false_eq_true, ↓reduceIte]

/-! ### What an entry does to the table (R6, R26 to R37, R57) -/

theorem Table.applyChange_background (t : Table) (ix : SlotIx) (c : Change) :
    (t.applyChange ix c).background = t.background := by
  unfold Table.applyChange
  split <;> first | rfl | skip
  rename_i o st w on _
  unfold Table.pin
  split <;> rfl

/-- What the segments of a window are (R13). -/
theorem Window.held_eq (w : Window) (st : OpenState) : w.held st =
    if st = .hidden then 0 else 2 * ((w.geometry.width * w.source.format.bytesPerPixel + 255) / 256) := by
  cases st <;> rfl

theorem Table.setBody_slots (t : Table) (ix : SlotIx) (b : SlotBody) : (t.setBody ix b).slots[ix] = ⟨t.gen ix, b⟩ := by
  simp [Table.setBody]

/-- Settles O23: the change of the slot's row, by its state. -/
theorem entryAppliedToTable : Obligations.EntryAppliedToTable := by
  refine ⟨?_, fun t colour => rfl⟩
  intro t h ix ch hix need held t' g
  have ht' : t' = t.applyChange ix ch := Table.applyEntry_window t hix ch
  rw [ht']
  refine ⟨fun j hj => Table.applyChange_slots_ne t ch (Ne.symm hj), Table.applyChange_background t ix ch, ?_⟩
  have hheld : ∀ st w, Window.held w st = held st w := fun st w => Window.held_eq w st
  have hrewrite : ∀ o st w st' w', t.rewrite ix o st w st' w' = { t with
      slots := t.slots.set ix ⟨g, .opened o st' w'⟩, free := t.free + (held st w : Int) - (held st' w' : Int) } := by
    intro o st w st' w'
    rw [← hheld, ← hheld]
    rfl
  have hsame : ∀ o st w st' w', held st w = held st' w' → t.rewrite ix o st w st' w' = { t with
      slots := t.slots.set ix ⟨g, .opened o st' w'⟩ } := by
    intro o st w st' w' he
    rw [hrewrite, he, Int.add_sub_cancel]
  have hretire : ∀ st w, t.retire ix st w = { t with
      slots := t.slots.set ix ⟨g + 1, .free⟩, free := t.free + (held st w : Int)
      zorder := t.zorder.filter fun j => decide (j ≠ ix) } := by
    intro st w
    rw [← hheld]
    rfl
  cases hb : t.body ix with
  | opened o st w =>
    simp only [Table.applyChange, hb]
    cases ch with
    | create => rfl
    | place geo => exact hrewrite ..
    | source src => exact hrewrite ..
    | look l => exact hsame _ _ _ _ _ rfl
    | unhide =>
      cases st with
      | hidden => exact (hrewrite ..).trans (by simp [held])
      | _ => rfl
    | hide =>
      cases st with
      | hidden => rfl
      | _ => exact (hrewrite ..).trans (by simp [held])
    | resume =>
      cases st with
      | suspended => exact hsame _ _ _ _ _ rfl
      | _ => rfl
    | restack pl =>
      show (t.restack ix w pl).slots[ix] = _ ∧ (t.restack ix w pl).free = t.free
      refine ⟨?_, rfl⟩
      rw [← hb]
      rfl
    | pin on =>
      show (t.pin ix o st w on).slots[ix] = _ ∧ (t.pin ix o st w on).free = t.free ∧ (w.pinned = on → t.pin ix o st w on = t)
      by_cases hp : w.pinned = on
      · rw [Table.pin_of_eq hp]
        refine ⟨?_, rfl, fun _ => rfl⟩
        rw [Table.slots_eq, hb, ← hp]
      · obtain ⟨-, hfree, hbody⟩ := Table.pin_of_ne hp t ix o st
        refine ⟨?_, hfree, fun h => absurd h hp⟩
        rw [Table.slots_eq, hbody, if_pos rfl, show (t.pin ix o st w on).gen ix = g from
          (congrArg (Table.gen · ix) (if_neg hp)).trans (Table.gen_setBody ..)]
    | retire => exact hretire st w
    | reclaim => exact hretire st w
  | queued o =>
    cases ch with
    | create w vis pl =>
      have hslot : ∀ vis, (t.create ix o w vis pl).slots[ix] = ⟨g, .opened o vis.openState w⟩ := fun _ => Table.setBody_slots ..
      have hfree : ∀ vis, (t.create ix o w vis pl).free = t.free - (held vis.openState w : Int) := fun vis => by
        rw [← hheld]
        rfl
      simp only [Table.applyChange, hb]
      cases vis with
      | hidden => exact ⟨hslot .hidden, (hfree .hidden).trans (by simp [held, Visibility.openState])⟩
      | shown => exact ⟨hslot .shown, (hfree .shown).trans (by simp [held, Visibility.openState])⟩
    | _ => simp [Table.applyChange, hb]
  | _ => simp [Table.applyChange, hb]

end Sys2Proof.Machine
end

section
/-! PROOF. The link frames: how a frame begins, what byte 0 captures, and how a frame of each kind ends (R141 to R145,
R149 to R153). -/

namespace Sys2Proof.Machine

/-! ### The notice set and the bytes of a port (10.1) -/

/-- The notice line's test finds the empty set and no other. -/
theorem Notices.isEmpty_iff {n : Notices} : n.isEmpty = true ↔ n = Notices.empty := by
  refine ⟨fun h => ?_, fun h => h ▸ Notices.isEmpty_empty⟩
  obtain ⟨applied, output, fetchStuck, spurious, suspended, reclaimed, fetchFault⟩ := n
  simp only [Notices.isEmpty, Bool.and_eq_true, Option.isNone_iff_eq_none, Bool.not_eq_true', List.all_eq_true] at h
  obtain ⟨⟨⟨⟨ha, ho⟩, hst⟩, hsp⟩, hslots⟩ := h
  have hall : ∀ ix : SlotIx, (suspended[ix] = none ∧ reclaimed[ix] = none) ∧ fetchFault[ix] = none :=
    fun ix => hslots ix (List.mem_finRange ix)
  have hs : suspended = Vector.replicate 15 none := Vector.ext fun k hk => by
    rw [Vector.getElem_replicate]
    exact (hall ⟨k, hk⟩).1.1
  have hr : reclaimed = Vector.replicate 15 none := Vector.ext fun k hk => by
    rw [Vector.getElem_replicate]
    exact (hall ⟨k, hk⟩).1.2
  have hf : fetchFault = Vector.replicate 15 none := Vector.ext fun k hk => by
    rw [Vector.getElem_replicate]
    exact (hall ⟨k, hk⟩).2
  subst ha ho hst hsp hs hr hf
  rfl

/-- A flag clear exactly where a set is empty, as a bit of a byte. -/
theorem flag_toNat {P : Prop} [Decidable P] {b : Bool} (h : b = true ↔ P) (k : Nat) :
    (!b).toNat * k = if P then 0 else k := by
  by_cases hp : P
  · simp [h.2 hp, hp]
  · simp [Bool.eq_false_iff.2 (fun hb => hp (h.1 hb)), hp]

theorem LinkPort.statusByte_eq (l : LinkPort) : l.statusByte = l.statusFields := by
  have hl : l.linkFlag.toNat = if l.dropped = true ∨ l.frameError = true then 1 else 0 := by
    cases hd : l.dropped <;> cases hf : l.frameError <;> simp [LinkPort.linkFlag, hd, hf]
  rw [LinkPort.statusByte, LinkPort.statusFields, flag_toNat List.isEmpty_iff, flag_toNat Notices.isEmpty_iff, hl]

theorem LinkPort.extendedStatus_eq (l : LinkPort) : l.extendedStatus = l.statusBlockFields := by
  rw [LinkPort.extendedStatus, LinkPort.statusBlockFields, flag_toNat Notices.isEmpty_iff, Nat.mul_comm _ 16]
  cases l.dropped <;> cases l.frameError <;> cases l.abandonPending <;> rfl

/-! ### The moments of a frame (R141, R143) -/

/-- What a frame of a kind captures at its port when byte 0 is complete. -/
def LinkPort.captured (l : LinkPort) (kind : Byte) : Capture :=
  if kind = 0xD2 then .response l.responses.head?
  else if kind = 0xE3 then .extendedStatus l.extendedStatus
  else .nothing

/-- The fall of chip select is the same for every frame row. -/
theorem exec_fall {i : Instr} {p : Port} {s : State} (hwf : i.wf = true) (hp : i.framePort? = some p)
    (hm : i.moment? = some .fall) : exec i s = .next (s.csFall p) := by
  cases i <;> simp only [Instr.moment?, reduceCtorEq, Option.some.injEq] at hm <;> obtain rfl := Option.some.inj hp <;>
    subst hm
  case idleFrame => simp only [exec, execIdleFrame, if_pos hwf]; rfl
  case unknownFrameKind => simp only [exec, execUnknownFrameKind, if_pos hwf]; rfl
  all_goals rfl

/-- An unknown kind is none of the six listed. -/
theorem Instr.unknown_wf {p : Port} {kind : Byte} {m : Moment} (h : (Instr.unknownFrameKind p kind m).wf = true) :
    kind ≠ 0xD2 ∧ kind ≠ 0xE3 := by
  constructor <;> rintro rfl <;> exact Bool.noConfusion h

/-- Byte 0 gives the frame of a row's kind what that kind captures. -/
theorem exec_byte0 {i : Instr} {p : Port} {kind : Byte} {s : State} (hwf : i.wf = true)
    (hk : i.frameKind? = some (p, kind)) (hm : i.moment? = some .byte0) :
    exec i s = .next (s.setLink p ((s.link p).kindRead kind ((s.link p).captured kind))) := by
  cases i <;> simp only [Instr.moment?, reduceCtorEq, Option.some.injEq] at hm <;>
    simp only [Instr.frameKind?, reduceCtorEq, Option.some.injEq, Prod.mk.injEq] at hk <;> obtain ⟨rfl, rfl⟩ := hk <;> subst hm
  case idleFrame p kind =>
    have hkind : kind = 0x00 ∨ kind = 0xFF := by simpa [Instr.wf] using hwf
    simp only [exec, execIdleFrame, if_pos hwf]
    obtain rfl | rfl := hkind <;> rfl
  case unknownFrameKind p kind =>
    obtain ⟨hread, hstatus⟩ := Instr.unknown_wf hwf
    simp only [exec, execUnknownFrameKind, if_pos hwf, LinkPort.captured, if_neg hread, if_neg hstatus]
    rfl
  all_goals rfl

/-- Settles O4: the fall is the same row for row; what it captures is the status byte. -/
theorem frameBegins : Obligations.FrameBegins := by
  intro i p s hwf hp hm
  refine ⟨_, exec_fall hwf hp hm, ?_, fun hf hr n => ⟨by simp [LinkPort.sdoLevel, hf], fun hn => ?_⟩⟩
  · cases hf : (s.link p).frame with
    | none => cases hr : s.rstAsserted <;> simp [State.csFall, LinkPort.fall, hf, hr, LinkPort.statusByte_eq]
    | some f => cases hr : s.rstAsserted <;> simp [State.csFall, LinkPort.fall, hf, hr]
  · have h8 : n / 8 = 0 := by omega
    simp [State.csFall, hr, LinkPort.fall, hf, LinkPort.sdoLevel, h8, Frame.drivenByte, LinkPort.statusByte_eq,
      Nat.mod_eq_of_lt hn]

/-- Settles O5: what the kind captures, and its content on the data line. -/
theorem byteZeroCaptures : Obligations.ByteZeroCaptures := by
  intro i p kind st cap s hwf hk hm hf
  refine ⟨_, exec_byte0 hwf hk hm, ?_, fun n => ?_⟩
  · simp only [LinkPort.kindRead, hf, LinkPort.captured, LinkPort.extendedStatus_eq]
  · have h8 : (8 + n) / 8 = n / 8 + 1 := by omega
    have hmod : (8 + n) % 8 = n % 8 := by omega
    simp only [State.link_setLink, LinkPort.kindRead, hf, LinkPort.sdoLevel, Option.map_some, h8, hmod, Frame.drivenByte]
    refine congrArg (fun bytes : List Byte => some (((bytes[n / 8]?).getD 0x00).getMsbD (n % 8))) ?_
    unfold LinkPort.captured
    split
    · cases (s.link p).responses.head? <;> rfl
    · split
      · rw [LinkPort.extendedStatus_eq]
        rfl
      · rfl

/-! ### The end of a frame (R141) -/

/-- A frame that ends with its own kind: the port's act on it, and the bytes that were driven. -/
theorem LinkPort.rise_own {l : LinkPort} {st kind : Byte} {c : Capture} (h : l.frame = some ⟨st, some kind, c⟩)
    (bits : List Bool) (act : Capture → List Byte → LinkPort → LinkPort) :
    l.rise kind bits act = { act c (bytesOfBits bits) l with
      frame := none, sdo := st :: c.shifted (bytesOfBits bits).length } := by
  simp only [LinkPort.rise, h, ↓reduceIte]

/-- A rise that finds no frame of the row's kind ends none. -/
theorem LinkPort.rise_other {l : LinkPort} {kind : Byte} (h : ∀ f, l.frame = some f → f.kind ≠ some kind)
    (bits : List Bool) (act : Capture → List Byte → LinkPort → LinkPort) : l.rise kind bits act = l := by
  unfold LinkPort.rise
  split
  · rename_i st k c hf
    exact if_neg fun hk => h _ hf (congrArg some hk)
  · rfl

/-- Past the status byte a kind of no content drives 00h. -/
theorem Capture.shifted_nothing (n : Nat) : Capture.nothing.shifted n = List.replicate n 0x00 := by
  simp [Capture.shifted, Capture.content]

/-- Content driven whole, then 00h. -/
theorem Capture.shifted_whole {c : Capture} {n : Nat} (h : c.content.length ≤ n) :
    c.shifted n = c.content ++ List.replicate (n - c.content.length) 0x00 := by
  rw [Capture.shifted, List.take_append, List.take_of_length_le h, List.take_replicate, Nat.min_eq_left (Nat.sub_le _ _)]

/-- Content cut off by the end of the frame. -/
theorem Capture.shifted_cut {c : Capture} {n : Nat} (h : n ≤ c.content.length) : c.shifted n = c.content.take n := by
  rw [Capture.shifted, List.take_append_of_le_length h]

/-! ### COMMAND frames (R144, R145) -/

/-- A frame of the announced length carries its command where its CRC byte is right. -/
theorem commandOfBytes_full {n seq code crc : Byte} {params extra : List Byte} (hn : n.toNat = params.length + 2)
    (hmax : n.toNat ≤ 40) : commandOfBytes (n :: seq :: code :: (params ++ crc :: extra)) =
      if crc ≠ crc8 (n :: seq :: code :: params) then none else some ⟨seq, code, params⟩ := by
  have hget : (seq :: code :: (params ++ crc :: extra))[n.toNat]? = some crc := by simp [hn]
  have htake : (seq :: code :: (params ++ crc :: extra)).take n.toNat = seq :: code :: params := by simp [hn]
  rw [commandOfBytes, if_neg (by omega), if_neg (by simp; omega), hget, htake]
  simp

/-- A frame cut before its CRC byte, or of a length outside 2..40, carries no command. -/
theorem commandOfBytes_none {bytes : List Byte}
    (h : bytes = [] ∨ ∃ n rest, bytes = n :: rest ∧ (n.toNat < 2 ∨ 40 < n.toNat ∨ rest.length < n.toNat + 1)) :
    commandOfBytes bytes = none := by
  obtain rfl | ⟨n, rest, rfl, hbad⟩ := h
  · rfl
  · rw [commandOfBytes]
    by_cases hr : n.toNat < 2 ∨ 40 < n.toNat
    · rw [if_pos hr]
    · rw [if_neg hr, if_pos (by tauto)]

/-- Settles O6: the command the frame carries, if any, and the port's act on it. -/
theorem commandFrameEnd : Obligations.CommandFrameEnd := by
  intro p s st bits hf bytes ended
  have hexec : exec (.commandFrame p (.rise bits)) s = .next (s.setLink p
      { (s.link p).endCommand bytes with frame := none, sdo := st :: List.replicate bytes.length 0x00 }) := by
    rw [← Capture.shifted_nothing, ← LinkPort.rise_own hf bits (fun _ bytes l => l.endCommand bytes)]
    rfl
  refine ⟨fun n seq code crc params extra hbytes hn hmax => ?_, fun hbad => ?_⟩
  · rw [hexec, LinkPort.endCommand, hbytes, commandOfBytes_full hn hmax, ← hbytes]
    by_cases hcrc : crc ≠ crc8 (n :: seq :: code :: params)
    · rw [if_pos hcrc, if_pos hcrc]
      rfl
    · rw [if_neg hcrc, if_neg hcrc]
      by_cases hfull : 4 ≤ (s.link p).commands.length <;> simp [LinkPort.queued, hfull, ended]
  · rw [hexec, LinkPort.endCommand, commandOfBytes_none hbad]
    rfl

/-! ### READ and STATUS frames (R149, R151) -/

/-- Settles O7: what leaves or is cleared, by whether the CRC byte was driven whole. -/
theorem readAndStatusEnd : Obligations.ReadAndStatusEnd := by
  constructor
  · intro p s st bits head hf m
    have hexec : exec (.read p (.rise bits)) s = .next (s.setLink p
        { LinkPort.endRead (.response head) (bytesOfBits bits) (s.link p) with
          frame := none, sdo := st :: (Capture.response head).shifted m }) := by
      rw [← LinkPort.rise_own hf bits LinkPort.endRead]
      rfl
    rw [hexec]
    refine congrArg (fun l => Host.Outcome.next (s.setLink p l)) ?_
    cases head with
    | none =>
      have hs : (Capture.response none).shifted m = List.replicate m 0x00 := by
        rw [Capture.shifted, show (Capture.response none).content = List.replicate 2 0x00 from rfl]
        rw [List.replicate_append_replicate, List.take_replicate, Nat.min_eq_left (Nat.le_add_left m 2)]
      rw [hs]
      rfl
    | some r =>
      have hlen : (Capture.response (some r)).content.length = r.length + 2 := by simp [Capture.content]
      show _ = if r.length + 2 ≤ m then _ else _
      by_cases hw : r.length + 2 ≤ m
      · have hwhole : (Capture.response (some r)).whole (bytesOfBits bits).length = true := decide_eq_true (hlen.trans_le hw)
        rw [if_pos hw, Capture.shifted_whole (hlen.trans_le hw), hlen, LinkPort.endRead, if_pos hwhole]
        rfl
      · have hcut : ¬ (Capture.response (some r)).whole (bytesOfBits bits).length = true := fun h =>
          hw (hlen.symm.trans_le (of_decide_eq_true h))
        rw [if_neg hw, Capture.shifted_cut (by omega), LinkPort.endRead, if_neg hcut]
        rfl
  · intro p s st b0 b1 bits hf m sent
    have hexec : exec (.status p (.rise bits)) s = .next (s.setLink p
        { LinkPort.endStatus (.extendedStatus [b0, b1]) (bytesOfBits bits) (s.link p) with
          frame := none, sdo := st :: (Capture.extendedStatus [b0, b1]).shifted m }) := by
      rw [← LinkPort.rise_own hf bits LinkPort.endStatus]
      rfl
    rw [hexec]
    refine congrArg (fun l => Host.Outcome.next (s.setLink p l)) ?_
    have hlen : (Capture.extendedStatus [b0, b1]).content.length = 3 := rfl
    by_cases hw : 3 ≤ m
    · have hwhole : (Capture.extendedStatus [b0, b1]).whole (bytesOfBits bits).length = true :=
        decide_eq_true (hlen.trans_le hw)
      rw [if_pos hw, Capture.shifted_whole (hlen.trans_le hw), hlen, LinkPort.endStatus, if_pos hwhole]
      rfl
    · have hcut : ¬ (Capture.extendedStatus [b0, b1]).whole (bytesOfBits bits).length = true := fun h =>
        hw (hlen.symm.trans_le (of_decide_eq_true h))
      rw [if_neg hw, Capture.shifted_cut (by omega), LinkPort.endStatus, if_neg hcut]
      rfl

/-! ### LINK_RESET frames (R153, R154) -/

/-- Byte 1 is DEh. -/
theorem head_reset_iff {bytes : List Byte} : bytes.head? = some 0xDE ↔ ∃ rest, bytes = 0xDE :: rest := by
  cases bytes <;> simp

/-- What becomes of the port at the end of a LINK_RESET frame. -/
theorem State.linkResetStep_rise {s : State} {p : Port} {st : Byte} (bits : List Bool)
    (hf : (s.link p).frame = some ⟨st, some 0xF0, .nothing⟩) : s.linkResetStep p (.rise bits) = s.setLink p
      { (s.link p).endLinkReset (bytesOfBits bits) with
        frame := none, sdo := st :: List.replicate (bytesOfBits bits).length 0x00 } := by
  rw [← Capture.shifted_nothing, ← LinkPort.rise_own hf bits (fun _ bytes l => l.endLinkReset bytes)]
  rfl

/-- While a port is in an abandon the arbiter takes no command. -/
theorem State.mayTake_clear {s : State} {p q : Port} {c : QueuedCommand} (h : (s.link p).abandonPending = true) :
    ¬ s.mayTake q c := by
  rintro ⟨-, -, -, hq, hother, -⟩
  cases p <;> cases q <;> exact Bool.noConfusion (h.symm.trans ‹_›)

/-- Settles O8: a good reset is the same whether a command was taken before it or not. -/
theorem linkResetEnd : Obligations.LinkResetEnd := by
  intro p s st bits hf bytes ended
  constructor
  · intro hgood
    have hreset : ∀ l : LinkPort, l.endLinkReset bytes = l.resetLink := fun l => if_pos (head_reset_iff.2 hgood)
    have hend : ∀ u : State, (∃ cs, u.link p = { s.link p with commands := cs }) →
        u.linkResetStep p (.rise bits) = u.setLink p { ended with
          commands := [], responses := [], dropped := false, frameError := false, notices := Notices.empty
          abandonPending := true } := by
      rintro u ⟨cs, hu⟩
      rw [State.linkResetStep_rise bits (by rw [hu]; exact hf), hreset, hu]
      rfl
    obtain ⟨cs, hcs, -⟩ := State.requested_link s p
    by_cases hab : (s.link p).abandonPending = true
    · refine ⟨s, _, ?_, ⟨fun q c h => absurd h (State.mayTake_clear hab), fun _ => rfl⟩, rfl, Notices.isEmpty_empty⟩
      simp only [exec, execLinkReset]
      rw [if_neg fun h => Bool.noConfusion (hab.symm.trans h.1), hend s ⟨_, rfl⟩]
    · refine ⟨s.requested, _, ?_, State.requested_spec s, rfl, Notices.isEmpty_empty⟩
      simp only [exec, execLinkReset]
      rw [if_pos ⟨Bool.eq_false_iff.2 hab, by rw [hend s ⟨_, rfl⟩, State.link_setLink]⟩, hend s.requested ⟨cs, hcs⟩]
  · intro hbad
    have hstep : s.linkResetStep p (.rise bits) = s.setLink p { ended with frameError := true } := by
      rw [State.linkResetStep_rise bits hf, LinkPort.endLinkReset, if_neg fun h => ?_]
      · rfl
      · obtain ⟨rest, h⟩ := head_reset_iff.1 h
        exact hbad rest h
    have hab : ¬ ((s.link p).abandonPending = false ∧
        ((s.linkResetStep p (.rise bits)).link p).abandonPending = true) := by
      rw [hstep, State.link_setLink]
      exact fun h => Bool.noConfusion (h.1.symm.trans h.2)
    simp only [exec, execLinkReset]
    rw [if_neg hab, hstep]

/-! ### The other frames (R141, R143) -/

/-- A rise that finds no frame of its row's kind. -/
theorem exec_rise_other {i : Instr} {p : Port} {kind : Byte} {bits : List Bool} {s : State} (hwf : i.wf = true)
    (hk : i.frameKind? = some (p, kind)) (hm : i.moment? = some (.rise bits))
    (h : ∀ f, (s.link p).frame = some f → f.kind ≠ some kind) : exec i s = .next s := by
  have hstep : ∀ capture act, frameStep p kind capture act (.rise bits) s = s := fun capture act => by
    rw [frameStep, LinkPort.rise_other h, State.setLink_link]
  cases i <;> simp only [Instr.moment?, reduceCtorEq, Option.some.injEq] at hm <;>
    simp only [Instr.frameKind?, reduceCtorEq, Option.some.injEq, Prod.mk.injEq] at hk <;> obtain ⟨rfl, rfl⟩ := hk <;> subst hm
  case linkReset p =>
    have hreset : s.linkResetStep p (.rise bits) = s := hstep _ _
    simp only [exec, execLinkReset, hreset]
    rw [if_neg fun h => Bool.noConfusion (h.1.symm.trans h.2)]
  case idleFrame => simp only [exec, execIdleFrame, if_pos hwf, hstep]
  case unknownFrameKind => simp only [exec, execUnknownFrameKind, if_pos hwf, hstep]
  all_goals exact congrArg _ (hstep _ _)

/-- Settles O9: the port's act on a frame of no content, and the rise that ends none. -/
theorem otherFrameEnds : Obligations.OtherFrameEnds := by
  refine ⟨fun p s st kind bits hf => ?_, fun p s st cap bits hf hbits => ?_,
    fun i p kind bits s hwf hk hm h => exec_rise_other hwf hk hm h⟩
  · intro ended
    have hrise : ∀ act : LinkPort → LinkPort, frameStep p kind (fun _ => .nothing) (fun _ _ l => act l) (.rise bits) s =
        s.setLink p { act (s.link p) with frame := none, sdo := st :: List.replicate (bytesOfBits bits).length 0x00 } := by
      intro act
      rw [frameStep, LinkPort.rise_own hf, Capture.shifted_nothing]
    constructor
    · intro hkind
      have hwf : (Instr.idleFrame p kind (.rise bits)).wf = true := by simpa [Instr.wf] using hkind
      simp only [exec, execIdleFrame, if_pos hwf]
      exact congrArg _ (hrise fun l => l)
    · intro hkind
      have hwf : (Instr.unknownFrameKind p kind (.rise bits)).wf = true := by
        simpa [Instr.wf, Instr.knownKinds] using hkind
      simp only [exec, execUnknownFrameKind, if_pos hwf]
      exact congrArg _ (hrise LinkPort.setFrameError)
  · simp only [exec, execEmptyFrame, if_neg (show ¬ 8 ≤ bits.length by omega), hf]

end Sys2Proof.Machine
end

section
/-! PROOF. The bytes of the link: CRC-8 (R144), and the byte layouts of the staging commands and of the timing profile
read back as what was written (10.1 to 10.3, 10.5). -/

namespace Sys2Proof.Machine

/-! ### CRC-8 (R144) -/

/-- The shift of the CRC register taken back: bit 0 says whether the polynomial was added. -/
def crcUnshift (c : Byte) : Byte := if c.getLsbD 0 then ((c ^^^ 0x07) >>> 1) ||| 0x80 else c >>> 1

theorem crcUnshift_crcShift : ∀ c : Byte, crcUnshift (crcShift c) = c := by decide

theorem crcShift_injective : Function.Injective crcShift := Function.LeftInverse.injective crcUnshift_crcShift

/-- A byte fed to the CRC passes through as many shifts as it has bits. -/
theorem crcByte_eq (c b : Byte) : crcByte c b = crcShift^[8] (c ^^^ b) := rfl

theorem crcByte_injective_state (b : Byte) : Function.Injective fun c => crcByte c b := fun c c' h => by
  have hx : c ^^^ b = c' ^^^ b := crcShift_injective.iterate 8 h
  exact (BitVec.xor_left_inj b).1 hx

theorem crcByte_injective_byte (c : Byte) : Function.Injective (crcByte c) := fun b b' h => by
  have hx : c ^^^ b = c ^^^ b' := crcShift_injective.iterate 8 h
  exact (BitVec.xor_right_inj c).1 hx

/-- What follows keeps two CRC registers apart. -/
theorem foldl_crcByte_injective (post : List Byte) : Function.Injective fun c => post.foldl crcByte c := by
  induction post with
  | nil => exact Function.injective_id
  | cons b post ih => exact ih.comp (crcByte_injective_state b)

/-- A byte equal to the register leaves 0. -/
theorem crcByte_self (c : Byte) : crcByte c c = 0 := by
  rw [crcByte_eq, BitVec.xor_self]
  decide

/-- Settles O11: each byte, and each state of the register, is fed one to one. -/
theorem crcCatchesOneByte : Obligations.CrcCatchesOneByte := by
  refine ⟨fun pre post b b' h => ?_, fun bytes => ?_, by decide, by decide⟩
  · simp only [crc8, List.foldl_append, List.foldl_cons] at h
    exact crcByte_injective_byte _ (foldl_crcByte_injective post h)
  · rw [crc8, List.foldl_append]
    exact crcByte_self _

/-! ### Bits and bytes (R141) -/

theorem byteOfBits_bits : ∀ b : Byte, byteOfBits (b.getLsbD 7) (b.getLsbD 6) (b.getLsbD 5) (b.getLsbD 4) (b.getLsbD 3)
    (b.getLsbD 2) (b.getLsbD 1) (b.getLsbD 0) = b := by decide

theorem bytesOfBits_bitsOfBytes (bytes : List Byte) : bytesOfBits (bitsOfBytes bytes) = bytes := by
  induction bytes with
  | nil => rfl
  | cons b bytes ih =>
    show byteOfBits _ _ _ _ _ _ _ _ :: bytesOfBits (bitsOfBytes bytes) = _
    rw [byteOfBits_bits, ih]

/-! ### Numbers (R166) -/

theorem byteOfNat_toNat (n k : Nat) : (byteOfNat n k).toNat = n / 256 ^ k % 256 := BitVec.toNat_ofNat ..

theorem nat16_bytes {n : Nat} (h : n < 65536) : nat16 (byteOfNat n 0) (byteOfNat n 1) = n := by
  simp only [nat16, byteOfNat_toNat]
  omega

/-- Bit `i` of byte `k` of a number. -/
theorem byteOfNat_getLsbD (n k i : Nat) : (byteOfNat n k).getLsbD i = (decide (i < 8) && n.testBit (8 * k + i)) := by
  rw [byteOfNat, BitVec.getLsbD_ofNat, show (256 : Nat) ^ k = 2 ^ (8 * k) by rw [pow_mul]; rfl, Nat.testBit_div_two_pow,
    Nat.add_comm]

theorem int16_bytes {i : Int} (h : -32768 ≤ i ∧ i < 32768) :
    int16 (byteOfNat (BitVec.ofInt 16 i).toNat 0) (byteOfNat (BitVec.ofInt 16 i).toNat 1) = i := by
  have hb : ∀ x : BitVec 16, byteOfNat x.toNat 1 ++ byteOfNat x.toNat 0 = x := fun x => by
    refine BitVec.eq_of_getLsbD_eq fun k hk => ?_
    rw [BitVec.getLsbD_append, byteOfNat_getLsbD, byteOfNat_getLsbD, ← BitVec.testBit_toNat]
    by_cases h8 : k < 8
    · simp [h8]
    · simp [h8, show k - 8 < 8 by omega, show 8 + (k - 8) = k by omega]
  rw [int16, hb, BitVec.toInt_ofInt]
  exact Int.bmod_eq_of_le (by omega) (by omega)

theorem addr32_bytes (a : Addr) : addr32 (byteOfNat a.toNat 0) (byteOfNat a.toNat 1) (byteOfNat a.toNat 2)
    (byteOfNat a.toNat 3) = a := by
  refine BitVec.eq_of_getLsbD_eq fun k hk => ?_
  simp only [addr32, BitVec.getLsbD_append, byteOfNat_getLsbD, ← BitVec.testBit_toNat a]
  by_cases h8 : k < 8
  · simp [h8]
  · by_cases h16 : k - 8 < 8
    · simp [h8, h16, show 8 + (k - 8) = k by omega]
    · by_cases h24 : k - 8 - 8 < 8
      · simp [h8, h16, h24, show 16 + (k - 8 - 8) = k by omega]
      · simp [h8, h16, h24, show k - 8 - 8 - 8 < 8 by omega, show 24 + (k - 8 - 8 - 8) = k by omega]

/-! ### Handles and coded values (10.1, 10.2) -/

theorem Handle.ofByte_byte (h : Handle) : Handle.ofByte h.byte = h := by
  obtain ⟨g, n⟩ := h
  simp only [Handle.ofByte, Handle.byte, Handle.mk.injEq]
  constructor <;> refine BitVec.eq_of_getLsbD_eq fun k hk => ?_ <;> rw [BitVec.getLsbD_extractLsb', BitVec.getLsbD_append]
  · simp [hk]
  · simp [hk]

theorem Format.ofByte_byte (f : Format) : Format.ofByte f.byte = some f := by cases f <;> decide

theorem flagOfByte_flagByte (b : Bool) : flagOfByte (flagByte b) = some b := by cases b <;> decide

theorem Visibility.ofByte_byte (v : Visibility) : Visibility.ofByte v.byte = some v := by cases v <;> decide

theorem Polarity.ofByte_byte (v : Polarity) : Polarity.ofByte v.byte = some v := by cases v <;> decide

/-- The two bytes of a placement, read as the placement. -/
theorem Placement.bytes_cases (pl : Placement) : ∃ form ref, pl.bytes = [form, ref] ∧ Placement.ofBytes form ref = some pl := by
  cases pl with
  | top => exact ⟨_, _, rfl, rfl⟩
  | bottom => exact ⟨_, _, rfl, rfl⟩
  | above h => exact ⟨_, _, rfl, congrArg (fun h => some (Placement.above h)) h.ofByte_byte⟩
  | below h => exact ⟨_, _, rfl, congrArg (fun h => some (Placement.below h)) h.ofByte_byte⟩

/-! ### Parameter groups (10.3) -/

theorem decodeGeometry_bytes {g : Geometry} (h : g.inDomain = true) : decodeGeometry g.bytes = some g := by
  simp only [Geometry.inDomain, decide_eq_true_eq] at h
  show some (⟨int16 _ _, int16 _ _, nat16 _ _, nat16 _ _⟩ : Geometry) = some g
  rw [int16_bytes (by omega), int16_bytes (by omega), nat16_bytes (by omega), nat16_bytes (by omega)]

theorem decodeSource_bytes {src : Source} (h : src.inDomain = true) : decodeSource src.bytes = some src := by
  simp only [Source.inDomain, decide_eq_true_eq] at h
  show (Format.ofByte src.format.byte).map (fun f => (⟨f, addr32 _ _ _ _, nat16 _ _⟩ : Source)) = some src
  rw [Format.ofByte_byte, addr32_bytes, nat16_bytes (by omega)]
  rfl

theorem decodeLook_bytes (l : Look) : decodeLook l.bytes = some l := by
  obtain ⟨alpha, fill, key⟩ := l
  cases key <;> rfl

theorem Look.bytes_length (l : Look) : l.bytes.length = 8 := by
  obtain ⟨alpha, fill, key⟩ := l
  cases key <;> rfl

/-- OPEN's bytes group by group. -/
theorem decodeOpen_groups {gs ss ls : List Byte} (hg : gs.length = 8) (hs : ss.length = 7) (hl : ls.length = 8)
    (th pin vis form ref : Byte) : decodeOpen (gs ++ ss ++ ls ++ [th, pin, vis] ++ [form, ref]) = (do
      let g ← decodeGeometry gs
      let src ← decodeSource ss
      let l ← decodeLook ls
      let pinned ← flagOfByte pin
      let v ← Visibility.ofByte vis
      let pl ← Placement.ofBytes form ref
      some (⟨g, src, l, th.toNat, pinned⟩, v, pl)) := by
  generalize htail : [th, pin, vis] ++ [form, ref] = tail
  have hd : (gs ++ ss ++ ls ++ tail).drop 23 = tail := List.drop_left' (by simp [hg, hs, hl])
  have hd15 : ((gs ++ ss ++ ls ++ tail).drop 15).take 8 = ls := by
    rw [List.append_assoc (gs ++ ss), List.drop_left' (by simp [hg, hs]), List.take_left' hl]
  have hd8 : ((gs ++ ss ++ ls ++ tail).drop 8).take 7 = ss := by
    rw [List.append_assoc gs, List.append_assoc gs, List.drop_left' hg, List.append_assoc, List.take_left' hs]
  have ht : (gs ++ ss ++ ls ++ tail).take 8 = gs := by
    rw [List.append_assoc gs, List.append_assoc gs, List.take_left' hg]
  rw [List.append_assoc _ [th, pin, vis], htail]
  simp only [decodeOpen, hd, hd8, hd15, ht]
  subst htail
  rfl

theorem decodeOpen_encodeOpen {w : Window} (vis : Visibility) (pl : Placement) (h : w.inDomain = true) :
    decodeOpen (encodeOpen w vis pl) = some (w, vis, pl) := by
  simp only [Window.inDomain, Bool.and_eq_true, decide_eq_true_eq] at h
  obtain ⟨⟨⟨⟨hg, hs⟩, hth⟩, -⟩, -⟩ := h
  obtain ⟨form, ref, hpl, hof⟩ := pl.bytes_cases
  have hthreshold : (byteOfNat w.threshold 0).toNat = w.threshold := by
    rw [byteOfNat_toNat]
    omega
  rw [encodeOpen, hpl, decodeOpen_groups rfl rfl (Look.bytes_length _), decodeGeometry_bytes hg, decodeSource_bytes hs,
    decodeLook_bytes, flagOfByte_flagByte, Visibility.ofByte_byte, hof, hthreshold]
  rfl

/-! ### The staging commands (10.3) -/

/-- Every staging entry has as many parameter bytes as its code announces. -/
theorem Entry.params_length (e : Entry) : paramLength e.code = some e.params.length := by
  cases e with
  | backdrop c => rfl
  | window h c =>
    cases c with
    | create w vis pl =>
      obtain ⟨form, ref, hpl, -⟩ := pl.bytes_cases
      simp only [Entry.params, encodeOpen, List.length_append, Look.bytes_length, hpl]
      rfl
    | look l =>
      simp only [Entry.params, List.length_cons, Look.bytes_length]
      rfl
    | restack pl =>
      obtain ⟨form, ref, hpl, -⟩ := pl.bytes_cases
      simp only [Entry.params, List.length_cons, hpl]
      rfl
    | _ => rfl

/-- Every staging entry inside its domain is read from its own parameter bytes. -/
theorem Entry.readFrom_params {e : Entry} (h : e.inDomain = true) : e.readFrom e.params := by
  cases e with
  | backdrop c => rfl
  | window hd c =>
    have hnamed : ∀ rest, decodeNamed c.code (hd.byte :: rest) = (decodeChange c.code rest).map (.window hd) := by
      intro rest
      rw [decodeNamed, Handle.ofByte_byte]
    cases c with
    | create w vis pl => exact decodeOpen_encodeOpen vis pl h
    | place g =>
      refine (hnamed g.bytes).trans ?_
      rw [show decodeChange (Change.place g).code g.bytes = (decodeGeometry g.bytes).map .place from rfl,
        decodeGeometry_bytes h]
      rfl
    | source src =>
      refine (hnamed src.bytes).trans ?_
      rw [show decodeChange (Change.source src).code src.bytes = (decodeSource src.bytes).map .source from rfl,
        decodeSource_bytes h]
      rfl
    | look l =>
      refine (hnamed l.bytes).trans ?_
      rw [show decodeChange (Change.look l).code l.bytes = (decodeLook l.bytes).map .look from rfl, decodeLook_bytes]
      rfl
    | restack pl =>
      obtain ⟨form, ref, hpl, hof⟩ := pl.bytes_cases
      refine (hnamed pl.bytes).trans ?_
      rw [hpl, show decodeChange (Change.restack pl).code [form, ref] = (Placement.ofBytes form ref).map .restack from rfl, hof]
      rfl
    | pin on =>
      refine (hnamed [flagByte on]).trans ?_
      rw [show decodeChange (Change.pin on).code [flagByte on] = (flagOfByte (flagByte on)).map .pin from rfl,
        flagOfByte_flagByte]
      rfl
    | _ => exact hnamed []

theorem Entry.params_le (e : Entry) : e.params.length ≤ 28 := by
  have hall : ∀ code : Byte, (paramLength code).getD 0 ≤ 28 := by decide
  have h := hall e.code
  rwa [e.params_length] at h

/-! ### The timing profile (10.5) -/

theorem decodeProfile_bytes {t : Profile} (h : t.inRange = true) : decodeProfile t.bytes = some t := by
  simp only [Profile.inRange, Bool.and_eq_true, decide_eq_true_eq] at h
  obtain ⟨hh, hv⟩ := h
  show (do
    let hpol ← Polarity.ofByte t.hSyncPolarity.byte
    let vpol ← Polarity.ofByte t.vSyncPolarity.byte
    some (⟨nat16 _ _, nat16 _ _, nat16 _ _, nat16 _ _, nat16 _ _, hpol, nat16 _ _, nat16 _ _, nat16 _ _, nat16 _ _,
      nat16 _ _, vpol⟩ : Profile)) = some t
  rw [Polarity.ofByte_byte, Polarity.ofByte_byte]
  show some _ = some t
  iterate 10 rw [nat16_bytes (by omega)]

/-- Settles O10: the frame carries its command, and the layouts read back. -/
theorem commandFrameRoundTrip : Obligations.CommandFrameRoundTrip := by
  refine ⟨fun p s st seq e hdom hf hroom => ?_, fun prof h => ⟨decodeProfile_bytes h, rfl⟩⟩
  intro body
  have hle := e.params_le
  have hn : (BitVec.ofNat 8 (e.params.length + 2) : Byte).toNat = e.params.length + 2 := by
    rw [BitVec.toNat_ofNat]
    omega
  have hbytes : bytesOfBits (bitsOfBytes (body ++ [crc8 body])) =
      BitVec.ofNat 8 (e.params.length + 2) :: seq :: e.code :: (e.params ++ crc8 body :: []) := bytesOfBits_bitsOfBytes _
  obtain ⟨hgood, -⟩ := commandFrameEnd p s st (bitsOfBytes (body ++ [crc8 body])) hf
  refine ⟨_, hgood _ _ _ _ _ _ hbytes hn (by omega), ?_, e.params_length, Entry.readFrom_params hdom⟩
  rw [if_neg (not_not.2 rfl), if_neg (by omega), State.link_setLink]

end Sys2Proof.Machine
end

section
/-! PROOF. The table controller's arbiter, and what every command has in common: its screens, its one response, and the
commands open to Port A only (R20, R21, R79, R146 to R148, R152, R154). -/

namespace Sys2Proof.Machine

/-! ### The arbiter's order (R20) -/

theorem State.suspensionFirst_iff {s : State} : s.suspensionFirst = true ↔
    s.suspensions ≠ [] ∧ ∀ turn, s.turn = some turn → 0 < turn.ahead := by
  cases ht : s.turn <;> simp [State.suspensionFirst, ht]

theorem State.grants_frameTurn {s : State} : s.grants .frameTurn = true ↔
    s.free ∧ ∃ turn, s.turn = some turn ∧ (s.suspensions = [] ∨ turn.ahead = 0) := by
  simp only [State.grants, Bool.and_eq_true, State.idle_iff, and_assoc, Bool.not_eq_true', Bool.eq_false_iff, ne_eq,
    State.suspensionFirst_iff]
  refine and_congr_right fun _ => ?_
  cases ht : s.turn with
  | none => simp
  | some t => simp [or_iff_not_imp_left]

theorem State.grants_suspension {s : State} : s.grants .suspension = true ↔
    s.free ∧ s.suspensions ≠ [] ∧ ∀ turn, s.turn = some turn → 0 < turn.ahead := by
  simp only [State.grants, Bool.and_eq_true, State.idle_iff, State.suspensionFirst_iff]

theorem State.grants_abandon {s : State} {p : Port} : s.grants (.abandon p) = true ↔
    s.free ∧ s.turn = none ∧ s.suspensions = [] ∧ (s.link p).abandonPending = true := by
  simp [State.grants, State.noUrgent, State.idle_iff, and_assoc]

/-- A command in service may be completed unless a frame turn reached waits for its row. -/
theorem State.grants_inService {s : State} {x : Service} (hx : s.serving = some x)
    (h : RasterEvent.frameTurn ∉ s.raster.due) : s.grants (.command x.port) = true :=
  State.granted_iff.2 ⟨x.command, State.servable_iff.2 (by
    have hc : ∃ reply, s.completes x.port x.command reply := ⟨x.reply, hx, h⟩
    obtain ⟨_ | r, hr⟩ := hc
    · cases hab : (s.link x.port).abandonPending with
      | false => exact .inl (.inr ⟨hr, hab⟩)
      | true => exact .inr (.inl ⟨hr, hab⟩)
    · exact .inr (.inr ⟨r, hr⟩))⟩

/-- With nothing in service and nothing urgent pending, an eligible port is served: itself or the one before it. -/
theorem State.grants_eligible {s : State} (hfree : s.free) (ht : s.turn = none) (hsus : s.suspensions = [])
    (hab : ∀ p, (s.link p).abandonPending = false) {p : Port} (hp : s.eligibleNow p) : ∃ q, s.grants (.command q) = true := by
  have take : ∀ q, s.eligibleNow q → s.nextPort = q ∨ ¬ s.eligibleNow (otherPort q) → s.grants (.command q) = true := by
    intro q hq hn
    refine Bool.or_eq_true_iff.2 (.inl (State.chooses_iff.2 ⟨hfree, ht, hsus, hab .a, hab .b, State.eligible_iff.2 hq,
      hn.imp_right fun h => ?_⟩))
    rwa [← Bool.not_eq_true, State.eligible_iff]
  by_cases hq : s.eligibleNow (otherPort p)
  · by_cases hn : s.nextPort = p
    · exact ⟨p, take p hp (.inl hn)⟩
    · refine ⟨otherPort p, take _ hq (.inl ?_)⟩
      cases p <;> cases hnp : s.nextPort <;> simp_all [otherPort]
  · exact ⟨p, take p hp (.inr hq)⟩

/-- Settles O12: what each requester needs, and who is granted when somebody asks. -/
theorem arbiterOrder : Obligations.ArbiterOrder := by
  intro s
  refine ⟨State.grants_frameTurn, State.grants_suspension, fun p => State.grants_abandon, fun p c => State.servable_iff,
    fun hfree => ⟨?_, ?_, fun p => ?_⟩, fun hdue r => ?_, fun hdue => ⟨fun h => ?_, ?_⟩⟩
  · have hg : s.grants .frameTurn = false := Bool.eq_false_iff.2 fun h => hfree (State.grants_frameTurn.1 h).1
    simp [exec, execFrameTurnTaken, hg]
  · have hg : s.grants .suspension = false := Bool.eq_false_iff.2 fun h => hfree (State.grants_suspension.1 h).1
    simp [exec, execSuspensionRequestTaken, hg]
  · have hg : s.grants (.abandon p) = false := Bool.eq_false_iff.2 fun h => hfree (State.grants_abandon.1 h).1
    simp [exec, execLinkResetAbandon, hg]
  · have hidle : s.idle = false := Bool.eq_false_iff.2 fun h => (State.idle_iff.1 h).2 hdue
    have hreached : s.turnReached = true := by simpa [State.turnReached] using hdue
    cases r <;> simp [State.grants, State.chooses, State.inService, hidle, hreached]
  · cases hx : s.serving with
    | some x => exact ⟨_, State.grants_inService hx hdue⟩
    | none =>
      have hfree : s.free := ⟨hx, hdue⟩
      by_cases hsus : s.suspensions = []
      · cases ht : s.turn with
        | some t => exact ⟨.frameTurn, State.grants_frameTurn.2 ⟨hfree, t, ht, .inl hsus⟩⟩
        | none =>
          by_cases hab : ∃ p, (s.link p).abandonPending = true
          · obtain ⟨p, hp⟩ := hab
            exact ⟨.abandon p, State.grants_abandon.2 ⟨hfree, ht, hsus, hp⟩⟩
          · obtain h | h | h | h | ⟨p, hp⟩ := h
            · exact absurd hx h
            · exact absurd ht h
            · exact absurd hsus h
            · exact absurd h hab
            · obtain ⟨q, hq⟩ := State.grants_eligible hfree ht hsus (fun p => Bool.eq_false_iff.2 fun h => hab ⟨p, h⟩) hp
              exact ⟨_, hq⟩
      · by_cases hahead : ∀ turn, s.turn = some turn → 0 < turn.ahead
        · exact ⟨.suspension, State.grants_suspension.2 ⟨hfree, hsus, hahead⟩⟩
        · simp only [not_forall] at hahead
          obtain ⟨t, ht, h0⟩ := hahead
          exact ⟨.frameTurn, State.grants_frameTurn.2 ⟨hfree, t, ht, .inr (by omega)⟩⟩
  · rintro ⟨r, hr⟩
    cases r with
    | frameTurn =>
      obtain ⟨-, t, ht, -⟩ := State.grants_frameTurn.1 hr
      exact .inr (.inl (by rw [ht]; exact Option.some_ne_none t))
    | suspension => exact .inr (.inr (.inl (State.grants_suspension.1 hr).2.1))
    | abandon p => exact .inr (.inr (.inr (.inl ⟨p, (State.grants_abandon.1 hr).2.2.2⟩)))
    | command p =>
      obtain hc | hc := Bool.or_eq_true_iff.1 hr
      · obtain ⟨-, -, -, -, -, he, -⟩ := State.chooses_iff.1 hc
        exact .inr (.inr (.inr (.inr ⟨p, State.eligible_iff.1 he⟩)))
      · obtain ⟨c, hc⟩ := Option.isSome_iff_exists.1 hc
        obtain ⟨reply, hserving, -⟩ := State.inService_iff.1 hc
        exact .inl (by rw [hserving]; exact Option.some_ne_none _)

/-! ### The screens (R147, R154) -/

theorem execUnknownCommandCode_of_servable {p : Port} {c : QueuedCommand} {s : State} (h : s.canTake p c ∨ s.cutOff p c)
    (hc : paramLength c.code = none) :
    exec (.unknownCommandCode p) s = .next ((s.takeHead p).respond p c (.bare .badCommand)) := by
  simp only [exec, execUnknownCommandCode, State.servable_iff.2 (h.imp_right .inl), if_pos hc, serveHead,
    State.foundReply_none h, ne_eq, not_true_eq_false, ↓reduceIte]

/-- A command of another length than its code's is answered without its own rule. -/
theorem exec_of_badLength {i : Instr} {p : Port} {c : QueuedCommand} {n : Nat} {s : State} (h : s.canTake p c ∨ s.cutOff p c)
    (hi : i.command? = some (p, c.code)) (hn : paramLength c.code = some n) (hlen : c.params.length ≠ n) :
    exec i s = .next ((s.takeHead p).respond p c (.bare .badLength)) := by
  obtain ⟨len, hl, he⟩ := exec_eq_serve hi
  obtain rfl : len = n := Option.some.inj (hl.symm.trans hn)
  simp only [he, serve, State.servable_iff.2 (h.imp_right .inl), ↓reduceIte, serveHead, State.foundReply_none h, ne_eq, hlen,
    not_false_eq_true]

/-- The rows of the commands of section 10.3. -/
def commandRows (p : Port) : List Instr :=
  [.openWindow p, .place p, .source p, .look p, .showWindow p, .hide p, .restack p, .pin p, .resume p, .retire p,
    .reclaim p, .backdrop p, .commit p, .abandon p, .queryWindow p, .queryState p, .takeNotices p, .queryTiming p,
    .outputStart p, .outputLive p, .outputQuiet p, .outputStop p, .setTiming p, .setFetchTimeout p, .resetFetch p]

theorem commandRows_cover (p : Port) : ∀ code : Byte, paramLength code ≠ none →
    (p, code) ∈ (commandRows p).filterMap Instr.command? := by
  cases p <;> decide

/-- Settles O13: the row waits, or its screen answers. -/
theorem commandScreens : Obligations.CommandScreens := by
  refine ⟨fun i p s => ⟨fun code hi h => ?_, fun hi h => ?_⟩, fun p c s hc => ⟨fun h => ?_, fun h => ?_⟩,
    fun i p c n s hi hn hlen => ⟨fun h => ?_, fun h => ?_⟩, fun p code => ⟨fun h => ?_, fun ⟨i, hi⟩ => ?_⟩⟩
  · obtain ⟨len, -, he⟩ := exec_eq_serve hi
    rw [he, serve]
    cases hs : s.servable p with
    | none => rfl
    | some c => exact if_neg (h c (State.servable_iff.1 hs))
  · subst hi
    simp only [exec, execUnknownCommandCode]
    cases hs : s.servable p with
    | none => rfl
    | some c => exact if_neg (h c (State.servable_iff.1 hs))
  · rw [execUnknownCommandCode_of_servable (.inl h) hc, Reply.bare, State.respond_answered h]
  · rw [execUnknownCommandCode_of_servable (.inr h) hc, State.respond_cutOff h]
  · rw [exec_of_badLength (.inl h) hi hn hlen, Reply.bare, State.respond_answered h]
  · rw [exec_of_badLength (.inr h) hi hn hlen, State.respond_cutOff h]
  · obtain ⟨i, -, hi⟩ := List.mem_filterMap.1 (commandRows_cover p code h)
    exact ⟨i, hi⟩
  · obtain ⟨len, hl, -⟩ := exec_eq_serve hi
    rw [hl]
    exact Option.some_ne_none len

/-! ### One response per command (R21, R84, R146, R154) -/

/-- What a command's own rule does is one of the acts. -/
theorem commandBody_act {i : Instr} {p : Port} {code : Byte} (hi : i.command? = some (p, code)) (params : List Byte)
    (u : State) : CommandAct p u (commandBody i params u).2 := by
  cases i <;> simp only [Instr.command?, reduceCtorEq, Option.some.injEq, Prod.mk.injEq] at hi <;> obtain ⟨rfl, rfl⟩ := hi
  case openWindow => exact stageOpen_act ..
  case commit => exact commitBody_act _ params _
  case abandon => exact .abandoned
  case queryWindow => exact queryWindowBody_act ..
  case queryState => exact .nothing
  case takeNotices => exact takeNoticesBody_act _ params _
  case queryTiming => exact .nothing
  case outputStart => exact outputCommand_act params (startAct_act ..)
  case outputLive => exact outputCommand_act params (liveAct_act ..)
  case outputQuiet => exact outputCommand_act params (quietAct_act ..)
  case outputStop => exact outputCommand_act params (stopAct_act ..)
  case setTiming => exact setTimingBody_act ..
  case setFetchTimeout => exact setFetchTimeoutBody_act ..
  case resetFetch => exact resetFetchBody_act _ params _
  case backdrop => exact stage_act _ _ _ _ fun _ => decodeBackdrop_opens
  all_goals exact stage_act _ _ _ _ fun _ => decodeNamed_opens

theorem outputCommand_refused {p : Port} {act : State → ResultCode × State} {params : List Byte} {u : State}
    (hact : (act u).1 ≠ .ok → (act u).2 = u) (h : (outputCommand p act params u).1.code ≠ .ok) :
    (outputCommand p act params u).2 = u := by
  cases p
  · exact hact h
  · rfl

theorem stage_refused {p : Port} {allowed : Bool} {e : Option Entry} {u : State}
    (h : (stage p allowed e u).1.code ≠ .ok) : (stage p allowed e u).2 = u := by
  obtain ⟨c, -, hs⟩ | ⟨e', -, -, -, -, -, hs⟩ := stage_cases p allowed e u <;> rw [hs] at h ⊢
  exact absurd rfl h

/-- A refusal changes nothing. -/
theorem commandBody_refused {i : Instr} {p : Port} {code : Byte} (hi : i.command? = some (p, code)) {params : List Byte}
    {u : State} (h : (commandBody i params u).1.code ≠ .ok) : (commandBody i params u).2 = u := by
  cases i <;> simp only [Instr.command?, reduceCtorEq, Option.some.injEq, Prod.mk.injEq] at hi <;> obtain ⟨rfl, rfl⟩ := hi
  case openWindow p =>
    simp only [commandBody] at h ⊢
    obtain ⟨c, -, hs⟩ | ⟨w, vis, pl, ix, -, -, -, -, -, -, hs⟩ := stageOpen_cases p params u <;> rw [hs] at h ⊢
    exact absurd rfl h
  case commit p =>
    simp only [commandBody, commitBody] at h ⊢
    cases hc : u.refusesCommit p <;> simp_all
  case abandon => exact absurd rfl h
  case queryWindow p =>
    simp only [commandBody, queryWindowBody]
    cases decodeQueryWindow params <;> rfl
  case queryState => rfl
  case takeNotices => exact absurd rfl h
  case queryTiming => rfl
  case outputStart =>
    refine outputCommand_refused (params := params) (fun h => ?_) h
    unfold startAct at h ⊢
    (repeat' split) <;> simp_all
  case outputLive =>
    refine outputCommand_refused (params := params) (fun h => ?_) h
    unfold liveAct at h ⊢
    split <;> simp_all
  case outputQuiet =>
    refine outputCommand_refused (params := params) (fun h => ?_) h
    unfold quietAct at h ⊢
    split <;> simp_all
  case outputStop =>
    refine outputCommand_refused (params := params) (fun h => ?_) h
    unfold stopAct at h ⊢
    split <;> simp_all
  case setTiming p =>
    simp only [commandBody, setTimingBody] at h ⊢
    cases p
    · cases hc : u.checkTiming params <;> simp_all [Reply.bare]
    · rfl
  case setFetchTimeout p =>
    simp only [commandBody, setFetchTimeoutBody] at h ⊢
    cases p
    · cases hc : decodeTimeout params <;> simp_all [Reply.bare]
    · rfl
  case resetFetch p =>
    cases p
    · exact absurd rfl h
    · rfl
  all_goals exact stage_refused h

/-- No command moves the next-port pointer but by its taking. -/
theorem CommandAct.nextPort {p : Port} {u v : State} (h : CommandAct p u v) : v.nextPort = u.nextPort := by
  cases h with
  | committed h =>
    simp only [State.acceptCommit]
    split <;> simp
  | stopped ho => simp [State.stopOutput, State.enterOff]
  | _ => simp

/-- Every command's own rule but TAKE_NOTICES's is blind to the queues. -/
theorem commandBody_blind {i : Instr} {p : Port} {code : Byte} (hi : i.command? = some (p, code)) (h : code ≠ 0x32) :
    (commandBody i).blind := by
  cases i <;> simp only [Instr.command?, reduceCtorEq, Option.some.injEq, Prod.mk.injEq] at hi <;> obtain ⟨rfl, rfl⟩ := hi
  case takeNotices => exact absurd rfl h
  case openWindow => exact stageOpen_blind _
  case commit => exact commitBody_blind _
  case abandon => exact abandonBody_blind _
  case queryWindow => exact queryWindowBody_blind _
  case queryState => exact queryStateBody_blind _
  case queryTiming => exact queryTimingBody_blind
  case outputStart => exact outputCommand_blind _ fun _ _ _ _ _ => startAct_blind ..
  case outputLive => exact outputCommand_blind _ fun _ _ _ _ _ => liveAct_blind ..
  case outputQuiet => exact outputCommand_blind _ fun _ _ _ _ _ => quietAct_blind ..
  case outputStop => exact outputCommand_blind _ fun _ _ _ _ _ => stopAct_blind ..
  case setTiming => exact setTimingBody_blind _
  case setFetchTimeout => exact setFetchTimeoutBody_blind _
  case resetFetch => exact resetFetchBody_blind _
  all_goals
    intro params u q cs rs b
    simp only [commandBody, stageNamed, stagePrimary, stage_blind]

theorem State.served_inService {s : State} {p : Port} (h : s.serving ≠ none) : s.served p = { s with serving := none } :=
  if_neg h

/-- TAKE_NOTICES cut off by a link reset keeps the set. -/
theorem exec_takeNotices_cutOff {i : Instr} {p : Port} {c : QueuedCommand} {s : State} (h : s.cutOff p c)
    (hi : i.command? = some (p, c.code)) (hc : c.code = 0x32) : exec i s = .next { s with serving := none } := by
  obtain ⟨len, hl, he⟩ := exec_eq_serve hi
  by_cases hlen : c.params.length = len
  · have hab : ((s.takeHead p).link p).abandonPending = true := by
      rw [State.takeHead_abandonPending]
      exact h.2
    have hbody : (commandBody i c.params (s.takeHead p)).2 = s.takeHead p := by
      rw [hc] at hi
      cases i <;> simp only [Instr.command?, reduceCtorEq, Option.some.injEq, Prod.mk.injEq] at hi <;>
        obtain ⟨rfl, hcode⟩ := hi <;> first | exact absurd hcode (by decide) | skip
      simp only [commandBody, takeNoticesBody, hab, ↓reduceIte]
    rw [he, serve_of_servable (.inr h) hlen, hbody, State.respond_cutOff h]
  · rw [exec_of_badLength (.inr h) hi hl hlen, State.respond_cutOff h]

/-- What every command that may be carried out does besides its own rule. -/
theorem exec_answers {i : Instr} {p : Port} {c : QueuedCommand} {s : State} (h : s.canTake p c)
    (hi : i.command? = some (p, c.code)) : ∃ v code data, exec i s = .next (v.placed p c code data) ∧
      CommandAct p (s.takeHead p) v ∧ (code ≠ .ok → v = s.takeHead p) := by
  obtain ⟨len, hl, he⟩ := exec_eq_serve hi
  by_cases hlen : c.params.length = len
  · have hact := commandBody_act hi c.params (s.takeHead p)
    have hclear : ((commandBody i c.params (s.takeHead p)).2.link p).abandonPending = false := by
      obtain ⟨n, hn⟩ := hact.postsTo.1 p
      rw [hn]
      exact (State.takeHead_abandonPending s p p).trans (State.canTake_clear h)
    refine ⟨_, _, (commandBody i c.params (s.takeHead p)).1.data, ?_, hact, fun hcode => commandBody_refused hi hcode⟩
    rw [he, serve_of_servable (.inl h) hlen, State.respond_of_clear _ _ hclear]
  · refine ⟨s.takeHead p, .badLength, [], ?_, .nothing, fun _ => rfl⟩
    rw [exec_of_badLength (.inl h) hi hl hlen, State.respond_of_clear _ _ (by
      rw [State.takeHead_abandonPending]
      exact State.canTake_clear h)]
    rfl

/-- Settles O14: the row's one answer, by whether the command's effect is still to come and whether it was cut off. -/
theorem commandAnswered : Obligations.CommandAnswered := by
  refine ⟨fun i p c s h hi => ?_, fun i p c r s h hi => ?_, fun i p c s h hi => ?_⟩
  · by_cases hc : c.code = 0x32
    · rw [if_pos hc]
      exact exec_takeNotices_cutOff h hi hc
    · rw [if_neg hc]
      obtain ⟨len, -, he⟩ := exec_eq_serve hi
      simp only [he]
      exact serve_cutOff h (commandBody_blind hi hc)
  · obtain ⟨len, -, he⟩ := exec_eq_serve hi
    have htaken : s.takeHead p = { s with serving := none } := by
      rw [State.takeHead_eq, State.served_inService (by rw [h.1]; exact Option.some_ne_none _)]
    rw [he, serve_of_found h, htaken]
    cases hab : (s.link p).abandonPending with
    | true => rw [if_pos rfl, State.respond_of_pending _ _ (by cases p <;> exact hab)]
    | false => rw [if_neg Bool.false_ne_true, State.respond_of_clear _ _ (by cases p <;> exact hab)]
  · obtain ⟨v, code, data, he, hact, hrefused⟩ := exec_answers h hi
    obtain ⟨hlinks, hserving, -⟩ := hact.postsTo
    obtain ⟨n, hn⟩ := hlinks p
    obtain ⟨n', hn'⟩ := hlinks (otherPort p)
    have hne : otherPort p ≠ p := by cases p <;> decide
    have hplaced : (v.placed p c code data).link p =
        { v.link p with responses := (v.link p).responses ++ [c.seq :: c.code :: code.byte :: data] } := State.link_setLink ..
    have hother : (v.placed p c code data).link (otherPort p) = v.link (otherPort p) := State.link_setLink_ne _ _ hne
    have hnext : (v.placed p c code data).nextPort = (s.takeHead p).nextPort :=
      (State.setLink_nextPort ..).trans hact.nextPort
    refine ⟨_, code, data, he, fun hs => ?_, fun hs => ?_, ?_, ?_, ?_, ?_, fun hc => ?_⟩
    · rw [hplaced, hnext, hn, State.takeHead_eq, State.served, if_pos hs]
      cases p <;> exact ⟨rfl, rfl⟩
    · rw [hplaced, hnext, hn, State.takeHead_eq, State.served_inService hs]
      cases p <;> exact ⟨rfl, rfl⟩
    · refine (State.setLink_serving ..).trans (hserving.trans ?_)
      rw [State.takeHead_eq, State.served]
      split
      · exact (State.setLink_serving ..).trans ‹_›
      · rfl
    · obtain ⟨cs, hcs, -⟩ := State.takeHead_link s p p
      rw [hplaced, hn, hcs]
    · obtain ⟨cs, hcs, -⟩ := State.takeHead_link s p (otherPort p)
      rw [hother, hn', hcs]
    · obtain ⟨cs, hcs, hsame | ⟨heq, -⟩⟩ := State.takeHead_link s p (otherPort p)
      · rw [hother, hn', hcs, hsame]
      · exact absurd heq hne
    · rw [hrefused hc, State.takeHead_eq]
      rfl

/-! ### The commands open to Port A only (R79, R152) -/

/-- Settles O15: the permission check is the first of each of these commands. -/
theorem portAOnly : Obligations.PortAOnly := by
  intro i c s h hi hlen
  refine ⟨fun hcode => exec_replies h hi hlen ?_, fun hcode => exec_replies h hi hlen ?_⟩
  · obtain hcode | ⟨hcode, hpin⟩ := hcode
    · simp only [List.mem_cons, List.not_mem_nil, or_false] at hcode
      obtain hcode | hcode | hcode | hcode | hcode | hcode := hcode <;> rw [hcode] at hi <;> cases i <;>
        simp only [Instr.command?, reduceCtorEq, Option.some.injEq, Prod.mk.injEq, BitVec.reduceEq, and_true, and_false] at hi <;>
        subst hi <;> rfl
    · rw [hcode] at hi
      cases i <;>
        simp only [Instr.command?, reduceCtorEq, Option.some.injEq, Prod.mk.injEq, BitVec.reduceEq, and_true, and_false] at hi
      subst hi
      exact if_pos ⟨rfl, by simp [openAsksPinned, hpin]⟩
  · have hraster : (s.takeHead .b).raster = s.raster := State.takeHead_raster _ _
    rw [← hraster]
    simp only [List.mem_cons, List.not_mem_nil, or_false] at hcode
    obtain hcode | hcode | hcode | hcode := hcode <;> rw [hcode] at hi <;> cases i <;>
      simp only [Instr.command?, reduceCtorEq, Option.some.injEq, Prod.mk.injEq, BitVec.reduceEq, and_true, and_false] at hi <;>
      subst hi <;> rfl

end Sys2Proof.Machine
end

section
/-! PROOF. The checks of R24 in their order, against the asking port's view: what a staging command, OPEN and COMMIT
answer (R10, R16, R24, R25, R40 to R42). -/

namespace Sys2Proof.Machine

/-! ### The first check that fails -/

theorem firstFailing_cons (b : Bool) (c : ResultCode) (l : List (Bool × ResultCode)) :
    firstFailing ((b, c) :: l) = if b then firstFailing l else c := rfl

/-- What is held of the slot a handle names, where the view's slot is open. -/
theorem View.windowAt_some {v : View} {h : Handle} {ix : SlotIx} {o : Port} {w : Window} :
    v.windowAt h = some (ix, o, w) ↔ h.ix? = some ix ∧ ∃ st, v.table.body ix = .opened o st w := by
  unfold View.windowAt
  cases hx : h.ix? with
  | none => simp
  | some jx =>
    dsimp only
    constructor
    · intro hw
      split at hw
      · rename_i o' st w' hb
        cases hw
        exact ⟨rfl, st, hb⟩
      · cases hw
    · rintro ⟨hj, st, hb⟩
      cases hj
      rw [hb]

/-- R10 in a view, by the window the handle names there. -/
theorem View.resolve_eq (v : View) (h : Handle) : v.resolve h = match v.windowAt h with
    | none => .error .badHandle
    | some (ix, _, _) => if v.table.gen ix = h.gen then .ok ix else .error .stale := by
  unfold View.resolve View.windowAt
  cases h.ix? with
  | none => rfl
  | some ix => cases hb : v.table.body ix <;> simp only [hb]

/-- Step 4 of R24: R10's steps, then the checks that follow. -/
theorem View.resolution_first (v : View) (h : Handle) (rest : List (Bool × ResultCode)) :
    firstFailing (v.resolutionChecks h ++ rest) = match v.resolve h with
      | .error c => c
      | .ok _ => firstFailing rest := by
  rw [View.resolve_eq]
  simp only [View.resolutionChecks, List.cons_append, List.nil_append, firstFailing_cons, View.holds]
  cases hw : v.windowAt h with
  | none => rfl
  | some x =>
    obtain ⟨ix, o, w⟩ := x
    by_cases hg : v.table.gen ix = h.gen <;> simp [hg]

/-- A handle that resolves names an open window of its generation. -/
theorem View.resolve_ok {v : View} {h : Handle} {ix : SlotIx} (hr : v.resolve h = .ok ix) :
    ∃ o w, v.windowAt h = some (ix, o, w) := by
  rw [View.resolve_eq] at hr
  split at hr
  · cases hr
  · rename_i jx o w hw
    split at hr
    · cases hr
      exact ⟨o, w, hw⟩
    · cases hr

/-- Step 8 of R24: the placement's reference. -/
theorem View.reference_first (v : View) (self : Option SlotIx) (pinned : Bool) (pl : Placement) :
    firstFailing (v.referenceChecks self pinned pl) = (v.refusesReference self pinned pl).getD .ok := by
  have key : ∀ r : Handle, firstFailing (v.resolutionChecks r ++
      [(v.holds r fun ix _ w => !v.retiring.contains ix && self != some ix && w.pinned == pinned, .badReference)]) =
      (match v.resolve r with
        | .error c => some c
        | .ok r => if v.isRetiring r || self == some r || v.table.pinned r != pinned then some .badReference
          else none : Option ResultCode).getD .ok := by
    intro r
    rw [View.resolution_first]
    cases hr : v.resolve r with
    | error c => rfl
    | ok ix =>
      obtain ⟨o, w, hw⟩ := View.resolve_ok hr
      obtain ⟨-, st, hb⟩ := View.windowAt_some.1 hw
      simp only [firstFailing_cons, View.holds, hw, View.isRetiring, Table.pinned_of_body hb]
      cases v.retiring.contains ix <;> by_cases hs : self = some ix <;> cases w.pinned <;> cases pinned <;>
        simp [hs, firstFailing]
  cases pl with
  | top => rfl
  | bottom => rfl
  | above r => exact key r
  | below r => exact key r

/-- Step 7 of R24, in the words of the claims. -/
theorem Change.relations_eq (c : Change) (w : Window) : c.relations w = c.fitsRecord w := by
  cases c with
  | source src => cases hk : w.look.key <;> simp [Change.relations, Change.fitsRecord, pitchFits, keyFits, lineBytesRounded, lineBytes, hk] <;> rfl
  | look l => cases hk : l.key <;> simp [Change.relations, Change.fitsRecord, keyFits, hk]
  | _ => rfl

/-- Step 8 of R24 for a command that names a window: RESTACK's reference. -/
def View.placementChecks (v : View) (h : Handle) (c : Change) : List (Bool × ResultCode) :=
  match c, v.windowAt h with
  | .restack pl, some (ix, _, w) => v.referenceChecks (some ix) w.pinned pl
  | _, _ => []

theorem View.namedChecks_eq (v : View) (p : Port) (n : Nat) (h : Handle) (c : Change) : v.namedChecks p n h c =
    [(p == .a || !c.portAOnly, .notPermitted), ((Entry.window h c).inDomain, .badParam), (decide (n < 16), .batchFull)] ++
      v.resolutionChecks h ++
      [(v.holds h fun ix _ _ => !v.retiring.contains ix, .retired),
        (v.holds h fun _ o _ => o == p || c == .reclaim, .notOwner), (v.holds h fun _ _ w => c.relations w, .badParam)] ++
      v.placementChecks h c := rfl

theorem View.placement_first {v : View} {h : Handle} {ix : SlotIx} {o : Port} {w : Window}
    (hw : v.windowAt h = some (ix, o, w)) (c : Change) :
    firstFailing (v.placementChecks h c) = (v.refusesPlacement ix w c).getD .ok := by
  unfold View.placementChecks
  rw [hw]
  cases c <;> first | exact View.reference_first .. | rfl

/-- Steps 4 to 8 of R24 for a command that names a window. -/
theorem View.refuses_first (v : View) (p : Port) (h : Handle) {c : Change} (hc : ∀ w vis pl, c ≠ .create w vis pl) :
    firstFailing (v.resolutionChecks h ++
      ((v.holds h fun ix _ _ => !v.retiring.contains ix, .retired) ::
        (v.holds h fun _ o _ => o == p || c == .reclaim, .notOwner) ::
        (v.holds h fun _ _ w => c.relations w, .badParam) :: v.placementChecks h c)) =
      (v.refuses p (.window h c)).getD .ok := by
  have hrefuses : v.refuses p (.window h c) = match v.resolve h with
      | .error code => some code
      | .ok ix => v.refusesWindow p ix c := by
    cases c <;> first | exact absurd rfl (hc _ _ _) | rfl
  rw [hrefuses, View.resolution_first]
  cases hr : v.resolve h with
  | error code => rfl
  | ok ix =>
    obtain ⟨o, w, hw⟩ := View.resolve_ok hr
    obtain ⟨-, st, hb⟩ := View.windowAt_some.1 hw
    have hexempt : (c == .reclaim) = c.ownerExempt := by cases c <;> rfl
    simp only [firstFailing_cons, View.placement_first hw, View.holds, hw, View.refusesWindow, hb, View.isRetiring, hexempt,
      Change.relations_eq]
    by_cases hret : ix ∈ v.retiring <;> by_cases ho : o = p <;> cases hex : c.ownerExempt <;>
      cases hfit : c.fitsRecord w <;> simp [hret, ho]

/-- The checks of a command that names a window, in the order of R24. -/
theorem View.namedChecks_first (v : View) (p : Port) (n : Nat) (h : Handle) {c : Change}
    (hc : ∀ w vis pl, c ≠ .create w vis pl) : firstFailing (v.namedChecks p n h c) =
      if (p == .a || !c.portAOnly) = false then .notPermitted
      else if (Entry.window h c).inDomain = false then .badParam
      else if 16 ≤ n then .batchFull
      else (v.refuses p (.window h c)).getD .ok := by
  have hfull : decide (n < 16) = !decide (16 ≤ n) := by rw [← decide_not, decide_eq_decide, not_le]
  rw [View.namedChecks_eq]
  simp only [List.append_assoc, List.cons_append, List.nil_append, firstFailing_cons, hfull, View.refuses_first v p h hc]
  cases (p == .a || !c.portAOnly) <;> cases (Entry.window h c).inDomain <;> by_cases hn : 16 ≤ n <;>
    simp only [hn, decide_true, decide_false, Bool.not_true, Bool.not_false, Bool.false_eq_true, ↓reduceIte, reduceCtorEq]

/-- The checks of OPEN in the order of R24. -/
theorem View.openChecks_first (v : View) (p : Port) (n : Nat) (anyFree : Bool) (w : Window) (pl : Placement) :
    firstFailing (v.openChecks p n anyFree w pl) =
      if (p == .a || !w.pinned) = false then .notPermitted
      else if w.inDomain = false then .badParam
      else if 16 ≤ n then .batchFull
      else if anyFree = false then .noSlot
      else (v.refusesReference none w.pinned pl).getD .ok := by
  have hfull : decide (n < 16) = !decide (16 ≤ n) := by rw [← decide_not, decide_eq_decide, not_le]
  simp only [View.openChecks, List.cons_append, List.nil_append, firstFailing_cons, hfull, View.reference_first]
  cases (p == .a || !w.pinned) <;> cases w.inDomain <;> by_cases hn : 16 ≤ n <;> cases anyFree <;>
    simp only [hn, decide_true, decide_false, Bool.not_true, Bool.not_false, Bool.false_eq_true, ↓reduceIte, reduceCtorEq]

/-! ### Staging commands (R24, R166) -/

/-- A handle's command carries its own code's change, never OPEN's. -/
theorem decodeChange_code {code : Byte} {rest : List Byte} {c : Change} (h : decodeChange code rest = some c) :
    c.code = code ∧ ∀ w vis pl, c ≠ .create w vis pl := by
  have fixed : ∀ {k : Byte} {c' : Change}, code = k → c'.code = k → (∀ w vis pl, c' ≠ .create w vis pl) → some c' = some c →
      c.code = code ∧ ∀ w vis pl, c ≠ .create w vis pl := by
    rintro k c' rfl hk hne he
    obtain rfl := Option.some.inj he
    exact ⟨hk, hne⟩
  have mapped : ∀ {α : Type} {k : Byte} {f : α → Change} {x : Option α}, code = k → (∀ a, (f a).code = k) →
      (∀ a w vis pl, f a ≠ .create w vis pl) → x.map f = some c → c.code = code ∧ ∀ w vis pl, c ≠ .create w vis pl := by
    rintro α k f x rfl hk hne he
    obtain ⟨a, -, rfl⟩ := Option.map_eq_some_iff.1 he
    exact ⟨hk a, hne a⟩
  unfold decodeChange at h
  split_ifs at h with h1 h2 h3 h4 h5 h6 h7 h8 h9 h10
  · exact mapped (f := Change.place) h1 (fun _ => rfl) (fun _ _ _ _ e => nomatch e) h
  · exact mapped (f := Change.source) h2 (fun _ => rfl) (fun _ _ _ _ e => nomatch e) h
  · exact mapped (f := Change.look) h3 (fun _ => rfl) (fun _ _ _ _ e => nomatch e) h
  · exact fixed (c' := .unhide) h4 rfl (fun _ _ _ e => nomatch e) h
  · exact fixed (c' := .hide) h5 rfl (fun _ _ _ e => nomatch e) h
  · split at h
    · exact mapped (f := Change.restack) h6 (fun _ => rfl) (fun _ _ _ _ e => nomatch e) h
    · exact nomatch h
  · split at h
    · exact mapped (f := Change.pin) h7 (fun _ => rfl) (fun _ _ _ _ e => nomatch e) h
    · exact nomatch h
  · exact fixed (c' := .resume) h8 rfl (fun _ _ _ e => nomatch e) h
  · exact fixed (c' := .retire) h9 rfl (fun _ _ _ e => nomatch e) h
  · exact fixed (c' := .reclaim) h10 rfl (fun _ _ _ e => nomatch e) h

theorem decodeNamed_code {code : Byte} {params : List Byte} {h : Handle} {c : Change}
    (hd : decodeNamed code params = some (.window h c)) : c.code = code ∧ ∀ w vis pl, c ≠ .create w vis pl := by
  unfold decodeNamed at hd
  split at hd
  · obtain ⟨c', hc, he⟩ := Option.map_eq_some_iff.1 hd
    cases he
    exact decodeChange_code hc
  · cases hd

theorem Change.portAOnly_eq (c : Change) : c.portAOnly = decide (c.code = 0x17 ∨ c.code = 0x1A) := by cases c <;> rfl

/-- The ten commands that name a window stage what their bytes spell, PIN and RECLAIM from Port A only. -/
theorem commandBody_named {i : Instr} {p : Port} {code : Byte} (hi : i.command? = some (p, code))
    (hcode : code ∈ ([0x11, 0x12, 0x13, 0x14, 0x15, 0x16, 0x17, 0x18, 0x19, 0x1A] : List Byte)) (params : List Byte)
    (u : State) : commandBody i params u =
      stage p (p == .a || !decide (code = 0x17 ∨ code = 0x1A)) (decodeNamed code params) u := by
  cases i <;> simp only [Instr.command?, reduceCtorEq, Option.some.injEq, Prod.mk.injEq] at hi <;> obtain ⟨rfl, rfl⟩ := hi <;>
    first | exact absurd hcode (by decide) | skip
  all_goals rename_i p; cases p <;> rfl

/-- Staging answers the first check of R24 that fails. -/
theorem stage_named {p : Port} {h : Handle} {c : Change} (hc : ∀ w vis pl, c ≠ .create w vis pl) (u : State) :
    stage p (p == .a || !c.portAOnly) (some (.window h c)) u =
      if firstFailing ((u.portView p).namedChecks p (u.staging p).openBatch.length h c) = .ok
      then (.bare .ok, u.appendEntry p (.window h c))
      else (.bare (firstFailing ((u.portView p).namedChecks p (u.staging p).openBatch.length h c)), u) := by
  rw [View.namedChecks_first _ _ _ _ hc, stage, State.batchFull]
  by_cases hp : (p == .a || !c.portAOnly) = false
  · simp [hp]
  · by_cases hd : (Entry.window h c).inDomain = false
    · simp [hp, hd]
    · by_cases hn : 16 ≤ (u.staging p).openBatch.length
      · simp [hp, hd, hn, Config.batchEntries]
      · cases hr : (u.portView p).refuses p (.window h c) with
        | none => simp [hp, hd, hn, Config.batchEntries]
        | some code => simp [hp, hd, hn, Config.batchEntries, View.refuses_ne_ok hr]

theorem State.takeHead_portView (s : State) (p q : Port) : (s.takeHead p).portView q = s.portView q := by
  simp only [State.portView, State.projection, State.takeHead_table, State.takeHead_commitQueue, State.takeHead_staging]

/-- A row whose body stages an entry or answers a code. -/
theorem exec_stages {i : Instr} {p : Port} {c : QueuedCommand} {s : State} (h : s.canTake p c)
    (hi : i.command? = some (p, c.code)) (hlen : paramLength c.code = some c.params.length) {code : ResultCode} {e : Entry}
    (hb : commandBody i c.params (s.takeHead p) =
      if code = .ok then (.bare .ok, (s.takeHead p).appendEntry p e) else (.bare code, s.takeHead p)) :
    exec i s = .next (if code = .ok then
      (s.answered p c .ok []).setStaging p { s.staging p with openBatch := (s.staging p).openBatch ++ [e] }
      else s.answered p c code []) := by
  by_cases hok : code = .ok
  · rw [if_pos hok] at hb ⊢
    rw [exec_places h hi hlen hb (by cases p <;> rfl), State.appendEntry, State.takeHead_staging, State.takeHead_eq]
    cases p <;> rfl
  · rw [if_neg hok] at hb ⊢
    exact exec_replies h hi hlen hb

/-- Settles O16: the command's bytes, then the first check that fails. -/
theorem stagedInOrder : Obligations.StagedInOrder := by
  refine ⟨fun i p c s h hi hlen hcode => ⟨fun hd ch hdec => ?_, fun hdec => exec_replies h hi hlen ?_⟩,
    fun seq r g b s h => ?_⟩
  · intro code
    obtain ⟨hch, hcreate⟩ := decodeNamed_code hdec
    refine exec_stages h hi hlen ?_
    rw [commandBody_named hi hcode, hdec, ← hch, ← Change.portAOnly_eq, stage_named hcreate, State.takeHead_portView,
      State.takeHead_staging]
  · rw [commandBody_named hi hcode, hdec, stage]
    cases p with
    | a => simp [Reply.bare]
    | b =>
      by_cases hport : c.code = 0x17 ∨ c.code = 0x1A
      · rw [if_pos (by rw [decide_eq_true hport]; rfl), if_pos ⟨rfl, hport⟩]
        rfl
      · rw [if_neg (by rw [decide_eq_false hport]; decide), if_neg fun h => hport h.2]
        rfl
  · have hb : commandBody (.backdrop .a) [r, g, b] (s.takeHead .a) =
        if (if (s.staging .a).openBatch.length < 16 then ResultCode.ok else .batchFull) = .ok
        then (.bare .ok, (s.takeHead .a).appendEntry .a (.backdrop ⟨r, g, b⟩))
        else (.bare (if (s.staging .a).openBatch.length < 16 then ResultCode.ok else .batchFull), s.takeHead .a) := by
      simp only [commandBody, decodeBackdrop, stage, State.batchFull, State.takeHead_staging, Config.batchEntries]
      by_cases hn : (s.staging .a).openBatch.length < 16
      · simp [hn, Entry.inDomain, View.refuses]
      · simp [hn, Entry.inDomain, not_lt.1 hn]
    rw [exec_stages h (i := .backdrop .a) rfl rfl hb]
    by_cases hn : (s.staging .a).openBatch.length < 16 <;> simp [hn]

/-! ### OPEN (R3, R24, R25) -/

/-- In a sorted list the first element found is the lowest. -/
theorem find?_lowest {α : Type} [LinearOrder α] {xs : List α} (hpw : xs.Pairwise (· < ·)) {f : α → Bool} {k : α}
    (hk : k ∈ xs) (hf : f k = true) (h : ∀ j, j < k → f j = false) : xs.find? f = some k := by
  induction xs with
  | nil => cases hk
  | cons y ys ih =>
    obtain ⟨hy, hpw⟩ := List.pairwise_cons.1 hpw
    obtain rfl | hk := List.mem_cons.1 hk
    · exact List.find?_cons_of_pos hf
    · rw [List.find?_cons_of_neg (by rw [h y (hy k hk)]; decide)]
      exact ih hpw hk

/-- The slot found is the lowest-numbered FREE one. -/
theorem Table.lowestFree_some {t : Table} {ix : SlotIx} (hf : t.body ix = .free) (h : ∀ j : SlotIx, j < ix → t.body j ≠ .free) :
    t.lowestFree = some ix := by
  refine find?_lowest (by decide) (List.mem_finRange ix) (by rw [hf]; rfl) fun j hj => ?_
  have := h j hj
  cases hb : t.body j <;> simp_all [SlotBody.isFree]

theorem Table.lowestFree_none {t : Table} (h : ∀ ix : SlotIx, t.body ix ≠ .free) : t.lowestFree = none := by
  refine List.find?_eq_none.2 fun ix _ => ?_
  have := h ix
  cases hb : t.body ix <;> simp_all [SlotBody.isFree]

/-- The pinned byte of an OPEN that is read is 01h where its window is pinned. -/
theorem decodeOpen_pinned {params : List Byte} {w : Window} {vis : Visibility} {pl : Placement}
    (h : decodeOpen params = some (w, vis, pl)) : openAsksPinned params = w.pinned := by
  unfold decodeOpen at h
  split at h
  · rename_i th pin v form ref htail
    have hpin : params[24]? = some pin := by
      rw [show (24 : Nat) = 23 + 1 from rfl, ← List.getElem?_drop, htail]
      rfl
    simp only [Option.bind_eq_bind, Option.bind_eq_some_iff, Option.some.injEq, Prod.mk.injEq] at h
    obtain ⟨g, -, src, -, l, -, pinned, hflag, v', -, pl', -, rfl, -⟩ := h
    rw [openAsksPinned, hpin]
    unfold flagOfByte at hflag
    split_ifs at hflag with h0 h1 <;> cases hflag
    · rw [h0]
      rfl
    · rw [h1]
      rfl
  · cases h

/-- OPEN answers the first check of R24 that fails. -/
theorem stageOpen_first {p : Port} {params : List Byte} {w : Window} {vis : Visibility} {pl : Placement}
    (hd : decodeOpen params = some (w, vis, pl)) (u : State) : stageOpen p params u =
      match u.table.lowestFree with
      | none => (.bare (firstFailing ((u.portView p).openChecks p (u.staging p).openBatch.length false w pl)), u)
      | some ix =>
        if firstFailing ((u.portView p).openChecks p (u.staging p).openBatch.length true w pl) = .ok
        then (⟨.ok, [(handleOf ix (u.table.gen ix)).byte]⟩,
          (u.reserve p ix).appendEntry p (.window (handleOf ix (u.table.gen ix)) (.create w vis pl)))
        else (.bare (firstFailing ((u.portView p).openChecks p (u.staging p).openBatch.length true w pl)), u) := by
  have hperm : (p = .b ∧ openAsksPinned params = true) ↔ (p == .a || !w.pinned) = false := by
    rw [decodeOpen_pinned hd]
    cases p <;> cases w.pinned <;> decide
  have hat : ∀ ix, stageOpenAt p ix w vis pl u =
      match (u.portView p).refusesReference none w.pinned pl with
      | some c => (.bare c, u)
      | none => (⟨.ok, [(handleOf ix (u.table.gen ix)).byte]⟩,
        (u.reserve p ix).appendEntry p (.window (handleOf ix (u.table.gen ix)) (.create w vis pl))) := fun ix => rfl
  have hne : ∀ {c}, (u.portView p).refusesReference none w.pinned pl = some c → c ≠ .ok := fun h =>
    View.refuses_ne_ok (p := p) (e := .window ⟨0, 0⟩ (.create w vis pl)) h
  simp only [View.openChecks_first]
  rw [stageOpen, hd]
  by_cases hp : (p == .a || !w.pinned) = false
  · rw [if_pos (hperm.2 hp)]
    cases u.table.lowestFree <;> simp [hp]
  · rw [if_neg fun h => hp (hperm.1 h)]
    simp only [State.batchFull, Config.batchEntries, decide_eq_true_eq]
    by_cases hdom : w.inDomain = false
    · cases u.table.lowestFree <;> simp [hp, hdom]
    · by_cases hn : 16 ≤ (u.staging p).openBatch.length
      · cases u.table.lowestFree <;> simp [hp, hdom, hn]
      · cases u.table.lowestFree with
        | none => simp [hp, hdom, hn]
        | some ix => cases hr : (u.portView p).refusesReference none w.pinned pl with
          | none => simp [hp, hdom, hn, hat, hr]
          | some c => simp [hp, hdom, hn, hat, hr, hne hr]

/-- Settles O17: OPEN's checks, with the lowest-numbered FREE slot or with none. -/
theorem openReserves : Obligations.OpenReserves := by
  intro p c s h hcode hparams
  have hi : Instr.command? (.openWindow p) = some (p, c.code) := by rw [hcode]; rfl
  have hlen : paramLength c.code = some c.params.length := by rw [hcode, hparams]; rfl
  refine ⟨fun w vis pl hd => ⟨fun ix hf hlow => ?_, fun hnone => ?_⟩, fun hd => exec_replies h hi hlen ?_⟩
  · intro code hix
    have hb := stageOpen_first (p := p) hd (s.takeHead p)
    rw [State.takeHead_table, Table.lowestFree_some hf hlow, State.takeHead_portView, State.takeHead_staging] at hb
    by_cases hok : code = .ok
    · rw [if_pos hok]
      have hplaced := exec_places h hi hlen (hb.trans (if_pos hok)) (by cases p <;> rfl)
      have hstaging : ((s.takeHead p).reserve p ix).staging p = s.staging p :=
        (State.reserve_staging ..).trans (State.takeHead_staging ..)
      rw [hplaced, State.appendEntry, hstaging, State.reserve, State.takeHead_table, State.takeHead_eq]
      cases p <;> rfl
    · rw [if_neg hok]
      exact exec_replies h hi hlen (hb.trans (if_neg hok))
  · have hb := stageOpen_first (p := p) hd (s.takeHead p)
    rw [State.takeHead_table, Table.lowestFree_none hnone, State.takeHead_portView, State.takeHead_staging] at hb
    exact exec_replies h hi hlen hb
  · show stageOpen p c.params (s.takeHead p) = _
    rw [stageOpen, hd]
    have hiff : (p = .b ∧ openAsksPinned c.params = true) ↔ (p = .b ∧ c.params[24]? = some 0x01) := by
      simp [openAsksPinned]
    by_cases hp : p = .b ∧ c.params[24]? = some 0x01
    · rw [if_pos (hiff.2 hp), if_pos hp]
      rfl
    · rw [if_neg fun h => hp (hiff.1 h), if_neg hp]
      rfl

end Sys2Proof.Machine
end

section
/-! PROOF. ABANDON and COMMIT: what they refuse, and what they leave (R38 to R44, R49). -/

namespace Sys2Proof.Machine

/-! ### ABANDON (R38, R39, R154) -/

theorem State.discardOpen_eq (s : State) (p : Port) : s.discardOpen p =
    { s.setStaging p { s.staging p with openBatch := [] } with
      table := { s.table with slots := (s.table.releaseReserved p).slots } } := by
  cases p <;> rfl

/-- Settles O22: the open batch dropped and its slots released, with a response or with the indication cleared. -/
theorem abandonDiscards : Obligations.AbandonDiscards := by
  intro p s
  refine ⟨(s.table.releaseReserved p).slots, fun ix => ?_, fun c h hcode hparams => ?_, fun hfree ht hsus hab => ?_,
    fun hab => ?_⟩
  · rw [Table.slots_eq, Table.gen_releaseReserved, Table.body_releaseReserved]
    split
    · rfl
    · exact (Table.slots_eq _ _).symm
  · have hi : Instr.command? (.abandon p) = some (p, c.code) := by rw [hcode]; rfl
    have hb : commandBody (.abandon p) c.params (s.takeHead p) =
        (⟨.ok, [BitVec.ofNat 8 (s.staging p).openBatch.length]⟩, (s.takeHead p).discardOpen p) := by
      rw [← State.takeHead_staging (p := p)]
      rfl
    rw [exec_places h hi (by rw [hcode, hparams]; rfl) hb (by cases p <;> rfl), State.discardOpen_eq, State.takeHead_table,
      State.takeHead_staging, State.takeHead_eq]
    cases p <;> rfl
  · have hg : s.grants (.abandon p) = true := State.grants_abandon.2 ⟨hfree, ht, hsus, hab⟩
    simp only [exec, execLinkResetAbandon, hg, ↓reduceIte, State.discardOpen_eq]
    cases p <;> rfl
  · have hg : s.grants (.abandon p) = false := Bool.eq_false_iff.2 fun h =>
      Bool.noConfusion (hab.symm.trans (State.grants_abandon.1 h).2.2.2)
    simp [exec, execLinkResetAbandon, hg]

/-! ### COMMIT's refusals (R40 to R42, R60, R162) -/

theorem firstFailing_filter {l : List (Bool × ResultCode)} {f : Bool × ResultCode → Bool}
    (h : ∀ x ∈ l, f x = false → x.1 = true) : firstFailing (l.filter f) = firstFailing l := by
  induction l with
  | nil => rfl
  | cons x l ih =>
    obtain ⟨b, c⟩ := x
    have ih := ih fun y hy => h y (List.mem_cons_of_mem _ hy)
    cases hf : f (b, c) with
    | true => rw [List.filter_cons_of_pos hf, firstFailing_cons, firstFailing_cons, ih]
    | false =>
      rw [List.filter_cons_of_neg (by rw [hf]; decide), firstFailing_cons, ih, if_pos (h _ (List.mem_cons_self ..) hf)]

/-- The checks of a placement's reference never answer BATCH_FULL or NO_SLOT. -/
theorem View.referenceChecks_codes {v : View} {self : Option SlotIx} {pinned : Bool} {pl : Placement}
    {x : Bool × ResultCode} (hx : x ∈ v.referenceChecks self pinned pl) : x.2 ≠ .batchFull ∧ x.2 ≠ .noSlot := by
  cases pl <;> simp only [View.referenceChecks, View.resolutionChecks, List.cons_append, List.nil_append, List.mem_cons,
    List.not_mem_nil, or_false] at hx
  all_goals obtain rfl | rfl | rfl := hx <;> exact ⟨nofun, nofun⟩

/-- COMMIT's checks of an entry, in the order of R24 (R41). -/
theorem View.checksAgain_first (v : View) (p : Port) (e : Entry) :
    firstFailing (v.checksAgain p e) = (v.refusesAgain p e).getD .ok := by
  unfold View.refusesAgain
  cases e with
  | backdrop colour =>
    have hlist : v.checksAgain p (.backdrop colour) = [(p == .a, .notPermitted)] := rfl
    rw [hlist]
    cases p <;> rfl
  | window h c =>
    by_cases hc : ∃ w vis pl, c = .create w vis pl
    · obtain ⟨w, vis, pl, rfl⟩ := hc
      have hfilter : firstFailing (v.checksAgain p (.window h (.create w vis pl))) =
          firstFailing (v.openChecks p 0 true w pl) := by
        refine firstFailing_filter fun x hx hcode => ?_
        simp only [View.openChecks, List.cons_append, List.nil_append, List.mem_cons] at hx
        obtain rfl | rfl | rfl | rfl | hx := hx
        · exact absurd hcode (by simp)
        · exact absurd hcode (by simp)
        · rfl
        · rfl
        · obtain ⟨h1, h2⟩ := View.referenceChecks_codes hx
          exact absurd hcode (by simp [h1, h2])
      have hperm : (Entry.window h (.create w vis pl)).permitted p = (p == .a || !w.pinned) := rfl
      have hdom : (Entry.window h (.create w vis pl)).inDomain = w.inDomain := rfl
      rw [hfilter, View.openChecks_first, hperm, hdom]
      split
      · rfl
      · split
        · rfl
        · rfl
    · have hc : ∀ w vis pl, c ≠ .create w vis pl := fun w vis pl he => hc ⟨w, vis, pl, he⟩
      have hfilter : firstFailing (v.checksAgain p (.window h c)) = firstFailing (v.namedChecks p 0 h c) := by
        have hlist : v.checksAgain p (.window h c) = (v.namedChecks p 0 h c).filter fun x => x.2 ≠ .batchFull := by
          cases c <;> first | exact absurd rfl (hc _ _ _) | rfl
        rw [hlist]
        refine firstFailing_filter fun x hx hcode => ?_
        have hfull : x.2 = .batchFull := by simpa using hcode
        simp only [View.namedChecks_eq, View.resolutionChecks, View.placementChecks, List.cons_append, List.nil_append,
          List.mem_cons] at hx
        obtain rfl | rfl | rfl | rfl | rfl | rfl | rfl | rfl | hx := hx <;> first | (cases hfull; done) | rfl | skip
        split at hx
        · exact absurd hfull (View.referenceChecks_codes hx).1
        · cases hx
      have hperm : (Entry.window h c).permitted p = (p == .a || !c.portAOnly) := by
        cases c <;> first | exact absurd rfl (hc _ _ _) | cases p <;> rfl
      rw [hfilter, View.namedChecks_first _ _ _ _ hc, hperm]
      split
      · rfl
      · split
        · rfl
        · rfl

/-- An entry that fails has a code that is not OK. -/
theorem View.refusesAgain_ne_ok {v : View} {p : Port} {e : Entry} {c : ResultCode} (h : v.refusesAgain p e = some c) :
    c ≠ .ok := by
  unfold View.refusesAgain at h
  split_ifs at h
  · cases h
    decide
  · cases h
    decide
  · exact View.refuses_ne_ok h

/-- Entry `k` fails with the code its checks answer. -/
theorem State.entryFails_iff {s : State} {p : Port} {k : Nat} {code : ResultCode} : s.entryFails p k code ↔
    ∃ e, (s.staging p).openBatch[k]? = some e ∧
      ((s.projection p).applyAll ((s.staging p).openBatch.take k)).refusesAgain p e = some code := by
  refine exists_congr fun e => and_congr_right fun _ => ?_
  rw [View.checksAgain_first]
  cases hr : ((s.projection p).applyAll ((s.staging p).openBatch.take k)).refusesAgain p e with
  | none => simp [eq_comm]
  | some c =>
    have := View.refusesAgain_ne_ok hr
    simp only [Option.getD_some, Option.some.injEq]
    constructor
    · exact fun h => h.2
    · rintro rfl
      exact ⟨this, rfl⟩

/-- Revalidation stops at the first entry that fails. -/
theorem View.revalidate_first {p : Port} {es : List Entry} {k : Nat} {e : Entry} {c : ResultCode} {v : View} {n : Nat}
    (hk : es[k]? = some e) (hc : (v.applyAll (es.take k)).refusesAgain p e = some c)
    (hbefore : ∀ j e', j < k → es[j]? = some e' → (v.applyAll (es.take j)).refusesAgain p e' = none) :
    View.revalidate p v n es = some (n + k, c.atCommit (n + k) e) := by
  induction es generalizing v n k with
  | nil => cases hk
  | cons x xs ih =>
    unfold View.revalidate
    cases k with
    | zero =>
      cases hk
      rw [show v.refusesAgain p e = some c from hc]
      rfl
    | succ k =>
      rw [show v.refusesAgain p x = none from hbefore 0 x (Nat.succ_pos k) rfl]
      have := ih (v := v.apply x) (n := n + 1) (k := k) hk hc fun j e' hj he => hbefore (j + 1) e' (by omega) he
      rw [this]
      simp only [Nat.add_assoc, Nat.add_comm 1]

theorem State.queueFull_iff {s : State} {p : Port} : s.queueFull p = false ↔ s.commitRoom p := by
  show (decide (4 ≤ s.commitQueue.length) || decide (2 ≤ (s.commitQueue.filter fun b => b.port == p).length)) = false ↔ _
  rw [Bool.or_eq_false_iff, decide_eq_false_iff_not, decide_eq_false_iff_not, not_le, not_le]

/-- Every entry of the open batch passes revalidation. -/
theorem State.batchValid_iff {s : State} {p : Port} : s.batchValid p ↔
    View.revalidate p (s.projection p) 0 (s.staging p).openBatch = none := by
  rw [View.revalidate_none]
  constructor
  · intro h before e after hes
    cases hr : ((s.projection p).applyAll before).refusesAgain p e with
    | none => rfl
    | some c =>
      refine absurd (State.entryFails_iff.2 ⟨e, ?_, ?_⟩) (h before.length c)
      · rw [hes, List.getElem?_append_right (Nat.le_refl _), Nat.sub_self]
        rfl
      · rw [hes, List.take_left' rfl]
        exact hr
  · intro h k code hf
    obtain ⟨e, hk, hr⟩ := State.entryFails_iff.1 hf
    obtain ⟨hlt, hget⟩ := List.getElem?_eq_some_iff.1 hk
    have := h ((s.staging p).openBatch.take k) e ((s.staging p).openBatch.drop (k + 1)) (by
      rw [← hget, List.cons_getElem_drop_succ, List.take_append_drop])
    exact nomatch this.symm.trans hr

theorem State.takeHead_refusesCommit (s : State) (p : Port) : (s.takeHead p).refusesCommit p = s.refusesCommit p := by
  unfold State.refusesCommit State.queueFull State.queuedBatches State.projection
  rw [State.takeHead_portView, State.takeHead_table, State.takeHead_commitQueue, State.takeHead_staging,
    State.takeHead_raster]

/-- A COMMIT that is refused. -/
theorem exec_commit_refused {p : Port} {c : QueuedCommand} {s : State} (h : s.canTake p c) (hcode : c.code = 0x20)
    (hparams : c.params = []) {r : Reply} (hr : s.refusesCommit p = some r) :
    exec (.commit p) s = .next (s.answered p c r.code r.data) := by
  refine exec_replies h (by rw [hcode]; rfl) (by rw [hcode, hparams]; rfl) ?_
  simp only [commandBody, commitBody, State.takeHead_refusesCommit, hr]

/-- Settles O19: the room, the first entry that fails, then the two limits. -/
theorem commitRefused : Obligations.CommitRefused := by
  intro p c s h hcode hparams
  refine ⟨fun hroom => ?_, fun k own hroom hfail hfirst => ?_, fun hroom hvalid hover => ?_,
    fun hroom hvalid hlanes hover => ?_⟩
  · have hfull : s.queueFull p = true := by
      rw [← Bool.not_eq_false, State.queueFull_iff]
      exact hroom
    exact exec_commit_refused h hcode hparams (r := ⟨.queueFull, [0xFF]⟩) (if_pos hfull)
  · have hfull := State.queueFull_iff.2 hroom
    obtain ⟨e, hk, hr⟩ := State.entryFails_iff.1 hfail
    have hrev := View.revalidate_first (n := 0) hk hr fun j e' hj he => by
      cases hr' : ((s.projection p).applyAll ((s.staging p).openBatch.take j)).refusesAgain p e' with
      | none => rfl
      | some c' => exact absurd (State.entryFails_iff.2 ⟨e', he, hr'⟩) (hfirst j c' hj)
    rw [Nat.zero_add] at hrev
    refine ⟨own.atCommit k e, exec_commit_refused h hcode hparams (r := ⟨own.atCommit k e, [BitVec.ofNat 8 k]⟩) ?_,
      View.refusesAgain_atCommit hr k, fun hallowed => ResultCode.atCommit_of_allowed k e hallowed⟩
    simp only [State.refusesCommit, hfull, hrev, Bool.false_eq_true, ↓reduceIte]
  · have hfull := State.queueFull_iff.2 hroom
    have hlim : (s.portView p).overLimits s.raster.profile = some .overLanes := if_pos ((View.lanesOver_iff _ _).1 hover)
    refine exec_commit_refused h hcode hparams (r := ⟨.overLanes, [0xFF]⟩) ?_
    simp only [State.refusesCommit, hfull, State.batchValid_iff.1 hvalid, hlim, Bool.false_eq_true, ↓reduceIte]
  · have hfull := State.queueFull_iff.2 hroom
    have hlim : (s.portView p).overLimits s.raster.profile = some .overStore :=
      (if_neg fun h => hlanes ((View.lanesOver_iff _ _).2 h)).trans (if_pos hover)
    refine exec_commit_refused h hcode hparams (r := ⟨.overStore, [0xFF]⟩) ?_
    simp only [State.refusesCommit, hfull, State.batchValid_iff.1 hvalid, hlim, Bool.false_eq_true, ↓reduceIte]

/-! ### A COMMIT accepted (R42, R43, R49) -/

theorem State.refusesCommit_of_passes {s : State} {p : Port} (h : s.commitPasses p) : s.refusesCommit p = none := by
  obtain ⟨hroom, hvalid, hlanes, hstore⟩ := h
  exact State.refusesCommit_none.2
    ⟨State.queueFull_iff.2 hroom, State.batchValid_iff.1 hvalid, View.overLimits_none.2 ⟨hlanes, hstore⟩⟩

/-- A COMMIT that passes. -/
theorem exec_commit_accepted {p : Port} {c : QueuedCommand} {s : State} (h : s.canTake p c) (hcode : c.code = 0x20)
    (hparams : c.params = []) (hpass : s.commitPasses p) :
    exec (.commit p) s = .next (((s.takeHead p).acceptCommit p).placed p c .ok [(s.staging p).nextTicket]) := by
  have hr : (s.takeHead p).refusesCommit p = none := (State.takeHead_refusesCommit s p).trans (State.refusesCommit_of_passes hpass)
  refine exec_places h (by rw [hcode]; rfl) (by rw [hcode, hparams]; rfl) ?_ ?_
  · simp only [commandBody, commitBody, hr, State.takeHead_staging]
  · obtain ⟨n, hn⟩ := (CommandAct.committed hr).postsTo.1 p
    rw [hn]

/-- Settles O20: out of OFF the batch is queued. -/
theorem commitQueued : Obligations.CommitQueued := by
  intro p c s h hcode hparams hpass ho ticket
  refine ⟨(s.table.reservedQueued p).slots, fun ix => ?_, ?_⟩
  · rw [Table.slots_eq, Table.gen_reservedQueued, Table.body_reservedQueued]
    split
    · rfl
    · exact (Table.slots_eq _ _).symm
  · have hacc : (s.takeHead p).acceptCommit p = (s.takeHead p).enqueue p := by
      refine if_neg fun hoff => ho ?_
      rwa [State.enqueue_raster, State.takeHead_raster] at hoff
    rw [exec_commit_accepted h hcode hparams hpass, hacc, State.enqueue, State.takeHead_staging, State.takeHead_table,
      State.takeHead_commitQueue, State.takeHead_eq]
    cases p <;> rfl

/-! ### A COMMIT applied in OFF (R49) -/

theorem State.takeHead_serving (s : State) (p : Port) : (s.takeHead p).serving = none := by
  unfold State.takeHead
  cases hs : s.serving with
  | some x => rfl
  | none => exact (State.dequeue_serving ..).trans hs

/-- In a part whose streams are off an apply changes counts alone. -/
theorem Applied.quiet {s t : State} {stops clears : SlotIx → Prop} (h : Applied s t stops clears)
    (hs : ∀ ix : SlotIx, s.streams[ix].loaded = false) (hl : ∀ i : Fin 6, s.lanes[i] = none) :
    t.lanes = s.lanes ∧ t.mem = s.mem := by
  constructor
  · refine Vector.ext fun k hk => ?_
    have hi := h.lanes ⟨k, hk⟩
    rw [hl ⟨k, hk⟩] at hi
    exact hi.trans (hl ⟨k, hk⟩).symm
  · have htags : t.mem.tags = s.mem.tags := by
      refine Vector.ext fun k hk => ?_
      have hi := h.tags ⟨k, hk⟩
      show t.mem.tags[(⟨k, hk⟩ : TagIx)] = s.mem.tags[(⟨k, hk⟩ : TagIx)]
      split at hi
      · rename_i e he
        obtain ⟨d, hd, hiff⟩ := hi
        have hde : d = e.discard := by
          rw [Bool.eq_iff_iff, hiff]
          refine or_iff_left ?_
          rintro ⟨ix, -, -, hload⟩
          exact Bool.noConfusion ((hs ix).symm.trans hload)
        rw [hd, he, hde]
      · exact hi
    rw [h.mem, htags]

theorem Staging.eq_of {g g' : Staging} (ho : g.openBatch = g'.openBatch) (hn : g.nextTicket = g'.nextTicket)
    (ha : g.appliedTicket = g'.appliedTicket) : g = g' := by
  cases g
  cases g'
  simp_all

/-- Settles O21: the one batch queued is applied at once. -/
theorem commitAppliedInOff : Obligations.CommitAppliedInOff := by
  intro p c s h hcode hparams hpass hoff hquiet ticket before entries
  obtain ⟨hqueue, -, -, -, -, -, hlanes, hloaded, -⟩ := hquiet hoff
  obtain ⟨u, hu⟩ : ∃ u, u = (s.takeHead p).enqueue p := ⟨_, rfl⟩
  have hacc : (s.takeHead p).acceptCommit p = u.applyQueue.1 := by
    rw [hu]
    exact if_pos ((congrArg Raster.output ((State.enqueue_raster ..).trans (State.takeHead_raster ..))).trans hoff)
  have htable : u.table = before := by rw [hu, State.enqueue_table', State.takeHead_table]
  have hbatch : u.commitQueue = [⟨p, ticket, entries⟩] := by
    rw [hu, State.enqueue_queue, State.takeHead_commitQueue, State.takeHead_staging, hqueue]
    rfl
  have hflat : u.commitQueue.flatMap Batch.entries = entries := by rw [hbatch]; exact List.append_nil _
  have hlink : ∀ q, u.link q = (s.takeHead p).link q := fun q => by rw [hu, State.enqueue_link]
  have hstreams : u.streams = s.streams := by rw [hu, State.enqueue_streams, State.takeHead_streams]
  have hmem : u.mem = s.mem := by rw [hu, State.enqueue_mem, State.takeHead_mem]
  have hul : u.lanes = s.lanes := by rw [hu, State.enqueue_lanes, State.takeHead_lanes]
  have hne : otherPort p ≠ p := by cases p <;> decide
  have hstaging : u.staging p = ⟨[], ticketAfter ticket, (s.staging p).appliedTicket⟩ := by
    rw [hu, State.enqueue, State.staging_setStaging, State.takeHead_staging]
    rfl
  have hother : u.staging (otherPort p) = s.staging (otherPort p) := by
    rw [hu, State.enqueue, State.staging_setStaging_ne _ _ hne]
    exact State.takeHead_staging ..
  have happlied := u.applyQueue_applied
  rw [hflat, htable] at happlied
  obtain ⟨hl, hm⟩ := happlied.quiet (fun ix => by rw [hstreams]; exact hloaded ix) (fun i => by rw [hul]; exact hlanes i)
  obtain ⟨reclaimed, hrec, hports⟩ := u.applyQueue_links
  rw [hflat, htable] at hrec
  obtain ⟨applied, hp, hlast⟩ := hports p
  obtain ⟨applied', hp', hlast'⟩ := hports (otherPort p)
  have hown : (u.commitQueue.filter fun b => b.port == p).getLast? = some ⟨p, ticket, entries⟩ := by
    rw [hbatch]
    cases p <;> rfl
  have hnone : (u.commitQueue.filter fun b => b.port == otherPort p).getLast? = none := by
    rw [hbatch]
    cases p <;> rfl
  rw [hown] at hlast
  rw [hnone] at hlast'
  obtain ⟨hticket, rfl⟩ := hlast
  obtain ⟨hticket', happ'⟩ := hlast'
  obtain ⟨hopen, hnext⟩ := u.applyQueue_staging p
  obtain ⟨hopen', hnext'⟩ := u.applyQueue_staging (otherPort p)
  have hfinal : ∀ q, ∃ cs, u.link q = { s.link q with commands := cs } := fun q => by
    obtain ⟨cs, hcs, -⟩ := State.takeHead_link s p q
    exact ⟨cs, (hlink q).trans hcs⟩
  have hB : u.linkB.notices.reclaimed = s.linkB.notices.reclaimed := by
    obtain ⟨cs, hcs⟩ := hfinal .b
    exact congrArg (fun l => l.notices.reclaimed) hcs
  refine ⟨u.applyQueue.1.placed p c .ok [ticket], reclaimed, ?_, hB ▸ hrec, ?_, ?_, ?_, ?_, ?_, ?_, ?_, ?_, ?_, ?_, ?_, ?_, ?_,
    ?_, ?_, ?_, ?_, ?_, ?_, fun ix => ?_⟩
  · rw [exec_commit_accepted h hcode hparams hpass, hacc]
  · refine (State.setLink_table ..).trans ?_
    rw [State.applyQueue_foldl, hflat, htable]
  · exact (State.setLink_commitQueue ..).trans (State.applyQueue_commitQueue u)
  · refine (State.setLink_staging ..).trans ?_
    rw [hstaging] at hopen hnext
    exact Staging.eq_of hopen hnext hticket
  · refine (State.setLink_staging ..).trans ?_
    rw [hother] at hopen' hnext' hticket'
    exact Staging.eq_of hopen' hnext' hticket'
  · refine (State.link_setLink ..).trans ?_
    obtain ⟨cs, hcs⟩ := hfinal p
    have hserved : (s.served p).link p = { s.link p with commands := cs } := by rw [← State.takeHead_eq, ← hlink, hcs]
    rw [hp, hcs, hserved]
    rfl
  · refine (State.link_setLink_ne _ _ hne).trans ?_
    obtain ⟨cs, hcs, hsame | ⟨heq, -⟩⟩ := State.takeHead_link s p (otherPort p)
    · rw [hp', happ', hlink, hcs, hsame]
      cases p <;> rfl
    · exact absurd heq hne
  · refine (State.setLink_nextPort ..).trans ((State.applyQueue_nextPort u).trans ?_)
    rw [hu, State.enqueue_nextPort, State.takeHead_eq]
  · refine (State.setLink_raster ..).trans ((State.applyQueue_raster u).trans ?_)
    rw [hu, State.enqueue_raster, State.takeHead_raster]
  · refine (State.setLink_pins ..).trans ((State.applyQueue_pins u).trans ?_)
    rw [hu, State.enqueue_pins, State.takeHead_pins]
  · exact (State.setLink_lanes ..).trans (hl.trans hul)
  · refine (State.setLink_lineBackground ..).trans ((State.applyQueue_lineBackground u).trans ?_)
    rw [hu, State.enqueue_lineBackground, State.takeHead_lineBackground]
  · refine (State.setLink_suspensions ..).trans ((State.applyQueue_suspensions u).trans ?_)
    rw [hu, State.enqueue_suspensions, State.takeHead_suspensions]
  · refine (State.setLink_store ..).trans ((State.applyQueue_store u).trans ?_)
    rw [hu, State.enqueue_store, State.takeHead_store]
  · exact (State.setLink_mem ..).trans (hm.trans hmem)
  · refine (State.setLink_pending ..).trans ((State.applyQueue_pending u).trans ?_)
    rw [hu, State.enqueue_pending, State.takeHead_pending]
  · refine (State.setLink_rstAsserted ..).trans ((State.applyQueue_rstAsserted u).trans ?_)
    rw [hu, State.enqueue_rstAsserted, State.takeHead_rstAsserted]
  · refine (State.setLink_turn ..).trans ((State.applyQueue_turn u).trans ?_)
    rw [hu, State.enqueue_turn, State.takeHead_turn]
  · refine (State.setLink_serving ..).trans ((State.applyQueue_serving u).trans ?_)
    rw [hu, State.enqueue_serving, State.takeHead_serving]
  · refine (State.setLink_choices ..).trans ((State.applyQueue_choices u).trans ?_)
    rw [hu, State.enqueue_choices, State.takeHead_choices]
  · have hx := happlied.unloaded (ix := ix) (by rw [hstreams]; exact hloaded ix)
    rw [hstreams] at hx
    rw [show (u.applyQueue.1.placed p c .ok [ticket]).streams = u.applyQueue.1.streams from State.setLink_streams ..]
    exact hx

end Sys2Proof.Machine
end

section
/-! PROOF. The views (R19), QUERY_WINDOW (R22), and the output, timing and fetch commands that pass their checks (R69,
R80, R123, R132, R137). -/

namespace Sys2Proof.Machine

/-! ### The views (R19) -/

theorem View.apply_unacted {v : View} {h : Handle} {ix : SlotIx} (hx : h.ix? = some ix)
    (hv : ix ∈ v.retiring ∨ v.table.gen ix ≠ h.gen) (c : Change) : v.apply (.window h c) = v := by
  have ha : v.acted h = none := by
    refine Option.eq_none_iff_forall_not_mem.2 fun jx hj => ?_
    obtain ⟨hj, hg, hr⟩ := View.acted_some.1 hj
    obtain rfl : ix = jx := Option.some.inj (hx.symm.trans hj)
    exact hv.elim (fun h => hr h) fun h => h hg
  simp [View.apply, ha]

/-- A slot RESERVED or QUEUED in a view is not open there. -/
theorem View.resolve_unopened {v : View} {h : Handle} {ix : SlotIx} (hx : h.ix? = some ix)
    (hb : (v.table.body ix).isOpen = false) : v.resolve h = .error .badHandle := by
  unfold View.resolve
  rw [hx]
  cases h : v.table.body ix <;> simp_all [SlotBody.isOpen]

theorem mem_insertAt {ix j : SlotIx} {sec : List SlotIx} {pl : Placement} (h : j ∈ insertAt ix sec pl) :
    j = ix ∨ j ∈ sec := by
  obtain ⟨below, above, hs, hi, -⟩ := insertAt_split ix sec pl
  rw [hi] at h
  rw [hs]
  simp only [List.mem_append, List.mem_cons] at h ⊢
  tauto

theorem Table.mem_inserted {t : Table} {z : List SlotIx} {ix j : SlotIx} {up : Bool} {pl : Placement}
    (h : j ∈ t.inserted z ix up pl) : j = ix ∨ j ∈ z := by
  have hlow : ∀ {k}, k ∈ t.lowerSection z → k ∈ z := fun h => (List.mem_filter.1 h).1
  have hup : ∀ {k}, k ∈ t.upperSection z → k ∈ z := fun h => (List.mem_filter.1 h).1
  unfold Table.inserted at h
  split at h
  · obtain h | h := List.mem_append.1 h
    · exact .inr (hlow h)
    · exact (mem_insertAt h).imp_right hup
  · obtain h | h := List.mem_append.1 h
    · exact (mem_insertAt h).imp_right hlow
    · exact .inr (hup h)

/-- A change brings no slot but its own into the list. -/
theorem Table.mem_zorder_applyChange {t : Table} {ix j : SlotIx} {c : Change} (h : j ∈ (t.applyChange ix c).zorder) :
    j = ix ∨ j ∈ t.zorder := by
  have hwithout : ∀ {k}, k ∈ without t.zorder ix → k ∈ t.zorder := fun h => (List.mem_filter.1 h).1
  generalize ht : t.applyChange ix c = t' at h
  cases ht ▸ t.applyChange_act ix c with
  | nothing => exact .inr h
  | created o w vis pl hb => exact (Table.mem_inserted h).imp_right hwithout
  | rewritten => exact .inr h
  | restacked o st w pl hb => exact (Table.mem_inserted h).imp_right hwithout
  | pinned o st w on hb =>
    unfold Table.pin at h
    split at h
    · exact .inr h
    · exact (Table.mem_inserted h).imp_right hwithout
  | retired => exact .inr (hwithout h)

/-- What is pending retirement in a view is open there and stands nowhere in its list. -/
def View.retiringLaw (v : View) : Prop :=
  ∀ ix ∈ v.retiring, (v.table.body ix).isOpen = true ∧ ix ∉ v.table.zorder

theorem View.retiringLaw_apply {v : View} (h : v.retiringLaw) (e : Entry) : (v.apply e).retiringLaw := by
  obtain h' | ⟨colour, -, h'⟩ | ⟨hd, c, jx, -, ha, ⟨hf, h'⟩ | ⟨hf, ho, h'⟩⟩ := View.apply_cases v e <;> rw [h'] <;>
    intro ix hix
  · exact h ix hix
  · exact h ix hix
  · obtain ⟨hopen, hz⟩ := h ix hix
    have hj : jx ≠ ix := fun e => (View.acted_some.1 ha).2.2 (e ▸ hix)
    refine ⟨?_, fun hmem => ?_⟩
    · rw [Table.body_applyChange, if_neg hj]
      exact hopen
    · obtain he | he := Table.mem_zorder_applyChange hmem
      · exact hj he.symm
      · exact hz he
  · obtain rfl | hix := List.mem_cons.1 hix
    · exact ⟨ho, fun hmem => absurd rfl (of_decide_eq_true (List.mem_filter.1 hmem).2)⟩
    · obtain ⟨hopen, hz⟩ := h ix hix
      exact ⟨hopen, fun hmem => hz (List.mem_filter.1 hmem).1⟩

theorem State.projection_eq (s : State) (p : Port) : s.projection p =
    View.applyAll ⟨s.table.reservedQueued p, []⟩ (s.commitQueue.flatMap Batch.entries) := View.applyBatches_eq _ _

theorem State.portView_eq (s : State) (p : Port) : s.portView p =
    View.applyAll ⟨s.table.reservedQueued p, []⟩ (s.commitQueue.flatMap Batch.entries ++ (s.staging p).openBatch) := by
  rw [State.portView, State.projection_eq, View.applyAll, View.applyAll, View.applyAll, List.foldl_append]

/-- Settles O18: what an entry does in a view, what a view keeps, and how the projection follows the apply to come. -/
theorem portViews : Obligations.PortViews := by
  refine ⟨fun v h ix c hx => ⟨fun hv => View.apply_unacted hx hv c, fun hr hg => ⟨fun hret hrec => ?_, fun hc ho => ?_⟩⟩,
    fun s p => ⟨rfl, fun g => ?_, fun ix => ⟨?_, fun hb h hx => ?_, fun hr => ?_⟩⟩, ?_⟩
  · have ha : v.acted h = some ix := View.acted_some.2 ⟨hx, hg, hr⟩
    cases c <;> first | exact absurd rfl hret | exact absurd rfl hrec | simp [View.apply, ha]
  · have ha : v.acted h = some ix := View.acted_some.2 ⟨hx, hg, hr⟩
    have happly : v.apply (.window h c) = v.retire ix := by
      obtain rfl | rfl := hc <;> simp [View.apply, ha]
    rw [happly, View.retire, if_pos ho]
    rfl
  · have hne : p ≠ otherPort p := by cases p <;> decide
    rw [State.portView, State.projection, State.setStaging_table, State.setStaging_commitQueue,
      State.staging_setStaging_ne _ _ hne]
    rfl
  · rw [State.portView_eq, (View.applyAll_fixed _ _ ix).1]
    exact Table.gen_reservedQueued ..
  · have hne : otherPort p ≠ p := by cases p <;> decide
    have hh : (((s.portView p).table.body ix).holder? = none) := by
      rw [State.portView_eq, (View.applyAll_fixed _ _ ix).2]
      show ((s.table.reservedQueued p).body ix).holder? = none
      rw [Table.body_reservedQueued, hb, if_neg fun e => hne (SlotBody.reserved.inj e)]
      rfl
    exact View.resolve_unopened hx (by cases hb' : (s.portView p).table.body ix <;> simp_all [SlotBody.holder?, SlotBody.isOpen])
  · have hlaw : (s.portView p).retiringLaw := by
      rw [State.portView_eq]
      exact View.applyAll_keeps _ (fun _ h => absurd h List.not_mem_nil) fun v e _ hv => View.retiringLaw_apply hv e
    obtain ⟨hopen, hz⟩ := hlaw ix hr
    exact ⟨hopen, hz, by simp [View.countedAt, View.isRetiring, hr]⟩
  · intro s p hres hq v applied ix
    have hview : v = View.applyAll ⟨s.table.reservedQueued p, []⟩ (s.commitQueue.flatMap Batch.entries) :=
      State.projection_eq s p
    have hgen : v.table.gen ix = s.table.gen ix := by
      rw [hview, (View.applyAll_fixed _ _ ix).1]
      exact Table.gen_reservedQueued ..
    have hreserved : ∀ o, s.table.body ix = .reserved o → ix ∉ v.retiring ∧ (v.table.body ix).isOpen = false := by
      intro o ho
      obtain ⟨-, hr, halike⟩ := View.alikeAt_of_unnamed (⟨s.table.reservedQueued p, []⟩ : View)
        (hq.unnamed (ix := ix) (by rw [ho]; rfl))
      rw [← hview] at hr halike
      refine ⟨fun h => absurd (hr.1 h) List.not_mem_nil, ?_⟩
      rw [SlotBody.alike_isOpen halike]
      show ((s.table.reservedQueued p).body ix).isOpen = false
      rw [Table.body_reservedQueued, ho]
      split <;> rfl
    have hfollows : s.table.body ix ≠ .reserved p →
        v.follows ((s.commitQueue.flatMap Batch.entries).foldl Table.applyEntry s.table) ix := by
      intro hb
      have hstart : (⟨s.table.reservedQueued p, []⟩ : View).follows s.table ix := by
        refine .inl ⟨List.not_mem_nil, Table.slots_ext (Table.gen_reservedQueued ..) ?_⟩
        rw [Table.body_reservedQueued, if_neg hb]
      rw [hview]
      refine View.follows_applyAll (s.commitQueue.flatMap Batch.entries) hstart fun hd c he hx => ?_
      obtain ⟨_, -, hnamed⟩ := hq.named he
      obtain ⟨hh, -⟩ := hnamed hd c ix rfl hx
      show hd.gen = (s.table.reservedQueued p).gen ix
      rw [Table.gen_reservedQueued, hh]
      rfl
    refine ⟨fun hr => ?_, fun hr hb => ?_, fun o ho h hx => View.resolve_unopened hx (hreserved o ho).2⟩
    · obtain ⟨hr', -⟩ | ⟨-, -, hs⟩ := hfollows fun hb => (hreserved p hb).1 hr
      · exact absurd hr hr'
      · exact hgen ▸ hs
    · obtain ⟨-, hs⟩ | ⟨hr', -⟩ := hfollows hb
      · exact hs
      · exact absurd hr' hr

/-! ### QUERY_WINDOW (R22) -/

theorem Handle.byte_ofByte (b : Byte) : (Handle.ofByte b).byte = b := by
  refine BitVec.eq_of_getLsbD_eq fun k hk => ?_
  rw [Handle.byte, Handle.ofByte, BitVec.getLsbD_append]
  split
  · simp only [BitVec.getLsbD_extractLsb', Nat.zero_add]
    simp_all
  · simp only [BitVec.getLsbD_extractLsb']
    rw [decide_eq_true (by omega : k - 4 < 4), Nat.add_sub_cancel' (by omega : 4 ≤ k)]
    rfl

/-- A handle of a byte is the slot's handle of its generation. -/
theorem handleOf_byte {hb : Byte} {ix : SlotIx} (hx : (Handle.ofByte hb).ix? = some ix) {g : Nibble}
    (hg : g = (Handle.ofByte hb).gen) : (handleOf ix g).byte = hb := by
  rw [hg, ← handle_of_ix hx, Handle.byte_ofByte]

theorem State.takeHead_windowData (s : State) (p : Port) (seen : SlotBody) (gen : Nibble) (retiring : Bool) (ix : SlotIx) :
    (s.takeHead p).windowData seen gen retiring ix = s.windowData seen gen retiring ix := by
  simp only [State.windowData, State.reportedCount, State.takeHead_table, State.takeHead_streams]

/-- QUERY_WINDOW by its selector byte. -/
theorem queryWindowBody_selector (p : Port) (hb sel : Byte) (s : State) : queryWindowBody p [hb, sel] (s.takeHead p) =
    (if sel = 0x00 then s.queryLive (Handle.ofByte hb)
      else if sel = 0x01 then s.queryProjected p (Handle.ofByte hb) else .bare .badParam, s.takeHead p) := by
  by_cases h0 : sel = 0x00
  · subst h0
    simp only [queryWindowBody, decodeQueryWindow, flagOfByte, State.queryLive, State.takeHead_table,
      State.takeHead_windowData, if_true, Option.map_some, Bool.false_eq_true, if_false]
  · by_cases h1 : sel = 0x01
    · subst h1
      simp only [queryWindowBody, decodeQueryWindow, flagOfByte, State.queryProjected, State.takeHead_portView,
        State.takeHead_windowData, if_neg h0, if_true, Option.map_some]
    · simp only [queryWindowBody, decodeQueryWindow, flagOfByte, if_neg h0, if_neg h1, Option.map_none]

/-- The count of a window's stream, told where it is SHOWN or SUSPENDED (R22). -/
theorem State.reportedCount_opened {s : State} {ix : SlotIx} {o : Port} {st : OpenState} {w : Window}
    (hb : s.table.body ix = .opened o st w) :
    byteOfNat (s.reportedCount ix) 0 = if st = .hidden then 0x00 else BitVec.ofNat 8 s.streams[ix].count := by
  unfold State.reportedCount
  rw [hb]
  cases st <;> simp [SlotBody.counted, byteOfNat]

theorem State.queryProjected_error {s : State} {p : Port} {h : Handle} {c : ResultCode}
    (hr : (s.portView p).resolve h = .error c) : s.queryProjected p h = ⟨c, []⟩ := by
  unfold State.queryProjected
  simp only [hr]
  rfl

theorem State.queryProjected_ok {s : State} {p : Port} {h : Handle} {ix : SlotIx}
    (hr : (s.portView p).resolve h = .ok ix) : s.queryProjected p h = ⟨.ok, s.windowData ((s.portView p).table.body ix)
      ((s.portView p).table.gen ix) ((s.portView p).isRetiring ix) ix⟩ := by
  unfold State.queryProjected
  simp only [hr]

/-- Settles O28: by the selector, and by the slot that the handle names in the view. -/
theorem queryWindowAnswers : Obligations.QueryWindowAnswers := by
  intro p seq hb sel s hc h ans record
  have hans : ∀ {code data}, (if sel = 0x00 then s.queryLive h else if sel = 0x01 then s.queryProjected p h
      else .bare .badParam) = ⟨code, data⟩ → ans code data := fun hr =>
    exec_replies (i := .queryWindow p) hc rfl rfl ((queryWindowBody_selector p hb sel s).trans (by rw [hr]))
  have hrecord : ∀ w : Window, w.recordBytes = record w := fun w => by
    simp [record, Window.recordBytes, byteOfNat, flagByte]
  refine ⟨fun h0 h1 => hans (by rw [if_neg h0, if_neg h1]; rfl), fun h0 => ?_, ?_⟩
  · have hlive : ∀ {code data}, s.queryLive h = ⟨code, data⟩ → ans code data := fun hr => hans (by rw [if_pos h0, hr])
    have hresolved : ∀ {ix}, h.ix? = some ix → s.table.gen ix = h.gen → s.table.body ix ≠ .free →
        s.table.resolveLive h = .ok ix := fun {ix} hx hg hf => by
      unfold Table.resolveLive
      rw [hx]
      dsimp only
      split
      · contradiction
      · rw [if_pos hg]
    have hunopened : ∀ {ix}, h.ix? = some ix → s.table.gen ix = h.gen → s.table.body ix ≠ .free →
        (s.table.body ix).window? = none → s.queryLive h = ⟨.ok, [(s.table.body ix).byte, 0x00,
          (s.table.body ix).ownerByte, hb] ++ List.replicate 26 0x00 ++ [(s.table.body ix).byte, 0x00]⟩ := by
      intro ix hx hg hf hw
      have hcount : s.reportedCount ix = 0 := by
        unfold State.reportedCount
        cases hb : s.table.body ix <;> simp_all [SlotBody.window?, SlotBody.counted]
      simp only [State.queryLive, hresolved hx hg hf, State.windowData, SlotBody.recordBytes, hw, handleOf_byte hx hg, hcount]
      rfl
    refine ⟨fun hbad => hlive ?_, fun ix hx hf hg => hlive ?_, fun ix o hx hg hr => ?_, fun ix o hx hg hq => ?_,
      ?_⟩
    · have hbad : s.table.resolveLive h = .error .badHandle := by
        unfold Table.resolveLive
        obtain hx | ⟨ix, hx, hf⟩ := hbad
        · rw [hx]
        · rw [hx]
          simp only [hf]
      rw [State.queryLive, hbad]
      rfl
    · have hstale : s.table.resolveLive h = .error .stale := by
        unfold Table.resolveLive
        rw [hx]
        dsimp only
        split
        · contradiction
        · rw [if_neg hg]
      rw [State.queryLive, hstale]
      rfl
    · have hr' := hunopened hx hg (by rw [hr]; nofun) (by rw [hr]; rfl)
      rw [hr] at hr'
      exact hlive hr'
    · have hr' := hunopened hx hg (by rw [hq]; nofun) (by rw [hq]; rfl)
      rw [hq] at hr'
      exact hlive hr'
    · intro ix o st w hx hg ho sb
      refine hlive ?_
      have hbyte : (SlotBody.opened o st w).byte = sb := by cases st <;> rfl
      simp only [State.queryLive, hresolved hx hg (by rw [ho]; nofun), State.windowData, State.reportedCount_opened ho,
        handleOf_byte hx hg]
      rw [ho, hbyte]
      show (⟨_, _⟩ : Reply) = ⟨_, _⟩
      rw [show SlotBody.recordBytes (.opened o st w) = record w from hrecord w]
      rfl
  · intro v h1
    have h0 : sel ≠ 0x00 := by rw [h1]; decide
    have hproj : ∀ {code data}, s.queryProjected p h = ⟨code, data⟩ → ans code data := fun hr =>
      hans (by rw [if_neg h0, if_pos h1, hr])
    refine ⟨fun hbad => hproj (State.queryProjected_error ?_), fun ix o w hw hg => hproj (State.queryProjected_error ?_), ?_⟩
    · rw [View.resolve_eq, hbad]
    · rw [View.resolve_eq, hw]
      exact if_neg hg
    · intro ix o st w hx ho hg sb count
      refine hproj ?_
      have hok : v.resolve h = .ok ix := by
        rw [View.resolve_eq, View.windowAt_some.2 ⟨hx, st, ho⟩]
        exact if_pos hg
      have hbyte : (v.table.body ix).byte = sb := by rw [ho]; cases st <;> rfl
      have hflag : flagByte (v.isRetiring ix) = if ix ∈ v.retiring then 0x01 else 0x00 := by
        simp [flagByte, View.isRetiring]
      have hcount : byteOfNat (s.reportedCount ix) 0 = count := by
        unfold State.reportedCount
        cases hb : s.table.body ix with
        | opened o' st' w' => cases st' <;> simp [count, hb, SlotBody.counted, byteOfNat]
        | free => simp [count, hb, SlotBody.counted, byteOfNat]
        | reserved o' => simp [count, hb, SlotBody.counted, byteOfNat]
        | queued o' => simp [count, hb, SlotBody.counted, byteOfNat]
      have hdata : s.queryProjected p h =
          ⟨.ok, s.windowData (v.table.body ix) (v.table.gen ix) (v.isRetiring ix) ix⟩ := State.queryProjected_ok hok
      rw [hdata]
      simp only [State.windowData, handleOf_byte hx hg, hbyte, hflag, hcount]
      rw [ho, show SlotBody.recordBytes (.opened o st w) = record w from hrecord w]
      rfl

end Sys2Proof.Machine
end

section
/-! PROOF. The output, timing and fetch commands of Port A that pass their checks (R69, R80, R123, R132, R137). -/

namespace Sys2Proof.Machine

/-! ### The events and pins of a position (R72 to R75) -/

/-- The active-line start among a position's events. -/
theorem Raster.lineStartDue_eventsAt {r : Raster} {t : Profile} {l q : Nat} (h : r.due = t.eventsAt l q) :
    r.lineStartDue = if inInterval t.vActiveStart t.vActiveHeight l = true ∧ q = t.hActiveStart
      then some (l - t.vActiveStart) else none := by
  unfold Raster.lineStartDue
  rw [h]
  unfold Profile.eventsAt
  split_ifs <;> simp_all

theorem Polarity.level_eq (pol : Polarity) (b : Bool) : pol.level b = if b then pol == .high else pol == .low := by
  cases pol <;> cases b <;> rfl

/-- At the first position of an interval's line or frame. -/
theorem inInterval_zero {start len : Nat} (h : 1 ≤ len) : inInterval start len 0 = decide (start = 0) := by
  unfold inInterval
  exact decide_eq_decide.2 (by omega)

/-- What a valid profile's fields are (R67, R68). -/
theorem Profile.valid_iff {t : Profile} : t.valid = true ↔
    (128 ≤ t.hTotal ∧ t.hTotal ≤ 4096 ∧ t.hActiveStart ≤ 4095 ∧ 64 ≤ t.hActiveWidth ∧ t.hActiveWidth ≤ 2048 ∧
      t.hSyncStart ≤ 4095 ∧ 1 ≤ t.hSyncWidth ∧ t.hSyncWidth ≤ 1023 ∧ 16 ≤ t.vTotal ∧ t.vTotal ≤ 4096 ∧
      t.vActiveStart ≤ 4095 ∧ 64 ≤ t.vActiveHeight ∧ t.vActiveHeight ≤ 2048 ∧ t.vSyncStart ≤ 4095 ∧
      1 ≤ t.vSyncWidth ∧ t.vSyncWidth ≤ 63) ∧
    t.hActiveStart + t.hActiveWidth + 16 ≤ t.hTotal ∧ t.hSyncStart + t.hSyncWidth ≤ t.hTotal ∧
    t.vActiveStart + t.vActiveHeight + 2 ≤ t.vTotal ∧ t.vSyncStart + t.vSyncWidth ≤ t.vTotal ∧
    (t.hSyncStart + t.hSyncWidth ≤ t.hActiveStart ∨ t.hActiveStart + t.hActiveWidth ≤ t.hSyncStart) ∧
    (t.vSyncStart + t.vSyncWidth ≤ t.vActiveStart ∨ t.vActiveStart + t.vActiveHeight ≤ t.vSyncStart) := by
  unfold Profile.valid Profile.inRange Profile.relations disjointIntervals
  simp only [Bool.and_eq_true, decide_eq_true_eq]
  tauto

theorem State.atLineStart_lineBackground (s : State) : s.atLineStart.lineBackground =
    if s.raster.lineStartDue.isSome then s.table.background else s.lineBackground := by
  unfold State.atLineStart
  cases s.raster.lineStartDue <;> rfl

/-- The pins of a position outside LIVE. -/
theorem State.positionPins_background {s : State} (h : s.raster.output ≠ .live) : s.positionPins =
    ⟨s.raster.profile.hsAt s.raster.pixel, s.raster.profile.vsAt s.raster.line,
      s.raster.profile.activeAt s.raster.line s.raster.pixel,
      if s.raster.profile.activeAt s.raster.line s.raster.pixel then s.lineBackground.pd else 0⟩ := by
  unfold State.positionPins
  dsimp only
  cases ho : s.raster.output with
  | off => rfl
  | syncOnly => rfl
  | live => exact absurd ho h

/-- The pins of the first position under a valid profile. -/
theorem State.pinsDriven_started {s : State} (hv : s.raster.profile.valid = true) :
    (({ s with raster := s.raster.started } : State).pinsDriven).pins =
      ⟨if s.raster.profile.hSyncStart = 0 then s.raster.profile.hSyncPolarity == .high
          else s.raster.profile.hSyncPolarity == .low,
        if s.raster.profile.vSyncStart = 0 then s.raster.profile.vSyncPolarity == .high
          else s.raster.profile.vSyncPolarity == .low,
        s.raster.profile.hActiveStart == 0 && s.raster.profile.vActiveStart == 0,
        if s.raster.profile.hActiveStart = 0 ∧ s.raster.profile.vActiveStart = 0 then s.table.background.pd else 0⟩ := by
  obtain ⟨⟨-, -, -, hw, -, -, hs, -, -, -, -, hh, -, -, hvs, -⟩, -⟩ := Profile.valid_iff.1 hv
  generalize hu : ({ s with raster := s.raster.started } : State) = u
  have hr : u.raster = s.raster.started := by rw [← hu]
  have ht : u.table = s.table := by rw [← hu]
  have hdue : u.raster.lineStartDue = if s.raster.profile.vActiveStart = 0 ∧ s.raster.profile.hActiveStart = 0
      then some 0 else none := by
    rw [hr, Raster.lineStartDue_eventsAt (t := s.raster.profile) (l := 0) (q := 0) rfl, inInterval_zero (by omega)]
    simp only [decide_eq_true_eq, Nat.zero_sub, eq_comm (a := 0)]
  have hactive : s.raster.profile.activeAt 0 0 =
      (s.raster.profile.hActiveStart == 0 && s.raster.profile.vActiveStart == 0) := by
    rw [Profile.activeAt, inInterval_zero (by omega), inInterval_zero (by omega), Bool.and_comm]
    rfl
  show u.atLineStart.positionPins = _
  rw [State.positionPins_background (by rw [State.atLineStart_raster, hr]; nofun), State.atLineStart_raster,
    State.atLineStart_lineBackground, hdue, hr, ht]
  show Pins.mk (s.raster.profile.hsAt 0) (s.raster.profile.vsAt 0) (s.raster.profile.activeAt 0 0)
    (if s.raster.profile.activeAt 0 0 then _ else _) = _
  rw [hactive, Profile.hsAt, Profile.vsAt, inInterval_zero hs, inInterval_zero hvs, Polarity.level_eq, Polarity.level_eq]
  simp only [decide_eq_true_eq, Bool.and_eq_true, beq_iff_eq]
  congr 1
  split_ifs <;> simp_all

/-- OUTPUT_START by the output state and the profile. -/
theorem startAct_eq (s : State) : startAct s = if s.raster.output = .off then
    (if s.raster.profile.valid then (.ok, s.startOutput) else (.badTiming, s)) else (.wrongState, s) := by
  unfold startAct
  cases s.raster.output <;> rfl

/-- Settles O32: refused out of OFF or with an invalid profile, and else started with the first position's pins. -/
theorem outputStarts : Obligations.OutputStarts := by
  intro c s h hcode hparams prof
  have hi : Instr.command? (.outputStart .a) = some (.a, c.code) := by rw [hcode]; rfl
  have hlen : paramLength c.code = some c.params.length := by rw [hcode, hparams]; rfl
  have hbody : ∀ {code u}, startAct (s.takeHead .a) = (code, u) →
      commandBody (.outputStart .a) c.params (s.takeHead .a) = (u.outputReply code, u) := fun he => by
    simp only [commandBody, outputCommand, he]
  have hact := startAct_eq (s.takeHead .a)
  rw [State.takeHead_raster] at hact
  refine ⟨fun ho hv => exec_replies h hi hlen ?_, fun ho => exec_replies h hi hlen ?_, fun ho hv => ?_⟩
  · rw [if_pos ho, hv] at hact
    rw [hbody hact, State.outputReply, State.takeHead_raster, ho]
    rfl
  · rw [if_neg ho] at hact
    rw [hbody hact, State.outputReply, State.takeHead_raster]
  · rw [if_pos ho, if_pos hv] at hact
    have hpins : (s.takeHead .a).startOutput.pins = _ := State.pinsDriven_started (s := s.takeHead .a) (by
      rw [State.takeHead_raster]
      exact hv)
    rw [State.takeHead_raster, State.takeHead_table] at hpins
    have hu : (s.takeHead .a).startOutput = { (s.takeHead .a).postOutput .syncOnly with
        raster := s.raster.started, pins := (s.takeHead .a).startOutput.pins } := by
      rw [← State.takeHead_raster s .a]
      rfl
    rw [exec_places h hi hlen (hbody hact) rfl, hu, hpins, State.takeHead_eq]
    rfl

/-! ### SET_TIMING (R69) -/

/-- Two intervals of positive lengths share a position exactly where neither ends before the other begins. -/
theorem intervals_disjoint_iff {a la b lb : Nat} (ha : 1 ≤ la) (hb : 1 ≤ lb) :
    (a + la ≤ b ∨ b + lb ≤ a) ↔ ∀ q : Nat, ¬ (a ≤ q ∧ q < a + la ∧ b ≤ q ∧ q < b + lb) := by
  constructor
  · rintro h q ⟨h1, h2, h3, h4⟩
    omega
  · intro h
    have := h (max a b)
    omega

/-- The checks of SET_TIMING in OFF on a profile. -/
theorem State.checkTiming_off {s : State} (ho : s.raster.output = .off) {params : List Byte} {prof : Profile}
    (hp : decodeProfile params = some prof) : s.checkTiming params =
      if prof.valid = false then .error .badTiming
      else if 6 < peakLanes s.liveView.countedWindows prof.vActiveHeight then .error .overLanes else .ok prof := by
  unfold State.checkTiming
  rw [if_neg (not_not.2 ho), hp]
  have hheight : prof.valid = true → prof.activeHeight = prof.vActiveHeight := fun hv => if_pos hv
  have hlanes : Config.lanes = 6 := rfl
  dsimp only
  rw [hlanes]
  unfold Profile.valid at hheight ⊢
  cases hr : prof.inRange <;> cases hl : prof.relations <;> simp_all

/-- Settles O35: the checks in their order; and a valid profile's fields, its intervals apart point by point. -/
theorem timingSet : Obligations.TimingSet := by
  refine ⟨?_, fun t => ?_⟩
  · intro c s h hcode hparams live
    have hi : Instr.command? (.setTiming .a) = some (.a, c.code) := by rw [hcode]; rfl
    have hlen : paramLength c.code = some c.params.length := by rw [hcode, hparams]; rfl
    have hsame : (s.takeHead .a).checkTiming c.params = s.checkTiming c.params := by
      rw [State.checkTiming, State.liveView, State.takeHead_raster, State.takeHead_table]
      rfl
    have hrefused : ∀ {code}, s.checkTiming c.params = .error code →
        exec (.setTiming .a) s = .next (s.answered .a c code []) := fun he => exec_replies h hi hlen (by
      simp only [commandBody, setTimingBody, hsame, he]
      rfl)
    refine ⟨fun ho => hrefused (if_pos ho), fun ho => ⟨fun hd => hrefused ?_, fun prof hd => ?_⟩⟩
    · unfold State.checkTiming
      rw [if_neg (not_not.2 ho), hd]
    · have hcheck : s.checkTiming c.params = if prof.valid = false then .error .badTiming
          else if 6 < peakLanes live.countedWindows prof.vActiveHeight then .error .overLanes else .ok prof :=
        State.checkTiming_off ho hd
      split_ifs at hcheck ⊢ with hv hl
      · exact hrefused hcheck
      · exact hrefused hcheck
      · rw [exec_places h hi hlen (u := { s.takeHead .a with
            raster := { s.raster with profile := prof }, pins := prof.offPins }) (by
          simp only [commandBody, setTimingBody, hsame, hcheck, State.takeHead_raster]
          rfl) rfl, State.takeHead_eq]
        simp only [Profile.offPins, Polarity.level_eq]
        rfl
  · rw [Profile.valid_iff]
    refine and_congr_right fun hr => and_congr_right fun _ => and_congr_right fun _ => and_congr_right fun _ =>
      and_congr_right fun _ => ?_
    rw [intervals_disjoint_iff (by omega) (by omega), intervals_disjoint_iff (by omega) (by omega)]

/-! ### The fetch commands (R123, R132, R137) -/

/-- Settles O36: the timeout by its value, and the reset of the fetch path field by field. -/
theorem fetchCommands : Obligations.FetchCommands := by
  refine ⟨fun seq v s h => ?_, fun c s h hcode hparams => ?_⟩
  · have hi : Instr.command? (.setFetchTimeout .a) = some (.a, 0x45) := rfl
    have hdecode : decodeTimeout [v] = if v = 0 ∨ 63 < v.toNat then none else some v.toNat := by
      unfold decodeTimeout
      have h0 : v = 0 ↔ v.toNat = 0 := by rw [← BitVec.toNat_inj]; rfl
      simp only [h0]
      split_ifs <;> first | rfl | omega
    have hbody : commandBody (.setFetchTimeout .a) [v] (s.takeHead .a) = match decodeTimeout [v] with
        | none => (.bare .badParam, s.takeHead .a)
        | some n => (.bare .ok, { s.takeHead .a with mem := { s.mem with timeout := n } }) := by
      rw [← State.takeHead_mem s .a]
      rfl
    rw [hdecode] at hbody
    split_ifs at hbody ⊢
    · exact exec_replies h hi rfl hbody
    · rw [exec_places h hi rfl hbody rfl, State.takeHead_eq]
      rfl
  · have hi : Instr.command? (.resetFetch .a) = some (.a, c.code) := by rw [hcode]; rfl
    have hlen : paramLength c.code = some c.params.length := by rw [hcode, hparams]; rfl
    have hex := exec_places h hi hlen (u := (s.takeHead .a).resetFetch) (code := .ok) (data := [s.mem.epoch + 1]) (by
      rw [← State.takeHead_mem s .a]
      rfl) rfl
    have hmem : (s.takeHead .a).mem = s.mem := State.takeHead_mem ..
    have hlane : ∀ (l : Lane), (if allSlots.any (fun ix => l.ofSlot ix && true) then { l with source := .fill } else l) =
        if l.handle.ix? = none then l else { l with source := .fill } := fun l => by
      have hany : allSlots.any (fun ix => l.ofSlot ix && true) = l.handle.ix?.isSome := by
        rw [Bool.eq_iff_iff]
        simp only [Bool.and_true, List.any_eq_true, Lane.ofSlot_iff, Option.isSome_iff_exists]
        exact ⟨fun ⟨ix, _, hx⟩ => ⟨ix, hx⟩, fun ⟨ix, hx⟩ => ⟨ix, mem_allSlots ix, hx⟩⟩
      rw [hany]
      cases l.handle.ix? <;> rfl
    refine ⟨_, hex, congrArg (·.epoch + 1) hmem, fun k => tabTags_get _ k, rfl, congrArg (·.channel) hmem,
      congrArg (·.timeout) hmem, congrArg (·.beats) hmem, fun ix => ?_, fun i => ?_, ?_⟩
    · refine ⟨(s.streams[ix]).halfA.emptied, (s.streams[ix]).halfB.emptied, ?_, rfl, rfl, ?_⟩
      · refine (tabSlots_get _ ix).trans ?_
        rw [State.takeHead_streams]
        rfl
      · rintro h hh
        simp only [List.mem_cons, List.not_mem_nil, or_false] at hh
        obtain rfl | rfl := hh <;> exact ⟨rfl, rfl, rfl, rfl⟩
    · refine (State.fillLanes_get _ _ i).trans ?_
      simp only [hlane]
      exact congrArg (fun ls : Vector (Option Lane) 6 => (ls[i]).map _) (State.takeHead_lanes s .a)
    · refine ⟨(s.takeHead .a).resetFetch.lanes, (s.takeHead .a).resetFetch.streams, (s.takeHead .a).resetFetch.mem, ?_⟩
      rw [State.takeHead_eq]
      rfl

end Sys2Proof.Machine
end

section
/-! PROOF. The memory read port: the pick, the request channel and the completions (R113 to R118, R126 to R130, R135,
R136, R169). -/

namespace Sys2Proof.Machine

/-! ### The pick (R113 to R116) -/

/-- A half with a segment not yet requested has a lowest one. -/
theorem Half.nextSegment_le {h : Half} {n seg : Nat} (hlt : seg < n) (hnew : seg ∉ h.requested) :
    ∃ low, h.nextSegment n = some low ∧ low ≤ seg := by
  cases hn : h.nextSegment n with
  | none =>
    have := List.find?_eq_none.1 hn seg (List.mem_range.2 hlt)
    simp [hnew] at this
  | some low => exact ⟨low, rfl, ((Half.nextSegment_iff _ _ _).1 hn).2 seg hlt hnew⟩

/-- A candidate segment's half has a best one, of the same line and no higher. -/
theorem State.candidate_of_isCandidate {s : State} {ix : SlotIx} {i : HalfId} {ld : StreamLoad} {r seg : Nat}
    (h : s.isCandidate ix i ld r seg) : ∃ low, low ≤ seg ∧ s.candidate ix i =
      some (ld.y + (r : Int), ⟨ix, i, r, low, ld.handle, segmentAddress ld r low, segmentBeats ld low⟩) := by
  obtain ⟨hrun, hfill, hl, hr, hlt, hnew, hdue⟩ := h
  obtain ⟨low, hn, hle⟩ := Half.nextSegment_le hlt hnew
  exact ⟨low, hle, State.candidate_iff.2 ⟨ld, r, low, ⟨hl, hr, hrun, hfill, hdue⟩, hn, rfl⟩⟩

/-- A half's best candidate is a candidate. -/
theorem State.isCandidate_of_candidate {s : State} {ix : SlotIx} {i : HalfId} {b : Int × Pick}
    (h : s.candidate ix i = some b) : ∃ ld r seg, s.isCandidate ix i ld r seg ∧
      b = (ld.y + (r : Int), ⟨ix, i, r, seg, ld.handle, segmentAddress ld r seg, segmentBeats ld seg⟩) := by
  obtain ⟨ld, r, seg, ⟨hl, hr, hrun, hfill, hdue⟩, hn, rfl⟩ := State.candidate_iff.1 h
  obtain ⟨⟨hlt, hnew⟩, -⟩ := (Half.nextSegment_iff _ _ _).1 hn
  exact ⟨ld, r, seg, ⟨hrun, hfill, hl, hr, hlt, hnew, hdue⟩, rfl⟩

/-- A pick is made exactly under R114's conditions. -/
theorem exec_fetchPick_ready {s : State} {k : TagIx} {b : Int × Pick} (ho : s.raster.output = .live)
    (hdue : RasterEvent.frameTurn ∉ s.raster.due) (hc : s.mem.channel = none) (hk : s.lowestFreeTag = some k)
    (hb : s.bestCandidate = some b) : exec .fetchPick s = .next (s.offer k b.2) := by
  have ht : s.turnReached = false := by simpa [State.turnReached] using hdue
  show execFetchPick s = _
  unfold execFetchPick
  rw [if_pos ⟨ho, hc, ht⟩, hk, hb]

/-- The beats of a segment of a row: one to sixteen. -/
theorem segmentBeats_bounds {ld : StreamLoad} {seg : Nat} (h : seg < segmentsPerHalf ld.format ld.width) :
    1 ≤ segmentBeats ld seg ∧ segmentBeats ld seg ≤ 16 := by
  unfold segmentsPerHalf at h
  unfold segmentBeats lineBytesRounded Config.segmentBytes
  omega

theorem Offer.beatField_toNat {o : Offer} (h1 : 1 ≤ o.beats) (h2 : o.beats ≤ 16) : o.beatField.toNat = o.beats - 1 := by
  unfold Offer.beatField
  rw [BitVec.toNat_ofNat]
  omega

/-- Settles O46: the pick of the best candidate, and the conditions of R114 without which there is none. -/
theorem fetchPicked : Obligations.FetchPicked := by
  refine fun s => ⟨fun hno => ?_, fun k ho hdue hc hfree hlow hcand => ?_⟩
  · show execFetchPick s = _
    unfold execFetchPick
    split_ifs with hready
    · obtain ⟨ho, hc, ht⟩ := hready
      split
      · next k d pick hk hb =>
        obtain hn | hn | hn | hn | hn := hno
        · exact absurd ho hn
        · simp [State.turnReached, hn] at ht
        · exact absurd hc hn
        · exact absurd (State.lowestFreeTag_iff.1 hk).1 (hn k)
        · obtain ⟨hb', -⟩ | ⟨b, ix, i, -, hb', -⟩ := s.bestCandidate_cases
          · rw [hb'] at hb
            cases hb
          · obtain ⟨ld, r, seg, h, -⟩ := State.isCandidate_of_candidate hb'
            exact absurd h (hn _ _ _ _ _)
      · rfl
    · rfl
  · obtain ⟨jx, j, ld₀, r₀, seg₀, hcand⟩ := hcand
    obtain ⟨low₀, -, hlow₀⟩ := State.candidate_of_isCandidate hcand
    obtain ⟨-, hnone⟩ | ⟨b, ix, i, hb, hbest, hmin⟩ := s.bestCandidate_cases
    · rw [hnone] at hlow₀
      cases hlow₀
    · obtain ⟨ld, r, seg, h, rfl⟩ := State.isCandidate_of_candidate hbest
      refine ⟨ix, i, ld, r, seg, h, fun ix' i' ld' r' seg' h' => ?_, ?_⟩
      · obtain ⟨low', hle, hlow'⟩ := State.candidate_of_isCandidate h'
        obtain hlt | ⟨heq, hix⟩ := hmin ix' i' _ hlow'
        · exact .inl hlt
        · refine .inr ⟨heq, ?_⟩
          obtain hix | rfl := lt_or_eq_of_le hix
          · exact .inl hix
          · refine .inr ⟨rfl, ?_⟩
            by_cases hi : i = i'
            · subst hi
              have hseg : seg = low' := congrArg (·.2.segment) (Option.some.inj (hbest.symm.trans hlow'))
              exact .inr (hseg ▸ hle)
            · exact .inl hi
      · intro length offer
        obtain ⟨-, -, -, -, hlt, -, -⟩ := h
        obtain ⟨h1, h2⟩ := segmentBeats_bounds hlt
        refine ⟨_, exec_fetchPick_ready ho hdue hc (State.lowestFreeTag_iff.2 ⟨hfree, hlow⟩) hb, ?_, rfl, ?_, rfl⟩
        · rw [State.mrqValid, hc]
          rfl
        · have hfield := Offer.beatField_toNat (o := offer) h1 h2
          have h1' : 1 ≤ length / 16 := h1
          show offer.beatField.toNat + 1 = length / 16
          rw [hfield]
          show length / 16 - 1 + 1 = length / 16
          omega

/-! ### The request channel (R126, R127) -/

/-- The rows that take no offer: a state's channel is that of another. -/
def State.sameChannel (s t : State) : Prop := t.mem.channel = s.mem.channel

theorem State.sameChannel_of_mem {s t : State} (h : t.mem = s.mem) : s.sameChannel t := by rw [State.sameChannel, h]

theorem Applied.sameChannel {s t : State} {stops clears : SlotIx → Prop} (h : Applied s t stops clears) :
    s.sameChannel t := by rw [State.sameChannel, h.mem]

theorem State.sameChannel_failHalf (s : State) (e : TagEntry) : s.sameChannel (s.failHalf e) := by
  rw [State.sameChannel, State.failHalf_mem]

theorem State.sameChannel_quarantine (s : State) (k : TagIx) (e : TagEntry) : s.sameChannel (s.quarantine k e) := by
  have hstuck : ∀ u : State, u.sameChannel u.checkStuck := fun u => by
    obtain ⟨-, h⟩ | ⟨-, h⟩ := u.checkStuck_cases <;> rw [State.sameChannel, h]
    rw [State.postFetchStuck_mem]
  refine (hstuck _).trans ?_
  split
  · rfl
  · rw [State.failTimedOut_mem]
    exact State.sameChannel_failHalf _ e

theorem State.sameChannel_lineStart (s : State) : s.sameChannel s.lineStartAct :=
  State.lineStartAct_keeps (P := s.sameChannel) rfl fun u k hu => by
    obtain ⟨e, -, -, h⟩ | ⟨-, h⟩ := u.timeoutTag_cases k <;> rw [h]
    · exact (State.sameChannel_quarantine u k e).trans hu
    · exact hu

theorem State.sameChannel_takeTurn (s : State) (turn : PendingTurn) : s.sameChannel (s.takeTurn turn) := by
  obtain ⟨-, h⟩ | ⟨-, h⟩ := s.takeTurn_cases turn <;> rw [h]
  · rfl
  · have happly : s.sameChannel ({ s with turn := none } : State).applyQueue.1 := (State.applyQueue_applied _).sameChannel
    have hpost := (State.sameChannel_of_mem (State.postTurn_mem _ turn)).trans happly
    unfold State.closeTurn
    split <;> exact hpost

theorem State.sameChannel_suspend (s : State) (r : Handle) : s.sameChannel (s.suspend r) := by
  obtain h | ⟨ix, o, w, -, -, -, h⟩ := s.suspend_cases r <;> rw [h]
  · rfl
  · exact congrArg (·.channel) (State.postSuspended_mem _ _ _ _)

theorem State.takeEvent_sameChannel {e : RasterEvent} {s t : State} (h : s.takeEvent e = .next t) : s.sameChannel t := by
  cases e with
  | lineStart l => rw [next_inj h]; exact State.sameChannel_lineStart (s.tookEvent _)
  | frameTurn => rw [next_inj h]; exact State.sameChannel_of_mem (by simp)
  | activeLineStart l => rw [(State.drive_next h).2]; exact State.sameChannel_of_mem (by simp)
  | activeLineEnd l => rw [next_inj h]; rfl
  | activeEnd => rw [next_inj h]; exact State.sameChannel_of_mem (by simp)

theorem State.takeEvents_sameChannel {es : List RasterEvent} {s t : State} (h : State.takeEvents es s = .next t) :
    s.sameChannel t := by
  induction es generalizing s with
  | nil => rw [next_inj h]; rfl
  | cons e es ih =>
    unfold State.takeEvents at h
    split at h
    · exact (ih h).trans (State.takeEvent_sameChannel ‹_›)
    · cases h
    · cases h

theorem State.matchTag_sameChannel {s t : State} {k : TagIx} {error : Bool} {beats : List Beat}
    (h : s.matchTag k error beats = .next t) : s.sameChannel t := by
  obtain ⟨-, rfl⟩ | rfl | ⟨e, -, -, ⟨-, hd⟩ | ⟨-, rfl⟩⟩ := State.matchTag_next h
  · exact State.sameChannel_of_mem (by simp)
  · rfl
  · obtain rfl | ⟨ix, seg, ld, -, -, -, -, rfl⟩ := State.deliver_next hd <;> rfl
  · rw [State.sameChannel, State.deliverError_mem]
    exact State.sameChannel_failHalf (s.freeTag k) e

theorem CommandAct.sameChannel {p : Port} {u v : State} (h : CommandAct p u v) : u.sameChannel v := by
  cases h with
  | committed h =>
    have he : u.sameChannel (u.enqueue p) := State.sameChannel_of_mem (by simp)
    simp only [State.acceptCommit]
    split
    · exact (State.applyQueue_applied _).sameChannel.trans he
    · exact he
  | stopped ho =>
    refine (State.sameChannel_of_mem (s := u.enterOff.applyQueue.1.streamsOff) (by simp [State.stopOutput])).trans ?_
    exact (State.applyQueue_applied u.enterOff).sameChannel
  | timeoutSet n h1 h2 => rfl
  | fetchReset => rfl
  | _ => exact State.sameChannel_of_mem (by simp)

/-- The channel after a row that takes no command and is no frame. -/
theorem exec_event_channel {i : Instr} {s t : State} {o : Offer} (hi : i.command? = none) (hm : i.moment? = none)
    (h : exec i s = .next t) (ho : s.mem.channel = some o) (haccept : i ≠ .requestAccept) (hreset : i ≠ .deviceReset) :
    t.mem.channel = some o := by
  suffices hsame : s.sameChannel t from Eq.trans hsame ho
  have same : ∀ {v : State}, v.mem = s.mem → s.sameChannel v := State.sameChannel_of_mem
  cases i <;> simp only [Instr.command?, Instr.moment?, reduceCtorEq] at hi hm <;> simp only [exec] at h
  case deviceReset => exact absurd rfl hreset
  case requestAccept => exact absurd rfl haccept
  case unknownCommandCode p =>
    obtain e | ⟨c, r, -, -, e, -⟩ := execUnknownCommandCode_cases h <;> rw [e]
    exacts [rfl, same (by simp)]
  case frameTurn => obtain e | ⟨-, e⟩ := execFrameTurn_cases h <;> rw [e] <;> rfl
  case frameTurnTaken =>
    obtain e | ⟨turn, -, -, e⟩ := execFrameTurnTaken_cases h <;> rw [e]
    exacts [rfl, State.sameChannel_takeTurn s turn]
  case suspensionRequestTaken =>
    obtain e | ⟨r, rs, -, -, e⟩ := execSuspensionRequestTaken_cases h <;> rw [e]
    exacts [rfl, State.sameChannel_suspend s.dropRequest r]
  case linkResetAbandon p =>
    obtain e | ⟨-, e⟩ := execLinkResetAbandon_cases h <;> rw [e]
    exacts [rfl, same (by simp)]
  case lineStart =>
    obtain e | ⟨l, -, e⟩ := execLineStart_cases h <;> rw [e]
    exacts [rfl, State.sameChannel_lineStart (s.tookEvent _)]
  case tagTimeout k =>
    obtain e | ⟨l, w, -, -, -, e⟩ := execTagTimeout_cases h <;> rw [e]
    exacts [rfl, State.sameChannel_quarantine s k _]
  case activeLineStart => obtain e | ⟨l, -, e⟩ := execActiveLineStart_cases h <;> rw [e] <;> rfl
  case activeLineEnd => obtain e | ⟨l, -, e⟩ := execActiveLineEnd_cases h <;> rw [e] <;> rfl
  case activeEnd =>
    obtain e | ⟨-, e⟩ := execActiveEnd_cases h <;> rw [e]
    exacts [rfl, same (by simp)]
  case fetchPick =>
    obtain e | ⟨k, d, pick, -, hc, -, -, -⟩ := execFetchPick_cases h
    · rw [e]
      rfl
    · rw [hc] at ho
      cases ho
  case completion =>
    obtain ⟨held, e⟩ | ⟨k, error, all, hmatch⟩ := execCompletion_cases h
    · rw [e]
      rfl
    · exact (State.matchTag_sameChannel hmatch).trans rfl
  case pclkRisingEdge =>
    obtain ⟨-, e⟩ | ⟨u, -, hu, e⟩ := execPclkRisingEdge_cases h <;> rw [e]
    · rfl
    · refine (State.sameChannel_of_mem (s := u) ?_).trans (State.takeEvents_sameChannel hu)
      exact State.reached_mem u

/-- No row but an acceptance and device reset withdraws or changes an offer that stands (R126). -/
theorem exec_channel {i : Instr} {s t : State} {o : Offer} (h : exec i s = .next t) (ho : s.mem.channel = some o)
    (haccept : i ≠ .requestAccept) (hreset : i ≠ .deviceReset) : t.mem.channel = some o := by
  cases hm : i.moment? with
  | some m =>
    obtain ⟨p, l, u, rfl, rfl | ⟨rfl, -⟩⟩ := exec_frame hm h <;> simpa using ho
  | none =>
    cases hi : i.command? with
    | none => exact exec_event_channel hi hm h ho haccept hreset
    | some pc =>
      obtain e | ⟨c, v, r, -, -, ha, e⟩ := exec_command (p := pc.1) (code := pc.2) hi h <;> rw [e]
      · exact ho
      · rw [State.respond_mem, ha.sameChannel, State.takeHead_mem, ho]

/-- Settles O47: the pins of an offer, its acceptance, and that it stands until then. -/
theorem requestAccepted : Obligations.RequestAccepted := by
  refine ⟨fun i s t o ho h haccept hreset => exec_channel h ho haccept hreset, fun o h1 h2 => Offer.beatField_toNat h1 h2,
    fun s => ⟨?_, fun hc => ?_, fun o ho => ?_⟩⟩
  · rw [State.mrqValid, Option.isSome_iff_exists]
  · show execRequestAccept s = _
    unfold execRequestAccept
    rw [hc]
  · have hex : exec .requestAccept s = _ := show execRequestAccept s = _ by
      unfold execRequestAccept
      rw [ho]
    dsimp only at hex
    split_ifs at hex with he
    · refine ⟨_, hex, rfl, fun k => ?_, _, rfl⟩
      rw [State.setTag_get]
      by_cases hk : o.tag = k
      · subst hk
        rw [if_pos rfl, if_pos ⟨rfl, he⟩]
        cases s.mem.tags[o.tag] <;> rfl
      · rw [if_neg hk, if_neg fun h => hk h.1.symm]
    · exact ⟨_, hex, rfl, fun k => by rw [if_neg fun h => he h.2], _, rfl⟩

/-! ### Completions (R129, R130, R169) -/

/-- Beats without the last one are held. -/
theorem exec_completion_held {s : State} {beats : List Beat} (hwf : Instr.wf (.completion beats) = true)
    (hr : s.rstAsserted = false) (hlast : ∀ b ∈ beats, b.last = false) :
    exec (.completion beats) s = .next { s with mem := { s.mem with beats := s.mem.beats ++ beats } } := by
  have hany : ¬ (beats.any (·.last)) = true := by simpa using hlast
  show execCompletion beats s = _
  rw [execCompletion, if_pos hwf, if_neg (by rw [hr]; exact Bool.false_ne_true), State.arrive]
  exact if_neg hany

/-- The beats with the last one are taken as one completion, by the tag, epoch and status of the first. -/
theorem exec_completion_taken {s : State} {beats rest : List Beat} {b : Beat} (hwf : Instr.wf (.completion beats) = true)
    (hr : s.rstAsserted = false) (hall : s.mem.beats ++ beats = b :: rest) (hlast : ∃ x ∈ beats, x.last = true) :
    exec (.completion beats) s = if b.epoch = s.mem.epoch
      then ({ s with mem := { s.mem with beats := [] } } : State).matchTag b.tag.toFin b.error (b :: rest)
      else .next { s with mem := { s.mem with beats := [] } } := by
  have hany : (beats.any (·.last)) = true := List.any_eq_true.2 hlast
  show execCompletion beats s = _
  rw [execCompletion, if_pos hwf, if_neg (by rw [hr]; exact Bool.false_ne_true), State.arrive]
  dsimp only
  rw [if_pos hany, hall]
  rfl

/-- A completion for a tag that is QUARANTINED or marked frees it. -/
theorem State.matchTag_drops {s : State} {k : TagIx} {error : Bool} {beats : List Beat}
    (h : (s.mem.tags[k]).isQuarantined = true ∨ ∃ e, s.mem.tags[k] = .waiting e ∧ e.discard = true) :
    s.matchTag k error beats = .next (s.freeTag k) := by
  unfold State.matchTag
  obtain h | ⟨e, h, hd⟩ := h
  · cases hk : s.mem.tags[k] with
    | quarantined e => rfl
    | free => rw [hk] at h; cases h
    | waiting e => rw [hk] at h; cases h
  · rw [h]
    exact if_pos hd

/-- Settles O48: a completion by what stands before it and by the tag it names. -/
theorem completionsDropped : Obligations.CompletionsDropped := by
  intro s beats hwf s'
  refine ⟨fun hr => ?_, fun hr => ⟨exec_completion_held hwf hr, fun b rest hall hlast => ?_⟩⟩
  · show execCompletion beats s = _
    rw [execCompletion, if_pos hwf, if_pos hr]
  · rw [exec_completion_taken hwf hr hall hlast]
    refine ⟨fun he => if_neg he, fun he hfree => ?_, fun he hdrop => ?_⟩
    · rw [if_pos he, State.matchTag]
      show (match s.mem.tags[b.tag.toFin] with
        | .free => _
        | .quarantined _ => _
        | .waiting e => _) = _
      rw [hfree]
      rfl
    · rw [if_pos he]
      exact State.matchTag_drops hdrop

/-- A completion for an unmarked WAITING tag is delivered, or taken as in error. -/
theorem State.matchTag_waiting {s : State} {k : TagIx} {e : TagEntry} {error : Bool} {beats : List Beat}
    (hk : s.mem.tags[k] = .waiting e) (hd : e.discard = false) : s.matchTag k error beats =
      if e.takesOk error beats.length then (s.freeTag k).deliver e beats else .next ((s.freeTag k).deliverError e) := by
  unfold State.matchTag
  rw [hk]
  dsimp only
  rw [if_neg (by rw [hd]; exact Bool.false_ne_true)]

theorem TagEntry.sameRow_iff {e e' : TagEntry} : e'.sameRow e = true ↔ e'.sameHalf e := by
  simp only [TagEntry.sameRow, Bool.and_eq_true, beq_iff_eq, and_assoc]

/-- The mark that a failed half leaves on a WAITING tag. -/
theorem Tag.mark_sameRow (e e' : TagEntry) : (Tag.waiting e').mark (·.sameRow e) =
    .waiting (if e'.sameHalf e then { e' with discard := true } else e') := by
  show (if e'.sameRow e = true then Tag.waiting _ else Tag.waiting e') = _
  by_cases h : e'.sameHalf e
  · rw [if_pos h, if_pos (TagEntry.sameRow_iff.2 h)]
  · rw [if_neg h, if_neg fun hs => h (TagEntry.sameRow_iff.1 hs)]

/-- The streams after the half of a read fails (R118, R119). -/
theorem State.failHalf_filling {s : State} {e : TagEntry} {ix : SlotIx} (hx : e.handle.ix? = some ix)
    (hrow : (s.streams[ix].half e.half).row = some e.row) (hc : (s.streams[ix].half e.half).cond = .filling) :
    (s.failHalf e).streams =
      s.streams.set ix (s.streams[ix].setHalf e.half { s.streams[ix].half e.half with cond := .failed }) := by
  unfold State.failHalf
  rw [State.markTags_streams, hx]
  show s.streams.set ix _ = _
  rw [Half.fail_of hrow hc]

/-- An error delivered posts FETCH_FAULT to the owner of the stream (R118). -/
theorem State.deliverError_owner {s : State} {e : TagEntry} {ix : SlotIx} {ld : StreamLoad} (hx : e.handle.ix? = some ix)
    (hl : s.streams[ix].load = some ld) (hown : ld.handle.ix? = some ix) :
    s.deliverError e = (s.failHalf e).post ld.owner fun n =>
      { n with fetchFault := n.fetchFault.set ix (some (ld.handle.gen, .error)) } := by
  have hload : s.loadOf e = some ld := by
    unfold State.loadOf
    rw [hx]
    exact hl
  unfold State.deliverError
  rw [hload]
  dsimp only
  rw [State.postFetchFault, hown]

/-- Settles O49: the tag is freed, its half fails, and the owner is told. -/
theorem completionFails : Obligations.CompletionFails := by
  intro s beats b rest e ix ld hr hwf hall hlast hepoch hk hd herr hx hl hown hrow hc
  have hok : e.takesOk b.error (b :: rest).length = false := by
    unfold TagEntry.takesOk
    obtain h | h | h := herr
    · rw [h]; rfl
    · rw [beq_false_of_ne h, Bool.and_false]; rfl
    · rw [h, Bool.and_false]
  let u : State := ({ s with mem := { s.mem with beats := [] } } : State).freeTag b.tag.toFin
  have hex : exec (.completion beats) s = .next (u.deliverError e) := by
    rw [exec_completion_taken hwf hr hall hlast, if_pos hepoch]
    refine (State.matchTag_waiting (s := { s with mem := { s.mem with beats := [] } }) hk hd).trans ?_
    rw [hok]
    rfl
  have hmem : (u.deliverError e).mem = { u.mem with tags := (u.failHalf e).mem.tags } := by
    rw [State.deliverError_mem]
    exact State.failHalf_mem u e
  have htags : ∀ j : TagIx, (u.deliverError e).mem.tags[j] =
      (if b.tag.toFin = j then Tag.free else s.mem.tags[j]).mark (·.sameRow e) := fun j => by
    rw [State.deliverError_mem, State.failHalf_tags_get]
    exact congrArg (Tag.mark _) (State.freeTag_get _ _ _)
  have hlink : ∀ q, (u.failHalf e).link q = s.link q := fun q => by
    rw [State.failHalf_link]
    cases q <;> rfl
  have hpost := State.deliverError_owner (s := u) hx hl hown
  refine ⟨_, hex, ?_, ?_, ?_, ?_, fun j e' hj hj' => ?_, fun j hj => ?_, ?_, ?_, ?_, ?_, ?_, ?_⟩
  · rw [htags, if_pos rfl]; rfl
  · rw [hmem]; rfl
  · rw [hmem]; rfl
  · rw [State.deliverError_streams]
    exact State.failHalf_filling (s := u) hx hrow hc
  · rw [htags, if_neg (Ne.symm hj), hj', Tag.mark_sameRow]
  · rw [htags]
    split
    · next h =>
      subst h
      rw [hk] at hj
      cases hj <;> contradiction
    · cases hj' : s.mem.tags[j] with
      | free => rfl
      | quarantined e' => rfl
      | waiting e' => rw [hj'] at hj; cases hj <;> contradiction
  · rw [hpost, State.post_link, hlink]
  · have hne : otherPort ld.owner ≠ ld.owner := by cases ld.owner <;> decide
    rw [hpost, State.post_link_if, if_neg hne, hlink]
  · rw [hmem]; rfl
  · rw [hmem]; rfl
  · rw [hmem]; rfl
  · exact ⟨_, _, _, _, State.deliverError_frame u e⟩

/-- Byte `k` of beat `j` in the bytes of a completion (R169). -/
theorem dataBytes_get {bs : List Beat} {j k : Nat} {beat : Beat} (hj : bs[j]? = some beat) (hk : k < 16) :
    (dataBytes bs)[16 * j + k]? = some (beat.data.extractLsb' (8 * k) 8) := by
  induction bs generalizing j with
  | nil => cases hj
  | cons b bs ih =>
    have hcons : dataBytes (b :: bs) = beatBytes b.data ++ dataBytes bs := rfl
    rw [hcons]
    cases j with
    | zero =>
      cases hj
      rw [List.getElem?_append_left (by rw [beatBytes_length]; omega), beatBytes]
      simp [hk, beatByte]
    | succ j =>
      rw [List.getElem?_append_right (by rw [beatBytes_length]; omega), beatBytes_length]
      rw [show 16 * (j + 1) + k - 16 = 16 * j + k by omega]
      exact ih hj

/-- Data delivered for the half that is FILLING the row, inside the store. -/
theorem State.deliver_fills {s : State} {e : TagEntry} {beats : List Beat} {ix : SlotIx} {ld : StreamLoad} {place : Nat}
    (hx : e.handle.ix? = some ix) (hl : s.streams[ix].load = some ld)
    (hrow : (s.streams[ix].half e.half).row = some e.row) (hc : (s.streams[ix].half e.half).cond = .filling)
    (hplace : (s.streams[ix].half e.half).place = some place)
    (hin : storeAddress (place + e.segment) 0 + (dataBytes beats).length ≤ storeBytes) : s.deliver e beats =
      .next (({ s with store := Memory.writeBytes s.store (storeAddress (place + e.segment) 0) (dataBytes beats) } :
        State).setStream ix (s.streams[ix].setHalf e.half ((s.streams[ix].half e.half).filledOne ld.segments))) := by
  have hfills : (s.streams[ix].half e.half).fills e.row = true := by
    rw [Half.fills, hrow, hc, beq_self_eq_true, beq_self_eq_true]
    rfl
  unfold State.deliver
  rw [hx]
  dsimp only
  rw [if_pos hfills, hplace, hl]
  dsimp only
  rw [if_pos hin]

/-- Settles O50: the data lies in the store where the tag's segment is, and the half has one segment more. -/
theorem completionDelivers : Obligations.CompletionDelivers := by
  intro s beats b rest e ix ld place hr hstore hwf hall hlast hepoch hk hd hstatus hlen hacc hx hl hrow hc hplace hin h base
  have hbase : storeAddress (place + e.segment) 0 = base := by rw [storeAddress, Nat.add_zero, Config.segmentBytes]
  have hbytes : (dataBytes (b :: rest)).length = 16 * e.beats := by rw [dataBytes_length, hlen]
  have hfits : base + (dataBytes (b :: rest)).length ≤ storeBytes := by
    rw [hbytes]
    exact le_trans hin (le_of_eq (by rw [storeBytes, Config.storeSegments, Config.segmentBytes]))
  have hok : e.takesOk b.error (b :: rest).length = true := by
    rw [TagEntry.takesOk, hstatus, hlen, hacc, beq_self_eq_true]; rfl
  refine ⟨Memory.writeBytes s.store base (dataBytes (b :: rest)), ?_, fun j k beat hj hk16 => ?_, fun a ha => ?_⟩
  · rw [exec_completion_taken hwf hr hall hlast, if_pos hepoch]
    refine (State.matchTag_waiting (s := { s with mem := { s.mem with beats := [] } }) hk hd).trans ?_
    rw [if_pos hok]
    let u : State := ({ s with mem := { s.mem with beats := [] } } : State).freeTag b.tag.toFin
    have hsame : u.store = s.store := rfl
    have hdeliver := State.deliver_fills (s := u) (beats := b :: rest) hx hl hrow hc hplace (by rw [hbase]; exact hfits)
    rw [hdeliver, hbase, hsame]
    generalize Memory.writeBytes s.store base (dataBytes (b :: rest)) = store
    rfl
  · rw [Memory.read_writeBytes hstore, if_pos (Nat.le_add_right _ _), Nat.add_sub_cancel_left, dataBytes_get hj hk16]
  · rw [Memory.read_writeBytes hstore]
    split
    · have hout : (dataBytes (b :: rest)).length ≤ a - base := by
        rw [hbytes]
        omega
      rw [List.getElem?_eq_none hout]
    · rfl

end Sys2Proof.Machine
end

section
/-! PROOF. Reads that time out (R119, R133, R135), the end of an active line (R112) and the end of the active area
(R120, R121). -/

namespace Sys2Proof.Machine

/-! ### A tag quarantined (R133, R135) -/

/-- The FETCH_FAULT notices a port has after a read with this entry timed out: an unmarked one posts its handle to the
owner of its stream. -/
def State.timeoutFaults (s : State) (e : TagEntry) (p : Port) : Vector (Option (Nibble × FaultCause)) 15 :=
  match s.loadOf e, e.handle.ix? with
  | some ld, some ix => if e.discard = false ∧ ld.owner = p
      then (s.link p).notices.fetchFault.set ix (some (e.handle.gen, .timeout)) else (s.link p).notices.fetchFault
  | _, _ => (s.link p).notices.fetchFault

theorem State.timeoutFaults_marked {s : State} {e : TagEntry} (hd : e.discard = true) (p : Port) :
    s.timeoutFaults e p = (s.link p).notices.fetchFault := by
  unfold State.timeoutFaults
  split
  · exact if_neg fun h => by rw [hd] at h; cases h.1
  · rfl

theorem State.loadOf_eq {s : State} {e : TagEntry} {ix : SlotIx} (hx : e.handle.ix? = some ix) :
    s.loadOf e = s.streams[ix].load := by
  unfold State.loadOf
  rw [hx]

theorem State.timeoutFaults_unmarked {s : State} {e : TagEntry} {ix : SlotIx} {ld : StreamLoad} (hd : e.discard = false)
    (hx : e.handle.ix? = some ix) (hl : s.streams[ix].load = some ld) (p : Port) :
    s.timeoutFaults e p = if ld.owner = p
      then (s.link p).notices.fetchFault.set ix (some (e.handle.gen, .timeout)) else (s.link p).notices.fetchFault := by
  unfold State.timeoutFaults
  rw [State.loadOf_eq hx, hl, hx]
  simp only [hd, true_and]

/-- All eight tags are QUARANTINED, as a truth value. -/
def MemPort.stuckNow (m : MemPort) : Bool := allTags.all fun t => (m.tags[t]).isQuarantined

theorem MemPort.stuckNow_iff (m : MemPort) : m.stuckNow = true ↔ m.allQuarantined := m.all_iff

theorem State.failTimedOut_link (s : State) (e : TagEntry) (p : Port) (hd : e.discard = false) : (s.failTimedOut e).link p =
    { s.link p with notices := { (s.link p).notices with fetchFault := s.timeoutFaults e p } } := by
  unfold State.failTimedOut State.timeoutFaults
  cases hx : e.handle.ix? with
  | none =>
    have hl : s.loadOf e = none := by
      unfold State.loadOf
      rw [hx]
    rw [hl]
    exact State.failHalf_link ..
  | some ix =>
    cases s.loadOf e with
    | none => exact State.failHalf_link ..
    | some ld =>
      simp only [State.postFetchFault, hx, hd, true_and]
      rw [State.post_link_if, State.failHalf_link]
      by_cases hp : p = ld.owner
      · rw [if_pos hp, if_pos hp.symm]
      · rw [if_neg hp, if_neg (Ne.symm hp)]

theorem State.postFetchStuck_link (s : State) (p : Port) : s.postFetchStuck.link p =
    { s.link p with notices := { (s.link p).notices with fetchStuck := true } } := by
  cases p <;> rfl

theorem State.checkStuck_mem (s : State) : s.checkStuck.mem =
    { s.mem with fetchState := if s.mem.stuckNow then .stuck else s.mem.fetchState } := by
  obtain ⟨h, e⟩ | ⟨h, e⟩ := s.checkStuck_cases <;> rw [e]
  · rw [State.postFetchStuck_mem, if_pos ((MemPort.stuckNow_iff _).2 h)]
  · rw [if_neg fun h' => h ((MemPort.stuckNow_iff _).1 h')]

theorem State.checkStuck_link (s : State) (p : Port) : s.checkStuck.link p =
    { s.link p with notices := { (s.link p).notices with fetchStuck := s.mem.stuckNow || (s.link p).notices.fetchStuck } } := by
  obtain ⟨h, e⟩ | ⟨h, e⟩ := s.checkStuck_cases <;> rw [e]
  · rw [State.postFetchStuck_link, (MemPort.stuckNow_iff _).2 h]
    cases p <;> rfl
  · rw [Bool.eq_false_iff.2 fun h' => h ((MemPort.stuckNow_iff _).1 h')]
    rfl

/-- A tag quarantined, before the fetch state is looked at. -/
def State.quarantined (s : State) (k : TagIx) (e : TagEntry) : State :=
  if e.discard then s.setTag k (.quarantined e) else (s.setTag k (.quarantined e)).failTimedOut e

theorem State.quarantine_eq (s : State) (k : TagIx) (e : TagEntry) : s.quarantine k e = (s.quarantined k e).checkStuck := rfl

theorem State.quarantined_stuckNow (s : State) (k : TagIx) (e : TagEntry) :
    (s.quarantined k e).mem.stuckNow = (s.quarantine k e).mem.stuckNow := by
  rw [State.quarantine_eq, State.checkStuck_mem]
  rfl

/-- What a timeout leaves of the memory port. -/
theorem State.quarantine_mem (s : State) (k : TagIx) (e : TagEntry) : (s.quarantine k e).mem = { s.mem with
    tags := (s.quarantine k e).mem.tags
    fetchState := if (s.quarantine k e).mem.stuckNow then .stuck else s.mem.fetchState } := by
  have hmem : (s.quarantined k e).mem = { s.mem with tags := (s.quarantine k e).mem.tags } := by
    rw [State.quarantine_eq, State.checkStuck_tags, State.quarantined]
    split
    · rfl
    · rw [State.failTimedOut_mem, State.failHalf_mem]
      rfl
  rw [← State.quarantined_stuckNow]
  conv_lhs => rw [State.quarantine_eq, State.checkStuck_mem, hmem]
  rw [hmem]

/-- What a timeout leaves of the ports. -/
theorem State.quarantine_link (s : State) (k : TagIx) (e : TagEntry) (p : Port) : (s.quarantine k e).link p =
    { s.link p with notices := { (s.link p).notices with
      fetchFault := s.timeoutFaults e p
      fetchStuck := (s.quarantine k e).mem.stuckNow || (s.link p).notices.fetchStuck } } := by
  have hlink : (s.quarantined k e).link p =
      { s.link p with notices := { (s.link p).notices with fetchFault := s.timeoutFaults e p } } := by
    unfold State.quarantined
    split
    · next hd => rw [State.timeoutFaults_marked hd]; cases p <;> rfl
    · next hd =>
      rw [State.failTimedOut_link _ _ _ (Bool.eq_false_iff.2 hd)]
      cases p <;> rfl
  rw [← State.quarantined_stuckNow]
  conv_lhs => rw [State.quarantine_eq, State.checkStuck_link, hlink]

theorem exec_tagTimeout_due {s : State} {l : Nat} {k : TagIx} {e : TagEntry}
    (hl : s.raster.due.head? = some (.lineStart l)) (hk : s.mem.tags[k] = .waiting e) (ht : s.timesOut e) :
    exec (.tagTimeout k) s = .next (s.quarantine k { e with age := agedBy e.age }) := by
  show execTagTimeout k s = _
  unfold execTagTimeout State.nextEvent
  rw [hl, hk]
  exact if_pos ht

/-- Settles O42: one tag's part of a line start. -/
theorem tagTimesOut : Obligations.TagTimesOut := by
  intro s l k e hl hk ht
  have htags := s.quarantine_tags k { e with age := agedBy e.age }
  refine ⟨_, (s.quarantine k { e with age := agedBy e.age }).mem.stuckNow, exec_tagTimeout_due hl hk ht, ?_, ?_,
    fun j hj => ?_, fun hd => ?_, fun ix ld hd hx hload hrow hc => ?_, fun p => ⟨_, State.quarantine_link _ _ _ p,
      fun hd => State.timeoutFaults_marked hd p, fun ix ld hd hx hload => State.timeoutFaults_unmarked hd hx hload p⟩, ?_⟩
  · rw [MemPort.stuckNow_iff]
    refine forall_congr' fun j => ?_
    rw [htags]
    split_ifs with hkj hd
    · exact iff_of_true rfl (.inl hkj.symm)
    · exact ⟨.inr, fun h => h.resolve_left fun h => hkj h.symm⟩
    · rw [Tag.mark_isQuarantined]
      exact ⟨.inr, fun h => h.resolve_left fun h => hkj h.symm⟩
  · rw [htags, if_pos rfl]
    rfl
  · rw [htags, if_neg (Ne.symm hj)]
    cases hjk : s.mem.tags[j] with
    | free => dsimp only; split <;> rfl
    | quarantined e' => dsimp only; split <;> rfl
    | waiting e' =>
      dsimp only
      by_cases hd : e.discard = true
      · rw [if_pos hd, if_neg fun h => by rw [hd] at h; cases h.1]
      · rw [if_neg hd, Tag.mark_sameRow]
        simp only [Bool.eq_false_iff.2 hd, true_and]
  · rw [State.quarantine_streams]
    exact if_pos hd
  · rw [State.quarantine_streams]
    refine (if_neg (by rw [show ({ e with age := agedBy e.age } : TagEntry).discard = _ from hd]; exact Bool.false_ne_true)).trans ?_
    exact State.failHalf_filling (e := { e with age := agedBy e.age }) hx hrow hc
  · refine ⟨(s.quarantine k { e with age := agedBy e.age }).streams, (s.quarantine k { e with age := agedBy e.age }).linkA,
      (s.quarantine k { e with age := agedBy e.age }).linkB, (s.quarantine k { e with age := agedBy e.age }).mem.tags, ?_⟩
    rw [← State.quarantine_mem, ← State.quarantine_frame]

/-! ### The end of an active line (R112) -/

/-- The row of a stream on an active line (R111). -/
theorem Stream.rowOn_iff {st : Stream} {l r : Nat} : st.rowOn l = some r ↔
    st.loaded = true ∧ (∃ ld, st.load = some ld ∧ (l : Int) = ld.y + (r : Int)) ∧ rowVisible st.visible r = true := by
  unfold Stream.rowOn
  cases hl : st.load with
  | none => simp
  | some ld =>
    dsimp only
    constructor
    · intro h
      split at h
      · next hc =>
        cases h
        simp only [Bool.and_eq_true, decide_eq_true_eq] at hc
        obtain ⟨⟨hl', h0⟩, hv⟩ := hc
        exact ⟨hl', ⟨ld, rfl, by omega⟩, hv⟩
      · cases h
    · rintro ⟨hl', ⟨ld', he, hr⟩, hv⟩
      cases he
      have hto : ((l : Int) - ld.y).toNat = r := by omega
      rw [hto, hl', hv, decide_eq_true (by omega), if_pos (by decide)]

/-- The half that holds a row, half A where both do. -/
theorem Stream.holding_iff {st : Stream} {r : Nat} {i : HalfId} : st.holding r = some i ↔
    (st.half i).row = some r ∧ (i = .b → st.halfA.row ≠ some r) := by
  unfold Stream.holding
  by_cases ha : st.halfA.row = some r
  · rw [if_pos ha]
    cases i with
    | a => exact iff_of_true rfl ⟨ha, nofun⟩
    | b => exact iff_of_false nofun fun h => h.2 rfl ha
  · rw [if_neg ha]
    cases i with
    | a => exact iff_of_false (by split <;> nofun) fun h => ha h.1
    | b =>
      by_cases hb : st.halfB.row = some r
      · rw [if_pos hb]
        exact iff_of_true rfl ⟨hb, fun _ => ha⟩
      · rw [if_neg hb]
        exact iff_of_false nofun fun h => hb h.1

theorem Stream.releasedHalf_iff {st : Stream} {l r : Nat} {i : HalfId} : st.releasedHalf l = some (i, r) ↔
    st.loaded = true ∧ (∃ ld, st.load = some ld ∧ (l : Int) = ld.y + (r : Int)) ∧ rowVisible st.visible r = true ∧
      (st.half i).row = some r ∧ (i = .b → st.halfA.row ≠ some r) := by
  have h : st.releasedHalf l = some (i, r) ↔ st.rowOn l = some r ∧ st.holding r = some i := by
    unfold Stream.releasedHalf
    cases st.rowOn l with
    | none => simp
    | some r' =>
      simp only [Option.map_eq_some_iff, Prod.mk.injEq, Option.some.injEq]
      constructor
      · rintro ⟨j, hj, rfl, rfl⟩
        exact ⟨rfl, hj⟩
      · rintro ⟨rfl, hj⟩
        exact ⟨i, hj, rfl, rfl⟩
  rw [h, Stream.rowOn_iff, Stream.holding_iff]
  tauto

/-- The event at the front of those due leaves the front. -/
theorem Raster.took_head {r : Raster} {e : RasterEvent} (h : r.due.head? = some e) : r.took e = { r with due := r.due.tail } := by
  unfold Raster.took
  cases hd : r.due with
  | nil => rw [hd] at h; cases h
  | cons x xs =>
    rw [hd] at h
    cases h
    rw [List.erase_cons_head]
    rfl

theorem State.tookEvent_head {s : State} {e : RasterEvent} (h : s.raster.due.head? = some e) :
    s.tookEvent e = { s with raster := { s.raster with due := s.raster.due.tail } } := by
  rw [State.tookEvent, Raster.took_head h]

/-- The half released takes the row two below where the stream is RUNNING and that row is visible, else it is emptied. -/
theorem Stream.lineEnded_released {st : Stream} {l r : Nat} {i : HalfId} (h : st.releasedHalf l = some (i, r)) :
    st.lineEnded l = st.setHalf i (if st.cond = .running ∧ rowVisible st.visible (r + 2) = true
      then ⟨some (r + 2), .filling, 0, [], (st.half i).place⟩ else ⟨none, .empty, 0, [], (st.half i).place⟩) := by
  unfold Stream.lineEnded
  rw [h]
  dsimp only
  split <;> rfl

theorem State.releasesTag_iff {s : State} {l : Nat} {e : TagEntry} : s.releasesTag l e = true ↔
    ∃ ix, e.handle.ix? = some ix ∧ s.streams[ix].releasedHalf l = some (e.half, e.row) := by
  unfold State.releasesTag
  cases e.handle.ix? <;> simp [-Fin.getElem_fin]

/-- Settles O44: every stream by the half it releases, every tag by the half and row it was read for. -/
theorem activeLineEndReleases : Obligations.ActiveLineEndReleases := by
  intro s l hl releases
  have hreleases : ∀ ix i r, releases ix i r ↔ s.streams[ix].releasedHalf l = some (i, r) := fun ix i r =>
    Stream.releasedHalf_iff.symm
  have hex : exec .activeLineEnd s = .next ((s.tookEvent (.activeLineEnd l)).activeLineEndAct l) := by
    show execActiveLineEnd s = _
    unfold execActiveLineEnd State.nextEvent
    rw [hl]
    rfl
  have hget : ∀ ix : SlotIx, ((s.tookEvent (.activeLineEnd l)).activeLineEndAct l).streams[ix] = s.streams[ix].lineEnded l :=
    (s.tookEvent (.activeLineEnd l)).activeLineEndAct_get l
  have htags : ∀ k : TagIx, ((s.tookEvent (.activeLineEnd l)).activeLineEndAct l).mem.tags[k] =
      (s.mem.tags[k]).mark (s.releasesTag l) := (s.tookEvent (.activeLineEnd l)).activeLineEndAct_tags l
  refine ⟨_, hex, fun ix i r h => ?_, fun ix h => ?_, fun k => ?_,
    ((s.tookEvent (.activeLineEnd l)).activeLineEndAct l).streams,
    ((s.tookEvent (.activeLineEnd l)).activeLineEndAct l).mem.tags, ?_⟩
  · rw [hget]
    exact Stream.lineEnded_released ((hreleases ix i r).1 h)
  · rw [hget]
    obtain ⟨-, hn⟩ | ⟨i, r, o, hr, -⟩ := s.streams[ix].lineEnded_cases l
    · exact hn
    · exact absurd ((hreleases ix i r).2 hr) (h i r)
  · rw [htags]
    cases hk : s.mem.tags[k] with
    | free => rfl
    | quarantined e => rfl
    | waiting e =>
      refine ⟨e.discard || s.releasesTag l e, ?_, ?_⟩
      · show (if s.releasesTag l e = true then Tag.waiting { e with discard := true } else Tag.waiting e) = _
        cases s.releasesTag l e
        · rw [Bool.or_false]; rfl
        · rw [Bool.or_true]; rfl
      · rw [Bool.or_eq_true, State.releasesTag_iff]
        exact or_congr_right (exists_congr fun ix => and_congr_right fun _ => (hreleases ix _ _).symm)
  · rw [State.tookEvent_head hl]
    rfl

/-! ### The end of the active area (R120, R121) -/

theorem Raster.turnDue_took {r : Raster} {e : RasterEvent} (he : e ≠ .frameTurn) :
    RasterEvent.frameTurn ∈ (r.took e).due ↔ RasterEvent.frameTurn ∈ r.due :=
  List.mem_erase_of_ne (Ne.symm he)

/-- A request that becomes pending as an event is taken finds the arbiter as it was before: the events due but the frame
turn do not bear on its choice (R20). -/
theorem State.requested_took (s : State) {e : RasterEvent} (he : e ≠ .frameTurn) : ∃ u, s.requestPends u ∧
    (s.tookEvent e).requested = { u with raster := { u.raster with due := (s.raster.took e).due } } := by
  obtain ⟨target, hraster, -⟩ := State.requested_raster (s.tookEvent e)
  have hmay : ∀ p c, (s.tookEvent e).mayTake p c ↔ s.mayTake p c := fun p c => by
    unfold State.mayTake State.free
    rw [show RasterEvent.frameTurn ∈ (s.tookEvent e).raster.due ↔ _ from Raster.turnDue_took he]
    rfl
  obtain ⟨hmade, hnone⟩ := State.requested_spec (s.tookEvent e)
  refine ⟨{ (s.tookEvent e).requested with raster := { (s.tookEvent e).requested.raster with due := s.raster.due } },
    ⟨fun p c h => ?_, fun h => ?_⟩, ?_⟩
  · obtain hu | hu := hmade p c ((hmay p c).2 h) <;> rw [hu]
    · exact .inl (by cases p <;> rfl)
    · exact .inr rfl
  · rw [hnone fun p c h' => h p c ((hmay p c).1 h')]
    rfl
  · have hdue : (s.tookEvent e).requested.raster.due = (s.raster.took e).due := by rw [hraster]; rfl
    rw [← hdue]

/-- Requests with slots of their own are added where the list holds none for their slot. -/
theorem foldl_addRequest (gs : List Handle) (hgs : gs.Pairwise fun g h => g.slot < h.slot) (list : List Handle) :
    gs.foldl addRequest list = list ++ gs.filter fun h => !list.any fun g => g.slot == h.slot := by
  induction gs generalizing list with
  | nil => simp
  | cons g gs ih =>
    obtain ⟨hg, hgs⟩ := List.pairwise_cons.1 hgs
    rw [List.foldl_cons, ih hgs, List.filter_cons]
    unfold addRequest
    by_cases hin : (list.any fun x => x.slot == g.slot) = true
    · rw [if_pos hin, hin]
      rfl
    · rw [if_neg hin, Bool.eq_false_iff.2 hin]
      have hsame : ∀ h ∈ gs, (!(list ++ [g]).any fun x => x.slot == h.slot) = !list.any fun x => x.slot == h.slot := by
        intro h hh
        have hne : (g.slot == h.slot) = false := beq_false_of_ne fun he => BitVec.lt_irrefl _ (he ▸ hg h hh)
        simp [hne]
      rw [List.filter_congr hsame]
      simp

theorem Stream.accounted_iff {st : Stream} : st.accounted = true ↔ st.loaded = true ∧ st.visible ≠ none := by
  simp [Stream.accounted, Option.isSome_iff_ne_none]

theorem Stream.frameEnded_eq (st : Stream) : st.frameEnded = if st.loaded = true ∧ st.visible ≠ none then
    { st with count := if st.excused then st.count else if st.starved then min (st.count + 1) 15 else 0, starved := false, excused := false }
    else st := by
  unfold Stream.frameEnded
  by_cases ha : st.accounted = true
  · rw [if_pos ha, if_pos (Stream.accounted_iff.1 ha)]
  · rw [if_neg ha, if_neg fun h => ha (Stream.accounted_iff.2 h)]

theorem Stream.requestDue_iff {st : Stream} {h : Handle} : st.requestDue = some h ↔ ∃ ld, st.accounted = true ∧
    st.load = some ld ∧ ld.handle = h ∧ ld.threshold ≠ 0 ∧ ld.threshold ≤ st.count := by
  unfold Stream.requestDue
  cases st.load with
  | none => simp
  | some ld =>
    dsimp only
    split
    · next hc => simp [hc]
    · next hc =>
      simp only [reduceCtorEq, Option.some.injEq, false_iff]
      rintro ⟨ld', ha, rfl, -, h0, hle⟩
      exact hc ⟨ha, h0, hle⟩

/-- The request of a stream after the accounting of its frame (R120). -/
theorem Stream.requestDue_frameEnded {st : Stream} {h : Handle} : st.frameEnded.requestDue = some h ↔
    ∃ ld, (st.loaded = true ∧ st.visible ≠ none) ∧ st.load = some ld ∧ ld.handle = h ∧ ld.threshold ≠ 0 ∧
      ld.threshold ≤ if st.excused then st.count else if st.starved then min (st.count + 1) 15 else 0 := by
  rw [Stream.requestDue_iff, Stream.frameEnded_eq]
  split
  · next hc =>
    refine exists_congr fun ld => and_congr_left fun _ => ?_
    exact iff_of_true (Stream.accounted_iff.2 hc) hc
  · next hc => exact iff_of_false (fun ⟨_, h, _⟩ => hc (Stream.accounted_iff.1 h)) fun ⟨_, h, _⟩ => hc h

/-- The slot number in a slot's handle rises with the slot. -/
theorem Handle.slot_lt {g h : Handle} {ix jx : SlotIx} (hg : g.ix? = some ix) (hh : h.ix? = some jx) (hlt : ix < jx) :
    g.slot < h.slot := by
  rw [handle_of_ix hg, handle_of_ix hh, BitVec.lt_def]
  have hi := ix.isLt
  have hj := jx.isLt
  have hlt' : ix.val < jx.val := hlt
  simp only [handleOf, BitVec.toNat_ofNat]
  omega

/-- Settles O45: each stream's accounting, and the requests of those due in slot order. -/
theorem activeEndAccounts : Obligations.ActiveEndAccounts := by
  intro s hhead law counted count
  have hex : exec .activeEnd s = .next (s.tookEvent .activeEnd).activeEndAct := by
    show execActiveEnd s = _
    unfold execActiveEnd State.nextEvent
    rw [hhead]
    rfl
  let requests := allSlots.filterMap fun ix => s.streams[ix].frameEnded.requestDue
  have hslot : ∀ {ix : SlotIx} {h : Handle}, s.streams[ix].frameEnded.requestDue = some h → h.ix? = some ix := fun {ix h} hd => by
    obtain ⟨ld, -, hl, rfl, -⟩ := Stream.requestDue_frameEnded.1 hd
    exact law.ownLoad ix ld hl
  have hsorted : requests.Pairwise fun g h => g.slot < h.slot := by
    have hpw : allSlots.Pairwise (· < ·) := by decide
    exact List.Pairwise.filterMap _ (fun ix jx hlt g hg h hh => Handle.slot_lt (hslot hg) (hslot hh) hlt) hpw
  let streams := tabSlots fun ix => s.streams[ix].frameEnded
  let sent := requests.filter fun h => !s.suspensions.any fun g => g.slot == h.slot
  have hget : ∀ ix : SlotIx, streams[ix] = s.streams[ix].frameEnded := fun ix => tabSlots_get _ ix
  have hlist : (allSlots.filterMap fun ix => streams[ix].requestDue).foldl addRequest s.suspensions = s.suspensions ++ sent := by
    rw [show (fun ix : SlotIx => streams[ix].requestDue) = fun ix => s.streams[ix].frameEnded.requestDue from
      funext fun ix => by rw [hget]]
    exact foldl_addRequest requests hsorted s.suspensions
  have hact : (s.tookEvent .activeEnd).activeEndAct =
      { (if sent = [] then s.tookEvent .activeEnd else (s.tookEvent .activeEnd).requested) with
        streams := streams, suspensions := s.suspensions ++ sent } := by
    show ({ (if (allSlots.filterMap fun ix => streams[ix].requestDue).foldl addRequest s.suspensions = s.suspensions then
      s.tookEvent .activeEnd else (s.tookEvent .activeEnd).requested) with
        streams := streams
        suspensions := (allSlots.filterMap fun ix => streams[ix].requestDue).foldl addRequest s.suspensions } : State) = _
    rw [hlist]
    simp only [List.append_right_eq_self]
  have hsent : ∀ h : Handle, h ∈ sent ↔ ∃ ix ld, counted ix ∧ s.streams[ix].load = some ld ∧ ld.handle = h ∧
      ld.threshold ≠ 0 ∧ ld.threshold ≤ count ix ∧ ∀ g ∈ s.suspensions, g.slot ≠ h.slot := by
    intro h
    have hnew : (!s.suspensions.any fun g => g.slot == h.slot) = true ↔ ∀ g ∈ s.suspensions, g.slot ≠ h.slot := by
      simp
    rw [List.mem_filter, List.mem_filterMap, hnew]
    constructor
    · rintro ⟨⟨ix, -, hd⟩, hn⟩
      obtain ⟨ld, hc, hl, hh, h0, hle⟩ := Stream.requestDue_frameEnded.1 hd
      exact ⟨ix, ld, hc, hl, hh, h0, hle, hn⟩
    · rintro ⟨ix, ld, hc, hl, hh, h0, hle, hn⟩
      exact ⟨⟨ix, mem_allSlots ix, Stream.requestDue_frameEnded.2 ⟨ld, hc, hl, hh, h0, hle⟩⟩, hn⟩
  obtain ⟨u, hu, hrequested⟩ := s.requested_took (e := .activeEnd) (by decide)
  refine ⟨streams, sent, if sent = [] then s else u, ?_, fun ix => ?_, ?_, hsorted.filter _, hsent⟩
  · rw [hex, hact]
    split
    · rw [State.tookEvent_head hhead]
    · rw [hrequested, Raster.took_head hhead]
  · rw [hget, Stream.frameEnded_eq]
  · split
    · rfl
    · exact hu

end Sys2Proof.Machine
end

section
/-! PROOF. A line start at the memory read port (R133, R135): the reads of the eight tags age, and those that time out are
taken one after the other. -/

namespace Sys2Proof.Machine

/-! ### What the tags looked at have left -/

/-- An unmarked read, of a tag in the list, that times out at the coming line start. -/
def State.hits (s : State) (D : List TagIx) (e : TagEntry) : Prop :=
  ∃ k ∈ D, s.mem.tags[k] = .waiting e ∧ s.timesOut e ∧ e.discard = false

/-- What the tags of `D` have left of a line start that comes to `s`: `u` is reached from `s` with every tag aged and those
of `D` looked at. -/
structure LineStarted (s u : State) (D : List TagIx) : Prop where
  tags : ∀ k : TagIx, match s.mem.tags[k] with
    | .waiting e => ∃ d, (e.discard = true → d = true) ∧
        if k ∈ D ∧ s.timesOut e then u.mem.tags[k] = .quarantined { e with age := agedBy e.age, discard := d }
        else u.mem.tags[k] = .waiting { e with age := agedBy e.age, discard := d } ∧
          (d = true ↔ e.discard = true ∨ ∃ e', s.hits D e' ∧ e.sameHalf e')
    | x => u.mem.tags[k] = x
  failed : ∀ (ix : SlotIx) (i : HalfId), (∃ e, s.hits D e ∧ e.handle.ix? = some ix ∧ e.half = i) →
    u.streams[ix].half i = { s.streams[ix].half i with cond := .failed }
  kept : ∀ (ix : SlotIx) (i : HalfId), (∀ e, s.hits D e → e.handle.ix? = some ix → e.half ≠ i) →
    u.streams[ix].half i = s.streams[ix].half i
  halves : ∀ ix : SlotIx, ∃ a b : Half, u.streams[ix] = { s.streams[ix] with halfA := a, halfB := b }
  faulted : ∀ (p : Port) (e : TagEntry) (ix : SlotIx) (ld : StreamLoad), s.hits D e → e.handle.ix? = some ix →
    s.streams[ix].load = some ld → ld.owner = p → (u.link p).notices.fetchFault[ix] = some (e.handle.gen, .timeout)
  unfaulted : ∀ (p : Port) (ix : SlotIx), (∀ (e : TagEntry) (ld : StreamLoad), s.hits D e → e.handle.ix? = some ix →
    s.streams[ix].load = some ld → ld.owner ≠ p) →
    (u.link p).notices.fetchFault[ix] = (s.link p).notices.fetchFault[ix]
  stuck : ∃ stuck : Bool, (stuck = true ↔ (∃ (k : TagIx) (e : TagEntry), k ∈ D ∧ s.mem.tags[k] = .waiting e ∧ s.timesOut e) ∧
      u.mem.allQuarantined) ∧
    u.mem = { s.mem with tags := u.mem.tags, fetchState := if stuck then .stuck else s.mem.fetchState } ∧
    ∀ p : Port, u.link p = { s.link p with notices := { (s.link p).notices with
      fetchFault := (u.link p).notices.fetchFault, fetchStuck := stuck || (s.link p).notices.fetchStuck } }
  frame : u = { s with streams := u.streams, linkA := u.linkA, linkB := u.linkB, mem := u.mem }

theorem State.hits_nil {s : State} {e : TagEntry} : ¬ s.hits [] e := fun ⟨_, h, _⟩ => List.not_mem_nil h

theorem State.hits_cons {s : State} {k : TagIx} {D : List TagIx} {e' : TagEntry} : s.hits (k :: D) e' ↔
    (s.mem.tags[k] = .waiting e' ∧ s.timesOut e' ∧ e'.discard = false) ∨ s.hits D e' := by
  simp [State.hits, -Fin.getElem_fin]

/-- Before any tag is looked at, the reads have aged. -/
theorem LineStarted.aged (s : State) : LineStarted s s.ageTags [] where
  tags k := by
    rw [State.ageTags_get]
    cases s.mem.tags[k] with
    | free => rfl
    | quarantined e => rfl
    | waiting e =>
      refine ⟨e.discard, id, ?_⟩
      rw [if_neg fun h => List.not_mem_nil h.1]
      exact ⟨rfl, .inl, fun h => h.resolve_right fun ⟨_, h, _⟩ => State.hits_nil h⟩
  failed ix i := fun ⟨_, h, _⟩ => absurd h State.hits_nil
  kept ix i _ := rfl
  halves ix := ⟨_, _, rfl⟩
  faulted p e ix ld h := absurd h State.hits_nil
  unfaulted p ix _ := rfl
  stuck := ⟨false, by simp, rfl, fun p => by cases p <;> rfl⟩
  frame := rfl

/-- A tag that does not time out leaves everything as it is. -/
theorem LineStarted.waits {s u : State} {D : List TagIx} (h : LineStarted s u D) {k : TagIx}
    (hk : ∀ e, s.mem.tags[k] = .waiting e → ¬ s.timesOut e) : LineStarted s u (k :: D) := by
  have hhits : ∀ e, s.hits (k :: D) e ↔ s.hits D e := fun e => by
    rw [State.hits_cons]
    exact or_iff_right fun ⟨h1, h2, _⟩ => hk e h1 h2
  have hsome : (∃ (j : TagIx) (e : TagEntry), j ∈ k :: D ∧ s.mem.tags[j] = .waiting e ∧ s.timesOut e) ↔
      ∃ (j : TagIx) (e : TagEntry), j ∈ D ∧ s.mem.tags[j] = .waiting e ∧ s.timesOut e := by
    refine exists_congr fun j => exists_congr fun e => and_congr_left fun ⟨hj, ht⟩ => ?_
    rw [List.mem_cons]
    exact or_iff_right fun hjk => hk e (hjk ▸ hj) ht
  obtain ⟨htags, hfailed, hkept, hhalves, hfaulted, hunfaulted, hstuck, hframe⟩ := h
  refine ⟨fun j => ?_, ?_, ?_, hhalves, ?_, ?_, ?_, hframe⟩
  · have hj := htags j
    cases htag : s.mem.tags[j] with
    | free => rwa [htag] at hj
    | quarantined e => rwa [htag] at hj
    | waiting e =>
      rw [htag] at hj
      obtain ⟨d, hd, hj⟩ := hj
      refine ⟨d, hd, ?_⟩
      have hmem : j ∈ k :: D ∧ s.timesOut e ↔ j ∈ D ∧ s.timesOut e := by
        refine and_congr_left fun ht => ?_
        rw [List.mem_cons]
        exact or_iff_right fun hjk => hk e (hjk ▸ htag) ht
      simp only [hmem, hhits]
      exact hj
  · simpa only [hhits] using hfailed
  · simpa only [hhits] using hkept
  · simpa only [hhits] using hfaulted
  · simpa only [hhits] using hunfaulted
  · simpa only [hsome] using hstuck

/-! ### A tag that times out -/

/-- What a read awaited finds: its half FILLING its row, in a stream loaded with its handle (R117). -/
theorem FetchLaw.hit {s : State} (law : FetchLaw s) {k : TagIx} {e : TagEntry} {ix : SlotIx}
    (hk : s.mem.tags[k] = .waiting e) (hd : e.discard = false) (hx : e.handle.ix? = some ix) :
    (s.streams[ix].half e.half).cond = .filling ∧ (s.streams[ix].half e.half).row = some e.row ∧
      s.streams[ix].load.map StreamLoad.handle = some e.handle := by
  have hread : (s.mem.tags[k]).read ix e.half = some e.request := by
    rw [hk, Tag.read_waiting, if_pos ⟨hd, hx, rfl⟩]
  obtain ⟨hc, hr, -, hl, -⟩ := law.awaits hread
  exact ⟨hc, hr, hl⟩

/-- Two reads awaited for one half are for the same row and of the same handle. -/
theorem FetchLaw.hits_agree {s : State} (law : FetchLaw s) {j k : TagIx} {e e' : TagEntry} {ix : SlotIx}
    (hk : s.mem.tags[k] = .waiting e) (hd : e.discard = false) (hx : e.handle.ix? = some ix)
    (hj : s.mem.tags[j] = .waiting e') (hd' : e'.discard = false) (hx' : e'.handle.ix? = some ix) :
    e.handle = e'.handle ∧ (e.half = e'.half → e.sameHalf e') := by
  obtain ⟨-, hr, hl⟩ := law.hit hk hd hx
  obtain ⟨-, hr', hl'⟩ := law.hit hj hd' hx'
  refine ⟨Option.some.inj (hl.symm.trans hl'), fun hh => ⟨hx.trans hx'.symm, hh, ?_⟩⟩
  rw [hh] at hr
  exact Option.some.inj (hr.symm.trans hr')

/-- The tag of a read that times out is quarantined with the mark it has by then. -/
theorem LineStarted.timeoutTag {s u : State} {D : List TagIx} (h : LineStarted s u D) {k : TagIx} {e : TagEntry}
    (hD : k ∉ D) (hk : s.mem.tags[k] = .waiting e) (ht : s.timesOut e) : ∃ d, (e.discard = true → d = true) ∧
      (d = true ↔ e.discard = true ∨ ∃ e', s.hits D e' ∧ e.sameHalf e') ∧
      u.timeoutTag k = u.quarantine k { e with age := agedBy e.age, discard := d } ∧
      (u.mem.tags[k]).isQuarantined = false := by
  have htag := h.tags k
  rw [hk] at htag
  obtain ⟨d, hd, htag⟩ := htag
  rw [if_neg fun h => hD h.1] at htag
  obtain ⟨hu, hiff⟩ := htag
  obtain ⟨stuck, -, hmem, -⟩ := h.stuck
  have htimeout : u.mem.timeout = s.mem.timeout := by rw [hmem]
  refine ⟨d, hd, hiff, ?_, by rw [hu]; rfl⟩
  unfold State.timeoutTag
  rw [hu]
  exact if_pos (htimeout ▸ ht)

/-- The clauses about the memory port, the ports and the rest of the part, where a tag is quarantined. -/
theorem LineStarted.stuck_quarantine {s u : State} {D : List TagIx} (h : LineStarted s u D) {k : TagIx} {e e₁ : TagEntry}
    (hk : s.mem.tags[k] = .waiting e) (ht : s.timesOut e) (hu : (u.mem.tags[k]).isQuarantined = false) :
    ∃ stuck : Bool, (stuck = true ↔
        (∃ (j : TagIx) (e : TagEntry), j ∈ k :: D ∧ s.mem.tags[j] = .waiting e ∧ s.timesOut e) ∧
          (u.quarantine k e₁).mem.allQuarantined) ∧
      (u.quarantine k e₁).mem = { s.mem with
        tags := (u.quarantine k e₁).mem.tags, fetchState := if stuck then .stuck else s.mem.fetchState } ∧
      ∀ p : Port, (u.quarantine k e₁).link p = { s.link p with notices := { (s.link p).notices with
        fetchFault := ((u.quarantine k e₁).link p).notices.fetchFault
        fetchStuck := stuck || (s.link p).notices.fetchStuck } } := by
  obtain ⟨stuck, hstuck, hmem, hlink⟩ := h.stuck
  have hno : stuck = false := Bool.eq_false_iff.2 fun hs => by
    have := (hstuck.1 hs).2 k
    rw [hu] at this
    cases this
  subst hno
  refine ⟨(u.quarantine k e₁).mem.stuckNow, ?_, ?_, fun p => ?_⟩
  · rw [MemPort.stuckNow_iff]
    exact ⟨fun hq => ⟨⟨k, e, List.mem_cons_self, hk, ht⟩, hq⟩, fun hq => hq.2⟩
  · conv_lhs => rw [State.quarantine_mem, hmem]
    rfl
  · conv_lhs => rw [State.quarantine_link, hlink]
    rw [State.quarantine_link]
    rfl

theorem LineStarted.frame_quarantine {s u : State} {D : List TagIx} (h : LineStarted s u D) (k : TagIx) (e₁ : TagEntry) :
    u.quarantine k e₁ = { s with
      streams := (u.quarantine k e₁).streams, linkA := (u.quarantine k e₁).linkA, linkB := (u.quarantine k e₁).linkB
      mem := (u.quarantine k e₁).mem } := by
  have hq := State.quarantine_frame u k e₁
  generalize u.quarantine k e₁ = q at hq ⊢
  conv_lhs => rw [hq, h.frame]

theorem LineStarted.halves_quarantine {s u : State} {D : List TagIx} (h : LineStarted s u D) (k : TagIx) (e₁ : TagEntry)
    (ix : SlotIx) : ∃ a b : Half, (u.quarantine k e₁).streams[ix] = { s.streams[ix] with halfA := a, halfB := b } := by
  obtain ⟨a, b, hu⟩ := h.halves ix
  obtain ⟨x, hx⟩ := u.quarantine_stream k e₁ ix
  rw [hx, hu]
  cases e₁.half
  · exact ⟨x, b, rfl⟩
  · exact ⟨a, x, rfl⟩

/-- A tag whose read was marked by then: it alone is quarantined. -/
theorem LineStarted.marked {s u : State} {D : List TagIx} (law : FetchLaw s) (h : LineStarted s u D) {k : TagIx}
    {e : TagEntry} (hk : s.mem.tags[k] = .waiting e) (ht : s.timesOut e) (hu : (u.mem.tags[k]).isQuarantined = false)
    (hmark : e.discard = true ∨ ∃ e', s.hits D e' ∧ e.sameHalf e') :
    LineStarted s (u.quarantine k { e with age := agedBy e.age, discard := true }) (k :: D) := by
  have htags : ∀ j : TagIx, (u.quarantine k { e with age := agedBy e.age, discard := true }).mem.tags[j] =
      if k = j then .quarantined { e with age := agedBy e.age, discard := true } else u.mem.tags[j] :=
    fun j => u.quarantine_tags k _ j
  have hstreams : (u.quarantine k { e with age := agedBy e.age, discard := true }).streams = u.streams :=
    u.quarantine_streams k _
  have hfaults : ∀ p, ((u.quarantine k { e with age := agedBy e.age, discard := true }).link p).notices.fetchFault =
      (u.link p).notices.fetchFault := fun p => by
    rw [State.quarantine_link]
    exact State.timeoutFaults_marked rfl p
  have hcover : ∀ e₁, s.hits (k :: D) e₁ → ∃ e', s.hits D e' ∧ e₁.sameHalf e' := fun e₁ h₁ => by
    obtain ⟨hk₁, -, hd₁⟩ | h₁ := State.hits_cons.1 h₁
    · obtain rfl : e = e₁ := Tag.waiting.inj (hk.symm.trans hk₁)
      exact hmark.resolve_left fun hd => Bool.noConfusion (hd.symm.trans hd₁)
    · exact ⟨e₁, h₁, rfl, rfl, rfl⟩
  have hmore : ∀ {e₁}, s.hits D e₁ → s.hits (k :: D) e₁ := fun h₁ => State.hits_cons.2 (.inr h₁)
  refine ⟨fun j => ?_, ?_, ?_, h.halves_quarantine k _, ?_, ?_, h.stuck_quarantine hk ht hu, h.frame_quarantine k _⟩
  · have hj := h.tags j
    rw [htags]
    by_cases hjk : k = j
    · subst hjk
      rw [hk, if_pos rfl]
      exact ⟨true, fun _ => rfl, by rw [if_pos ⟨List.mem_cons_self, ht⟩]⟩
    · rw [if_neg hjk]
      cases htag : s.mem.tags[j] with
      | free => rwa [htag] at hj
      | quarantined e₂ => rwa [htag] at hj
      | waiting e₂ =>
        rw [htag] at hj
        obtain ⟨d, hd, hj⟩ := hj
        have hmem : j ∈ k :: D ↔ j ∈ D := by
          rw [List.mem_cons]
          exact or_iff_right (Ne.symm hjk)
        have hsame : (∃ e', s.hits (k :: D) e' ∧ e₂.sameHalf e') ↔ ∃ e', s.hits D e' ∧ e₂.sameHalf e' :=
          ⟨fun ⟨e', h', hs⟩ => by
            obtain ⟨e'', h'', hs'⟩ := hcover e' h'
            exact ⟨e'', h'', hs.1.trans hs'.1, hs.2.1.trans hs'.2.1, hs.2.2.trans hs'.2.2⟩,
            fun ⟨e', h', hs⟩ => ⟨e', hmore h', hs⟩⟩
        refine ⟨d, hd, ?_⟩
        simp only [hmem, hsame]
        exact hj
  · rintro ix i ⟨e₁, h₁, hx, hi⟩
    obtain ⟨e', h', hs⟩ := hcover e₁ h₁
    rw [hstreams]
    exact h.failed ix i ⟨e', h', hs.1.symm.trans hx, hs.2.1.symm.trans hi⟩
  · intro ix i hno
    rw [hstreams]
    exact h.kept ix i fun e₁ h₁ => hno e₁ (hmore h₁)
  · intro p e₁ ix ld h₁ hx hl ho
    obtain ⟨e', h', hs⟩ := hcover e₁ h₁
    obtain ⟨j₁, -, hj₁, -, hd₁⟩ := h₁
    obtain ⟨j', -, hj', -, hd'⟩ := id h'
    have hx' : e'.handle.ix? = some ix := hs.1.symm.trans hx
    rw [hfaults, h.faulted p e' ix ld h' hx' hl ho, (law.hits_agree hj₁ hd₁ hx hj' hd' hx').1]
  · intro p ix hno
    rw [hfaults]
    exact h.unfaulted p ix fun e₁ ld h₁ => hno e₁ ld (hmore h₁)

theorem State.timeoutFaults_unread {s : State} {e : TagEntry} (hx : e.handle.ix? = none) (p : Port) :
    s.timeoutFaults e p = (s.link p).notices.fetchFault := by
  unfold State.timeoutFaults
  rw [hx]
  cases s.loadOf e <;> rfl

/-- A tag whose read was awaited until then: its half fails and the half's other reads are marked. -/
theorem LineStarted.fails {s u : State} {D : List TagIx} (law : FetchLaw s) (h : LineStarted s u D) {k : TagIx}
    {e : TagEntry} (hk : s.mem.tags[k] = .waiting e) (ht : s.timesOut e) (hu : (u.mem.tags[k]).isQuarantined = false)
    (hd : e.discard = false) (hnone : ∀ e', s.hits D e' → ¬ e.sameHalf e') :
    LineStarted s (u.quarantine k { e with age := agedBy e.age, discard := false }) (k :: D) := by
  have htags : ∀ j : TagIx, (u.quarantine k { e with age := agedBy e.age, discard := false }).mem.tags[j] =
      if k = j then .quarantined { e with age := agedBy e.age, discard := false } else (u.mem.tags[j]).mark (·.sameRow e) :=
    fun j => u.quarantine_tags k _ j
  have hstreams : ∀ ix : SlotIx, (u.quarantine k { e with age := agedBy e.age, discard := false }).streams[ix] =
      if e.handle.ix? = some ix then (u.streams[ix]).setHalf e.half ((u.streams[ix].half e.half).fail e.row)
      else u.streams[ix] := fun ix => by
    rw [State.quarantine_streams]
    exact u.failHalf_streams_get _ ix
  have hhits : ∀ e₁, s.hits (k :: D) e₁ ↔ e₁ = e ∨ s.hits D e₁ := fun e₁ => by
    rw [State.hits_cons]
    refine or_congr_left ⟨fun h₁ => (Tag.waiting.inj (hk.symm.trans h₁.1)).symm, fun h₁ => ?_⟩
    subst h₁
    exact ⟨hk, ht, hd⟩
  have hmore : ∀ {e₁}, s.hits D e₁ → s.hits (k :: D) e₁ := fun h₁ => State.hits_cons.2 (.inr h₁)
  have hself : s.hits (k :: D) e := (hhits e).2 (.inl rfl)
  have hfault : ∀ (p : Port) (ix jx : SlotIx) (ld : StreamLoad), e.handle.ix? = some jx → s.streams[jx].load = some ld →
      ((u.quarantine k { e with age := agedBy e.age, discard := false }).link p).notices.fetchFault[ix] =
        if ld.owner = p ∧ jx = ix then some (e.handle.gen, .timeout) else (u.link p).notices.fetchFault[ix] := by
    intro p ix jx ld hx hl
    obtain ⟨a, b, hhalves⟩ := h.halves jx
    have hload : u.streams[jx].load = some ld := by rw [hhalves]; exact hl
    rw [State.quarantine_link, State.timeoutFaults_unmarked (e := { e with age := agedBy e.age, discard := false }) rfl hx hload]
    by_cases ho : ld.owner = p
    · rw [if_pos ho, getSlot_set]
      simp only [ho, true_and]
    · rw [if_neg ho, if_neg fun h => ho h.1]
  have hother : ∀ (p : Port) (ix : SlotIx), (∀ ld, e.handle.ix? = some ix → s.streams[ix].load = some ld → ld.owner ≠ p) →
      ((u.quarantine k { e with age := agedBy e.age, discard := false }).link p).notices.fetchFault[ix] =
        (u.link p).notices.fetchFault[ix] := by
    intro p ix hno
    cases hx : e.handle.ix? with
    | none =>
      rw [State.quarantine_link]
      exact congrArg (·[ix]) (State.timeoutFaults_unread (e := { e with age := agedBy e.age, discard := false }) hx p)
    | some jx =>
      obtain ⟨-, -, hl⟩ := law.hit hk hd hx
      obtain ⟨ld, hl, -⟩ := Option.map_eq_some_iff.1 hl
      rw [hfault p ix jx ld hx hl, if_neg]
      rintro ⟨ho, rfl⟩
      exact hno ld hx hl ho
  have hfirst : ∀ e₁ ix, s.hits D e₁ → e.handle.ix? = some ix → e₁.handle.ix? = some ix → e₁.half ≠ e.half := by
    intro e₁ ix h₁ hx hx₁ hi
    obtain ⟨j₁, -, hj₁, -, hd₁⟩ := id h₁
    exact hnone e₁ h₁ ((law.hits_agree hk hd hx hj₁ hd₁ hx₁).2 hi.symm)
  refine ⟨fun j => ?_, ?_, ?_, h.halves_quarantine k _, ?_, ?_, h.stuck_quarantine hk ht hu, h.frame_quarantine k _⟩
  · have hj := h.tags j
    rw [htags]
    by_cases hjk : k = j
    · subst hjk
      rw [hk, if_pos rfl]
      exact ⟨false, fun hm => absurd (hd.symm.trans hm) Bool.false_ne_true, by rw [if_pos ⟨List.mem_cons_self, ht⟩]⟩
    · rw [if_neg hjk]
      cases htag : s.mem.tags[j] with
      | free => rw [htag] at hj; rw [hj]; rfl
      | quarantined e₂ => rw [htag] at hj; rw [hj]; rfl
      | waiting e₂ =>
        rw [htag] at hj
        obtain ⟨d, hd₂, hj⟩ := hj
        have hmem : j ∈ k :: D ↔ j ∈ D := by
          rw [List.mem_cons]
          exact or_iff_right (Ne.symm hjk)
        by_cases hout : j ∈ D ∧ s.timesOut e₂
        · rw [if_pos hout] at hj
          refine ⟨d, hd₂, ?_⟩
          rw [if_pos ⟨hmem.2 hout.1, hout.2⟩, hj]
          rfl
        · rw [if_neg hout] at hj
          obtain ⟨hj, hiff⟩ := hj
          have hsame : (∃ e', s.hits (k :: D) e' ∧ e₂.sameHalf e') ↔ e₂.sameHalf e ∨ ∃ e', s.hits D e' ∧ e₂.sameHalf e' := by
            simp only [hhits, or_and_right, exists_or, exists_eq_left]
          refine ⟨if e₂.sameHalf e then true else d, fun h => ?_, ?_⟩
          · rw [hd₂ h, ite_self]
          · rw [if_neg fun h => hout ⟨hmem.1 h.1, h.2⟩, hj, Tag.mark_sameRow]
            constructor
            · by_cases hs : e₂.sameHalf e
              · rw [if_pos hs, if_pos hs]
              · rw [if_neg hs, if_neg hs]
            · rw [hsame]
              by_cases hs : e₂.sameHalf e
              · rw [if_pos hs]
                exact iff_of_true rfl (.inr (.inl hs))
              · rw [if_neg hs, hiff]
                simp only [hs, false_or]
  · rintro ix i ⟨e₁, h₁, hx, hi⟩
    rw [hstreams]
    obtain rfl | h₁ := (hhits e₁).1 h₁
    · obtain ⟨hc, hr, -⟩ := law.hit hk hd hx
      have hfree := h.kept ix e₁.half fun e' h' hx' => hfirst e' ix h' hx hx'
      subst hi
      rw [if_pos hx, Stream.half_setHalf_same, hfree, Half.fail_of hr hc]
    · have hdone := h.failed ix i ⟨e₁, h₁, hx, hi⟩
      split
      · next hx' =>
        rw [Stream.half_setHalf, if_neg fun hh => hfirst e₁ ix h₁ hx' hx (hi.trans hh.symm), hdone]
      · exact hdone
  · intro ix i hno
    have hsame := h.kept ix i fun e₁ h₁ => hno e₁ (hmore h₁)
    rw [hstreams]
    split
    · next hx => rw [Stream.half_setHalf, if_neg (hno e hself hx), hsame]
    · exact hsame
  · intro p e₁ ix ld h₁ hx hl ho
    obtain rfl | h₁ := (hhits e₁).1 h₁
    · rw [hfault p ix ix ld hx hl, if_pos ⟨ho, rfl⟩]
    · have hdone := h.faulted p e₁ ix ld h₁ hx hl ho
      obtain ⟨j₁, -, hj₁, -, hd₁⟩ := h₁
      by_cases hx' : e.handle.ix? = some ix
      · rw [hfault p ix ix ld hx' hl, if_pos ⟨ho, rfl⟩, (law.hits_agree hk hd hx' hj₁ hd₁ hx).1]
      · rw [hother p ix fun _ h => absurd h hx', hdone]
  · intro p ix hno
    rw [hother p ix fun ld => hno e ld hself]
    exact h.unfaulted p ix fun e₁ ld h₁ => hno e₁ ld (hmore h₁)

/-- One tag more looked at. -/
theorem LineStarted.next {s u : State} {D : List TagIx} (law : FetchLaw s) (h : LineStarted s u D) {k : TagIx}
    (hD : k ∉ D) : LineStarted s (u.timeoutTag k) (k :: D) := by
  have hwaits : (∀ e, s.mem.tags[k] = .waiting e → ¬ s.timesOut e) → LineStarted s (u.timeoutTag k) (k :: D) := by
    intro hno
    have hstay : u.timeoutTag k = u := by
      obtain ⟨stuck, -, hmem, -⟩ := h.stuck
      have htimeout : u.mem.timeout = s.mem.timeout := by rw [hmem]
      obtain ⟨e₁, hu, ha, -⟩ | ⟨-, hstay⟩ := u.timeoutTag_cases k
      · have htag := h.tags k
        cases hk : s.mem.tags[k] with
        | free => rw [hk, hu] at htag; cases htag
        | quarantined e => rw [hk, hu] at htag; cases htag
        | waiting e =>
          rw [hk] at htag
          obtain ⟨d, -, htag⟩ := htag
          rw [if_neg fun h => hD h.1, hu] at htag
          have he := Tag.waiting.inj htag.1
          subst he
          refine absurd ?_ (hno e hk)
          show s.mem.timeout ≤ agedBy e.age
          rw [← htimeout]
          exact ha
      · exact hstay
    rw [hstay]
    exact h.waits hno
  by_cases hout : ∃ e, s.mem.tags[k] = .waiting e ∧ s.timesOut e
  · obtain ⟨e, hk, ht⟩ := hout
    obtain ⟨d, hd, hiff, hto, hu⟩ := h.timeoutTag hD hk ht
    rw [hto]
    cases d with
    | true => exact h.marked law hk ht hu (hiff.1 rfl)
    | false =>
      have hno : ¬ (e.discard = true ∨ ∃ e', s.hits D e' ∧ e.sameHalf e') := fun h => Bool.noConfusion (hiff.2 h)
      exact h.fails law hk ht hu (Bool.eq_false_iff.2 fun h => hno (.inl h)) fun e' h' hs => hno (.inr ⟨e', h', hs⟩)
  · exact hwaits fun e hk ht => hout ⟨e, hk, ht⟩

/-- Tags of their own looked at one after the other. -/
theorem LineStarted.fold {s : State} (law : FetchLaw s) (l : List TagIx) :
    ∀ {u : State} {D : List TagIx}, LineStarted s u D → (∀ k ∈ l, k ∉ D) → l.Nodup →
      LineStarted s (l.foldl State.timeoutTag u) (l.reverse ++ D) := by
  induction l with
  | nil => exact fun h _ _ => h
  | cons k l ih =>
    intro u D h hD hl
    obtain ⟨hk, hl⟩ := List.nodup_cons.1 hl
    rw [List.foldl_cons, List.reverse_cons, List.append_assoc]
    refine ih (h.next law (hD k List.mem_cons_self)) (fun j hj hmem => ?_) hl
    obtain rfl | hmem := List.mem_cons.1 hmem
    · exact hk hj
    · exact hD j (List.mem_cons_of_mem _ hj) hmem

/-- The whole line start (R133, R135). -/
theorem State.lineStartAct_started {s : State} (law : FetchLaw s) : LineStarted s s.lineStartAct allTags.reverse := by
  have h := LineStarted.fold law allTags (LineStarted.aged s) (fun _ _ => List.not_mem_nil) allTags_nodup
  rwa [List.append_nil] at h

/-- Settles O41: the clauses of a line start with every tag looked at. -/
theorem lineStartAges : Obligations.LineStartAges := by
  intro s l hhead law hit
  have hex : exec .lineStart s = .next (s.tookEvent (.lineStart l)).lineStartAct := by
    show execLineStart s = _
    unfold execLineStart State.nextEvent
    rw [hhead]
    rfl
  have h := State.lineStartAct_started (s := s.tookEvent (.lineStart l)) law
  have hall : ∀ k : TagIx, k ∈ allTags.reverse := fun k => List.mem_reverse.2 (mem_allTags k)
  have hhits : ∀ e, (s.tookEvent (.lineStart l)).hits allTags.reverse e ↔ hit e := fun e =>
    ⟨fun ⟨k, _, hk, ht, hd⟩ => ⟨ht, hd, k, hk⟩, fun ⟨ht, hd, k, hk⟩ => ⟨k, hall k, hk, ht, hd⟩⟩
  rw [State.tookEvent_head hhead] at h hex hhits
  generalize ({ s with raster := { s.raster with due := s.raster.due.tail } } : State).lineStartAct = t at h hex
  obtain ⟨htags, hfailed, hkept, hhalves, hfaulted, hunfaulted, ⟨stuck, hstuck, hmem, hlink⟩, hframe⟩ := h
  simp only [hhits] at htags hfailed hkept hfaulted hunfaulted
  refine ⟨t, stuck, hex, fun k => ?_, fun ix i => ⟨hfailed ix i, hkept ix i⟩, hhalves, ?_,
    fun p => ⟨(t.link p).notices.fetchFault, hlink p, fun e ix ld h hx hl ho => hfaulted p e ix ld h hx hl ho,
      hunfaulted p⟩, t.streams, t.linkA, t.linkB, t.mem.tags, ?_⟩
  · have hk := htags k
    cases htag : s.mem.tags[k] with
    | free => rwa [htag] at hk
    | quarantined e => rwa [htag] at hk
    | waiting e =>
      rw [htag] at hk
      obtain ⟨d, hd, hk⟩ := hk
      refine ⟨d, hd, ?_⟩
      simp only [hall k, true_and] at hk
      exact hk
  · rw [hstuck]
    refine ⟨fun ⟨⟨k, e, _, hk, _⟩, hq⟩ => ⟨⟨k, e, hk⟩, hq⟩, fun ⟨⟨k, e, hk⟩, hq⟩ => ⟨⟨k, e, hall k, hk, ?_⟩, hq⟩⟩
    by_contra ht
    have htag := htags k
    rw [show ({ s with raster := { s.raster with due := s.raster.due.tail } } : State).mem.tags[k] = .waiting e from hk] at htag
    obtain ⟨d, -, htag⟩ := htag
    rw [if_neg fun h => ht h.2] at htag
    have hquar := hq k
    rw [htag.1] at hquar
    cases hquar
  · rw [hframe, hmem]

end Sys2Proof.Machine
end

section
/-! PROOF. The composed pixel (R94 to R98, R101), the active-line start (R90 to R92, R111) and the rising edge of PCLK (R71
to R75). -/

namespace Sys2Proof.Machine

/-! ### The pixel of a lane (R94 to R98) -/

/-- The byte of the store that a HALF lane's pixel begins with (R94). -/
theorem State.laneAddress_half {s : State} {x a b : Nat} {l : Lane} {i : HalfId} {ix : SlotIx} {place : Nat}
    (hspan : l.span = some (a, b)) (ha : a ≤ x) (hb : x ≤ b) (hsrc : l.source = .half i) (hx : l.handle.ix? = some ix)
    (hplace : (s.streams[ix].half i).place = some place) :
    s.laneAddress l x = some (some (place * 256 + ((x : Int) - l.x).toNat * l.format.bytesPerPixel)) := by
  unfold State.laneAddress
  rw [hspan, hsrc]
  dsimp only
  rw [if_pos ⟨ha, hb⟩, State.laneHalf, hx]
  show some ((s.streams[ix].half i).pixelAddress l.format _) = _
  rw [Half.pixelAddress, hplace]
  rfl

/-- A lane whose span holds the pixel. -/
theorem State.layLane_inside {s : State} {x a b : Nat} {d : Colour} {l : Lane} (hspan : l.span = some (a, b)) (ha : a ≤ x)
    (hb : x ≤ b) : s.layLane x d l = match l.source with
      | .fill => blend l.fill d (effectiveAlpha 255 l.alpha)
      | .half _ =>
        if l.keyed (decodePixel s.store (((s.laneAddress l x).bind id).getD 0) l.format l.fill).1 then d
        else blend (decodePixel s.store (((s.laneAddress l x).bind id).getD 0) l.format l.fill).1 d
          (effectiveAlpha (decodePixel s.store (((s.laneAddress l x).bind id).getD 0) l.format l.fill).2 l.alpha) := by
  unfold State.layLane
  rw [hspan]
  exact if_pos ⟨ha, hb⟩

/-- The pixel of a HALF lane, by the address it begins at. -/
theorem State.layLane_half {s : State} {x a b address : Nat} {d : Colour} {l : Lane} {i : HalfId}
    (hspan : l.span = some (a, b)) (ha : a ≤ x) (hb : x ≤ b) (hsrc : l.source = .half i)
    (haddr : s.laneAddress l x = some (some address)) : s.layLane x d l =
      if l.keyed (decodePixel s.store address l.format l.fill).1 then d
      else blend (decodePixel s.store address l.format l.fill).1 d
        (effectiveAlpha (decodePixel s.store address l.format l.fill).2 l.alpha) := by
  rw [State.layLane_inside hspan ha hb, hsrc, haddr]
  rfl

theorem Lane.keyed_iff {l : Lane} {c : Colour} (hf : l.format ≠ .a8) : l.keyed c = true ↔ l.key = some c := by
  simp [Lane.keyed, hf]

/-- The channels of a C16 value (R96). -/
theorem c16Colour_eq {v : Nat} (hv : v < 65536) : c16Colour v = ⟨BitVec.ofNat 8 (v / 2048 * 8 + v / 2048 / 4),
    BitVec.ofNat 8 (v / 32 % 64 * 4 + v / 32 % 64 / 16), BitVec.ofNat 8 (v % 32 * 8 + v % 32 / 4)⟩ := by
  have hred : v / 2048 % 32 = v / 2048 := by omega
  unfold c16Colour widen5 widen6
  rw [hred]

/-- Settles O52: the lanes laid one after the other, and each lane by its span, its source and its format. -/
theorem pixelComposed : Obligations.PixelComposed := by
  refine ⟨fun s x => ?_, fun s x d l hout => ?_, ?_⟩
  · unfold State.composed
    refine congrArg (fun f => s.lanes.toList.foldl f s.lineBackground) (funext fun d => funext fun lane => ?_)
    cases lane <;> rfl
  · unfold State.layLane
    cases hspan : l.span with
    | none => rfl
    | some ab =>
      have := hout ab.1 ab.2 hspan
      exact if_neg (by omega)
  · intro s x a b d l hspan ha hb
    refine ⟨fun hsrc => ?_, ?_⟩
    · rw [State.layLane_inside hspan ha hb, hsrc]
      exact congrArg (blend l.fill d) (alphaAndBlend.1 255 l.alpha).2.2.1
    · intro i ix place hsrc hx hplace byte pair five lay
      have haddr := State.laneAddress_half (s := s) hspan ha hb hsrc hx hplace
      have hlay := State.layLane_half (d := d) hspan ha hb hsrc haddr
      have hkeyed : l.format ≠ .a8 → ∀ (c : Colour) (p : Byte),
          (if l.keyed c = true then d else blend c d (effectiveAlpha p l.alpha)) = lay c p := fun hf c p => by
        simp only [Lane.keyed_iff hf]
        rfl
      generalize haddress : place * 256 + ((x : Int) - l.x).toNat * l.format.bytesPerPixel = address at hlay
      have hbyte : ∀ n, byte n = Memory.read s.store (address + n) := fun n => by rw [← haddress]
      have hdecode : ∀ f, l.format = f → decodePixel s.store address l.format l.fill = decodePixel s.store address f l.fill :=
        fun f hf => congrArg (decodePixel s.store address · l.fill) hf
      refine ⟨fun hf => ?_, fun hf => ?_, fun hf => ?_⟩
      · rw [hlay, hkeyed (by rw [hf]; nofun), hdecode _ hf, hbyte 0, hbyte 1, hbyte 2, hbyte 3]
        rfl
      · have hpair : pair < 65536 := by
          have h0 := (byte 0).isLt
          have h1 := (byte 1).isLt
          show (byte 1).toNat * 256 + (byte 0).toNat < 65536
          omega
        have hcolour : decodePixel s.store address .c16 l.fill = (c16Colour pair, 255) := by
          show _ = (c16Colour ((byte 1).toNat * 256 + (byte 0).toNat), 255)
          rw [hbyte 0, hbyte 1]
          rfl
        rw [hlay, hkeyed (by rw [hf]; nofun), hdecode _ hf, hcolour, c16Colour_eq hpair]
      · have hno : ∀ c, l.keyed c = false := fun c => by simp [Lane.keyed, hf]
        rw [hlay, hno, if_neg Bool.false_ne_true, hdecode _ hf, hbyte 0]
        rfl

end Sys2Proof.Machine
end

section
/-! PROOF. The active-line start: the lanes filled, the rows examined and the pins (R75, R90 to R92, R111). -/

namespace Sys2Proof.Machine

/-! ### The lanes of a line (R90 to R92) -/

/-- A half drawn from: READY for the row, half A where both hold it. -/
theorem Stream.readyHalf_iff {st : Stream} {r : Nat} {i : HalfId} : st.readyHalf r = some i ↔
    (st.half i).row = some r ∧ (st.half i).cond = .ready ∧ (i = .b → st.halfA.row ≠ some r) := by
  have h : st.readyHalf r = some i ↔ st.holding r = some i ∧ (st.half i).cond = .ready := by
    unfold Stream.readyHalf
    cases st.holding r with
    | none => simp
    | some j =>
      dsimp only
      split
      · next hc => exact ⟨fun h => by cases h; exact ⟨rfl, hc⟩, fun h => h.1⟩
      · next hc => exact iff_of_false nofun fun ⟨h, h'⟩ => by cases h; exact hc h'
  rw [h, Stream.holding_iff]
  tauto

/-- The row source of a lane (R92). -/
theorem State.rowSource_half {s : State} {ix : SlotIx} {h : Handle} {r : Nat} {j : HalfId} :
    s.rowSource ix h r = .half j ↔ s.streams[ix].loaded = true ∧ s.streams[ix].load.map StreamLoad.handle = some h ∧
      s.streams[ix].readyHalf r = some j := by
  unfold State.rowSource
  dsimp only
  split
  · next hc =>
    simp only [Bool.and_eq_true, beq_iff_eq] at hc
    rw [← and_assoc, and_iff_right hc]
    cases s.streams[ix].readyHalf r <;> simp
  · next hc =>
    refine iff_of_false nofun fun ⟨h1, h2, _⟩ => hc ?_
    rw [h1, h2]
    simp

/-- The active pixels in a window's span (R91). -/
theorem coveredSpan_iff (x : Int) (w width k : Nat) :
    (∃ a b, coveredSpan x w width = some (a, b) ∧ a ≤ k ∧ k ≤ b) ↔
      x ≤ (k : Int) ∧ (k : Int) < x + (w : Int) ∧ k < width := by
  unfold coveredSpan
  dsimp only
  split
  · simp only [Option.some.injEq, Prod.mk.injEq]
    constructor
    · rintro ⟨a, b, ⟨rfl, rfl⟩, h1, h2⟩
      omega
    · intro h
      exact ⟨_, _, ⟨rfl, rfl⟩, by omega, by omega⟩
  · constructor
    · rintro ⟨a, b, h, -⟩
      cases h
    · intro h
      omega

/-- A SHOWN window covers an active line (R91). -/
def State.covers (s : State) (l : Nat) (ix : SlotIx) : Bool :=
  match s.table.body ix with
  | .opened _ .shown w => decide (w.geometry.y ≤ (l : Int) ∧ (l : Int) < w.geometry.y + w.geometry.height)
  | _ => false

/-- A slot takes a lane exactly where its window covers the line. -/
theorem State.laneFor_isSome (s : State) (l : Nat) (ix : SlotIx) : (s.laneFor l ix).isSome = s.covers l ix := by
  unfold State.laneFor State.covers
  cases hb : s.table.body ix with
  | opened o st w =>
    cases st with
    | shown =>
      dsimp only
      by_cases hy : w.geometry.y ≤ (l : Int) ∧ (l : Int) < w.geometry.y + (w.geometry.height : Int)
      · rw [if_pos hy, decide_eq_true hy]
        rfl
      · rw [if_neg hy, decide_eq_false hy]
        rfl
    | hidden => rfl
    | suspended => rfl
  | free => rfl
  | reserved o => rfl
  | queued o => rfl

/-- The lane that a slot takes. -/
theorem State.laneFor_some {s : State} {l : Nat} {ix : SlotIx} {lane : Lane} (h : s.laneFor l ix = some lane) :
    ∃ o w, s.table.body ix = .opened o .shown w ∧ w.geometry.y ≤ (l : Int) ∧
      lane = ⟨handleOf ix (s.table.gen ix), ((l : Int) - w.geometry.y).toNat, w.geometry.x,
        coveredSpan w.geometry.x w.geometry.width s.raster.profile.hActiveWidth, w.source.format, w.look.alpha,
        w.look.fill, w.look.key,
        s.rowSource ix (handleOf ix (s.table.gen ix)) ((l : Int) - w.geometry.y).toNat⟩ := by
  unfold State.laneFor at h
  split at h
  · next o w hb =>
    dsimp only at h
    split at h
    · next hy =>
      cases h
      exact ⟨o, w, hb, hy.1, rfl⟩
    · cases h
  · cases h

/-- The entries that a partial function picks from a list stand in the order of the elements it is defined on. -/
theorem getElem?_filterMap_eq {α β : Type} (f : α → Option β) (xs : List α) (n : Nat) :
    (xs.filterMap f)[n]? = ((xs.filter fun x => (f x).isSome)[n]?).bind f := by
  induction xs generalizing n with
  | nil => rfl
  | cons x xs ih =>
    rw [List.filterMap_cons, List.filter_cons]
    cases hx : f x with
    | none => simpa using ih n
    | some y =>
      cases n with
      | zero => simp [hx]
      | succ n => simpa using ih n

/-- Lane by lane, the covering windows from the bottom up. -/
theorem State.filledLanes_get (s : State) (l : Nat) (i : Fin 6) :
    (s.filledLanes l)[i] = ((s.table.zorder.filter (s.covers l))[i.val]?).bind (s.laneFor l) := by
  rw [show (s.filledLanes l)[i] = _ from tabLanes_get _ i, getElem?_filterMap_eq]
  simp only [State.laneFor_isSome]

/-- Every pixel that HALF lanes read lies in the store where their halves' rows do. -/
theorem State.lanesInStore_of {s : State} {x : Nat} (h : ∀ (n : Fin 6) (l : Lane) (i : HalfId), s.lanes[n] = some l →
    l.source = .half i → ∃ ix place, l.handle.ix? = some ix ∧ (s.streams[ix].half i).place = some place ∧
      ∀ a b, l.span = some (a, b) → a ≤ x → x ≤ b →
        place * 256 + (((x : Int) - l.x).toNat + 1) * l.format.bytesPerPixel ≤ 384 * 256) : s.lanesInStore x = true := by
  unfold State.lanesInStore
  rw [List.all_eq_true]
  intro lane hlane
  obtain ⟨n, hn, rfl⟩ := List.getElem_of_mem hlane
  have hn6 : n < 6 := by simpa using hn
  have hget : s.lanes.toList[n] = s.lanes[(⟨n, hn6⟩ : Fin 6)] := by simp
  rw [hget]
  cases hl : s.lanes[(⟨n, hn6⟩ : Fin 6)] with
  | none => rfl
  | some l =>
    dsimp only
    cases haddr : s.laneAddress l x with
    | none => rfl
    | some address =>
      unfold State.laneAddress at haddr
      split at haddr
      · next a b i hspan hsrc =>
        split at haddr
        · next hx =>
          obtain ⟨ix, place, hix, hplace, hle⟩ := h ⟨n, hn6⟩ l i hl hsrc
          have hin := hle a b hspan hx.1 hx.2
          have haddr' : s.laneAddress l x = some address := by
            unfold State.laneAddress
            rw [hspan, hsrc]
            exact (if_pos hx).trans haddr
          rw [State.laneAddress_half hspan hx.1 hx.2 hsrc hix hplace] at haddr'
          have hsame := Option.some.inj haddr'
          rw [← hsame]
          have hstore : storeBytes = 384 * 256 := by rw [storeBytes, Config.storeSegments, Config.segmentBytes]
          dsimp only
          rw [decide_eq_true_eq, hstore]
          rw [Nat.add_mul, one_mul, ← Nat.add_assoc] at hin
          exact hin
        · cases haddr
      · cases haddr

/-! ### The active-line start (R90, R111) -/

/-- The rows examined: a stream's starved flag is set where its row of the line is READY in no half (R111). -/
theorem Stream.examined_starved (st : Stream) (l : Nat) : ∃ b, st.examined l = { st with starved := b } ∧
    (b = true ↔ st.starved = true ∨ (st.loaded = true ∧ st.excused = false ∧
      ∃ ld r, st.load = some ld ∧ (l : Int) = ld.y + (r : Nat) ∧ rowVisible st.visible r = true ∧
        ∀ i, ¬ ((st.half i).row = some r ∧ (st.half i).cond = .ready ∧ (i = .b → st.halfA.row ≠ some r)))) := by
  have hrow : ∀ r, st.rowOn l = some r ↔ st.loaded = true ∧ (∃ ld, st.load = some ld ∧ (l : Int) = ld.y + (r : Int)) ∧
      rowVisible st.visible r = true := fun r => Stream.rowOn_iff
  have hready : ∀ r, st.readyHalf r = none ↔
      ∀ i, ¬ ((st.half i).row = some r ∧ (st.half i).cond = .ready ∧ (i = .b → st.halfA.row ≠ some r)) := fun r => by
    rw [Option.eq_none_iff_forall_not_mem]
    exact forall_congr' fun i => not_congr Stream.readyHalf_iff
  have hcond : (st.loaded = true ∧ st.excused = false ∧ ∃ ld r, st.load = some ld ∧ (l : Int) = ld.y + (r : Nat) ∧
      rowVisible st.visible r = true ∧
        ∀ i, ¬ ((st.half i).row = some r ∧ (st.half i).cond = .ready ∧ (i = .b → st.halfA.row ≠ some r))) ↔
      ∃ r, st.rowOn l = some r ∧ st.readyHalf r = none ∧ st.excused = false := by
    constructor
    · rintro ⟨h1, h2, ld, r, h3, h4, h5, h6⟩
      exact ⟨r, (hrow r).2 ⟨h1, ⟨ld, h3, h4⟩, h5⟩, (hready r).2 h6, h2⟩
    · rintro ⟨r, h, h6, h2⟩
      obtain ⟨h1, ⟨ld, h3, h4⟩, h5⟩ := (hrow r).1 h
      exact ⟨h1, h2, ld, r, h3, h4, h5, (hready r).1 h6⟩
  rw [hcond]
  unfold Stream.examined
  cases hr : st.rowOn l with
  | none => exact ⟨st.starved, rfl, by simp⟩
  | some r =>
    dsimp only
    split
    · next hc =>
      refine ⟨st.starved, rfl, (or_iff_left ?_).symm⟩
      rintro ⟨r', h', hn, he⟩
      cases h'
      rw [hn, he] at hc
      exact Bool.false_ne_true hc
    · next hc =>
      refine ⟨true, rfl, iff_of_true rfl (.inr ⟨r, rfl, ?_, ?_⟩)⟩
      · cases hn : st.readyHalf r with
        | none => rfl
        | some i => rw [hn] at hc; exact absurd rfl hc
      · cases he : st.excused with
        | false => rfl
        | true => rw [he, Bool.or_true] at hc; exact absurd rfl hc

/-- The lanes filled read pixels that lie in the store, where the READY rows do (R94, R106). -/
theorem State.withLine_lanesInStore {s : State} (hrows : RowsInStore s) (l x : Nat) : (s.withLine l).lanesInStore x = true := by
  refine State.lanesInStore_of fun n lane i hn hsrc => ?_
  have hlane : (s.withLine l).lanes[n] = (if s.raster.output = .live then s.filledLanes l else vacantLanes)[n] := rfl
  rw [hn] at hlane
  split at hlane
  · rw [State.filledLanes_get] at hlane
    obtain ⟨ix, -, hix⟩ := Option.bind_eq_some_iff.1 hlane.symm
    obtain ⟨o, w, hb, hy, rfl⟩ := State.laneFor_some hix
    obtain ⟨-, -, hready⟩ := State.rowSource_half.1 hsrc
    obtain ⟨place, o', st', w', hplace, hb', hin⟩ := hrows ix i (Stream.readyHalf_iff.1 hready).2.1
    obtain ⟨-, -, rfl⟩ := SlotBody.opened.inj (hb.symm.trans hb')
    refine ⟨ix, place, handleOf_ix _ _, hplace, fun a b hspan ha hb => le_trans (Nat.add_le_add_left ?_ _) hin⟩
    obtain ⟨h1, h2, -, -⟩ := coveredSpan_some hspan
    exact Nat.mul_le_mul_right _ (by dsimp only; omega)
  · rw [vacantLanes_get] at hlane
    cases hlane

theorem State.lanesInStore_congr {s t : State} (hl : t.lanes = s.lanes)
    (hp : ∀ (ix : SlotIx) i, (t.streams[ix].half i).place = (s.streams[ix].half i).place) (x : Nat) :
    t.lanesInStore x = s.lanesInStore x := by
  have haddr : ∀ l, t.laneAddress l x = s.laneAddress l x := fun l => by
    unfold State.laneAddress State.laneHalf
    cases l.handle.ix? with
    | none => rfl
    | some ix => simp only [Option.map_some, Option.bind_some, Half.pixelAddress, hp]
  unfold State.lanesInStore
  simp only [hl, haddr]

/-- The pins of an active position. -/
theorem State.positionPins_active {s : State} (ha : s.raster.profile.activeAt s.raster.line s.raster.pixel = true) :
    s.positionPins = ⟨s.raster.profile.hsAt s.raster.pixel, s.raster.profile.vsAt s.raster.line, true,
      if s.raster.output = .live then (s.composed (s.raster.pixel - s.raster.profile.hActiveStart)).pd
        else s.lineBackground.pd⟩ := by
  unfold State.positionPins
  dsimp only
  rw [ha]
  cases s.raster.output <;> rfl

/-- An active-line start whose event alone is due: the line's lanes and background, and the rows examined. -/
theorem State.activeLineStart_eq {s : State} {l : Nat} (hdue : s.raster.due = [.activeLineStart l]) :
    (s.tookEvent (.activeLineStart l)).activeLineStartAct l = { s.withLine l with
      streams := tabSlots fun ix => s.streams[ix].examined l
      raster := { s.raster with due := [], linesBegun := l + 1 } } := by
  rw [State.tookEvent_head (by rw [hdue]; rfl), hdue]
  rfl

/-- Settles O43: the lanes by the windows that cover the line, the streams by their rows, and the pins of the line's first
pixel. -/
theorem activeLineStartFills : Obligations.ActiveLineStartFills := by
  intro s l hdue law ho hrows covers readyRow
  obtain ⟨-, hon, -⟩ := law
  obtain ⟨hvalid, -, -, hevents, hhs, hvs, hde, -⟩ := hon ho
  obtain ⟨⟨-, -, -, hwidth, -⟩, -⟩ := Profile.valid_iff.1 hvalid
  obtain ⟨hline, hpixel⟩ : (s.raster.profile.vActiveStart ≤ s.raster.line ∧
      s.raster.line < s.raster.profile.vActiveStart + s.raster.profile.vActiveHeight) ∧
      s.raster.pixel = s.raster.profile.hActiveStart := by
    have he := Profile.mem_eventsAt.1 (hevents (.activeLineStart l) (by rw [hdue]; exact List.mem_singleton_self _))
    obtain ⟨-, h | ⟨-, h⟩⟩ | ⟨hin, ⟨hq, h⟩ | ⟨-, h | ⟨-, h⟩⟩⟩ := he
    · cases h
    · cases h
    · exact ⟨hin, hq⟩
    · cases h
    · cases h
  have hactive : s.raster.profile.activeAt s.raster.line s.raster.pixel = true := by
    unfold Profile.activeAt inInterval
    rw [decide_eq_true hline, decide_eq_true (by omega), Bool.and_self]
  generalize hv : (s.tookEvent (.activeLineStart l)).activeLineStartAct l = v
  rw [State.activeLineStart_eq hdue] at hv
  have hraster : v.raster = { s.raster with due := [], linesBegun := l + 1 } := by rw [← hv]
  have hlanes : v.lanes = if s.raster.output = .live then s.filledLanes l else vacantLanes := by rw [← hv]; rfl
  have hstreams : ∀ ix : SlotIx, v.streams[ix] = s.streams[ix].examined l := fun ix => by
    rw [← hv]
    exact tabSlots_get _ ix
  have hstart : v.atLineStart = v := by
    unfold State.atLineStart Raster.lineStartDue
    rw [hraster]
    rfl
  have hstore : v.lanesInStore 0 = true := by
    rw [State.lanesInStore_congr (s := s.withLine l) (by rw [hlanes]; rfl) fun ix i => ?_]
    · exact State.withLine_lanesInStore hrows l 0
    · rw [hstreams, (Stream.examined_fields _ l).2.2 i]
      rfl
  have hex : exec .activeLineStart s = .next v.pinsDriven := by
    show execActiveLineStart s = _
    unfold execActiveLineStart State.nextEvent
    rw [hdue]
    show ((s.tookEvent (.activeLineStart l)).activeLineStartAct l).drive = _
    rw [State.activeLineStart_eq hdue, hv]
    unfold State.drive
    refine if_neg ?_
    have hx : v.raster.pixel - v.raster.profile.hActiveStart = 0 := by rw [hraster]; exact Nat.sub_eq_zero_of_le (le_of_eq hpixel)
    unfold State.pixelFault
    dsimp only
    rw [hx, hstart, hstore]
    simp
  refine ⟨v.pinsDriven, hex, ?_, hraster, fun hsync i => ?_, fun hlive i => ?_, fun ix => ?_, ?_, ?_⟩
  · show v.lineBackground = _
    rw [← hv]
    rfl
  · show v.lanes[i] = _
    rw [hlanes, if_neg (by rw [hsync]; nofun)]
    exact vacantLanes_get i
  · have hcovers : covers = s.covers l := rfl
    have hi : v.pinsDriven.lanes[i] = ((s.table.zorder.filter covers)[i.val]?).bind (s.laneFor l) := by
      rw [hcovers, ← State.filledLanes_get]
      show v.lanes[i] = _
      rw [hlanes, if_pos hlive]
    cases hz : (s.table.zorder.filter covers)[i.val]? with
    | none => rw [hi, hz]; rfl
    | some ix =>
      have hcov : s.covers l ix = true := hcovers ▸ (List.mem_filter.1 (List.mem_of_getElem? hz)).2
      rw [← State.laneFor_isSome, Option.isSome_iff_exists] at hcov
      obtain ⟨lane, hlane⟩ := hcov
      obtain ⟨o, w, hb, hy, rfl⟩ := State.laneFor_some hlane
      have hget := (by rw [hi, hz]; exact hlane : v.pinsDriven.lanes[i] = some _)
      refine ⟨_, o, w, hget, hb, rfl, ?_, rfl, rfl, rfl, rfl, rfl, fun x => coveredSpan_iff _ _ _ x, fun j => ?_⟩
      · dsimp only
        omega
      · exact State.rowSource_half.trans (and_congr_right fun _ => and_congr_right fun _ => Stream.readyHalf_iff)
  · obtain ⟨b, hb, hiff⟩ := Stream.examined_starved s.streams[ix] l
    exact ⟨b, (hstreams ix).trans hb, hiff⟩
  · have hpins : v.pinsDriven.pins = v.positionPins := congrArg State.positionPins hstart
    have hzero : s.raster.pixel - s.raster.profile.hActiveStart = 0 := by omega
    have hback : v.lineBackground = s.table.background := by rw [← hv]; rfl
    have hsame : v.pinsDriven.composed 0 = v.composed 0 := rfl
    rw [hpins, State.positionPins_active (by rw [hraster]; exact hactive), hraster, hback, hsame]
    dsimp only
    rw [hzero, ← hhs, ← hvs, ← hactive, ← hde]
  · refine ⟨v.lanes, v.lineBackground, v.streams, v.raster, v.pinsDriven.pins, ?_⟩
    rw [← hv]
    rfl

end Sys2Proof.Machine
end

section
/-! PROOF. The rising edge of PCLK (R71 to R75, R84). -/

namespace Sys2Proof.Machine

/-! ### What the pins of a position are drawn from -/

/-- Two states that draw the same pixel at the same position: the raster's position and output, the lanes, the background
of the line, the store and the places of the halves in it. -/
structure State.DrawsAs (s t : State) : Prop where
  profile : t.raster.profile = s.raster.profile
  pixel : t.raster.pixel = s.raster.pixel
  line : t.raster.line = s.raster.line
  output : t.raster.output = s.raster.output
  lanes : t.lanes = s.lanes
  background : t.lineBackground = s.lineBackground
  store : t.store = s.store
  place : ∀ (ix : SlotIx) i, (t.streams[ix].half i).place = (s.streams[ix].half i).place

theorem State.laneAddress_congr {s t : State} (hp : ∀ (ix : SlotIx) i, (t.streams[ix].half i).place =
    (s.streams[ix].half i).place) (l : Lane) (x : Nat) : t.laneAddress l x = s.laneAddress l x := by
  unfold State.laneAddress State.laneHalf
  cases l.handle.ix? with
  | none => rfl
  | some ix => simp only [Option.map_some, Option.bind_some, Half.pixelAddress, hp]

theorem State.composed_congr {s t : State} (hl : t.lanes = s.lanes) (hb : t.lineBackground = s.lineBackground)
    (hs : t.store = s.store) (hp : ∀ (ix : SlotIx) i, (t.streams[ix].half i).place = (s.streams[ix].half i).place)
    (x : Nat) : t.composed x = s.composed x := by
  unfold State.composed State.layLane
  simp only [hl, hb, hs, State.laneAddress_congr hp]

theorem State.DrawsAs.pins {s t : State} (h : s.DrawsAs t) : t.positionPins = s.positionPins := by
  obtain ⟨hprofile, hpixel, hline, houtput, hl, hb, hs, hp⟩ := h
  unfold State.positionPins
  simp only [hprofile, hpixel, hline, houtput, hb, State.composed_congr hl hb hs hp]

/-- The lanes of an active line are those of the table, the streams, the width and the output. -/
theorem State.withLine_lanes_congr {s t : State} (ht : t.table = s.table) (hs : t.streams = s.streams)
    (hp : t.raster.profile = s.raster.profile) (ho : t.raster.output = s.raster.output) (l : Nat) :
    (t.withLine l).lanes = (s.withLine l).lanes := by
  unfold State.withLine State.filledLanes State.laneFor State.rowSource
  simp only [ht, hs, hp, ho]

/-! ### The events of a position (R72, R73) -/

theorem if_cons_if {α : Type} (A B : Prop) [Decidable A] [Decidable B] (x y : α) :
    (if A then x :: (if B then [y] else []) else []) = (if A then [x] else []) ++ (if A ∧ B then [y] else []) := by
  by_cases hA : A
  · by_cases hB : B <;> simp [hA, hB]
  · simp [hA]

theorem if_append {α : Type} (L : Prop) [Decidable L] (xs ys : List α) :
    (if L then xs ++ ys else []) = (if L then xs else []) ++ (if L then ys else []) := by
  by_cases hL : L <;> simp [hL]

theorem if_if {α : Type} (L C : Prop) [Decidable L] [Decidable C] (xs : List α) :
    (if L then (if C then xs else []) else []) = if L ∧ C then xs else [] := by
  by_cases hL : L <;> simp [hL]

/-- The events of a position, each by its own condition. -/
theorem Profile.eventsAt_eq (p : Profile) (l q : Nat) : p.eventsAt l q =
    (if q = 0 then [RasterEvent.lineStart l] else []) ++
      (if q = 0 ∧ l = p.vActiveStart + p.vActiveHeight then [.frameTurn] else []) ++
      (if (p.vActiveStart ≤ l ∧ l < p.vActiveStart + p.vActiveHeight) ∧ q = p.hActiveStart
        then [.activeLineStart (l - p.vActiveStart)] else []) ++
      (if (p.vActiveStart ≤ l ∧ l < p.vActiveStart + p.vActiveHeight) ∧ q = p.hActiveStart + p.hActiveWidth
        then [.activeLineEnd (l - p.vActiveStart)] else []) ++
      (if (p.vActiveStart ≤ l ∧ l < p.vActiveStart + p.vActiveHeight) ∧ q = p.hActiveStart + p.hActiveWidth ∧
        l + 1 = p.vActiveStart + p.vActiveHeight then [.activeEnd] else []) := by
  unfold Profile.eventsAt inInterval
  simp only [decide_eq_true_eq]
  rw [if_cons_if, if_cons_if, if_append, if_append, if_if, if_if, if_if]
  have hlast : ((p.vActiveStart ≤ l ∧ l < p.vActiveStart + p.vActiveHeight) ∧ q = p.hActiveStart + p.hActiveWidth ∧
      l - p.vActiveStart + 1 = p.vActiveHeight) ↔ ((p.vActiveStart ≤ l ∧ l < p.vActiveStart + p.vActiveHeight) ∧
        q = p.hActiveStart + p.hActiveWidth ∧ l + 1 = p.vActiveStart + p.vActiveHeight) := by omega
  simp only [hlast, List.append_assoc]

theorem Profile.eventsAt_nodup (p : Profile) (l q : Nat) : (p.eventsAt l q).Nodup := by
  unfold Profile.eventsAt
  split_ifs <;> simp

/-- The position after the next edge (R71). -/
theorem Raster.advanced_eq {r : Raster} (hp : r.pixel < r.profile.hTotal) (hl : r.line < r.profile.vTotal) : r.advanced =
    { r with
      pixel := if r.pixel + 1 = r.profile.hTotal then 0 else r.pixel + 1
      line := if r.pixel + 1 = r.profile.hTotal then (if r.line + 1 = r.profile.vTotal then 0 else r.line + 1) else r.line
      due := r.profile.eventsAt
        (if r.pixel + 1 = r.profile.hTotal then (if r.line + 1 = r.profile.vTotal then 0 else r.line + 1) else r.line)
        (if r.pixel + 1 = r.profile.hTotal then 0 else r.pixel + 1) } := by
  have hwrap : r.profile.hTotal ≤ r.pixel + 1 ↔ r.pixel + 1 = r.profile.hTotal := by omega
  have hturn : r.profile.vTotal ≤ r.line + 1 ↔ r.line + 1 = r.profile.vTotal := by omega
  unfold Raster.advanced
  simp only [hwrap, hturn, decide_eq_true_eq]

/-! ### The edge -/

/-- With events due, the first of them comes about as its row makes it, and the edge meets the rest. -/
theorem exec_pclk_due {s : State} {e : RasterEvent} {rest : List RasterEvent} (ho : s.raster.output ≠ .off)
    (hd : s.raster.due = e :: rest) : exec .pclkRisingEdge s = match exec e.row s with
      | .next t => exec .pclkRisingEdge t
      | .fault f => .fault f
      | .refused r => .refused r := by
  have hrow : exec e.row s = s.takeEvent e := by
    cases e with
    | lineStart l => show execLineStart s = _; unfold execLineStart State.nextEvent; rw [hd]; rfl
    | frameTurn => exact if_pos (by simp [Raster.takeable, hd])
    | activeLineStart l => show execActiveLineStart s = _; unfold execActiveLineStart State.nextEvent; rw [hd]; rfl
    | activeLineEnd l => show execActiveLineEnd s = _; unfold execActiveLineEnd State.nextEvent; rw [hd]; rfl
    | activeEnd => show execActiveEnd s = _; unfold execActiveEnd State.nextEvent; rw [hd]; rfl
  have hedge : exec .pclkRisingEdge s = match State.takeEvents s.raster.due s with
      | .next t => t.advance
      | .fault f => .fault f
      | .refused r => .refused r := if_neg ho
  rw [hedge, hd, State.takeEvents, hrow]
  cases he : s.takeEvent e with
  | fault f => rfl
  | refused r => rfl
  | next t =>
    obtain ⟨hdue, hout⟩ := State.takeEvent_next he
    have hrest : t.raster.due = rest := by rw [hdue, hd]; simp
    have hnext : exec .pclkRisingEdge t = match State.takeEvents t.raster.due t with
        | .next t => t.advance
        | .fault f => .fault f
        | .refused r => .refused r := if_neg (hout ho)
    dsimp only
    rw [hnext, hrest]

/-- The frame turn is emitted at the first pixel of its line (R73). -/
theorem Profile.turn_eventsAt (p : Profile) (l q : Nat) :
    RasterEvent.frameTurn ∈ p.eventsAt l q ↔ q = 0 ∧ l = p.vActiveStart + p.vActiveHeight := by
  simp [Profile.mem_eventsAt]

/-- The next position reached: the counters, its events, and the arbiter where it is the frame turn's (R71 to R73, R84). -/
theorem State.reached_eq {s : State} {l q : Nat} {due : List RasterEvent}
    (hadv : s.raster.advanced = { s.raster with pixel := q, line := l, due := due }) : ∃ u,
      (if RasterEvent.frameTurn ∈ due then s.requestPends u else u = s) ∧
      (u = s ∨ u = s.requested) ∧
      s.reached = { u with raster := { u.raster with pixel := q, line := l, due := due } } := by
  have hadv' : ∀ target, ({ s.raster with target := target } : Raster).advanced =
      { s.raster with target := target, pixel := q, line := l, due := due } := fun target =>
    congrArg (fun r : Raster => ({ r with target := target } : Raster)) hadv
  have hdue : s.raster.advanced.due = due := by rw [hadv]
  unfold State.reached
  rw [hdue]
  by_cases hturn : RasterEvent.frameTurn ∈ due
  · refine ⟨s.requested, ?_, .inr rfl, ?_⟩
    · rw [if_pos hturn]
      exact State.requested_spec s
    · obtain ⟨target, hr, -⟩ := State.requested_raster s
      rw [if_pos (by simpa using hturn)]
      dsimp only
      rw [hr, hadv']
  · refine ⟨s, ?_, .inl rfl, ?_⟩
    · rw [if_neg hturn]
    · rw [if_neg (by simpa using hturn)]
      dsimp only
      rw [hadv]

/-- A command taken before a request leaves what the pins are drawn from, but the target. -/
theorem State.requested_drawsAs {s u : State} (hu : u = s ∨ u = s.requested) : u.table = s.table ∧ u.streams = s.streams ∧
    u.lanes = s.lanes ∧ u.lineBackground = s.lineBackground ∧ u.store = s.store ∧
    ∃ target, u.raster = { s.raster with target := target } := by
  obtain rfl | rfl := hu
  · exact ⟨rfl, rfl, rfl, rfl, rfl, _, rfl⟩
  · obtain ⟨target, hr, -⟩ := State.requested_raster s
    exact ⟨State.requested_table s, State.requested_streams s, State.requested_lanes s, State.requested_lineBackground s,
      State.requested_store s, target, hr⟩

/-- The lanes, the background and the streams that the pixel of a position is drawn from (R75). -/
def State.seenAt (s : State) (p : Profile) (l q : Nat) : State :=
  if (p.vActiveStart ≤ l ∧ l < p.vActiveStart + p.vActiveHeight) ∧ q = p.hActiveStart
    then s.withLine (l - p.vActiveStart) else s

/-- The state that an edge draws its pins from. -/
theorem State.atLineStart_drawsAs {s u : State} {l q : Nat} (hu : u = s ∨ u = s.requested) :
    ({ s.seenAt s.raster.profile l q with raster := { s.raster with pixel := q, line := l } } : State).DrawsAs
      ({ u with raster := { u.raster with pixel := q, line := l, due := s.raster.profile.eventsAt l q } } : State).atLineStart := by
  obtain ⟨ht, hs, hl, hb, hstore, target, hr⟩ := State.requested_drawsAs hu
  generalize hw : ({ u with raster := { u.raster with pixel := q, line := l, due := s.raster.profile.eventsAt l q } } : State) = w
  have hwr : w.raster = { s.raster with target := target, pixel := q, line := l, due := s.raster.profile.eventsAt l q } := by
    rw [← hw, hr]
  have hdue : w.raster.lineStartDue = if inInterval s.raster.profile.vActiveStart s.raster.profile.vActiveHeight l = true ∧
      q = s.raster.profile.hActiveStart then some (l - s.raster.profile.vActiveStart) else none :=
    Raster.lineStartDue_eventsAt (by rw [hwr])
  have hwt : w.table = s.table := by rw [← hw, ← ht]
  have hws : w.streams = s.streams := by rw [← hw, ← hs]
  have hwl : w.lanes = s.lanes := by rw [← hw, ← hl]
  have hwb : w.lineBackground = s.lineBackground := by rw [← hw, ← hb]
  have hwst : w.store = s.store := by rw [← hw, ← hstore]
  unfold State.atLineStart State.seenAt
  rw [hdue]
  simp only [inInterval, decide_eq_true_eq]
  by_cases hfirst : (s.raster.profile.vActiveStart ≤ l ∧ l < s.raster.profile.vActiveStart + s.raster.profile.vActiveHeight) ∧
      q = s.raster.profile.hActiveStart
  · rw [if_pos hfirst, if_pos hfirst]
    exact ⟨by show w.raster.profile = _; rw [hwr], by show w.raster.pixel = _; rw [hwr], by show w.raster.line = _; rw [hwr],
      by show w.raster.output = _; rw [hwr], State.withLine_lanes_congr hwt hws (by rw [hwr]) (by rw [hwr]) _,
      by show w.table.background = s.table.background; rw [hwt],
      hwst, fun ix i => by show (w.streams[ix].half i).place = _; rw [hws]; rfl⟩
  · rw [if_neg hfirst, if_neg hfirst]
    exact ⟨by rw [hwr], by rw [hwr], by rw [hwr], by rw [hwr], hwl, hwb, hwst, fun ix i => by rw [hws]⟩

/-- The first pixel of an active line, whose events are its active-line start and, at the line's first position, the line
start before it. -/
theorem Profile.eventsAt_first {p : Profile} {l q : Nat} (hv : p.valid = true)
    (hl : p.vActiveStart ≤ l ∧ l < p.vActiveStart + p.vActiveHeight) (hq : q = p.hActiveStart) :
    p.eventsAt l q = if q = 0 then [.lineStart l, .activeLineStart (l - p.vActiveStart)]
      else [.activeLineStart (l - p.vActiveStart)] := by
  obtain ⟨⟨-, -, -, hwidth, -⟩, -⟩ := Profile.valid_iff.1 hv
  subst hq
  have hend : p.hActiveStart ≠ p.hActiveStart + p.hActiveWidth := by omega
  have hturn : l ≠ p.vActiveStart + p.vActiveHeight := by omega
  rw [Profile.eventsAt_eq]
  simp only [hl, hend, hturn, and_false, false_and, and_self, if_false, if_true, List.append_nil]
  split <;> rfl

/-- The active-line start of the position finds the pins at its own levels (log 7). -/
theorem exec_activeLineStart_pins {s t : State} {l q : Nat} {pins : Pins} (hv : s.raster.profile.valid = true)
    (hl : s.raster.profile.vActiveStart ≤ l ∧ l < s.raster.profile.vActiveStart + s.raster.profile.vActiveHeight)
    (hq : q = s.raster.profile.hActiveStart)
    (hpins : pins = ({ s.seenAt s.raster.profile l q with raster := { s.raster with pixel := q, line := l } } : State).positionPins)
    (h : exec .activeLineStart { s with
      raster := { s.raster with pixel := q, line := l, due := s.raster.profile.eventsAt l q }, pins := pins } = .next t) :
    t.pins = pins := by
  generalize hx : ({ s with
    raster := { s.raster with pixel := q, line := l, due := s.raster.profile.eventsAt l q }, pins := pins } : State) = x at h
  have hdue : x.raster.due = if q = 0 then [.lineStart l, .activeLineStart (l - s.raster.profile.vActiveStart)]
      else [.activeLineStart (l - s.raster.profile.vActiveStart)] := by
    rw [← hx]
    exact Profile.eventsAt_first hv hl hq
  change execActiveLineStart x = .next t at h
  unfold execActiveLineStart State.nextEvent at h
  split_ifs at hdue with h0
  · rw [hdue] at h
    rw [next_inj h, ← hx]
  · rw [hdue] at h
    change ((x.tookEvent _).activeLineStartAct _).drive = .next t at h
    rw [State.activeLineStart_eq hdue] at h
    obtain ⟨-, rfl⟩ := State.drive_next h
    rw [hpins]
    refine State.DrawsAs.pins (t := State.atLineStart _) ?_
    have hseen : s.seenAt s.raster.profile l q = s.withLine (l - s.raster.profile.vActiveStart) := if_pos ⟨hl, hq⟩
    rw [hseen]
    have hlanes := State.withLine_lanes_congr (s := s) (t := x) (by rw [← hx]) (by rw [← hx]) (by rw [← hx]) (by rw [← hx])
      (l - s.raster.profile.vActiveStart)
    refine ⟨?_, ?_, ?_, ?_, hlanes, ?_, ?_, fun ix i => ?_⟩
    · show x.raster.profile = s.raster.profile
      rw [← hx]
    · show x.raster.pixel = q
      rw [← hx]
    · show x.raster.line = l
      rw [← hx]
    · show x.raster.output = s.raster.output
      rw [← hx]
    · show x.table.background = s.table.background
      rw [← hx]
    · show x.store = s.store
      rw [← hx]
    · show (((tabSlots fun ix => x.streams[ix].examined (l - s.raster.profile.vActiveStart))[ix]).half i).place = _
      rw [tabSlots_get, (Stream.examined_fields _ _).2.2 i, ← hx]
      rfl

/-- Settles O39: the edge in OFF, with events due, and with none. -/
theorem pclkEdgeAdvances : Obligations.PclkEdgeAdvances := by
  refine fun s => ⟨fun ho => if_pos ho, fun e rest ho hd => exec_pclk_due ho hd, ?_⟩
  intro ho hnone law p q l lineActive active first seen hstore
  obtain ⟨hvalid, hpixel, hline, -⟩ := law.2.1 ho
  have hadv : s.raster.advanced = { s.raster with pixel := q, line := l, due := p.eventsAt l q } :=
    Raster.advanced_eq hpixel hline
  obtain ⟨u, hu, hcase, hreached⟩ := State.reached_eq hadv
  have hseen : seen = s.seenAt p l q := rfl
  have hactive : p.activeAt l q = true ↔ active := by
    simp only [Profile.activeAt, inInterval, Bool.and_eq_true, decide_eq_true_eq]
    rfl
  generalize hw : ({ u with raster := { u.raster with pixel := q, line := l, due := p.eventsAt l q } } : State) = w at hreached
  have hdraw : ({ seen with raster := { s.raster with pixel := q, line := l } } : State).DrawsAs w.atLineStart := by
    rw [← hw]
    exact State.atLineStart_drawsAs hcase
  have hpins : w.pinsDriven.pins = ({ seen with raster := { s.raster with pixel := q, line := l } } : State).positionPins :=
    hdraw.pins
  have hpixels : w.pinsDriven.pins = ⟨p.hsAt q, p.vsAt l, p.activeAt l q, if p.activeAt l q then
      (if s.raster.output = .live then (seen.composed (q - p.hActiveStart)).pd else seen.lineBackground.pd) else 0⟩ := by
    rw [hpins]
    unfold State.positionPins
    dsimp only
    cases s.raster.output <;> rfl
  have hwr : w.raster = { u.raster with pixel := q, line := l, due := p.eventsAt l q } := by rw [← hw]
  have hfault : w.pixelFault = false := by
    obtain ⟨-, -, -, -, -, target, hr⟩ := State.requested_drawsAs hcase
    unfold State.pixelFault
    dsimp only
    have hstores : w.atLineStart.lanesInStore (q - p.hActiveStart) = seen.lanesInStore (q - p.hActiveStart) :=
      State.lanesInStore_congr hdraw.lanes hdraw.place _
    rw [hwr, hr]
    show (s.raster.output == .live && p.activeAt l q && !w.atLineStart.lanesInStore (q - p.hActiveStart)) = false
    rw [hstores]
    by_cases ha : s.raster.output = .live ∧ active
    · rw [hstore ha.1 ha.2]
      simp
    · rw [← hactive] at ha
      cases hout : s.raster.output with
      | live =>
        have : p.activeAt l q = false := Bool.eq_false_iff.2 fun h => ha ⟨hout, h⟩
        rw [this]
        rfl
      | off => rfl
      | syncOnly => rfl
  have hex : exec .pclkRisingEdge s = .next w.pinsDriven := by
    show execPclkRisingEdge s = _
    unfold execPclkRisingEdge
    rw [if_neg ho, hnone]
    show s.reached.drive = _
    rw [hreached]
    unfold State.drive
    rw [hfault]
    rfl
  refine ⟨p.eventsAt l q, w.pinsDriven.pins, u, ?_, ?_, ?_, ?_, ?_, fun hna => ?_, fun ha hsync => ?_, fun ha hlive => ?_,
    fun t hf ht => ?_, Profile.eventsAt_eq p l q, Profile.eventsAt_nodup p l q⟩
  · rw [hex, ← hw]
    rfl
  · simpa only [Profile.turn_eventsAt] using hu
  · rw [hpixels]
    simp only [Profile.hsAt, inInterval, Polarity.level_eq, decide_eq_true_eq]
  · rw [hpixels]
    simp only [Profile.vsAt, inInterval, Polarity.level_eq, decide_eq_true_eq]
  · rw [hpixels]
    exact hactive
  · rw [hpixels]
    exact if_neg fun h => hna (hactive.1 h)
  · rw [hpixels]
    dsimp only
    rw [if_pos (hactive.2 ha), if_neg (by rw [hsync]; nofun), hseen, State.seenAt]
    by_cases hf : first
    · rw [if_pos hf, if_pos hf]
      rfl
    · rw [if_neg hf, if_neg hf]
  · rw [hpixels]
    dsimp only
    rw [if_pos (hactive.2 ha), if_pos hlive]
  · exact exec_activeLineStart_pins hvalid hf.1 hf.2 hpins ht

end Sys2Proof.Machine
end

section
/-! PROOF. What the table controller tells the fetch engine: a suspension request taken, OUTPUT_STOP, and the frame turn
(R7, R46 to R50, R83, R93, R105 to R108). -/

namespace Sys2Proof.Machine

/-! ### A suspension request taken (R7, R121) -/

/-- The streams after one stop (R108). -/
theorem State.stopStream_streams (s : State) (ix jx : SlotIx) : (s.stopStream ix).streams[jx] =
    if jx = ix ∧ s.streams[jx].loaded = true then s.streams[jx].stopped else s.streams[jx] := by
  rw [State.stopStream, State.stopStreams_streams]
  simp only [beq_iff_eq]

/-- A tag after one stop (R131). -/
theorem State.stopStream_tags (s : State) (ix : SlotIx) (k : TagIx) : (s.stopStream ix).mem.tags[k] =
    (s.mem.tags[k]).mark fun e => decide (e.handle.ix? = some ix ∧ s.streams[ix].loaded = true) := by
  have h := s.stopStreams_tags (fun i => i == ix) k
  rw [State.stopStream]
  cases hk : s.mem.tags[k] with
  | free => rw [hk] at h; exact h
  | quarantined e => rw [hk] at h; exact h
  | waiting e =>
    rw [hk] at h
    obtain ⟨d, h, hd⟩ := h
    have hiff : d = true ↔ e.discard = true ∨ (e.handle.ix? = some ix ∧ s.streams[ix].loaded = true) := by
      rw [hd]
      refine or_congr_right ⟨fun ⟨jx, h1, h2, h3⟩ => ?_, fun ⟨h1, h2⟩ => ⟨ix, h1, by simp, h2⟩⟩
      obtain rfl := beq_iff_eq.1 h2
      exact ⟨h1, h3⟩
    rw [h]
    simp only [Tag.mark, decide_eq_true_eq]
    split
    · rw [hiff.2 (.inr ‹_›)]
    · obtain rfl : d = e.discard := Bool.eq_iff_iff.2 (hiff.trans (or_iff_left ‹_›))
      rfl

/-- A lane after one stop (R93). -/
theorem State.stopStream_lanes (s : State) (ix : SlotIx) (i : Fin 6) : (s.stopStream ix).lanes[i] =
    (s.lanes[i]).filter fun l => decide (l.handle.ix? ≠ some ix) := by
  have h := s.stopStreams_lanes (fun i => i == ix) i
  rw [State.stopStream]
  cases hi : s.lanes[i] with
  | none => rw [hi] at h; exact h
  | some l =>
    rw [hi] at h
    by_cases hl : l.handle.ix? = some ix
    · rw [h.1 ⟨ix, hl, by simp⟩]
      exact (Option.filter_eq_none_iff.2 fun l' hl' => by cases hl'; simp [hl]).symm
    · rw [h.2 fun jx hj => by rw [beq_eq_false_iff_ne]; rintro rfl; exact hl hj]
      exact (Option.filter_some_pos (by simp [hl])).symm

/-- The head request taken is dropped from the list and acted on. -/
theorem exec_suspensionRequestTaken {s : State} {h : Handle} {rest : List Handle} (hfree : s.free)
    (hs : s.suspensions = h :: rest) (ht : ∀ turn, s.turn = some turn → 0 < turn.ahead) :
    exec .suspensionRequestTaken s = .next (s.dropRequest.suspend h) := by
  have hg : s.grants .suspension = true := State.grants_suspension.2 ⟨hfree, by rw [hs]; nofun, ht⟩
  simp only [exec, execSuspensionRequestTaken, hg, ↓reduceIte, hs]

/-- A request for a window SHOWN in its own generation suspends it. -/
theorem State.suspend_shown {s : State} {h : Handle} {ix : SlotIx} {o : Port} {w : Window} (hix : h.ix? = some ix)
    (hb : s.table.body ix = .opened o .shown w) (hg : s.table.gen ix = h.gen) : s.suspend h =
      (({ s with table := s.table.setBody ix (.opened o .suspended w) } : State).stopStream ix).postSuspended o ix h.gen := by
  unfold State.suspend
  simp only [hix, hb, hg, ↓reduceIte]

/-- Any other request is ignored. -/
theorem State.suspend_ignored {s : State} {h : Handle} (hn : ∀ (ix : SlotIx) (o : Port) (w : Window), h.ix? = some ix →
    s.table.body ix = .opened o .shown w → s.table.gen ix ≠ h.gen) : s.suspend h = s := by
  obtain he | ⟨ix, o, w, hix, hb, hg, -⟩ := s.suspend_cases h
  · exact he
  · exact absurd hg (hn ix o w hix hb)

/-- Settles O27: the request dropped, then one window suspended with its stream stopped, or nothing. -/
theorem suspensionTaken : Obligations.SuspensionTaken := by
  intro s h rest hfree hs hturn s'
  have hdrop : s.dropRequest = s' := by simp only [State.dropRequest, hs, List.tail_cons, s']
  have hex := exec_suspensionRequestTaken hfree hs hturn
  rw [hdrop] at hex
  refine ⟨fun ix o w hix hb hg => ?_, fun hn => ?_⟩
  · have hsus := State.suspend_shown (s := s') hix hb hg
    generalize hu : ({ s' with table := s'.table.setBody ix (.opened o .suspended w) } : State) = u at hsus
    have hstreams : u.streams = s.streams := by rw [← hu]
    have hmem : u.mem = s.mem := by rw [← hu]
    have hlanes : u.lanes = s.lanes := by rw [← hu]
    have hlink : ∀ p, u.link p = s.link p := fun p => by rw [← hu]; cases p <;> rfl
    have hst : ∀ jx : SlotIx, (s'.suspend h).streams[jx] =
        if jx = ix ∧ s.streams[jx].loaded = true then s.streams[jx].stopped else s.streams[jx] := fun jx => by
      rw [hsus, State.postSuspended_streams, State.stopStream_streams, hstreams]
    refine ⟨s'.suspend h, hex, ?_, ?_, ?_, fun i hl => ?_, fun j hj => ?_, fun k => ?_, fun i => ?_, ?_, ?_, ?_, ?_⟩
    · rw [hsus, State.postSuspended_table, State.stopStream_table, ← hu, ← hg]
      rfl
    · rw [hst]
      cases hl : s.streams[ix].loaded
      · rwa [if_neg fun hc => Bool.noConfusion hc.2]
      · rw [if_pos ⟨rfl, rfl⟩]
        rfl
    · rw [hst]
      split <;> rfl
    · rw [hst, if_pos ⟨rfl, hl⟩]
      cases i <;> rfl
    · rw [hst, if_neg fun hc : j = ix ∧ _ => hj hc.1]
    · rw [hsus, State.postSuspended_mem, State.stopStream_tags, hstreams, hmem]
      cases s.mem.tags[k] with
      | waiting e => simp only [Tag.mark, decide_eq_true_eq]; split <;> rfl
      | free => rfl
      | quarantined e => rfl
    · rw [hsus, State.postSuspended_lanes, State.stopStream_lanes, hlanes]
      cases s.lanes[i] with
      | none => rfl
      | some l => by_cases hl : l.handle.ix? = some ix <;> simp [hl]
    · rw [hsus, State.postSuspended, State.post_link_if, if_pos rfl, State.stopStream_link, hlink]
    · rw [hsus, State.postSuspended, State.post_link_if, if_neg (by cases o <;> nofun), State.stopStream_link, hlink]
    · refine ⟨(u.stopStream ix).mem.tags, ?_⟩
      rw [hsus, State.postSuspended_mem, ← hmem]
      rfl
    · exact ⟨_, _, _, _, _, _, State.suspend_frame s' h⟩
  · rw [hex, State.suspend_ignored (s := s') hn]

/-! ### Streams off, after the queue is applied (R47, R93, R108) -/

/-- A stream the applied entries left, stopped where it is loaded still. -/
theorem Applied.streamOff {s u : State} {stops clears : SlotIx → Prop} (h : Applied s u stops clears) (ix : SlotIx) :
    s.streamOff ix (clears ix) (if u.streams[ix].loaded = true then u.streams[ix].stopped else u.streams[ix]) := by
  have hload := h.loaded ix
  refine ⟨fun hc => ?_, fun hc => ?_⟩
  · obtain ⟨hstopped, hkept⟩ := h.cleared ix hc
    by_cases hs : stops ix ∧ s.streams[ix].loaded = true
    · rw [if_neg fun hu => (hload.1 hu).2 hs.1, hstopped hs, if_pos hs.2]
      rfl
    · by_cases hl : s.streams[ix].loaded = true
      · rw [if_pos (hload.2 ⟨hl, fun hst => hs ⟨hst, hl⟩⟩), hkept hs, if_pos hl]
        rfl
      · rw [if_neg fun hu => hl (hload.1 hu).1, hkept hs, if_neg hl]
        rfl
  · rw [h.kept ix hc]
    rfl

/-- Reads marked by the applied entries and then by what follows them. -/
theorem Applied.marks {s u t : State} {stops clears which which' : SlotIx → Prop} (h : Applied s u stops clears)
    (ht : u.marks t which) (hw : ∀ ix, (stops ix ∧ s.streams[ix].loaded = true) ∨ which ix ↔ which' ix) :
    s.marks t which' := by
  intro k
  have h1 := h.tags k
  have h2 := ht k
  cases hk : s.mem.tags[k] with
  | free => rw [hk] at h1; rw [h1] at h2; exact h2
  | quarantined e => rw [hk] at h1; rw [h1] at h2; exact h2
  | waiting e =>
    rw [hk] at h1
    obtain ⟨d, h1, hd⟩ := h1
    rw [h1] at h2
    obtain ⟨d', h2, hd'⟩ := h2
    refine ⟨d', h2, hd'.trans ((or_congr_left hd).trans ?_)⟩
    rw [or_assoc, ← exists_or]
    simp only [← and_or_left, hw]

/-- The reads "streams off" marks are those of the loaded streams. -/
theorem State.streamsOff_marks (s : State) : s.marks s.streamsOff fun ix => s.streams[ix].loaded = true := by
  intro k
  have h := s.stopStreams_tags (fun _ => true) k
  simp only [true_and] at h
  exact h

/-- The queue applied and "streams off": the reads of the streams that were loaded are marked. -/
theorem Applied.streamsOff_marks {s u : State} {stops clears : SlotIx → Prop} (h : Applied s u stops clears) :
    s.marks u.streamsOff fun ix => s.streams[ix].loaded = true :=
  h.marks u.streamsOff_marks fun ix => by
    rw [h.loaded ix]
    tauto

/-- "Streams off" leaves every lane of a slot vacant, whatever the applied entries left of it. -/
theorem Applied.streamsOff_lanes {s u : State} {stops clears : SlotIx → Prop} (h : Applied s u stops clears) :
    s.lanesOff u.streamsOff := by
  intro i
  have h1 := h.lanes i
  have h2 := u.stopStreams_lanes (fun _ => true) i
  cases hi : s.lanes[i] with
  | none => rw [hi] at h1; rw [h1] at h2; exact h2
  | some l =>
    rw [hi] at h1
    dsimp only
    cases hl : l.handle.ix? with
    | none =>
      rw [h1.2 fun ix hx => by rw [hl] at hx; cases hx] at h2
      exact h2.2 fun ix hx => by rw [hl] at hx; cases hx
    | some ix =>
      rw [if_neg (Option.some_ne_none ix)]
      by_cases hs : stops ix
      · rw [h1.1 ⟨ix, hl, hs⟩] at h2
        exact h2
      · rw [h1.2 fun jx hx => by cases hl.symm.trans hx; exact hs] at h2
        exact h2.1 ⟨ix, hl, rfl⟩

/-! ### OUTPUT_STOP (R50, R83) -/

theorem State.postOutput_link (s : State) (o : OutputState) (p : Port) : (s.postOutput o).link p =
    { s.link p with notices := { (s.link p).notices with output := some o } } := by
  cases p <;> rfl

theorem State.stopOutput_frame (s : State) : s.stopOutput = { s with
    table := s.stopOutput.table, stagingA := s.stopOutput.stagingA, stagingB := s.stopOutput.stagingB, commitQueue := []
    linkA := s.stopOutput.linkA, linkB := s.stopOutput.linkB, raster := s.stopOutput.raster, pins := s.stopOutput.pins
    lanes := s.stopOutput.lanes, streams := s.stopOutput.streams, mem := s.stopOutput.mem } := by
  unfold State.stopOutput
  rw [s.enterOff.applyQueue_frame]
  rfl

/-- OUTPUT_STOP in SYNC_ONLY or LIVE. -/
theorem exec_outputStop {c : QueuedCommand} {s : State} (h : s.canTake .a c) (hcode : c.code = 0x43) (hparams : c.params = [])
    (ho : s.raster.output ≠ .off) :
    exec (.outputStop .a) s = .next ((s.takeHead .a).stopOutput.placed .a c .ok [0x00, 0x00]) := by
  have hact : stopAct (s.takeHead .a) = (.ok, (s.takeHead .a).stopOutput) := by
    unfold stopAct
    rw [State.takeHead_raster]
    cases hs : s.raster.output with
    | off => exact absurd hs ho
    | _ => rfl
  have hraster : (s.takeHead .a).stopOutput.raster = (s.takeHead .a).raster.stopped := State.applyQueue_raster _
  refine exec_places h (by rw [hcode]; rfl) (by rw [hcode, hparams]; rfl) ?_ ?_
  · simp only [commandBody, outputCommand, hact, State.outputReply, hraster, Raster.stopped]
    rfl
  · obtain ⟨n, hn⟩ := (State.postsTo_stopOutput (s.takeHead .a)).1 .a
    rw [hn]

/-- Settles O34: the raster stopped, the queue applied with the streams off after it, and OUTPUT posted. -/
theorem outputStops : Obligations.OutputStops := by
  intro c s h hcode hparams
  refine ⟨fun ho => ?_, fun ho => ?_⟩
  · refine exec_replies h (by rw [hcode]; rfl) (by rw [hcode, hparams]; rfl) ?_
    have hact : stopAct (s.takeHead .a) = (.ok, s.takeHead .a) := by
      unfold stopAct
      rw [State.takeHead_raster, ho]
    simp only [commandBody, outputCommand, hact, State.outputReply, State.takeHead_raster, ho]
    rfl
  · intro entries
    obtain ⟨u, hu⟩ : ∃ u, u = (s.takeHead .a).enterOff := ⟨_, rfl⟩
    have hstop : (s.takeHead .a).stopOutput = u.applyQueue.1.streamsOff.postOutput .off := by rw [hu]; rfl
    have htable : u.table = s.table := by rw [hu]; exact State.takeHead_table ..
    have hbatches : u.commitQueue = s.commitQueue := by rw [hu]; exact State.takeHead_commitQueue ..
    have hqueue : u.commitQueue.flatMap Batch.entries = entries := by rw [hbatches]
    have hstreams : u.streams = s.streams := by rw [hu]; exact State.takeHead_streams ..
    have hmem : u.mem = s.mem := by rw [hu]; exact State.takeHead_mem ..
    have hstaging : ∀ p, u.staging p = s.staging p := fun p => by
      rw [← State.takeHead_staging s .a p, hu]
      cases p <;> rfl
    have hraster : u.raster = s.raster.stopped := by rw [hu, ← State.takeHead_raster s .a]; rfl
    have hpins : u.pins = s.raster.profile.offPins := by rw [hu, ← State.takeHead_raster s .a]; rfl
    have hlink : ∀ p, u.link p = (s.takeHead .a).link p := fun p => by rw [hu]; cases p <;> rfl
    have hlanes : ∀ i : Fin 6, u.lanes[i] = none := fun i => by rw [hu]; exact vacantLanes_get i
    have happlied := u.applyQueue_applied
    obtain ⟨reclaimed, hrec, hports⟩ := u.applyQueue_links
    rw [hqueue, htable] at happlied hrec
    have hex := exec_outputStop h hcode hparams ho
    rw [hstop] at hex
    have htraster : u.applyQueue.1.raster = s.raster.stopped := (State.applyQueue_raster u).trans hraster
    have hnotices : ∀ p, ((u.applyQueue.1.streamsOff.postOutput .off).placed .a c .ok [0, 0]).link p =
        { (s.takeHead .a).link p with
          notices := { (u.applyQueue.1.link p).notices with output := some .off }
          responses := if p = .a then ((s.takeHead .a).link p).responses ++ [[c.seq, c.code, 0, 0, 0]] else
            ((s.takeHead .a).link p).responses } := fun p => by
      obtain ⟨applied, hp, -⟩ := hports p
      rw [hlink] at hp
      cases p
      · refine (State.link_setLink ..).trans ?_
        rw [State.postOutput_link, State.streamsOff_link, hp]
        rfl
      · refine (State.link_setLink_ne _ _ (by decide)).trans ?_
        rw [State.postOutput_link, State.streamsOff_link, hp]
        rfl
    refine ⟨_, reclaimed, hex, congrArg Raster.output htraster, congrArg Raster.pixel htraster,
      congrArg Raster.line htraster, congrArg Raster.target htraster, congrArg Raster.settle htraster,
      congrArg Raster.due htraster,
      (congrArg Raster.profile htraster).trans rfl, ?_, fun i => ?_, ?_, ?_, ?_, fun ix => ⟨?_, ?_⟩, ?_,
      fun p => ?_, ?_, ?_, ?_, ?_⟩
    · refine (State.applyQueue_pins u).trans (hpins.trans ?_)
      simp only [Profile.offPins, Polarity.level_eq]
      rfl
    · have := happlied.streamsOff_lanes i
      rw [hlanes] at this
      exact this
    · exact State.applyQueue_commitQueue u
    · exact u.applyQueue_foldl.trans (by rw [hqueue, htable])
    · obtain ⟨cs, hcs, -⟩ := State.takeHead_link s .a .b
      have hB : u.linkB = { s.linkB with commands := cs } := (hlink .b).trans hcs
      rwa [hB] at hrec
    · exact State.streamsOff_loaded u.applyQueue.1 ix
    · have := happlied.streamOff ix
      rw [← State.streamsOff_streams, State.streamOff, hstreams] at this
      exact this
    · have := happlied.streamsOff_marks
      rw [State.marks, hstreams, hmem] at this
      exact this
    · obtain ⟨applied, hp, hlast⟩ := hports p
      obtain ⟨cs, hcs, -⟩ := State.takeHead_link s .a p
      obtain ⟨hopen, hnext⟩ := u.applyQueue_staging p
      rw [hlink, hcs] at hp hlast
      rw [hstaging, hbatches] at hlast
      rw [hstaging] at hopen hnext
      have hst : ((u.applyQueue.1.streamsOff.postOutput .off).placed .a c .ok [0, 0]).staging p =
          u.applyQueue.1.staging p := by
        cases p <;> rfl
      refine ⟨applied, ?_, ?_, ?_, ?_⟩
      · rw [hnotices, hp]
      · rw [hst, hopen]
      · rw [hst, hnext]
      · rw [hst]
        exact hlast
    · refine ⟨{ (u.applyQueue.1.link .a).notices with output := some .off }, (hnotices .a).trans ?_⟩
      obtain ⟨cs, hcs, -⟩ := State.takeHead_link s .a .a
      rw [← State.takeHead_eq, if_pos rfl, hcs, hcode]
    · refine ⟨{ (u.applyQueue.1.link .b).notices with output := some .off }, (hnotices .b).trans ?_⟩
      obtain ⟨cs, hcs, hsame | ⟨heq, -⟩⟩ := State.takeHead_link s .a .b
      · rw [if_neg (by decide), hcs, hsame]
      · cases heq
    · refine ⟨u.applyQueue.1.streamsOff.mem.tags, ?_⟩
      have hm := happlied.mem
      rw [hmem] at hm
      show u.applyQueue.1.streamsOff.mem = _
      rw [show u.applyQueue.1.streamsOff.mem = { u.applyQueue.1.mem with tags := u.applyQueue.1.streamsOff.mem.tags } from rfl,
        hm]
    · rw [← State.takeHead_eq]
      have hframe := (s.takeHead .a).stopOutput_frame
      rw [hstop] at hframe
      generalize u.applyQueue.1.streamsOff.postOutput .off = v at hframe ⊢
      refine ⟨v.table, v.stagingA, v.stagingB, (v.placed .a c .ok [0, 0]).linkA, v.linkB, v.raster, v.pins, v.lanes,
        v.streams, v.mem, ?_⟩
      conv_lhs => rw [hframe]
      rfl

end Sys2Proof.Machine
end

section
/-! PROOF. The frame turn taken: the commit queue applied, OUTPUT posted, and the streams loaded or off (R46 to R48, R85,
R93, R105 to R108). -/

namespace Sys2Proof.Machine

/-! ### The part as the fetch engine is told of the turn -/

/-- A frame turn's act up to what it tells the fetch engine: the turn taken, the queue applied, OUTPUT posted. -/
def State.turnPosted (s : State) (turn : PendingTurn) : State :=
  ({ s with turn := none } : State).applyQueue.1.postTurn turn

/-- The slots that the queued entries of a turn resume. -/
def State.turnResumed (s : State) : List SlotIx := ({ s with turn := none } : State).applyQueue.2

/-- The pending turn, granted, is acted on. -/
theorem exec_frameTurnTaken {s : State} {turn : PendingTurn} (hfree : s.free) (ht : s.turn = some turn)
    (ha : s.suspensions = [] ∨ turn.ahead = 0) : exec .frameTurnTaken s = .next (s.takeTurn turn) := by
  have hg : s.grants .frameTurn = true := State.grants_frameTurn.2 ⟨hfree, turn, ht, ha⟩
  simp only [exec, execFrameTurnTaken, hg, ↓reduceIte, ht]

theorem State.takeTurn_off {s : State} (ho : s.raster.output = .off) (turn : PendingTurn) :
    s.takeTurn turn = { s with turn := none } := by
  obtain ⟨-, h⟩ | ⟨hn, -⟩ := s.takeTurn_cases turn
  · exact h
  · exact absurd ho hn

theorem State.takeTurn_on {s : State} (ho : s.raster.output ≠ .off) (turn : PendingTurn) :
    s.takeTurn turn = (s.turnPosted turn).closeTurn turn s.turnResumed := by
  obtain ⟨hn, -⟩ | ⟨-, h⟩ := s.takeTurn_cases turn
  · exact absurd hn ho
  · exact h

/-- What the queue applied does to the streams, the reads and the lanes, before the fetch engine is told. -/
theorem State.turnPosted_applied (s : State) (turn : PendingTurn) : Applied s (s.turnPosted turn)
    (fun ix => s.table.happens (s.commitQueue.flatMap Batch.entries) fun u e => u.stops e ix)
    (fun ix => s.table.happens (s.commitQueue.flatMap Batch.entries) fun u e => u.clears e ix) := by
  have h0 : Applied s { s with turn := none } (fun _ => False) (fun _ => False) := Applied.of_eq rfl rfl rfl
  have h2 : Applied ({ s with turn := none } : State).applyQueue.1 (s.turnPosted turn) (fun _ => False) (fun _ => False) :=
    Applied.of_eq (State.postTurn_streams ..) (State.postTurn_lanes ..) (State.postTurn_mem ..)
  exact ((h0.trans (State.applyQueue_applied _)).trans h2).congr (fun ix => by rw [false_or, or_false]) fun ix => by
    rw [false_or, or_false]

theorem State.turnPosted_table (s : State) (turn : PendingTurn) :
    (s.turnPosted turn).table = (s.commitQueue.flatMap Batch.entries).foldl Table.applyEntry s.table :=
  (State.postTurn_table ..).trans (State.applyQueue_foldl { s with turn := none })

theorem State.turnPosted_raster (s : State) (turn : PendingTurn) : (s.turnPosted turn).raster = s.raster :=
  (State.postTurn_raster ..).trans (State.applyQueue_raster { s with turn := none })

theorem State.turnPosted_staging (s : State) (turn : PendingTurn) (p : Port) :
    (s.turnPosted turn).staging p = ({ s with turn := none } : State).applyQueue.1.staging p :=
  State.postTurn_staging ..

/-- OUTPUT is posted to both ports where the change flag is set (R85). -/
theorem State.postTurn_link (s : State) (turn : PendingTurn) (p : Port) : (s.postTurn turn).link p =
    { s.link p with notices := { (s.link p).notices with
      output := if turn.changed then some turn.coming else (s.link p).notices.output } } := by
  unfold State.postTurn
  split
  · exact State.postOutput_link ..
  · rfl

theorem State.turnPosted_frame (s : State) (turn : PendingTurn) : s.turnPosted turn = { s with
    table := (s.turnPosted turn).table, stagingA := (s.turnPosted turn).stagingA, stagingB := (s.turnPosted turn).stagingB
    commitQueue := [], turn := none, linkA := (s.turnPosted turn).linkA, linkB := (s.turnPosted turn).linkB
    lanes := (s.turnPosted turn).lanes, streams := (s.turnPosted turn).streams, mem := (s.turnPosted turn).mem } := by
  unfold State.turnPosted
  rw [State.postTurn_frame, State.applyQueue_frame]

/-! ### What the fetch engine is told (R47) -/

theorem State.closeTurn_live (s : State) {turn : PendingTurn} (h : turn.coming = .live) (rs : List SlotIx) :
    s.closeTurn turn rs = s.loadStreams rs := by
  unfold State.closeTurn
  rw [h]

theorem State.closeTurn_off (s : State) {turn : PendingTurn} (h : turn.coming ≠ .live) (rs : List SlotIx) :
    s.closeTurn turn rs = s.streamsOff := by
  unfold State.closeTurn
  cases hc : turn.coming with
  | live => exact absurd hc h
  | _ => rfl

/-- A stream after the turn: loaded for a SHOWN slot of a LIVE frame, else off. -/
theorem State.closeTurn_streams (s : State) (turn : PendingTurn) (rs : List SlotIx) (ix : SlotIx) :
    (turn.coming = .live ∧ (∃ o w, s.table.body ix = .opened o .shown w) ∧
      (s.closeTurn turn rs).streams[ix].loaded = true) ∨
    (¬ (turn.coming = .live ∧ ∃ o w, s.table.body ix = .opened o .shown w) ∧ (s.closeTurn turn rs).streams[ix] =
      if s.streams[ix].loaded = true then s.streams[ix].stopped else s.streams[ix]) := by
  by_cases hc : turn.coming = .live
  · rw [State.closeTurn_live s hc, ← Table.loadFor_isSome, State.loadStreams_streams]
    cases s.table.loadFor ix with
    | some ld => exact .inl ⟨hc, rfl, rfl⟩
    | none => exact .inr ⟨fun h => Bool.noConfusion h.2, rfl⟩
  · rw [State.closeTurn_off s hc, State.streamsOff_streams]
    exact .inr ⟨fun h => hc h.1, rfl⟩

theorem Stream.off_loaded (st : Stream) : (if st.loaded = true then st.stopped else st).loaded = false := by
  split
  · rfl
  · exact Bool.eq_false_iff.2 ‹_›

theorem State.closeTurn_mem (s : State) (turn : PendingTurn) (rs : List SlotIx) :
    (s.closeTurn turn rs).mem = { s.mem with tags := (s.closeTurn turn rs).mem.tags } := by
  unfold State.closeTurn
  split <;> rfl

/-- Settles O25: the turn discarded in OFF, else the queue applied and the streams loaded or off. -/
theorem frameTurnApplies : Obligations.FrameTurnApplies := by
  intro s turn hfree ht ha
  have hex := exec_frameTurnTaken hfree ht ha
  refine ⟨fun ho => by rw [hex, State.takeTurn_off ho], fun ho => ?_⟩
  intro entries
  rw [State.takeTurn_on ho] at hex
  obtain ⟨reclaimed, hrec, hports⟩ := State.applyQueue_links { s with turn := none }
  have happlied := s.turnPosted_applied turn
  have htable := s.turnPosted_table turn
  have hlink : ∀ p, (s.turnPosted turn).link p = _ := fun p => State.postTurn_link _ turn p
  have hframe := s.turnPosted_frame turn
  have hstaging := s.turnPosted_staging turn
  generalize s.turnPosted turn = u at *
  have htt : (u.closeTurn turn s.turnResumed).table = u.table := State.closeTurn_table ..
  refine ⟨u.closeTurn turn s.turnResumed, reclaimed, hex, ?_, ?_, ?_, hrec, fun p => ?_, fun ix => ?_, fun hc => ?_, ?_, ?_⟩
  · rw [State.closeTurn_turn, hframe]
  · rw [State.closeTurn_commitQueue, hframe]
  · rw [htt, htable]
  · obtain ⟨applied, hp, hlast⟩ := hports p
    obtain ⟨hopen, hnext⟩ := State.applyQueue_staging { s with turn := none } p
    refine ⟨applied, ?_, ?_, ?_, ?_⟩
    · rw [State.closeTurn_link, hlink, hp]
      cases p <;> rfl
    · rw [State.closeTurn_staging, hstaging]
      cases p <;> exact hlast
    · rw [State.closeTurn_staging, hstaging, hopen]
      cases p <;> rfl
    · rw [State.closeTurn_staging, hstaging, hnext]
      cases p <;> rfl
  · rw [htt]
    obtain ⟨hc, hshown, hl⟩ | ⟨hn, hst⟩ := u.closeTurn_streams turn s.turnResumed ix
    · exact ⟨⟨fun _ => ⟨hc, hshown⟩, fun _ => hl⟩, fun hf => Bool.noConfusion (hl.symm.trans hf)⟩
    · rw [hst, Stream.off_loaded]
      exact ⟨⟨Bool.noConfusion, fun h => absurd h hn⟩, fun _ => happlied.streamOff ix⟩
  · rw [State.closeTurn_off u hc]
    exact ⟨happlied.streamsOff_marks, happlied.streamsOff_lanes⟩
  · refine ⟨(u.closeTurn turn s.turnResumed).mem.tags, ?_⟩
    conv_lhs => rw [State.closeTurn_mem, happlied.mem]
  · have hclose := u.closeTurn_frame turn s.turnResumed
    generalize u.closeTurn turn s.turnResumed = t at hclose ⊢
    refine ⟨u.table, u.stagingA, u.stagingB, u.linkA, u.linkB, t.lanes, t.streams, t.mem, ?_⟩
    conv_lhs => rw [hclose, hframe]

/-! ### The loads of a LIVE frame (R105 to R107) -/

/-- The load sent for a SHOWN slot. -/
theorem Table.loadFor_shown {t : Table} {ix : SlotIx} {o : Port} {w : Window} (hb : t.body ix = .opened o .shown w) :
    t.loadFor ix = some ⟨handleOf ix (t.gen ix), o, w.source.base, w.source.pitch, w.source.format, w.geometry.width,
      w.geometry.y, w.geometry.height, w.threshold⟩ := by
  unfold Table.loadFor
  rw [hb]

/-- A load gives the halves the first two visible rows not yet begun (R106). -/
theorem Stream.restarted_half (st : Stream) (ld : StreamLoad) (resumed : Bool) (place active begun : Nat) (i : HalfId) :
    let rows := firstRows (visibleRows ld.y ld.height active) ld.y begun
    (st.restarted ld resumed place active begun).half i =
      (Half.mk none .empty 0 [] (some (match i with | .a => place | .b => place + ld.segments))).assign
        (match i with | .a => rows.1 | .b => rows.2) := by
  cases i <;> rfl

/-- Whether a load keeps the count, in terms of the stream as it was before the entries were applied (R107). -/
theorem Applied.restarted_count {s u : State} {stops clears : SlotIx → Prop} (h : Applied s u stops clears) {ix : SlotIx}
    {ld : StreamLoad} {resumed : Bool} (hr : resumed = true → clears ix) (place active begun : Nat) :
    let kept := s.streams[ix].loaded = true ∧ s.streams[ix].load.map StreamLoad.handle = some ld.handle ∧ ¬ clears ix
    let st := (u.streams[ix]).restarted ld resumed place active begun
    (kept → st.count = s.streams[ix].count ∧ st.starved = s.streams[ix].starved) ∧
      (¬ kept → st.count = 0 ∧ st.starved = false) := by
  intro kept st
  have hcount : st.count = if (u.streams[ix]).keepsCount ld resumed then (u.streams[ix]).count else 0 := rfl
  have hstarved : st.starved = if (u.streams[ix]).keepsCount ld resumed then (u.streams[ix]).starved else false := rfl
  have hkeeps : (u.streams[ix]).keepsCount ld resumed = true ↔ (s.streams[ix].loaded = true ∧ ¬ stops ix) ∧
      s.streams[ix].load.map StreamLoad.handle = some ld.handle ∧ resumed = false := by
    rw [Stream.keepsCount_iff, h.loaded ix, h.load ix]
  refine ⟨fun ⟨hl, hh, hc⟩ => ?_, fun hk => ?_⟩
  · have hkeep := hkeeps.2 ⟨⟨hl, fun hs => hc (h.stopsClear ix hs)⟩, hh, Bool.eq_false_iff.2 fun hres => hc (hr hres)⟩
    rw [hcount, hstarved, if_pos hkeep, if_pos hkeep, h.kept ix hc]
    exact ⟨rfl, rfl⟩
  · rw [hcount, hstarved]
    split
    · obtain ⟨⟨hl, -⟩, hh, -⟩ := hkeeps.1 ‹_›
      exact h.count (not_not.1 fun hc => hk ⟨hl, hh, hc⟩)
    · exact ⟨rfl, rfl⟩

/-- The streams loaded for a LIVE frame have their halves in segments of their own (log 12). -/
theorem State.loadStreams_apart (s : State) (rs : List SlotIx) {ix jx : SlotIx} {i j : HalfId} {ld ld' : StreamLoad}
    {a b : Nat} (hne : (ix, i) ≠ (jx, j)) (hl : s.table.loadFor ix = some ld) (hl' : s.table.loadFor jx = some ld')
    (ha : ((s.loadStreams rs).streams[ix].half i).place = some a)
    (hb : ((s.loadStreams rs).streams[jx].half j).place = some b) : a + ld.segments ≤ b ∨ b + ld'.segments ≤ a := by
  have hplace : ∀ {kx : SlotIx} {ld : StreamLoad} {k : HalfId} {c : Nat}, s.table.loadFor kx = some ld →
      ((s.loadStreams rs).streams[kx].half k).place = some c →
      c = match k with | .a => s.table.placeOf kx | .b => s.table.placeOf kx + ld.segments := by
    intro kx ld k c hk hc
    rw [State.loadStreams_streams, hk] at hc
    dsimp only at hc
    rw [Stream.restarted_half, (Half.assign_fields _ _).2.2.2.2] at hc
    exact (Option.some.inj hc).symm
  have hpa := hplace hl ha
  have hpb := hplace hl' hb
  obtain hlt | rfl | hlt := lt_trichotomy ix jx
  · have := s.table.placeOf_lt ix jx hlt hl
    cases i <;> cases j <;> dsimp only at hpa hpb <;> omega
  · obtain rfl := Option.some.inj (hl.symm.trans hl')
    cases i <;> cases j <;> dsimp only at hpa hpb <;> first | exact absurd rfl hne | omega
  · have := s.table.placeOf_lt jx ix hlt hl'
    cases i <;> cases j <;> dsimp only at hpa hpb <;> omega

/-- A load is recorded where a LIVE frame leaves a stream loaded. -/
theorem State.loadStreams_load {s : State} {rs : List SlotIx} {ix : SlotIx} {ld : StreamLoad}
    (hl : (s.loadStreams rs).streams[ix].loaded = true) (hld : (s.loadStreams rs).streams[ix].load = some ld) :
    s.table.loadFor ix = some ld := by
  rw [State.loadStreams_streams] at hl hld
  cases hf : s.table.loadFor ix with
  | some ld' => rw [hf] at hld; exact hld
  | none =>
    rw [hf] at hl
    exact Bool.noConfusion ((Stream.off_loaded _).symm.trans hl)

theorem State.loadStreams_marks (s : State) (rs : List SlotIx) : s.marks (s.loadStreams rs) fun ix =>
    (s.table.loadFor ix).isSome = true ∨ s.streams[ix].loaded = true :=
  s.loadStreams_tags rs

/-- The queue applied and the loads sent: the reads of the streams restarted, and of those that were loaded, are marked. -/
theorem Applied.loadStreams_marks {s u : State} {stops clears : SlotIx → Prop} (h : Applied s u stops clears)
    (rs : List SlotIx) :
    s.marks (u.loadStreams rs) fun ix => (∃ o w, u.table.body ix = .opened o .shown w) ∨ s.streams[ix].loaded = true :=
  h.marks (u.loadStreams_marks rs) fun ix => by
    rw [h.loaded ix, Table.loadFor_isSome]
    by_cases hs : stops ix <;> simp [hs, or_comm]

/-- The halves and the visible rows a load gives a stream (R105, R106). -/
theorem Stream.restarted_rows (st : Stream) (ld : StreamLoad) (resumed : Bool) (place active begun : Nat) :
    let st' := st.restarted ld resumed place active begun
    let visible := fun r : Nat => 0 ≤ ld.y + r ∧ ld.y + r < (active : Int) ∧ r < ld.height
    let open' := fun r : Nat => visible r ∧ (begun : Int) ≤ ld.y + r
    (∀ r, rowVisible st'.visible r = true ↔ visible r) ∧
    (∀ r, st'.halfA.row = some r ↔ open' r ∧ ∀ q, q < r → ¬ open' q) ∧
    (∀ r, st'.halfB.row = some r ↔ open' r ∧ ∃ q, st'.halfA.row = some q ∧ r = q + 1) ∧
    (∀ i : HalfId, (st'.half i).filled = 0 ∧ (st'.half i).requested = [] ∧
      (st'.half i).cond = if (st'.half i).row = none then .empty else .filling) := by
  intro st' visible open'
  have hhalf := st.restarted_half ld resumed place active begun
  have hrows := fun r => firstRows_iff ld.y ld.height active begun r
  have hA : st'.halfA.row = _ := (congrArg Half.row (hhalf .a)).trans (Half.assign_fields _ _).1
  have hB : st'.halfB.row = _ := (congrArg Half.row (hhalf .b)).trans (Half.assign_fields _ _).1
  refine ⟨rowVisible_visibleRows ld.y ld.height active, fun r => ?_, fun r => ?_, fun i => ?_⟩
  · rw [hA]
    exact (hrows r).1
  · rw [hA, hB]
    exact (hrows r).2
  · obtain ⟨hrow, hfilled, hrequested, hcond, -⟩ := Half.assign_fields
      (Half.mk none .empty 0 [] (some (match i with | .a => place | .b => place + ld.segments)))
      (match i with
        | .a => (firstRows (visibleRows ld.y ld.height active) ld.y begun).1
        | .b => (firstRows (visibleRows ld.y ld.height active) ld.y begun).2)
    rw [show st'.half i = _ from hhalf i]
    exact ⟨hfilled, hrequested, hcond.trans (by rw [hrow])⟩

/-- Settles O26: each SHOWN slot's stream restarted from the load the applied table gives it. -/
theorem frameTurnLoads : Obligations.FrameTurnLoads := by
  intro s turn hfree ht ha ho hc entries table shown stopped cleared
  have hex := exec_frameTurnTaken hfree ht ha
  rw [State.takeTurn_on ho] at hex
  have happlied := s.turnPosted_applied turn
  have htable := s.turnPosted_table turn
  have hraster := s.turnPosted_raster turn
  rw [State.closeTurn_live _ hc] at hex
  generalize s.turnPosted turn = u at *
  have hresumed : ∀ ix, s.turnResumed.contains ix = true → cleared ix := fun ix hr =>
    s.table.happens_mono entries (fun u e => u.clears_of_resumes e ix)
      ((State.mem_applyQueue_resumed { s with turn := none } ix).1 (List.contains_iff_mem.1 hr))
  have hshown : ∀ ix, (u.table.loadFor ix).isSome = true ↔ shown ix := fun ix => by
    rw [Table.loadFor_isSome, htable]
  refine ⟨u.loadStreams s.turnResumed, hex, fun ix o w hb => ?_, fun ix jx i j ld ld' a b hne hl hl' hld hld' => ?_, ?_,
    fun i l ix hi hix => ?_⟩
  · intro hd st visible open' kept
    obtain ⟨ld, hld, hload⟩ : ∃ ld : StreamLoad, ld = ⟨hd, o, w.source.base, w.source.pitch, w.source.format,
        w.geometry.width, w.geometry.y, w.geometry.height, w.threshold⟩ ∧ u.table.loadFor ix = some ld := by
      rw [htable]
      exact ⟨_, rfl, Table.loadFor_shown hb⟩
    have hst : st = (u.streams[ix]).restarted ld (s.turnResumed.contains ix) (u.table.placeOf ix)
        s.raster.profile.activeHeight s.raster.linesBegun := by
      show (u.loadStreams s.turnResumed).streams[ix] = _
      rw [State.loadStreams_streams, hload, hraster]
    obtain ⟨hvisible, hrowA, hrowB, hhalves⟩ := (u.streams[ix]).restarted_rows ld (s.turnResumed.contains ix)
      (u.table.placeOf ix) s.raster.profile.activeHeight s.raster.linesBegun
    obtain ⟨hkept, hlost⟩ := happlied.restarted_count (hresumed ix) (ld := ld) (u.table.placeOf ix)
      s.raster.profile.activeHeight s.raster.linesBegun
    rw [hst]
    subst hld
    exact ⟨rfl, rfl, rfl, hvisible, hrowA, hrowB, hhalves, hkept, hlost⟩
  · exact u.loadStreams_apart s.turnResumed hne (State.loadStreams_load hl hld) (State.loadStreams_load hl' hld')
  · have hmarks := happlied.loadStreams_marks s.turnResumed
    rw [htable] at hmarks
    exact hmarks
  · have h1 := happlied.lanes i
    have h2 := u.loadStreams_lanes s.turnResumed i
    rw [hi] at h1
    refine ⟨fun ⟨hs, hn⟩ => ?_, fun hoff => ?_⟩
    · rw [h1.2 fun jx hj => by cases hix.symm.trans hj; exact hn] at h2
      rw [h2 ix hix, if_pos ((hshown ix).2 hs)]
    · by_cases hn : stopped ix
      · rw [h1.1 ⟨ix, hix, hn⟩] at h2
        exact h2
      · rw [h1.2 fun jx hj => by cases hix.symm.trans hj; exact hn] at h2
        rw [h2 ix hix, if_neg fun hs => (hoff.resolve_right hn) ((hshown ix).1 hs)]

end Sys2Proof.Machine
end
